-- ==== Sys2Proof/Word.lean ====
section
/-! DEFINITION. The word types of the Gripol machine (R3, R4): bytes, 32-bit
instruction words and per-lane values, 64-bit uniform registers. -/

namespace Sys2Proof

/-- A byte of memory. -/
abbrev Byte := BitVec 8

/-- An instruction word, and one lane of a vector register. -/
abbrev Word := BitVec 32

/-- A uniform or lead register (R20). -/
abbrev Word64 := BitVec 64

end Sys2Proof
end

