-- ==== Sys2Proof/Config.lean ====
section
/-! DEFINITION. What the manual leaves open and the model does not fix. -/

namespace Sys2Proof

/-- A bit pattern that nothing in the model fixes, one for each number (R7): the values that
the manual calls undefined, and the choices that it leaves to timing. -/
opaque Config.freeBits : Nat → Nat

/-- The pseudo-channel of a stack that holds a block of 256 bytes of a layer, by layer and number: the manual
gives no mapping. -/
opaque Config.pseudoChannel : Nat → Nat → Nat

/-- The private keys behind the key of the boot ROM (R467) and the module's identity key (R468), the random
numbers that the signatures under the latter take, and the certificate of that key in DER. -/
opaque Config.romSecret : Nat
opaque Config.idSecret : Nat
opaque Config.signNonce : List Byte → Nat → Nat
opaque Config.cert : List Byte

/-- The feature word that the module offers (R469). -/
def Config.feat : BitVec 64 := 0xFF

end Sys2Proof
end

