-- ==== Sys2Proof/Syntax.lean ====
section
/-! DEFINITION. The operands and instructions of the Gripol machine: one constructor of
`Instr` for every row of the opcode table, instruction words and hardware events alike. -/

namespace Sys2Proof

/-- A 6-bit operand field (R41): a register, or a channel that is popped or peeked. -/
inductive Opd where
  | reg (n : BitVec 5)
  | chan (peek : Bool) (c : BitVec 4)
  deriving DecidableEq, Repr

/-- A clause header (R29). -/
structure Header where
  n : BitVec 4
  ecls : BitVec 3
  w : BitVec 4
  pair : BitVec 15
  l : Bool
  deriving DecidableEq, Repr

/-- One code of a dictionary pair word (R53). -/
structure PairCode where
  s : Bool
  rot : BitVec 5
  idx : BitVec 10
  deriving DecidableEq, Repr

/-- An agent that runs code: the group in slot `idx` (0 to 63) of core `core`, or the lead
thread of lead context `idx - 64` (64 to 67). -/
structure AgentId where
  core : Nat
  idx : Nat
  deriving DecidableEq, Repr

/-- The answer to an access that another module performs (R14, R182, R183): its value with
the flags of a float atomic, a refusal, a fault NAK, a time-out, none because the access is
given up, or poisoned data (R421). -/
inductive Answer where
  | value (x : Nat) (fl : BitVec 9)
  | refused
  | nak
  | timeout
  | dropped
  | poisoned
  deriving DecidableEq, Repr

/-- Who waits on something that another module does: an agent on the access with the given
tag, a unit of a core (an engine queue, or a TST or DRAIN; the dispatcher under core 512) on the
access with the given tag, the waiters of the fault request for a granule of a context, or the
signals of an agent's task (one to another module by its tag). -/
inductive Asker where
  | agent (a : AgentId) (tag : Nat)
  | unit (core tag : Nat)
  | request (ctx gran : Nat)
  | signal (a : AgentId) (lctx tcb tag : Nat)
  deriving DecidableEq, Repr

/-- The sender of a signal (R298, R441): an agent of this module with its task, or an endpoint
with the transport's tag. -/
inductive SigFrom where
  | here (a : AgentId) (lctx tcb : Nat)
  | endpt (ep tag : Nat)
  deriving DecidableEq, Repr

/-- The sender of a fault request (R166, R172): its module, the tag by which the home acknowledges the request, and
whether the reason is MALFORMED. -/
structure FaultFrom where
  mod : Nat
  tag : Nat
  malformed : Bool
  deriving DecidableEq, Repr

/-- The rights of a forwarded access (R183): its privilege, whether it is a plain access, and whether its sender has been
told that it is held (R429). -/
structure Rights where
  priv : Bool
  plain : Bool
  held : Bool := false
  deriving DecidableEq, Repr

/-- The tag of a peer message, and whether its sender has been told that it is held (R429). -/
structure Ticket where
  tag : Nat
  held : Bool := false
  deriving DecidableEq, Repr

/-- What the members of one collective match on (R444). -/
structure CollKey where
  job : Nat
  step : Nat
  kind : Nat
  bucket : Nat
  epoch : Nat
  deriving DecidableEq, Repr

/-- A collective data flit (R444, R447): its key, the module that sends it, its phase, the
sender's `OPC`, `ALG`, `COUNT`, `NMEM` and membership table, the elements, and the flags of the
fold that gave them. -/
structure Flit where
  key : CollKey
  src : Nat
  phase : Nat
  opc : Nat
  alg : Nat
  count : Nat
  nmem : Nat
  members : List Nat
  elems : List Nat
  flags : BitVec 9
  deriving DecidableEq, Repr

/-- Every operation and every event of the opcode table, one constructor for each row.
The word rows hold the fields of the row under the names the table gives them (`s` the
switch marker, `u` the uniform form); the event rows hold what comes from outside the
place where the event happens. -/
inductive Instr where
  /-- NOP (R56). The all-zero word does nothing; with S set it acts only as a switch marker. -/
  | nop (s u : Bool)
  /-- PFX (R47). The prefix word supplies mask, zeroing, rounding, a fourth operand and upper
      immediate bits, and issues together with the next word as one instruction. -/
  | pfx (m : BitVec 3) (z : Bool) (r : BitVec 3) (c : Opd) (x : BitVec 10)
  /-- ADD (R130). Adds A and B per element, with wrap or saturation, or with one rounding for
      float types. -/
  | add (s u q : Bool) (t : BitVec 3) (d a b : Opd)
  /-- SUB (R130). Subtracts B from A per element, wrapping or saturating, or rounding once for
      float types. -/
  | sub (s u q : Bool) (t : BitVec 3) (d a b : Opd)
  /-- MUL (R130). Multiplies A by B per element, wrapping or saturating, or rounding once for
      float types. -/
  | mul (s u q : Bool) (t : BitVec 3) (d a b : Opd)
  /-- MULH (R132). Returns the high half of each exact double-width product. -/
  | mulh (s u : Bool) (t : BitVec 3) (d a b : Opd)
  /-- MAD (R131). Computes a × b + c per element with one saturation or one rounding, taking c
      from the prefix or the old destination. -/
  | mad (s u q : Bool) (t : BitVec 3) (d a b : Opd)
  /-- MIN (R133). Returns the lesser element of A and B. -/
  | min (s u : Bool) (t : BitVec 3) (d a b : Opd)
  /-- MAX (R133). Returns the greater element of A and B. -/
  | max (s u : Bool) (t : BitVec 3) (d a b : Opd)
  /-- ABSD (R133). Returns the absolute difference of A and B per element. -/
  | absd (s u : Bool) (t : BitVec 3) (d a b : Opd)
  /-- DIV (R134). Computes the truncating quotient, or the rounded f32 quotient, with the zero-
      divisor results of R100. -/
  | div (s u : Bool) (t : BitVec 3) (d a b : Opd)
  /-- REM (R134). Computes the remainder with the sign of the dividend. -/
  | rem (s u : Bool) (t : BitVec 3) (d a b : Opd)
  /-- LOGIC (R135). Combines A and B bit by bit under the function that FN selects. -/
  | logic (s u : Bool) (f : BitVec 5) (d a b : Opd)
  /-- SHIFT (R136). Shifts or rotates each element of A by the matching element of B. -/
  | shift (s u : Bool) (e : BitVec 3) (p : BitVec 2) (d a b : Opd)
  /-- BITS (R137). Computes a population count, leading or trailing zero count, bit reverse or
      byte swap of A. -/
  | bits (s u : Bool) (f : BitVec 5) (d a : Opd)
  /-- BFX (R138). Extracts a bit field of A given by B, zero- or sign-extended. -/
  | bfx (s u e : Bool) (d a b : Opd)
  /-- BFI (R138). Inserts the low bits of A into a field of the old destination. -/
  | bfi (s u : Bool) (d a b : Opd)
  /-- PERM (R139). Builds each result byte from source bytes of A and B chosen by selector
      nibbles. -/
  | perm (s u : Bool) (d a b : Opd)
  /-- SEL (R141). Selects A or B per thread by a mask register. -/
  | sel (s : Bool) (m : BitVec 3) (d a b : Opd)
  /-- CMP (R140). Compares A with B and writes a mask bit per thread, or 1 or 0 in uniform form. -/
  | cmp (s u : Bool) (c : BitVec 3) (y : BitVec 2) (d a b : Opd)
  /-- FCLASS (R154). Writes a one-hot class mask for each float element. -/
  | fclass (s u : Bool) (t : BitVec 3) (d a : Opd)
  /-- FSGN (R153). Clears, inverts or copies the sign bits of float elements. -/
  | fsgn (s u : Bool) (o : BitVec 2) (t : BitVec 3) (d a b : Opd)
  /-- SFU (R155). Computes a correctly rounded special function of A. -/
  | sfu (s h : Bool) (f : BitVec 3) (d a : Opd)
  /-- DOT (R156). Sums the pairwise products of packed elements and the addend in one exact sum
      and rounds once. -/
  | dot (s : Bool) (f : BitVec 5) (d a b : Opd)
  /-- MOV (R142). Copies A to D between registers and channels. -/
  | mov (s u : Bool) (d a : Opd)
  /-- BCAST (R143). Writes the low 32 bits of a uniform register into D of every active thread. -/
  | bcast (s : Bool) (d : Opd) (g : BitVec 5)
  /-- MOVI (R144). Writes a sign-extended immediate to D. -/
  | movi (s u : Bool) (d : Opd) (i : BitVec 17)
  /-- MOVH (R144). Writes an immediate over bits [31:15] of D, keeping the other bits. -/
  | movh (s u : Bool) (d : Opd) (i : BitVec 17)
  /-- ADDI (R145). Adds a signed immediate to A, wrapping. -/
  | addi (s u : Bool) (d a : Opd) (i : BitVec 11)
  /-- LEA (R146). Computes A plus B shifted left, wrapping. -/
  | lea (s u : Bool) (h : BitVec 3) (d a b : Opd)
  /-- CVT (R157). Converts between number formats under the rounding code in RND. -/
  | cvt (s u : Bool) (n : BitVec 3) (d a : Opd) (t y : BitVec 4)
  /-- QSCL (R161). Writes the smallest block scale under which no element of the converged group
      overflows its format. -/
  | qscl (s : Bool) (e : BitVec 4) (d a : Opd)
  /-- QENC (R162). Encodes each element under a block scale, with escapes and ranks in its e2m1
      form. -/
  | qenc (s : Bool) (e : BitVec 4) (d a b : Opd)
  /-- QDEC (R164). Decodes each element, multiplies it by its scale and rounds once to f32. -/
  | qdec (s : Bool) (e : BitVec 4) (d a b : Opd)
  /-- ALD (R274). Checks a descriptor and loads it into an alphabet register. -/
  | ald (s : Bool) (l : BitVec 2) (a : Opd)
  /-- RGET (R276). Reads the value of one digit of a packed word. -/
  | rget (s : Bool) (l : BitVec 2) (d a b : Opd)
  /-- RSET (R276). Replaces one digit of a packed word with a saturated value. -/
  | rset (s : Bool) (l : BitVec 2) (d a b : Opd)
  /-- RUNPK (R277). Unpacks four digits of a word into bytes. -/
  | runpk (s : Bool) (l : BitVec 2) (d a b : Opd)
  /-- RPACK (R277). Packs four bytes into four digits of a word. -/
  | rpack (s : Bool) (l : BitVec 2) (d a b : Opd)
  /-- RDOT (R278). Multiplies corresponding symbols of two packed words and accumulates the
      exact products. -/
  | rdot (s q : Bool) (y x : BitVec 2) (d a b : Opd)
  /-- RSUM (R279). Adds the digit values of a packed word to an addend. -/
  | rsum (s : Bool) (l : BitVec 2) (d a b : Opd)
  /-- RCHK (R280). Writes 1 when a word is an invalid code word and 0 otherwise. -/
  | rchk (s : Bool) (l : BitVec 2) (d a : Opd)
  /-- RMAP (R281). Recodes a word from a source alphabet into a target alphabet. -/
  | rmap (s : Bool) (l : BitVec 2) (d a : Opd) (k : BitVec 2)
  /-- RCNT (R279). Counts the digits of a word whose value equals B. -/
  | rcnt (s : Bool) (l : BitVec 2) (d a b : Opd)
  /-- SYMLD (R283). Loads the word that holds one symbol of a packed vector and writes the
      symbol's value. -/
  | symld (s : Bool) (l o c : BitVec 2) (d : Opd) (b x : BitVec 5)
  /-- SYMST (R284). Replaces one digit of a packed word in memory by an indivisible read-modify-
      write at the target. -/
  | symst (s : Bool) (l o c : BitVec 2) (d : Opd) (b x : BitVec 5)
  /-- SHFL (R235). Gives each active thread the value of A held by a source lane chosen from B. -/
  | shfl (s : Bool) (f : BitVec 5) (d a b : Opd)
  /-- BFLY (R236). Performs one stage of the butterfly exchange over a 32×32 fragment. -/
  | bfly (s : Bool) (w : BitVec 2) (k : BitVec 3) (d a : Opd)
  /-- VOTE (R237). Writes all, any or ballot of a predicate over the active threads. -/
  | vote (s : Bool) (f : BitVec 5) (d a : Opd)
  /-- REDG (R239). Reduces one operand per lane in a fixed pairwise tree and writes the total to
      every active thread. -/
  | redg (s : Bool) (o : BitVec 3) (d a : Opd)
  /-- SCANG (R240). Forms inclusive or exclusive prefix combinations in five levels. -/
  | scang (s e : Bool) (o : BitVec 3) (d a : Opd)
  /-- LANE (R241). Copies one thread's value into a uniform register. -/
  | lane (s : Bool) (d : BitVec 5) (a : Opd) (b : BitVec 5)
  /-- LMAP (R242). Reads the logical lane or thread id, or sets the thread id, in the lane map. -/
  | lmap (s : Bool) (f : BitVec 5) (d a b : Opd)
  /-- BR (R220). Uniform relative branch taken on the condition KIND tests of a uniform register. -/
  | br (s : Bool) (k : BitVec 3) (a : BitVec 5) (o : BitVec 15)
  /-- BRD (R222). Divergent branch that moves, holds or spawns the taken and not-taken sides of
      the current path. -/
  | brd (s : Bool) (t m : BitVec 3) (o : BitVec 15)
  /-- JMP (R221). Jumps to the address in a uniform register. -/
  | jmp (s : Bool) (a : Opd)
  /-- JMPD (R223). Divergent indirect jump to per-thread targets, splitting into paths or
      spawning. -/
  | jmpd (s : Bool) (t : BitVec 3) (a : Opd) (b : BitVec 5)
  /-- CALL (R221). Writes the link to the next clause header and jumps to the register target. -/
  | call (s : Bool) (d a : Opd)
  /-- LOOP (R221). Decrements a counter register and branches while it is not zero. -/
  | loop (s : Bool) (d a : Opd)
  /-- CTL_YIELD (R226). A switch point that moves to the next path or resets the group's age. -/
  | ctlYield (s : Bool)
  /-- CTL_EXIT (R226). Ends the current path, or the lead thread, and retires the group when no
      path is left. -/
  | ctlExit (s : Bool)
  /-- CTL_JOINP (R219). Makes the current path wait at the join and merges the paths when all of
      them wait. -/
  | ctlJoinp (s : Bool)
  /-- CTL_TRAP (R226). Raises SW_TRAP with cr.tinfo from a register. -/
  | ctlTrap (s : Bool) (a : Opd)
  /-- CTL_BKPT (R226). Raises BKPT. -/
  | ctlBkpt (s : Bool)
  /-- LD (R192). Loads 1 to 16 bytes per active thread into D. -/
  | ld (s u : Bool) (z : BitVec 3) (o c : BitVec 2) (d : Opd) (b x : BitVec 5)
  /-- ST (R192). Stores 1 to 16 bytes of D per active thread. -/
  | st (s u : Bool) (z : BitVec 3) (o c : BitVec 2) (d : Opd) (b x : BitVec 5)
  /-- ATOM (R196). Performs a 4-byte atomic read-modify-write per active thread in ascending
      lane order. -/
  | atom (s u : Bool) (p : BitVec 3) (o c : BitVec 2) (d : Opd) (b x : BitVec 5)
  /-- ATOM64 (R196). Performs an 8-byte atomic read-modify-write per active thread. -/
  | atom64 (s u : Bool) (p : BitVec 3) (o c : BitVec 2) (d : Opd) (b x : BitVec 5)
  /-- ATOMF (R197). Performs a floating-point atomic add, min or max at the target's memory side. -/
  | atomf (s u : Bool) (p : BitVec 3) (o c : BitVec 2) (d : Opd) (b x : BitVec 5)
  /-- LR (R199). Loads and sets the thread's reservation on the 64-byte granule. -/
  | lr (s u : Bool) (o c : BitVec 2) (d : Opd) (b x : BitVec 5)
  /-- SC (R200). Stores only while the reservation holds, reports success, and clears the
      reservation. -/
  | sc (s u : Bool) (m : BitVec 3) (o c : BitVec 2) (d : Opd) (b x : BitVec 5)
  /-- FENCE (R202). A full, acquire or release fence at the named scope. -/
  | fence (s : Bool) (o c : BitVec 2)
  /-- PREF (R194). Translates addresses into the TLB and starts fault requests without parking. -/
  | pref (s u : Bool) (c : BitVec 2) (b x : BitVec 5)
  /-- LDC (R193). Loads through an element index clamped to a bound held beside the base. -/
  | ldc (s u : Bool) (z : BitVec 3) (o c : BitVec 2) (d : Opd) (b x : BitVec 5)
  /-- STC (R193). Stores through an element index, dropping threads whose index is out of bounds. -/
  | stc (s u : Bool) (z : BitVec 3) (o c : BitVec 2) (d : Opd) (b x : BitVec 5)
  /-- CNTW (R195). Holds issue until the named completion counters are zero. -/
  | cntw (s : Bool) (f : BitVec 4)
  /-- BARI (R294). Configures a barrier object with arrivals per phase and scope. -/
  | bari (s : Bool) (d a b : Opd)
  /-- BARA (R294). Arrives at a barrier, completing the phase on the last expected arrival. -/
  | bara (s : Bool) (d a : Opd)
  /-- BARW (R294). Waits until the barrier's phase differs from B or it is abandoned or
      uninitialised. -/
  | barw (s : Bool) (d a b : Opd)
  /-- BARS (R294). Arrives at a barrier and then waits for the phase it arrived in. -/
  | bars (s : Bool) (d a : Opd)
  /-- BARQ (R294). Returns a barrier's status, arrival count and phase. -/
  | barq (s : Bool) (d a : Opd)
  /-- SIGR (R298). Sends a 64-bit signal to the inbox ch14 of a task on the chosen core. -/
  | sigr (s : Bool) (a b : Opd)
  /-- SIGW (R299). Pops one element of the signal inbox, waiting while it is empty. -/
  | sigw (s : Bool) (d : Opd)
  /-- SPAWN (R405). Enqueues a SPAWN continuation record of the issuing task. -/
  | spawn (s : Bool) (a b : BitVec 5)
  /-- JOINC (R405). Writes an armed JOIN record with a join count into memory. -/
  | joinc (s : Bool) (d a b : BitVec 5)
  /-- CDEC (R405). Decrements a join counter or TCB predecessor count, firing the record or
      launching the task at 1. -/
  | cdec (s : Bool) (d a : BitVec 5)
  /-- CR (R391). Reads a task-on-core register of the issuing task. -/
  | cr (s : Bool) (d : Opd) (r : BitVec 3)
  /-- CR_W (R391). Writes a task-on-core register from lead code. -/
  | crW (s : Bool) (a : Opd) (r : BitVec 3)
  /-- TDEF (R324). Defines a tile table entry from a 64-byte image, owned by the issuing lead. -/
  | tdef (s : Bool) (d : BitVec 6) (a : BitVec 5)
  /-- TSET_EMPTY (R325). Forces a tile EMPTY at its turn, leaving memory unchanged. -/
  | tsetEmpty (s : Bool) (d : BitVec 6)
  /-- TSET_READY (R325). Declares a tile's memory to hold its contents and makes it READY with a
      cluster-scope release. -/
  | tsetReady (s : Bool) (d : BitVec 6)
  /-- TLD (R326). Fills a tile from a tensor through a layout descriptor, row by row. -/
  | tld (s t : Bool) (d : BitVec 6) (a b : BitVec 5)
  /-- TST (R329). Writes a tile out to a tensor and leaves it EMPTY. -/
  | tst (s : Bool) (d : BitVec 6) (a b : BitVec 5)
  /-- MMQ (R332). Quarter matrix operation accumulating thread rows of A times a B tile into an
      accumulator tile. -/
  | mmq (s : Bool) (l : BitVec 2) (f : BitVec 3) (d : BitVec 6) (a b : BitVec 5)
  /-- MMT (R335). Macro matrix operation over K-steps of two tensors into an accumulator tile. -/
  | mmt (s : Bool) (d : BitVec 6) (a : BitVec 5)
  /-- MMS (R349). Draws alias samples into an accumulator tile until the variance, budget or
      enough condition stops it. -/
  | mms (s : Bool) (d : BitVec 6) (a : BitVec 5)
  /-- MNORM (R346). Writes the column norms of A and row norms of B. -/
  | mnorm (s : Bool) (d : BitVec 6) (a : BitVec 5)
  /-- ALIAS (R348). Builds the alias table from the norm arrays by Vose's method and writes Z
      into the variance record. -/
  | aliasTab (s : Bool) (d : BitVec 6) (a : BitVec 5)
  /-- ACCZ (R336). Sets every element of an accumulator to +0 and makes the tile READY. -/
  | accz (s : Bool) (d : BitVec 6)
  /-- ACCR (R337). Copies eight accumulator columns of each thread's row into registers. -/
  | accr (s : Bool) (d : BitVec 5) (a : BitVec 6) (b : BitVec 2)
  /-- DRAIN (R339). Writes an accumulator tile out with scaling, residual, dropout and rounding,
      then empties it. -/
  | drain (s : Bool) (r : BitVec 3) (d : BitVec 6) (a b : BitVec 5)
  /-- TXP (R330). Writes the transpose of a source tile into a destination tile. -/
  | txp (s : Bool) (d a : BitVec 6)
  /-- VARR (R352). Reports the run flag, stop reason, sample count and variance of a sampled
      product. -/
  | varr (s : Bool) (d : BitVec 5) (a : BitVec 6)
  /-- TQ (R328). Binds a tile to the copies of an engine queue by placing a marker there. -/
  | tq (s : Bool) (d : BitVec 6) (q : BitVec 3)
  /-- ITNEW (R365). Allocates an iterator slot and writes a source object into it. -/
  | itnew (s : Bool) (f : BitVec 5) (d : BitVec 2) (a : BitVec 5)
  /-- ITADD (R365). Adds an adaptor object to an OPEN iterator stack. -/
  | itadd (s : Bool) (f : BitVec 5) (d : BitVec 2) (a : BitVec 5) (b : BitVec 2)
  /-- NEXT (R366). Pulls up to 32 elements through a stack and pushes them to two group channels
      with a fill mask. -/
  | next (s f : Bool) (c : BitVec 3) (a : BitVec 2) (m : BitVec 3)
  /-- ENOUGH (R367). Marks an iterator slot and its feeders ENDED and discards their buffered
      elements. -/
  | enough (s : Bool) (d : BitVec 2)
  /-- ITSAVE (R370). Writes an iterator slot and its feeders to memory and releases them. -/
  | itsave (s : Bool) (d : BitVec 5) (a : BitVec 2) (b : BitVec 5)
  /-- ITLOAD (R371). Checks a saved iterator image and restores it into newly allocated slots. -/
  | itload (s : Bool) (d : BitVec 2) (a : BitVec 5)
  /-- ITQ (R372). Writes header word 0 of an iterator slot to a uniform register. -/
  | itq (s : Bool) (d : BitVec 5) (a : BitVec 2)
  /-- CPY (R303). Reads a copy descriptor and posts it to an engine queue when an entry is free. -/
  | cpy (s : Bool) (k q : BitVec 3) (g : BitVec 5)
  /-- QFENCE (R307). Places a marker in each named queue so that later entries wait for every
      earlier entry of those queues. -/
  | qfence (s : Bool) (m : BitVec 8)
  /-- QWAIT (R309). Waits until a completion object's value reaches a target or its status is
      non-zero. -/
  | qwait (s : Bool) (d a b : Opd)
  /-- COLL (R442). Reads a collective descriptor and posts it to an engine queue for the die's
      collective engine. -/
  | coll (s : Bool) (k q : BitVec 3) (g : BitVec 5)
  /-- SNAP_FREEZE (R426). Arms the context's snapshot to freeze at the step mark N. -/
  | snapFreeze (s : Bool) (d a b : BitVec 5)
  /-- SNAP_QUERY (R426). Returns the snapshot state word. -/
  | snapQuery (s : Bool) (d : BitVec 5)
  /-- SNAP_RELEASE (R426). Cancels an armed snapshot or releases a finished one. -/
  | snapRelease (s : Bool) (d : BitVec 5)
  /-- SYS_CSRR (R418). Reads a supervisor register. -/
  | sysCsrr (s : Bool) (d : BitVec 5) (r : BitVec 4)
  /-- SYS_CSRW (R418). Writes a supervisor register, never PRIV. -/
  | sysCsrw (s : Bool) (a : BitVec 5) (r : BitVec 4)
  /-- SYS_ERET (R418). Returns from a handler, or ends a save routine by queuing a RESUME record. -/
  | sysEret (s : Bool)
  /-- SYS_TLBINV (R185). Removes the context's TLB entries over a range on every core of the
      module. -/
  | sysTlbinv (s : Bool) (a b : BitVec 5)
  /-- SYS_XTINV (R185). Does what TLBINV does and also marks overlapping extents STALE. -/
  | sysXtinv (s : Bool) (a b : BitVec 5)
  /-- SYS_FRAME (R419). Saves or restores chosen parts of the agent's state to or from its frame. -/
  | sysFrame (s : Bool) (a b : BitVec 5)
  /-- SYS_HALTG (R420). Halts one agent of the issuer's context on the module. -/
  | sysHaltg (s : Bool) (d a : BitVec 5)
  /-- SYS_DICTLD (R420). Replaces the issuing task's dictionary on the core from an image. -/
  | sysDictld (s : Bool) (a : BitVec 5)
  /-- DICT_PAIR_WORD (R53). A word marked in PAIR issues two dictionary codes, low code first,
      each naming a dictionary entry with a register rotation. -/
  | dictPairWord (w : Word)
  /-- CLAUSE_FETCH (R28). A whole clause is fetched and checked before its first word issues; a
      fetch fault parks the group and a malformed clause raises ILLEGAL_CLAUSE. -/
  | clauseFetch
  /-- TRAP_ENTRY (R413). After outstanding results are written, the trap registers are set and
      the agent fetches from its trap vector. -/
  | trapEntry (a : AgentId)
  /-- PREEMPT (R416). A chosen agent writes its frame header, path table and lane map and enters
      its save routine at a clause boundary. -/
  | preempt (a : AgentId)
  /-- PARK (R181). A faulting access writes the group's outstanding results, saves its context,
      frees the slot and sends the fault request. -/
  | park (a : AgentId)
  /-- FAULT_REQUEST (R166). The home's fault processor receives a fault request, acknowledges it
      and resolves or refuses the fault. -/
  | faultRequest (ctx va kind : Nat) (from_ : FaultFrom)
  /-- FAULT_REPLY_RESOLVED (R166). A RESOLVED reply writes the local leaf and re-queues every
      waiter. -/
  | faultReplyResolved (ctx gran : Nat) (leaf : Word64)
  /-- FAULT_REPLY_REFUSED (R166). A REFUSED reply makes waiting groups raise ACCESS and waiting
      engine commands complete with access failure. -/
  | faultReplyRefused (ctx gran : Nat)
  /-- FAULT_NAK (R183). A fault NAK from the home makes the initiator park as for a fault of its
      own. -/
  | faultNak (w : Asker) (ctx va : Nat)
  /-- FORWARDED_ACCESS (R183). The home translates and performs a forwarded access at its
      coherence point, or returns a NAK or refusal. -/
  | forwardedAccess (src tag ctx va n : Nat) (h : Rights) (code x c r : Nat)
  /-- RETIRED (R166). The home's firmware withdraws a frame named by an error record, and later
      faults on the page are refused. -/
  | retired (ctx gran : Nat)
  /-- REMOTE_ACCESS_TIMEOUT (R182). A fault request, forwarded access or signal without
      acknowledgement within the remote-access time-out releases its waiters with a time-out. -/
  | remoteAccessTimeout (w : Asker)
  /-- EXTENT_RETRANSLATE (R185). The core translates the pages of a STALE extent again and
      clears STALE. -/
  | extentRetranslate (core lctx vpn : Nat)
  /-- ACCESS_REPLY (R207). Returned load or atomic data is written to its destination and the LD
      count falls when every thread has finished. -/
  | accessReply (a : AgentId) (tag : Nat) (ans : Answer)
  /-- STORE_ACK (R311). An acknowledgement of posted work lowers the ST and outstanding counts,
      or marks the task FAILED on refusal. -/
  | storeAck (a : AgentId) (lctx tcb tag n : Nat) (ok : Bool)
  /-- RECORD_POP (R210). A core with a free slot pops a continuation record within the caps and
      the group becomes RESIDENT. -/
  | recordPop (cluster : Nat)
  /-- WHEY_SPAWN (R225). A spawning branch whose counters are zero and whose whey-store slots
      are free sends its threads into bins. -/
  | wheySpawn (cluster : Nat)
  /-- IDLE (R228). A bin with no arrival for IDLE × 64 clocks flushes. -/
  | idle (cluster bin : Nat)
  /-- FLUSH (R230). Writing 1 to FLUSH in cfctl flushes every bin of the cluster. -/
  | flush (cluster : Nat)
  /-- DISPATCHING (R383). The dispatcher takes a READY task, checks the TCB and begins
      translating its ranges. -/
  | dispatching (tcb : Nat)
  /-- DISPATCH_COMPLETE (R383). With every range translated and images placed, the task becomes
      RUNNING and its leads start. -/
  | dispatchComplete (tcb : Nat)
  /-- LAUNCH_RECORD_QUEUE (R383). Waiting launch records enter the cluster queues as room
      appears. -/
  | launchRecordQueue (tcb : Nat)
  /-- TASK_RETIREMENT (R386). With OUTST zero on every core, the successor list is read, the
      completion object written, successors acted on and STATE written. -/
  | taskRetirement (tcb : Nat)
  /-- RCB_FOLD (R399). Issue-slot counts are folded into USED, DEFICIT and ODEF at least once
      every 2^16 clocks. -/
  | rcbFold
  /-- QUEUE_ENTRY_ACTIVATE (R302). A POSTED entry becomes ACTIVE once every earlier entry of its
      queue is retired and its QFENCEs are satisfied. -/
  | queueEntryActivate (core q : Nat)
  /-- ENGINE_ELEMENT (R305). An engine performs an element of a command, holding on a fault and
      ending on a refusal. -/
  | engineElement (core q : Nat)
  /-- COMPLETION_WRITE (R308). A retiring command adds INC to the completion object and raises
      its STATUS as a release. -/
  | completionWrite (core q : Nat)
  /-- ENGINE_TIMEOUT (R312). A remote engine element without acknowledgement within the time-out
      retires its command with TIMEOUT. -/
  | engineTimeout (core q : Nat)
  /-- TILE_ROW_ARRIVAL (R318). A fill's row arrives, and the tile becomes READY when every row
      has arrived. -/
  | tileRowArrival (core tile : Nat)
  /-- TILE_DRAIN_DONE (R318). When every write of a TST or DRAIN is performed, dropped or
      refused, the tile becomes EMPTY. -/
  | tileDrainDone (core tag : Nat)
  /-- ITERATOR_PREFETCH (R368). After a NEXT the engine pulls elements ahead into the pull
      buffer. -/
  | iteratorPrefetch (core slot : Nat)
  /-- SIGNAL_RECEIVE (R441). A received signal is pushed into the target task's ch14, held while
      full, or refused. -/
  | signalReceive (w : SigFrom) (msg : BitVec 256)
  /-- COLL_DATA_FLIT (R447). A collective data flit from a partner is received and folded or
      stored, with mismatches aborting the collective. -/
  | collDataFlit (f : Flit)
  /-- HOLD_FLIT (R447). Every HTO/4 clocks a waiting member sends a hold flit to its successor. -/
  | holdFlit (core q : Nat)
  /-- HOP_TIMEOUT (R447). A hop wait that lasts HTO clocks completes the command ABORTED and
      sends abort flits. -/
  | hopTimeout (core q pos : Nat)
  /-- ABORT_FLIT (R447). A received abort flit completes the command RELAYED and forwards the
      flit, or sends a conflict notification. -/
  | abortFlit (key : CollKey) (src orig suspect : Nat)
  /-- ABORT_FLIT_EXPIRY (R447). An abort flit kept for an unposted key is dropped after 2^26
      clocks. -/
  | abortFlitExpiry (key : CollKey)
  /-- SHADOW_COPY (R429). A held write to a frozen granule has the granule copied into a pool
      granule and marked SHADOWED. -/
  | shadowCopy (ctx gran : Nat)
  /-- DRAIN_START (R430). The drain engines take a FROZEN snapshot and start streaming granules. -/
  | drainStart
  /-- GRANULE_ACK (R430). An acknowledged granule is unfrozen, its shadow freed, and after the
      last the manifest, completion and notification follow. -/
  | granuleAck (tag : Nat)
  /-- ENABLE (R435). portctl CMD ENABLE starts link training. -/
  | enable (port : Nat)
  /-- USE (R435). portctl CMD USE moves a JOINED port into ACTIVE. -/
  | use (port : Nat)
  /-- PORT_DRAIN (R435). portctl CMD DRAIN stops new packets on the port. -/
  | portDrain (port : Nat)
  /-- DISABLE (R435). portctl CMD DISABLE takes the port DOWN. -/
  | disable (port : Nat)
  /-- LINKUP (R434). The Ethernet link comes up on 1–8 lanes. -/
  | linkup (port lanes : Nat)
  /-- TRAINING_TIMEOUT (R434). Training not finished within 2^30 clocks returns the port to DOWN. -/
  | trainingTimeout (port : Nat)
  /-- JOINED (R434). The transport endpoint is established and services are negotiated, or
      NEGFAIL is set. -/
  | joined (port : Nat) (ok : Bool)
  /-- NEGOTIATION_RETRY (R434). A refused negotiation is retried every 2^24 clocks. -/
  | negotiationRetry (port : Nat) (ok : Bool)
  /-- DEGRADED (R434). Retries above DEGTH within 2^20 clocks, or fewer than 8 lanes, degrade
      the port. -/
  | degraded (port retries : Nat)
  /-- DEGRADED_RECOVERY (R434). Retries below DEGTH/2 for 2^24 clocks with 8 lanes return the
      port to ACTIVE. -/
  | degradedRecovery (port retries : Nat)
  /-- PORT_DRAIN_DONE (R434). A DRAINING port whose packets are all acknowledged returns to
      JOINED. -/
  | portDrainDone (port : Nat)
  /-- LINK_LOSS (R434). A lost link takes the port DOWN and unacknowledged packets are resent
      elsewhere. -/
  | linkLoss (port : Nat)
  /-- INBOUND_RDMA (R439). An inbound RDMA read, write or transport atomic is checked against
      the routing table and performed. -/
  | inboundRdma (src tag ctx addr n code x c r : Nat) (held : Bool)
  /-- ATTESTATION_REQUEST (R468). A type-9 send with a nonce from a commanding endpoint makes
      the module send a signed report. -/
  | attestationRequest (req : Option (Nat × BitVec 256))
  /-- GO (R468). Writing GO in attreq sends an attestation report to the named endpoint. -/
  | go (x : Word64)
  /-- RESET_SEND (R468). A type-11 send from a commanding endpoint resets the module. -/
  | resetSend (src : Nat)
  /-- LOAD (R411). ctxctl CMD LOAD checks and takes a context descriptor into force. -/
  | load (ctx : Nat) (desc : BitVec 50)
  /-- ACTIVATE (R411). ctxctl CMD ACTIVATE lets the context's tasks and records be dispatched. -/
  | activate (ctx : Nat)
  /-- QUIESCE (R411). ctxctl CMD QUIESCE pre-empts the context's agents and stops new dispatch. -/
  | quiesce (ctx : Nat)
  /-- QUIESCE_COMPLETE (R411). When every agent is saved and every engine entry retired, the
      context returns to LOADED. -/
  | quiesceComplete (ctx : Nat)
  /-- KILL (R422). ctxctl CMD KILL, or a context-fatal error, discards every piece of the
      context's work. -/
  | kill (ctx : Nat)
  /-- DONE (R411). The discard of a killed context completes and DONE rises. -/
  | done (ctx : Nat)
  /-- FREE (R411). ctxctl CMD FREE removes the context's translations and frees the slot. -/
  | free (ctx : Nat)
  /-- CTXCTL_CLEAR_ERR (R410). A ctxctl write with CMD 0 clears ERR. -/
  | ctxctlClearErr (ctx : Nat)
  /-- CMDBASE_WRITE (R376). A write to cmdbase places the command area unless it lies outside
      HBM in service. -/
  | cmdbaseWrite (x : Word64)
  /-- CQBASE_WRITE (R404). A write to cqbase sets the spill area and EN, ignoring a clear of EN
      while work is placed. -/
  | cqbaseWrite (cluster : Nat) (x : Word64)
  /-- SNPOOL_WRITE (R424). A write to snpool sets the reserve pool unless a snapshot is FROZEN
      or DRAINING. -/
  | snpoolWrite (x : Word64)
  /-- VARIANCE_RECORD_WRITE (R344). A supervisor window write restores a variance record while
      no MMS holds the tile. -/
  | varianceRecordWrite (core acc : Nat) (x : BitVec 256)
  /-- FEATACC_WRITE (R470). A write to featacc offers a feature subset, accepted or refused with
      FERR. -/
  | feataccWrite (x : Word64)
  /-- MINVER_WRITE (R471). A write to minver raises MINVER and is ignored when it would lower it. -/
  | minverWrite (x : Word)
  /-- CONFIRM (R459). Writing CONFIRM in PENDING starts the rebuild of a layer slice. -/
  | confirm (slice : Nat)
  /-- HOTREMOVE (R459). A REFORMING slice is rebuilt across seven stacks and becomes REFORMED. -/
  | hotremove (slice : Nat)
  /-- EVHEAD_WRITE (R461). A write to evhead advances EVHEAD within the ring's limits. -/
  | evheadWrite (x : BitVec 16)
  /-- OVF_CLEAR (R471). Writing 1 to OVF in evtail clears it. -/
  | ovfClear
  /-- BOOTCMD_RESET (R466). Writing RESET in bootcmd resets the module. -/
  | bootcmdReset
  /-- REGISTER_WRITE (R6). A write to a control register with no row of its own replaces its
      writable fields. -/
  | registerWrite (off n x : Nat)
  /-- REFRESH (R455). A due refresh runs, postponed while requests wait up to the stack's limit. -/
  | refresh (stack chan : Nat)
  /-- SELF_REFRESH (R456). A pseudo-channel idle for SRIDLE × 256 controller clocks enters self-
      refresh. -/
  | selfRefresh (stack pc idle : Nat)
  /-- PARITY_ALERT (R457). A parity alert rewinds bank state and replays the dropped command and
      every later one. -/
  | parityAlert (stack chan : Nat) (again : Bool)
  /-- CHANOUT (R457). A channel whose command fails after retraining, or retraining beyond 2^20
      clocks, is marked out of service. -/
  | chanout (stack chan : Nat)
  /-- SCRUB (R458). Every SCRUB × 1,024 controller clocks one block per pseudo-channel is read
      and corrected or poisoned. -/
  | scrub (addr : Nat) (fixed lost : BitVec 8) (failing : Bool)
  /-- STRIKE (R464). A strike report squashes every uncommitted result of the core and re-issues
      their instructions. -/
  | strike (core : Nat)
  /-- RESULT_COMMIT (R463). A result held 48 clocks commits and may leave the core. -/
  | resultCommit (core : Nat)
  /-- REPLAY (R465). An idle beat recomputes a replay-queue entry of the partner lane and
      compares it. -/
  | replay (beat : Nat × Nat) (bad late : Bool)
  /-- POWER_LIMIT (R27). A reached power or temperature limit reduces the work issue rate, and a
      persisting limit is device-fatal. -/
  | powerLimit (still : Bool)
  /-- POWER_GOOD (R466). Power good starts the boot ROM, which verifies the flash images. -/
  | powerGood
  /-- FWLOAD (R466). The fault processor loads a valid image and starts its firmware. -/
  | fwload
  /-- HBMINIT (R466). Channel training completes, or a failed stack gives BOOTFAIL. -/
  | hbminit (ok : Bool)
  /-- LINKS (R466). The firmware is ready and the module enters READY. -/
  | links
  /-- FATAL (R422). A device-fatal error kills every context and records its cause in the boot
      state. -/
  | fatal (cause : Nat)
  /-- LINK_LEVEL_RETRY (R435). An Ethernet link-level retry on a port raises portstat RETRY and
      counts toward the DEGTH threshold of R434. -/
  | linkLevelRetry (port : Nat)
  /-- MAT_UPDATE_WRITTEN (R332). The matrix array finishes writing the accumulator updates of an
      MMQ or the reads of an ACCR, lowers the MAT counter and ORs the flags into cr.fstat. -/
  | matUpdateWritten (a : AgentId) (tag : Nat)
  /-- REMOTE_ATOMF (R439). A type-6 peer message carrying an ATOMF is received and performed at
      the target's memory side, or refused when the sender has PEER = 0. -/
  | remoteAtomf (src : Nat) (tag : Ticket) (addr op x rnd : Nat)
  /-- CHANNEL_RETRAIN_DONE (R457). Retraining of a degraded HBM channel's interface ends, and
      the channel's waiting requests are served again. -/
  | channelRetrainDone (stack chan : Nat)
  deriving DecidableEq, Repr

end Sys2Proof
end

