-- ==== Sys2Proof/Decode.lean ====
section
/-! DEFINITION. The decoder and the encoder of instruction words, clause headers and
dictionary pair words (R29, R39 to R47, R53, R63). An instruction word is read as a number
whose bit 0 is the least significant bit of the word (R4). -/

namespace Sys2Proof

/-- The `n` bits of `w` from bit `lo` upward. -/
def fld (w lo n : Nat) : Nat := w / 2 ^ lo % 2 ^ n

/-- Bit `lo` of `w`. -/
def bitAt (w lo : Nat) : Bool := w / 2 ^ lo % 2 == 1

/-- The `n`-bit field of `w` from bit `lo` upward. -/
def bvAt (n w lo : Nat) : BitVec n := BitVec.ofNat n (w / 2 ^ lo)

/-- The six bits of an operand field (R41). -/
def Opd.code : Opd → Nat
  | .reg n => n.toNat
  | .chan p c => 32 + p.toNat * 16 + c.toNat

/-- The operand that six bits name (R41). -/
def opdAt (w lo : Nat) : Opd :=
  if fld w (lo + 5) 1 = 1 then .chan (bitAt w (lo + 4)) (bvAt 4 w lo)
  else .reg (bvAt 5 w lo)

/-- `ROT` added to the register number of an operand with `K` = 0 (R53). -/
def Opd.rotate (k : BitVec 5) : Opd → Opd
  | .reg n => .reg (n + k)
  | .chan p c => .chan p c

/-- Why a word is no instruction of the opcode map (R61): both raise ILLEGAL_INSTR when
the word issues. -/
inductive Reject where
  /-- The `OP` is not assigned. -/
  | unassignedOp
  /-- A field that must be zero is not, or `U` or `FN` names no form of the `OP`. -/
  | badField
  deriving DecidableEq, Repr

/-- The instruction of the word `w` whose `OP` is `op` (R63). Fields whose values the map
restricts are checked by `Instr.wf`. -/
def decodeOp (op w : Nat) : Except Reject Instr :=
  match op with
  | 0x00 =>
    if fld w 0 23 = 0 then
      .ok (.nop (bitAt w 31) (bitAt w 30))
    else .error .badField
  | 0x01 =>
    if fld w 21 1 = 0 then
      .ok (.add (bitAt w 31) (bitAt w 30) (bitAt w 22) (bvAt 3 w 18) (opdAt w 12) (opdAt w 6) (opdAt w 0))
    else .error .badField
  | 0x02 =>
    if fld w 21 1 = 0 then
      .ok (.sub (bitAt w 31) (bitAt w 30) (bitAt w 22) (bvAt 3 w 18) (opdAt w 12) (opdAt w 6) (opdAt w 0))
    else .error .badField
  | 0x03 =>
    if fld w 21 1 = 0 then
      .ok (.mul (bitAt w 31) (bitAt w 30) (bitAt w 22) (bvAt 3 w 18) (opdAt w 12) (opdAt w 6) (opdAt w 0))
    else .error .badField
  | 0x04 =>
    if fld w 21 2 = 0 then
      .ok (.mulh (bitAt w 31) (bitAt w 30) (bvAt 3 w 18) (opdAt w 12) (opdAt w 6) (opdAt w 0))
    else .error .badField
  | 0x05 =>
    if fld w 21 1 = 0 then
      .ok (.mad (bitAt w 31) (bitAt w 30) (bitAt w 22) (bvAt 3 w 18) (opdAt w 12) (opdAt w 6) (opdAt w 0))
    else .error .badField
  | 0x06 =>
    if fld w 21 2 = 0 then
      .ok (.min (bitAt w 31) (bitAt w 30) (bvAt 3 w 18) (opdAt w 12) (opdAt w 6) (opdAt w 0))
    else .error .badField
  | 0x07 =>
    if fld w 21 2 = 0 then
      .ok (.max (bitAt w 31) (bitAt w 30) (bvAt 3 w 18) (opdAt w 12) (opdAt w 6) (opdAt w 0))
    else .error .badField
  | 0x08 =>
    if fld w 21 2 = 0 then
      .ok (.absd (bitAt w 31) (bitAt w 30) (bvAt 3 w 18) (opdAt w 12) (opdAt w 6) (opdAt w 0))
    else .error .badField
  | 0x09 =>
    if fld w 21 2 = 0 then
      .ok (.div (bitAt w 31) (bitAt w 30) (bvAt 3 w 18) (opdAt w 12) (opdAt w 6) (opdAt w 0))
    else .error .badField
  | 0x0A =>
    if fld w 21 2 = 0 then
      .ok (.rem (bitAt w 31) (bitAt w 30) (bvAt 3 w 18) (opdAt w 12) (opdAt w 6) (opdAt w 0))
    else .error .badField
  | 0x0B =>
    .ok (.logic (bitAt w 31) (bitAt w 30) (bvAt 5 w 18) (opdAt w 12) (opdAt w 6) (opdAt w 0))
  | 0x0C =>
    .ok (.shift (bitAt w 31) (bitAt w 30) (bvAt 3 w 20) (bvAt 2 w 18) (opdAt w 12) (opdAt w 6) (opdAt w 0))
  | 0x0D =>
    if fld w 0 6 = 0 then
      .ok (.bits (bitAt w 31) (bitAt w 30) (bvAt 5 w 18) (opdAt w 12) (opdAt w 6))
    else .error .badField
  | 0x0E =>
    if fld w 19 4 = 0 then
      .ok (.bfx (bitAt w 31) (bitAt w 30) (bitAt w 18) (opdAt w 12) (opdAt w 6) (opdAt w 0))
    else .error .badField
  | 0x0F =>
    if fld w 18 5 = 0 then
      .ok (.bfi (bitAt w 31) (bitAt w 30) (opdAt w 12) (opdAt w 6) (opdAt w 0))
    else .error .badField
  | 0x10 =>
    if fld w 18 5 = 0 then
      .ok (.perm (bitAt w 31) (bitAt w 30) (opdAt w 12) (opdAt w 6) (opdAt w 0))
    else .error .badField
  | 0x11 =>
    if fld w 30 1 = 0 ∧ fld w 21 2 = 0 then
      .ok (.sel (bitAt w 31) (bvAt 3 w 18) (opdAt w 12) (opdAt w 6) (opdAt w 0))
    else .error .badField
  | 0x12 =>
    .ok (.cmp (bitAt w 31) (bitAt w 30) (bvAt 3 w 20) (bvAt 2 w 18) (opdAt w 12) (opdAt w 6) (opdAt w 0))
  | 0x13 =>
    if fld w 21 2 = 0 ∧ fld w 0 6 = 0 then
      .ok (.fclass (bitAt w 31) (bitAt w 30) (bvAt 3 w 18) (opdAt w 12) (opdAt w 6))
    else .error .badField
  | 0x14 =>
    .ok (.fsgn (bitAt w 31) (bitAt w 30) (bvAt 2 w 21) (bvAt 3 w 18) (opdAt w 12) (opdAt w 6) (opdAt w 0))
  | 0x15 =>
    if fld w 30 1 = 0 ∧ fld w 21 1 = 0 ∧ fld w 0 6 = 0 then
      .ok (.sfu (bitAt w 31) (bitAt w 22) (bvAt 3 w 18) (opdAt w 12) (opdAt w 6))
    else .error .badField
  | 0x16 =>
    if fld w 30 1 = 0 then
      .ok (.dot (bitAt w 31) (bvAt 5 w 18) (opdAt w 12) (opdAt w 6) (opdAt w 0))
    else .error .badField
  | 0x17 =>
    if fld w 18 5 = 0 ∧ fld w 0 6 = 0 then
      .ok (.mov (bitAt w 31) (bitAt w 30) (opdAt w 12) (opdAt w 6))
    else if fld w 30 1 = 0 ∧ fld w 18 5 = 1 ∧ fld w 11 1 = 0 ∧ fld w 0 6 = 0 then
      .ok (.bcast (bitAt w 31) (opdAt w 12) (bvAt 5 w 6))
    else .error .badField
  | 0x18 =>
    .ok (.movi (bitAt w 31) (bitAt w 30) (opdAt w 17) (bvAt 17 w 0))
  | 0x19 =>
    .ok (.movh (bitAt w 31) (bitAt w 30) (opdAt w 17) (bvAt 17 w 0))
  | 0x1A =>
    .ok (.addi (bitAt w 31) (bitAt w 30) (opdAt w 17) (opdAt w 11) (bvAt 11 w 0))
  | 0x1B =>
    if fld w 21 2 = 0 then
      .ok (.lea (bitAt w 31) (bitAt w 30) (bvAt 3 w 18) (opdAt w 12) (opdAt w 6) (opdAt w 0))
    else .error .badField
  | 0x1C =>
    .ok (.cvt (bitAt w 31) (bitAt w 30) (bvAt 3 w 20) (opdAt w 14) (opdAt w 8) (bvAt 4 w 4) (bvAt 4 w 0))
  | 0x1D =>
    if fld w 30 1 = 0 ∧ fld w 22 1 = 0 ∧ fld w 0 6 = 0 then
      .ok (.qscl (bitAt w 31) (bvAt 4 w 18) (opdAt w 12) (opdAt w 6))
    else .error .badField
  | 0x1E =>
    if fld w 30 1 = 0 ∧ fld w 22 1 = 0 then
      .ok (.qenc (bitAt w 31) (bvAt 4 w 18) (opdAt w 12) (opdAt w 6) (opdAt w 0))
    else .error .badField
  | 0x1F =>
    if fld w 30 1 = 0 ∧ fld w 22 1 = 0 then
      .ok (.qdec (bitAt w 31) (bvAt 4 w 18) (opdAt w 12) (opdAt w 6) (opdAt w 0))
    else .error .badField
  | 0x20 =>
    if fld w 30 1 = 1 ∧ fld w 20 3 = 0 ∧ fld w 12 6 = 0 ∧ fld w 0 6 = 0 then
      .ok (.ald (bitAt w 31) (bvAt 2 w 18) (opdAt w 6))
    else .error .badField
  | 0x21 =>
    if fld w 30 1 = 0 ∧ fld w 20 3 = 0 then
      .ok (.rget (bitAt w 31) (bvAt 2 w 18) (opdAt w 12) (opdAt w 6) (opdAt w 0))
    else .error .badField
  | 0x22 =>
    if fld w 30 1 = 0 ∧ fld w 20 3 = 0 then
      .ok (.rset (bitAt w 31) (bvAt 2 w 18) (opdAt w 12) (opdAt w 6) (opdAt w 0))
    else .error .badField
  | 0x23 =>
    if fld w 30 1 = 0 ∧ fld w 20 3 = 0 then
      .ok (.runpk (bitAt w 31) (bvAt 2 w 18) (opdAt w 12) (opdAt w 6) (opdAt w 0))
    else .error .badField
  | 0x24 =>
    if fld w 30 1 = 0 ∧ fld w 20 3 = 0 then
      .ok (.rpack (bitAt w 31) (bvAt 2 w 18) (opdAt w 12) (opdAt w 6) (opdAt w 0))
    else .error .badField
  | 0x25 =>
    if fld w 30 1 = 0 then
      .ok (.rdot (bitAt w 31) (bitAt w 22) (bvAt 2 w 20) (bvAt 2 w 18) (opdAt w 12) (opdAt w 6) (opdAt w 0))
    else .error .badField
  | 0x26 =>
    if fld w 30 1 = 0 ∧ fld w 20 3 = 0 then
      .ok (.rsum (bitAt w 31) (bvAt 2 w 18) (opdAt w 12) (opdAt w 6) (opdAt w 0))
    else .error .badField
  | 0x27 =>
    if fld w 30 1 = 0 ∧ fld w 20 3 = 0 ∧ fld w 0 6 = 0 then
      .ok (.rchk (bitAt w 31) (bvAt 2 w 18) (opdAt w 12) (opdAt w 6))
    else .error .badField
  | 0x28 =>
    if fld w 30 1 = 0 ∧ fld w 20 3 = 0 ∧ fld w 2 4 = 0 then
      .ok (.rmap (bitAt w 31) (bvAt 2 w 18) (opdAt w 12) (opdAt w 6) (bvAt 2 w 0))
    else .error .badField
  | 0x29 =>
    if fld w 30 1 = 0 ∧ fld w 20 3 = 0 then
      .ok (.rcnt (bitAt w 31) (bvAt 2 w 18) (opdAt w 12) (opdAt w 6) (opdAt w 0))
    else .error .badField
  | 0x2A =>
    if fld w 30 1 = 0 ∧ fld w 0 1 = 0 then
      .ok (.symld (bitAt w 31) (bvAt 2 w 21) (bvAt 2 w 19) (bvAt 2 w 17) (opdAt w 11) (bvAt 5 w 6) (bvAt 5 w 1))
    else .error .badField
  | 0x2B =>
    if fld w 30 1 = 0 ∧ fld w 0 1 = 0 then
      .ok (.symst (bitAt w 31) (bvAt 2 w 21) (bvAt 2 w 19) (bvAt 2 w 17) (opdAt w 11) (bvAt 5 w 6) (bvAt 5 w 1))
    else .error .badField
  | 0x30 =>
    if fld w 30 1 = 0 then
      .ok (.shfl (bitAt w 31) (bvAt 5 w 18) (opdAt w 12) (opdAt w 6) (opdAt w 0))
    else .error .badField
  | 0x31 =>
    if fld w 30 1 = 0 ∧ fld w 0 6 = 0 then
      .ok (.bfly (bitAt w 31) (bvAt 2 w 21) (bvAt 3 w 18) (opdAt w 12) (opdAt w 6))
    else .error .badField
  | 0x32 =>
    if fld w 30 1 = 0 ∧ fld w 0 6 = 0 then
      .ok (.vote (bitAt w 31) (bvAt 5 w 18) (opdAt w 12) (opdAt w 6))
    else .error .badField
  | 0x33 =>
    if fld w 30 1 = 0 ∧ fld w 21 2 = 0 ∧ fld w 0 6 = 0 then
      .ok (.redg (bitAt w 31) (bvAt 3 w 18) (opdAt w 12) (opdAt w 6))
    else .error .badField
  | 0x34 =>
    if fld w 30 1 = 0 ∧ fld w 22 1 = 0 ∧ fld w 0 6 = 0 then
      .ok (.scang (bitAt w 31) (bitAt w 21) (bvAt 3 w 18) (opdAt w 12) (opdAt w 6))
    else .error .badField
  | 0x35 =>
    if fld w 30 1 = 0 ∧ fld w 17 6 = 0 ∧ fld w 5 1 = 0 then
      .ok (.lane (bitAt w 31) (bvAt 5 w 12) (opdAt w 6) (bvAt 5 w 0))
    else .error .badField
  | 0x36 =>
    if fld w 30 1 = 0 then
      .ok (.lmap (bitAt w 31) (bvAt 5 w 18) (opdAt w 12) (opdAt w 6) (opdAt w 0))
    else .error .badField
  | 0x38 =>
    if fld w 30 1 = 1 then
      .ok (.br (bitAt w 31) (bvAt 3 w 20) (bvAt 5 w 15) (bvAt 15 w 0))
    else .error .badField
  | 0x39 =>
    if fld w 30 1 = 0 ∧ fld w 15 2 = 0 then
      .ok (.brd (bitAt w 31) (bvAt 3 w 20) (bvAt 3 w 17) (bvAt 15 w 0))
    else .error .badField
  | 0x3A =>
    if fld w 30 1 = 1 ∧ fld w 12 11 = 0 ∧ fld w 0 6 = 0 then
      .ok (.jmp (bitAt w 31) (opdAt w 6))
    else .error .badField
  | 0x3B =>
    if fld w 30 1 = 0 ∧ fld w 21 2 = 0 ∧ fld w 12 6 = 0 ∧ fld w 5 1 = 0 then
      .ok (.jmpd (bitAt w 31) (bvAt 3 w 18) (opdAt w 6) (bvAt 5 w 0))
    else .error .badField
  | 0x3C =>
    if fld w 30 1 = 1 ∧ fld w 18 5 = 0 ∧ fld w 0 6 = 0 then
      .ok (.call (bitAt w 31) (opdAt w 12) (opdAt w 6))
    else .error .badField
  | 0x3D =>
    if fld w 30 1 = 1 ∧ fld w 18 5 = 0 ∧ fld w 0 6 = 0 then
      .ok (.loop (bitAt w 31) (opdAt w 12) (opdAt w 6))
    else .error .badField
  | 0x3E =>
    if fld w 30 1 = 1 ∧ fld w 0 23 = 0 then
      .ok (.ctlYield (bitAt w 31))
    else if fld w 30 1 = 1 ∧ fld w 0 23 = 262144 then
      .ok (.ctlExit (bitAt w 31))
    else if fld w 30 1 = 1 ∧ fld w 0 23 = 524288 then
      .ok (.ctlJoinp (bitAt w 31))
    else if fld w 30 1 = 1 ∧ fld w 12 11 = 192 ∧ fld w 0 6 = 0 then
      .ok (.ctlTrap (bitAt w 31) (opdAt w 6))
    else if fld w 30 1 = 1 ∧ fld w 0 23 = 1048576 then
      .ok (.ctlBkpt (bitAt w 31))
    else .error .badField
  | 0x40 =>
    .ok (.ld (bitAt w 31) (bitAt w 30) (bvAt 3 w 20) (bvAt 2 w 18) (bvAt 2 w 16) (opdAt w 10) (bvAt 5 w 5) (bvAt 5 w 0))
  | 0x41 =>
    .ok (.st (bitAt w 31) (bitAt w 30) (bvAt 3 w 20) (bvAt 2 w 18) (bvAt 2 w 16) (opdAt w 10) (bvAt 5 w 5) (bvAt 5 w 0))
  | 0x42 =>
    .ok (.atom (bitAt w 31) (bitAt w 30) (bvAt 3 w 20) (bvAt 2 w 18) (bvAt 2 w 16) (opdAt w 10) (bvAt 5 w 5) (bvAt 5 w 0))
  | 0x43 =>
    .ok (.atom64 (bitAt w 31) (bitAt w 30) (bvAt 3 w 20) (bvAt 2 w 18) (bvAt 2 w 16) (opdAt w 10) (bvAt 5 w 5) (bvAt 5 w 0))
  | 0x44 =>
    .ok (.atomf (bitAt w 31) (bitAt w 30) (bvAt 3 w 20) (bvAt 2 w 18) (bvAt 2 w 16) (opdAt w 10) (bvAt 5 w 5) (bvAt 5 w 0))
  | 0x45 =>
    if fld w 20 3 = 0 then
      .ok (.lr (bitAt w 31) (bitAt w 30) (bvAt 2 w 18) (bvAt 2 w 16) (opdAt w 10) (bvAt 5 w 5) (bvAt 5 w 0))
    else .error .badField
  | 0x46 =>
    .ok (.sc (bitAt w 31) (bitAt w 30) (bvAt 3 w 20) (bvAt 2 w 18) (bvAt 2 w 16) (opdAt w 10) (bvAt 5 w 5) (bvAt 5 w 0))
  | 0x47 =>
    if fld w 30 1 = 1 ∧ fld w 20 3 = 0 ∧ fld w 0 16 = 0 then
      .ok (.fence (bitAt w 31) (bvAt 2 w 18) (bvAt 2 w 16))
    else .error .badField
  | 0x48 =>
    if fld w 18 5 = 0 ∧ fld w 10 6 = 0 then
      .ok (.pref (bitAt w 31) (bitAt w 30) (bvAt 2 w 16) (bvAt 5 w 5) (bvAt 5 w 0))
    else .error .badField
  | 0x49 =>
    .ok (.ldc (bitAt w 31) (bitAt w 30) (bvAt 3 w 20) (bvAt 2 w 18) (bvAt 2 w 16) (opdAt w 10) (bvAt 5 w 5) (bvAt 5 w 0))
  | 0x4A =>
    .ok (.stc (bitAt w 31) (bitAt w 30) (bvAt 3 w 20) (bvAt 2 w 18) (bvAt 2 w 16) (opdAt w 10) (bvAt 5 w 5) (bvAt 5 w 0))
  | 0x4B =>
    if fld w 30 1 = 1 ∧ fld w 22 1 = 0 ∧ fld w 0 18 = 0 then
      .ok (.cntw (bitAt w 31) (bvAt 4 w 18))
    else .error .badField
  | 0x50 =>
    if fld w 30 1 = 1 ∧ fld w 18 5 = 0 then
      .ok (.bari (bitAt w 31) (opdAt w 12) (opdAt w 6) (opdAt w 0))
    else .error .badField
  | 0x51 =>
    if fld w 30 1 = 1 ∧ fld w 18 5 = 0 ∧ fld w 0 6 = 0 then
      .ok (.bara (bitAt w 31) (opdAt w 12) (opdAt w 6))
    else .error .badField
  | 0x52 =>
    if fld w 30 1 = 1 ∧ fld w 18 5 = 0 then
      .ok (.barw (bitAt w 31) (opdAt w 12) (opdAt w 6) (opdAt w 0))
    else .error .badField
  | 0x53 =>
    if fld w 30 1 = 1 ∧ fld w 18 5 = 0 ∧ fld w 0 6 = 0 then
      .ok (.bars (bitAt w 31) (opdAt w 12) (opdAt w 6))
    else .error .badField
  | 0x54 =>
    if fld w 30 1 = 1 ∧ fld w 18 5 = 0 ∧ fld w 0 6 = 0 then
      .ok (.barq (bitAt w 31) (opdAt w 12) (opdAt w 6))
    else .error .badField
  | 0x55 =>
    if fld w 30 1 = 1 ∧ fld w 12 11 = 0 then
      .ok (.sigr (bitAt w 31) (opdAt w 6) (opdAt w 0))
    else .error .badField
  | 0x56 =>
    if fld w 30 1 = 1 ∧ fld w 18 5 = 0 ∧ fld w 0 12 = 0 then
      .ok (.sigw (bitAt w 31) (opdAt w 12))
    else .error .badField
  | 0x57 =>
    if fld w 30 1 = 1 ∧ fld w 11 12 = 0 ∧ fld w 5 1 = 0 then
      .ok (.spawn (bitAt w 31) (bvAt 5 w 6) (bvAt 5 w 0))
    else .error .badField
  | 0x58 =>
    if fld w 30 1 = 1 ∧ fld w 17 6 = 0 ∧ fld w 11 1 = 0 ∧ fld w 5 1 = 0 then
      .ok (.joinc (bitAt w 31) (bvAt 5 w 12) (bvAt 5 w 6) (bvAt 5 w 0))
    else .error .badField
  | 0x59 =>
    if fld w 30 1 = 1 ∧ fld w 17 6 = 0 ∧ fld w 11 1 = 0 ∧ fld w 0 6 = 0 then
      .ok (.cdec (bitAt w 31) (bvAt 5 w 12) (bvAt 5 w 6))
    else .error .badField
  | 0x5A =>
    if fld w 30 1 = 1 ∧ fld w 18 5 = 0 ∧ fld w 3 9 = 0 then
      .ok (.cr (bitAt w 31) (opdAt w 12) (bvAt 3 w 0))
    else if fld w 30 1 = 1 ∧ fld w 12 11 = 64 ∧ fld w 3 3 = 0 then
      .ok (.crW (bitAt w 31) (opdAt w 6) (bvAt 3 w 0))
    else .error .badField
  | 0x60 =>
    if fld w 30 1 = 1 ∧ fld w 18 5 = 0 ∧ fld w 11 1 = 0 ∧ fld w 0 6 = 0 then
      .ok (.tdef (bitAt w 31) (bvAt 6 w 12) (bvAt 5 w 6))
    else .error .badField
  | 0x61 =>
    if fld w 30 1 = 1 ∧ fld w 18 5 = 0 ∧ fld w 0 12 = 0 then
      .ok (.tsetEmpty (bitAt w 31) (bvAt 6 w 12))
    else if fld w 30 1 = 1 ∧ fld w 18 5 = 1 ∧ fld w 0 12 = 0 then
      .ok (.tsetReady (bitAt w 31) (bvAt 6 w 12))
    else .error .badField
  | 0x62 =>
    if fld w 30 1 = 1 ∧ fld w 19 4 = 0 ∧ fld w 11 1 = 0 ∧ fld w 5 1 = 0 then
      .ok (.tld (bitAt w 31) (bitAt w 18) (bvAt 6 w 12) (bvAt 5 w 6) (bvAt 5 w 0))
    else .error .badField
  | 0x63 =>
    if fld w 30 1 = 1 ∧ fld w 18 5 = 0 ∧ fld w 11 1 = 0 ∧ fld w 5 1 = 0 then
      .ok (.tst (bitAt w 31) (bvAt 6 w 12) (bvAt 5 w 6) (bvAt 5 w 0))
    else .error .badField
  | 0x64 =>
    if fld w 30 1 = 0 ∧ fld w 11 1 = 0 ∧ fld w 5 1 = 0 then
      .ok (.mmq (bitAt w 31) (bvAt 2 w 21) (bvAt 3 w 18) (bvAt 6 w 12) (bvAt 5 w 6) (bvAt 5 w 0))
    else .error .badField
  | 0x65 =>
    if fld w 30 1 = 1 ∧ fld w 18 5 = 0 ∧ fld w 11 1 = 0 ∧ fld w 0 6 = 0 then
      .ok (.mmt (bitAt w 31) (bvAt 6 w 12) (bvAt 5 w 6))
    else .error .badField
  | 0x66 =>
    if fld w 30 1 = 1 ∧ fld w 18 5 = 0 ∧ fld w 11 1 = 0 ∧ fld w 0 6 = 0 then
      .ok (.mms (bitAt w 31) (bvAt 6 w 12) (bvAt 5 w 6))
    else .error .badField
  | 0x67 =>
    if fld w 30 1 = 1 ∧ fld w 18 5 = 0 ∧ fld w 11 1 = 0 ∧ fld w 0 6 = 0 then
      .ok (.mnorm (bitAt w 31) (bvAt 6 w 12) (bvAt 5 w 6))
    else .error .badField
  | 0x68 =>
    if fld w 30 1 = 1 ∧ fld w 18 5 = 0 ∧ fld w 11 1 = 0 ∧ fld w 0 6 = 0 then
      .ok (.aliasTab (bitAt w 31) (bvAt 6 w 12) (bvAt 5 w 6))
    else .error .badField
  | 0x69 =>
    if fld w 30 1 = 1 ∧ fld w 18 5 = 0 ∧ fld w 0 12 = 0 then
      .ok (.accz (bitAt w 31) (bvAt 6 w 12))
    else .error .badField
  | 0x6A =>
    if fld w 30 1 = 0 ∧ fld w 17 6 = 0 ∧ fld w 2 4 = 0 then
      .ok (.accr (bitAt w 31) (bvAt 5 w 12) (bvAt 6 w 6) (bvAt 2 w 0))
    else .error .badField
  | 0x6B =>
    if fld w 30 1 = 1 ∧ fld w 21 2 = 0 ∧ fld w 11 1 = 0 ∧ fld w 5 1 = 0 then
      .ok (.drain (bitAt w 31) (bvAt 3 w 18) (bvAt 6 w 12) (bvAt 5 w 6) (bvAt 5 w 0))
    else .error .badField
  | 0x6C =>
    if fld w 30 1 = 1 ∧ fld w 18 5 = 0 ∧ fld w 0 6 = 0 then
      .ok (.txp (bitAt w 31) (bvAt 6 w 12) (bvAt 6 w 6))
    else .error .badField
  | 0x6D =>
    if fld w 30 1 = 1 ∧ fld w 17 6 = 0 ∧ fld w 0 6 = 0 then
      .ok (.varr (bitAt w 31) (bvAt 5 w 12) (bvAt 6 w 6))
    else .error .badField
  | 0x6E =>
    if fld w 30 1 = 1 ∧ fld w 18 5 = 0 ∧ fld w 3 9 = 0 then
      .ok (.tq (bitAt w 31) (bvAt 6 w 12) (bvAt 3 w 0))
    else .error .badField
  | 0x70 =>
    if fld w 30 1 = 1 ∧ fld w 14 4 = 0 ∧ fld w 11 1 = 0 ∧ fld w 0 6 = 0 then
      .ok (.itnew (bitAt w 31) (bvAt 5 w 18) (bvAt 2 w 12) (bvAt 5 w 6))
    else .error .badField
  | 0x71 =>
    if fld w 30 1 = 1 ∧ fld w 14 4 = 0 ∧ fld w 11 1 = 0 ∧ fld w 2 4 = 0 then
      .ok (.itadd (bitAt w 31) (bvAt 5 w 18) (bvAt 2 w 12) (bvAt 5 w 6) (bvAt 2 w 0))
    else .error .badField
  | 0x72 =>
    if fld w 30 1 = 1 ∧ fld w 19 4 = 0 ∧ fld w 15 3 = 0 ∧ fld w 8 4 = 0 ∧ fld w 3 3 = 0 then
      .ok (.next (bitAt w 31) (bitAt w 18) (bvAt 3 w 12) (bvAt 2 w 6) (bvAt 3 w 0))
    else .error .badField
  | 0x73 =>
    if fld w 30 1 = 1 ∧ fld w 14 9 = 0 ∧ fld w 0 12 = 0 then
      .ok (.enough (bitAt w 31) (bvAt 2 w 12))
    else .error .badField
  | 0x74 =>
    if fld w 30 1 = 1 ∧ fld w 17 6 = 0 ∧ fld w 8 4 = 0 ∧ fld w 5 1 = 0 then
      .ok (.itsave (bitAt w 31) (bvAt 5 w 12) (bvAt 2 w 6) (bvAt 5 w 0))
    else .error .badField
  | 0x75 =>
    if fld w 30 1 = 1 ∧ fld w 14 9 = 0 ∧ fld w 11 1 = 0 ∧ fld w 0 6 = 0 then
      .ok (.itload (bitAt w 31) (bvAt 2 w 12) (bvAt 5 w 6))
    else .error .badField
  | 0x76 =>
    if fld w 30 1 = 1 ∧ fld w 17 6 = 0 ∧ fld w 8 4 = 0 ∧ fld w 0 6 = 0 then
      .ok (.itq (bitAt w 31) (bvAt 5 w 12) (bvAt 2 w 6))
    else .error .badField
  | 0x78 =>
    if fld w 30 1 = 1 ∧ fld w 0 12 = 0 then
      .ok (.cpy (bitAt w 31) (bvAt 3 w 20) (bvAt 3 w 17) (bvAt 5 w 12))
    else .error .badField
  | 0x79 =>
    if fld w 30 1 = 1 ∧ fld w 0 15 = 0 then
      .ok (.qfence (bitAt w 31) (bvAt 8 w 15))
    else .error .badField
  | 0x7A =>
    if fld w 30 1 = 1 ∧ fld w 18 5 = 0 then
      .ok (.qwait (bitAt w 31) (opdAt w 12) (opdAt w 6) (opdAt w 0))
    else .error .badField
  | 0x7B =>
    if fld w 30 1 = 1 ∧ fld w 0 12 = 0 then
      .ok (.coll (bitAt w 31) (bvAt 3 w 20) (bvAt 3 w 17) (bvAt 5 w 12))
    else .error .badField
  | 0x7C =>
    if fld w 30 1 = 1 ∧ fld w 17 6 = 0 ∧ fld w 11 1 = 0 ∧ fld w 5 1 = 0 then
      .ok (.snapFreeze (bitAt w 31) (bvAt 5 w 12) (bvAt 5 w 6) (bvAt 5 w 0))
    else if fld w 30 1 = 1 ∧ fld w 17 6 = 2 ∧ fld w 0 12 = 0 then
      .ok (.snapQuery (bitAt w 31) (bvAt 5 w 12))
    else if fld w 30 1 = 1 ∧ fld w 17 6 = 4 ∧ fld w 0 12 = 0 then
      .ok (.snapRelease (bitAt w 31) (bvAt 5 w 12))
    else .error .badField
  | 0x7D =>
    if fld w 30 1 = 1 ∧ fld w 17 6 = 0 ∧ fld w 4 8 = 0 then
      .ok (.sysCsrr (bitAt w 31) (bvAt 5 w 12) (bvAt 4 w 0))
    else if fld w 30 1 = 1 ∧ fld w 11 12 = 128 ∧ fld w 4 2 = 0 then
      .ok (.sysCsrw (bitAt w 31) (bvAt 5 w 6) (bvAt 4 w 0))
    else if fld w 30 1 = 1 ∧ fld w 0 23 = 524288 then
      .ok (.sysEret (bitAt w 31))
    else if fld w 30 1 = 1 ∧ fld w 11 12 = 384 ∧ fld w 5 1 = 0 then
      .ok (.sysTlbinv (bitAt w 31) (bvAt 5 w 6) (bvAt 5 w 0))
    else if fld w 30 1 = 1 ∧ fld w 11 12 = 512 ∧ fld w 5 1 = 0 then
      .ok (.sysXtinv (bitAt w 31) (bvAt 5 w 6) (bvAt 5 w 0))
    else if fld w 30 1 = 1 ∧ fld w 11 12 = 640 ∧ fld w 5 1 = 0 then
      .ok (.sysFrame (bitAt w 31) (bvAt 5 w 6) (bvAt 5 w 0))
    else if fld w 30 1 = 1 ∧ fld w 17 6 = 12 ∧ fld w 11 1 = 0 ∧ fld w 0 6 = 0 then
      .ok (.sysHaltg (bitAt w 31) (bvAt 5 w 12) (bvAt 5 w 6))
    else if fld w 30 1 = 1 ∧ fld w 11 12 = 896 ∧ fld w 0 6 = 0 then
      .ok (.sysDictld (bitAt w 31) (bvAt 5 w 6))
    else .error .badField
  | 0x7F =>
    if fld w 30 2 = 0 then
      .ok (.pfx (bvAt 3 w 20) (bitAt w 19) (bvAt 3 w 16) (opdAt w 10) (bvAt 10 w 0))
    else .error .badField
  | _ => .error .unassignedOp

/-- The instruction that a word holds. -/
def decodeWord (w : Nat) : Except Reject Instr := decodeOp (fld w 23 7) w

/-- The number with each `(lo, v)` of the list added at bit `lo`. -/
def pack : Nat → List (Nat × Nat) → Nat
  | w, [] => w
  | w, (lo, v) :: t => pack (w + v * 2 ^ lo) t

/-- The word of an instruction, from the formats of R44 and R47; events and pair words
have none. -/
def encodeWord : Instr → Option Nat
  | .nop s u =>
    some (pack 0x00000000 [(31, s.toNat), (30, u.toNat)])
  | .pfx m z r c x =>
    some (pack 0x3F800000 [(20, m.toNat), (19, z.toNat), (16, r.toNat), (10, c.code), (0, x.toNat)])
  | .add s u q t d a b =>
    some (pack 0x00800000 [(31, s.toNat), (30, u.toNat), (22, q.toNat), (18, t.toNat), (12, d.code), (6, a.code), (0, b.code)])
  | .sub s u q t d a b =>
    some (pack 0x01000000 [(31, s.toNat), (30, u.toNat), (22, q.toNat), (18, t.toNat), (12, d.code), (6, a.code), (0, b.code)])
  | .mul s u q t d a b =>
    some (pack 0x01800000 [(31, s.toNat), (30, u.toNat), (22, q.toNat), (18, t.toNat), (12, d.code), (6, a.code), (0, b.code)])
  | .mulh s u t d a b =>
    some (pack 0x02000000 [(31, s.toNat), (30, u.toNat), (18, t.toNat), (12, d.code), (6, a.code), (0, b.code)])
  | .mad s u q t d a b =>
    some (pack 0x02800000 [(31, s.toNat), (30, u.toNat), (22, q.toNat), (18, t.toNat), (12, d.code), (6, a.code), (0, b.code)])
  | .min s u t d a b =>
    some (pack 0x03000000 [(31, s.toNat), (30, u.toNat), (18, t.toNat), (12, d.code), (6, a.code), (0, b.code)])
  | .max s u t d a b =>
    some (pack 0x03800000 [(31, s.toNat), (30, u.toNat), (18, t.toNat), (12, d.code), (6, a.code), (0, b.code)])
  | .absd s u t d a b =>
    some (pack 0x04000000 [(31, s.toNat), (30, u.toNat), (18, t.toNat), (12, d.code), (6, a.code), (0, b.code)])
  | .div s u t d a b =>
    some (pack 0x04800000 [(31, s.toNat), (30, u.toNat), (18, t.toNat), (12, d.code), (6, a.code), (0, b.code)])
  | .rem s u t d a b =>
    some (pack 0x05000000 [(31, s.toNat), (30, u.toNat), (18, t.toNat), (12, d.code), (6, a.code), (0, b.code)])
  | .logic s u f d a b =>
    some (pack 0x05800000 [(31, s.toNat), (30, u.toNat), (18, f.toNat), (12, d.code), (6, a.code), (0, b.code)])
  | .shift s u e p d a b =>
    some (pack 0x06000000 [(31, s.toNat), (30, u.toNat), (20, e.toNat), (18, p.toNat), (12, d.code), (6, a.code), (0, b.code)])
  | .bits s u f d a =>
    some (pack 0x06800000 [(31, s.toNat), (30, u.toNat), (18, f.toNat), (12, d.code), (6, a.code)])
  | .bfx s u e d a b =>
    some (pack 0x07000000 [(31, s.toNat), (30, u.toNat), (18, e.toNat), (12, d.code), (6, a.code), (0, b.code)])
  | .bfi s u d a b =>
    some (pack 0x07800000 [(31, s.toNat), (30, u.toNat), (12, d.code), (6, a.code), (0, b.code)])
  | .perm s u d a b =>
    some (pack 0x08000000 [(31, s.toNat), (30, u.toNat), (12, d.code), (6, a.code), (0, b.code)])
  | .sel s m d a b =>
    some (pack 0x08800000 [(31, s.toNat), (18, m.toNat), (12, d.code), (6, a.code), (0, b.code)])
  | .cmp s u c y d a b =>
    some (pack 0x09000000 [(31, s.toNat), (30, u.toNat), (20, c.toNat), (18, y.toNat), (12, d.code), (6, a.code), (0, b.code)])
  | .fclass s u t d a =>
    some (pack 0x09800000 [(31, s.toNat), (30, u.toNat), (18, t.toNat), (12, d.code), (6, a.code)])
  | .fsgn s u o t d a b =>
    some (pack 0x0A000000 [(31, s.toNat), (30, u.toNat), (21, o.toNat), (18, t.toNat), (12, d.code), (6, a.code), (0, b.code)])
  | .sfu s h f d a =>
    some (pack 0x0A800000 [(31, s.toNat), (22, h.toNat), (18, f.toNat), (12, d.code), (6, a.code)])
  | .dot s f d a b =>
    some (pack 0x0B000000 [(31, s.toNat), (18, f.toNat), (12, d.code), (6, a.code), (0, b.code)])
  | .mov s u d a =>
    some (pack 0x0B800000 [(31, s.toNat), (30, u.toNat), (12, d.code), (6, a.code)])
  | .bcast s d g =>
    some (pack 0x0B840000 [(31, s.toNat), (12, d.code), (6, g.toNat)])
  | .movi s u d i =>
    some (pack 0x0C000000 [(31, s.toNat), (30, u.toNat), (17, d.code), (0, i.toNat)])
  | .movh s u d i =>
    some (pack 0x0C800000 [(31, s.toNat), (30, u.toNat), (17, d.code), (0, i.toNat)])
  | .addi s u d a i =>
    some (pack 0x0D000000 [(31, s.toNat), (30, u.toNat), (17, d.code), (11, a.code), (0, i.toNat)])
  | .lea s u h d a b =>
    some (pack 0x0D800000 [(31, s.toNat), (30, u.toNat), (18, h.toNat), (12, d.code), (6, a.code), (0, b.code)])
  | .cvt s u n d a t y =>
    some (pack 0x0E000000 [(31, s.toNat), (30, u.toNat), (20, n.toNat), (14, d.code), (8, a.code), (4, t.toNat), (0, y.toNat)])
  | .qscl s e d a =>
    some (pack 0x0E800000 [(31, s.toNat), (18, e.toNat), (12, d.code), (6, a.code)])
  | .qenc s e d a b =>
    some (pack 0x0F000000 [(31, s.toNat), (18, e.toNat), (12, d.code), (6, a.code), (0, b.code)])
  | .qdec s e d a b =>
    some (pack 0x0F800000 [(31, s.toNat), (18, e.toNat), (12, d.code), (6, a.code), (0, b.code)])
  | .ald s l a =>
    some (pack 0x50000000 [(31, s.toNat), (18, l.toNat), (6, a.code)])
  | .rget s l d a b =>
    some (pack 0x10800000 [(31, s.toNat), (18, l.toNat), (12, d.code), (6, a.code), (0, b.code)])
  | .rset s l d a b =>
    some (pack 0x11000000 [(31, s.toNat), (18, l.toNat), (12, d.code), (6, a.code), (0, b.code)])
  | .runpk s l d a b =>
    some (pack 0x11800000 [(31, s.toNat), (18, l.toNat), (12, d.code), (6, a.code), (0, b.code)])
  | .rpack s l d a b =>
    some (pack 0x12000000 [(31, s.toNat), (18, l.toNat), (12, d.code), (6, a.code), (0, b.code)])
  | .rdot s q y x d a b =>
    some (pack 0x12800000 [(31, s.toNat), (22, q.toNat), (20, y.toNat), (18, x.toNat), (12, d.code), (6, a.code), (0, b.code)])
  | .rsum s l d a b =>
    some (pack 0x13000000 [(31, s.toNat), (18, l.toNat), (12, d.code), (6, a.code), (0, b.code)])
  | .rchk s l d a =>
    some (pack 0x13800000 [(31, s.toNat), (18, l.toNat), (12, d.code), (6, a.code)])
  | .rmap s l d a k =>
    some (pack 0x14000000 [(31, s.toNat), (18, l.toNat), (12, d.code), (6, a.code), (0, k.toNat)])
  | .rcnt s l d a b =>
    some (pack 0x14800000 [(31, s.toNat), (18, l.toNat), (12, d.code), (6, a.code), (0, b.code)])
  | .symld s l o c d b x =>
    some (pack 0x15000000 [(31, s.toNat), (21, l.toNat), (19, o.toNat), (17, c.toNat), (11, d.code), (6, b.toNat), (1, x.toNat)])
  | .symst s l o c d b x =>
    some (pack 0x15800000 [(31, s.toNat), (21, l.toNat), (19, o.toNat), (17, c.toNat), (11, d.code), (6, b.toNat), (1, x.toNat)])
  | .shfl s f d a b =>
    some (pack 0x18000000 [(31, s.toNat), (18, f.toNat), (12, d.code), (6, a.code), (0, b.code)])
  | .bfly s w k d a =>
    some (pack 0x18800000 [(31, s.toNat), (21, w.toNat), (18, k.toNat), (12, d.code), (6, a.code)])
  | .vote s f d a =>
    some (pack 0x19000000 [(31, s.toNat), (18, f.toNat), (12, d.code), (6, a.code)])
  | .redg s o d a =>
    some (pack 0x19800000 [(31, s.toNat), (18, o.toNat), (12, d.code), (6, a.code)])
  | .scang s e o d a =>
    some (pack 0x1A000000 [(31, s.toNat), (21, e.toNat), (18, o.toNat), (12, d.code), (6, a.code)])
  | .lane s d a b =>
    some (pack 0x1A800000 [(31, s.toNat), (12, d.toNat), (6, a.code), (0, b.toNat)])
  | .lmap s f d a b =>
    some (pack 0x1B000000 [(31, s.toNat), (18, f.toNat), (12, d.code), (6, a.code), (0, b.code)])
  | .br s k a o =>
    some (pack 0x5C000000 [(31, s.toNat), (20, k.toNat), (15, a.toNat), (0, o.toNat)])
  | .brd s t m o =>
    some (pack 0x1C800000 [(31, s.toNat), (20, t.toNat), (17, m.toNat), (0, o.toNat)])
  | .jmp s a =>
    some (pack 0x5D000000 [(31, s.toNat), (6, a.code)])
  | .jmpd s t a b =>
    some (pack 0x1D800000 [(31, s.toNat), (18, t.toNat), (6, a.code), (0, b.toNat)])
  | .call s d a =>
    some (pack 0x5E000000 [(31, s.toNat), (12, d.code), (6, a.code)])
  | .loop s d a =>
    some (pack 0x5E800000 [(31, s.toNat), (12, d.code), (6, a.code)])
  | .ctlYield s =>
    some (pack 0x5F000000 [(31, s.toNat)])
  | .ctlExit s =>
    some (pack 0x5F040000 [(31, s.toNat)])
  | .ctlJoinp s =>
    some (pack 0x5F080000 [(31, s.toNat)])
  | .ctlTrap s a =>
    some (pack 0x5F0C0000 [(31, s.toNat), (6, a.code)])
  | .ctlBkpt s =>
    some (pack 0x5F100000 [(31, s.toNat)])
  | .ld s u z o c d b x =>
    some (pack 0x20000000 [(31, s.toNat), (30, u.toNat), (20, z.toNat), (18, o.toNat), (16, c.toNat), (10, d.code), (5, b.toNat), (0, x.toNat)])
  | .st s u z o c d b x =>
    some (pack 0x20800000 [(31, s.toNat), (30, u.toNat), (20, z.toNat), (18, o.toNat), (16, c.toNat), (10, d.code), (5, b.toNat), (0, x.toNat)])
  | .atom s u p o c d b x =>
    some (pack 0x21000000 [(31, s.toNat), (30, u.toNat), (20, p.toNat), (18, o.toNat), (16, c.toNat), (10, d.code), (5, b.toNat), (0, x.toNat)])
  | .atom64 s u p o c d b x =>
    some (pack 0x21800000 [(31, s.toNat), (30, u.toNat), (20, p.toNat), (18, o.toNat), (16, c.toNat), (10, d.code), (5, b.toNat), (0, x.toNat)])
  | .atomf s u p o c d b x =>
    some (pack 0x22000000 [(31, s.toNat), (30, u.toNat), (20, p.toNat), (18, o.toNat), (16, c.toNat), (10, d.code), (5, b.toNat), (0, x.toNat)])
  | .lr s u o c d b x =>
    some (pack 0x22800000 [(31, s.toNat), (30, u.toNat), (18, o.toNat), (16, c.toNat), (10, d.code), (5, b.toNat), (0, x.toNat)])
  | .sc s u m o c d b x =>
    some (pack 0x23000000 [(31, s.toNat), (30, u.toNat), (20, m.toNat), (18, o.toNat), (16, c.toNat), (10, d.code), (5, b.toNat), (0, x.toNat)])
  | .fence s o c =>
    some (pack 0x63800000 [(31, s.toNat), (18, o.toNat), (16, c.toNat)])
  | .pref s u c b x =>
    some (pack 0x24000000 [(31, s.toNat), (30, u.toNat), (16, c.toNat), (5, b.toNat), (0, x.toNat)])
  | .ldc s u z o c d b x =>
    some (pack 0x24800000 [(31, s.toNat), (30, u.toNat), (20, z.toNat), (18, o.toNat), (16, c.toNat), (10, d.code), (5, b.toNat), (0, x.toNat)])
  | .stc s u z o c d b x =>
    some (pack 0x25000000 [(31, s.toNat), (30, u.toNat), (20, z.toNat), (18, o.toNat), (16, c.toNat), (10, d.code), (5, b.toNat), (0, x.toNat)])
  | .cntw s f =>
    some (pack 0x65800000 [(31, s.toNat), (18, f.toNat)])
  | .bari s d a b =>
    some (pack 0x68000000 [(31, s.toNat), (12, d.code), (6, a.code), (0, b.code)])
  | .bara s d a =>
    some (pack 0x68800000 [(31, s.toNat), (12, d.code), (6, a.code)])
  | .barw s d a b =>
    some (pack 0x69000000 [(31, s.toNat), (12, d.code), (6, a.code), (0, b.code)])
  | .bars s d a =>
    some (pack 0x69800000 [(31, s.toNat), (12, d.code), (6, a.code)])
  | .barq s d a =>
    some (pack 0x6A000000 [(31, s.toNat), (12, d.code), (6, a.code)])
  | .sigr s a b =>
    some (pack 0x6A800000 [(31, s.toNat), (6, a.code), (0, b.code)])
  | .sigw s d =>
    some (pack 0x6B000000 [(31, s.toNat), (12, d.code)])
  | .spawn s a b =>
    some (pack 0x6B800000 [(31, s.toNat), (6, a.toNat), (0, b.toNat)])
  | .joinc s d a b =>
    some (pack 0x6C000000 [(31, s.toNat), (12, d.toNat), (6, a.toNat), (0, b.toNat)])
  | .cdec s d a =>
    some (pack 0x6C800000 [(31, s.toNat), (12, d.toNat), (6, a.toNat)])
  | .cr s d r =>
    some (pack 0x6D000000 [(31, s.toNat), (12, d.code), (0, r.toNat)])
  | .crW s a r =>
    some (pack 0x6D040000 [(31, s.toNat), (6, a.code), (0, r.toNat)])
  | .tdef s d a =>
    some (pack 0x70000000 [(31, s.toNat), (12, d.toNat), (6, a.toNat)])
  | .tsetEmpty s d =>
    some (pack 0x70800000 [(31, s.toNat), (12, d.toNat)])
  | .tsetReady s d =>
    some (pack 0x70840000 [(31, s.toNat), (12, d.toNat)])
  | .tld s t d a b =>
    some (pack 0x71000000 [(31, s.toNat), (18, t.toNat), (12, d.toNat), (6, a.toNat), (0, b.toNat)])
  | .tst s d a b =>
    some (pack 0x71800000 [(31, s.toNat), (12, d.toNat), (6, a.toNat), (0, b.toNat)])
  | .mmq s l f d a b =>
    some (pack 0x32000000 [(31, s.toNat), (21, l.toNat), (18, f.toNat), (12, d.toNat), (6, a.toNat), (0, b.toNat)])
  | .mmt s d a =>
    some (pack 0x72800000 [(31, s.toNat), (12, d.toNat), (6, a.toNat)])
  | .mms s d a =>
    some (pack 0x73000000 [(31, s.toNat), (12, d.toNat), (6, a.toNat)])
  | .mnorm s d a =>
    some (pack 0x73800000 [(31, s.toNat), (12, d.toNat), (6, a.toNat)])
  | .aliasTab s d a =>
    some (pack 0x74000000 [(31, s.toNat), (12, d.toNat), (6, a.toNat)])
  | .accz s d =>
    some (pack 0x74800000 [(31, s.toNat), (12, d.toNat)])
  | .accr s d a b =>
    some (pack 0x35000000 [(31, s.toNat), (12, d.toNat), (6, a.toNat), (0, b.toNat)])
  | .drain s r d a b =>
    some (pack 0x75800000 [(31, s.toNat), (18, r.toNat), (12, d.toNat), (6, a.toNat), (0, b.toNat)])
  | .txp s d a =>
    some (pack 0x76000000 [(31, s.toNat), (12, d.toNat), (6, a.toNat)])
  | .varr s d a =>
    some (pack 0x76800000 [(31, s.toNat), (12, d.toNat), (6, a.toNat)])
  | .tq s d q =>
    some (pack 0x77000000 [(31, s.toNat), (12, d.toNat), (0, q.toNat)])
  | .itnew s f d a =>
    some (pack 0x78000000 [(31, s.toNat), (18, f.toNat), (12, d.toNat), (6, a.toNat)])
  | .itadd s f d a b =>
    some (pack 0x78800000 [(31, s.toNat), (18, f.toNat), (12, d.toNat), (6, a.toNat), (0, b.toNat)])
  | .next s f c a m =>
    some (pack 0x79000000 [(31, s.toNat), (18, f.toNat), (12, c.toNat), (6, a.toNat), (0, m.toNat)])
  | .enough s d =>
    some (pack 0x79800000 [(31, s.toNat), (12, d.toNat)])
  | .itsave s d a b =>
    some (pack 0x7A000000 [(31, s.toNat), (12, d.toNat), (6, a.toNat), (0, b.toNat)])
  | .itload s d a =>
    some (pack 0x7A800000 [(31, s.toNat), (12, d.toNat), (6, a.toNat)])
  | .itq s d a =>
    some (pack 0x7B000000 [(31, s.toNat), (12, d.toNat), (6, a.toNat)])
  | .cpy s k q g =>
    some (pack 0x7C000000 [(31, s.toNat), (20, k.toNat), (17, q.toNat), (12, g.toNat)])
  | .qfence s m =>
    some (pack 0x7C800000 [(31, s.toNat), (15, m.toNat)])
  | .qwait s d a b =>
    some (pack 0x7D000000 [(31, s.toNat), (12, d.code), (6, a.code), (0, b.code)])
  | .coll s k q g =>
    some (pack 0x7D800000 [(31, s.toNat), (20, k.toNat), (17, q.toNat), (12, g.toNat)])
  | .snapFreeze s d a b =>
    some (pack 0x7E000000 [(31, s.toNat), (12, d.toNat), (6, a.toNat), (0, b.toNat)])
  | .snapQuery s d =>
    some (pack 0x7E040000 [(31, s.toNat), (12, d.toNat)])
  | .snapRelease s d =>
    some (pack 0x7E080000 [(31, s.toNat), (12, d.toNat)])
  | .sysCsrr s d r =>
    some (pack 0x7E800000 [(31, s.toNat), (12, d.toNat), (0, r.toNat)])
  | .sysCsrw s a r =>
    some (pack 0x7E840000 [(31, s.toNat), (6, a.toNat), (0, r.toNat)])
  | .sysEret s =>
    some (pack 0x7E880000 [(31, s.toNat)])
  | .sysTlbinv s a b =>
    some (pack 0x7E8C0000 [(31, s.toNat), (6, a.toNat), (0, b.toNat)])
  | .sysXtinv s a b =>
    some (pack 0x7E900000 [(31, s.toNat), (6, a.toNat), (0, b.toNat)])
  | .sysFrame s a b =>
    some (pack 0x7E940000 [(31, s.toNat), (6, a.toNat), (0, b.toNat)])
  | .sysHaltg s d a =>
    some (pack 0x7E980000 [(31, s.toNat), (12, d.toNat), (6, a.toNat)])
  | .sysDictld s a =>
    some (pack 0x7E9C0000 [(31, s.toNat), (6, a.toNat)])
  | .dictPairWord _ => none
  | .clauseFetch => none
  | .trapEntry _ => none
  | .preempt _ => none
  | .park _ => none
  | .faultRequest _ _ _ _ => none
  | .faultReplyResolved _ _ _ => none
  | .faultReplyRefused _ _ => none
  | .faultNak _ _ _ => none
  | .forwardedAccess _ _ _ _ _ _ _ _ _ _ => none
  | .retired _ _ => none
  | .remoteAccessTimeout _ => none
  | .extentRetranslate _ _ _ => none
  | .accessReply _ _ _ => none
  | .storeAck _ _ _ _ _ _ => none
  | .recordPop _ => none
  | .wheySpawn _ => none
  | .idle _ _ => none
  | .flush _ => none
  | .dispatching _ => none
  | .dispatchComplete _ => none
  | .launchRecordQueue _ => none
  | .taskRetirement _ => none
  | .rcbFold => none
  | .queueEntryActivate _ _ => none
  | .engineElement _ _ => none
  | .completionWrite _ _ => none
  | .engineTimeout _ _ => none
  | .tileRowArrival _ _ => none
  | .tileDrainDone _ _ => none
  | .iteratorPrefetch _ _ => none
  | .signalReceive _ _ => none
  | .collDataFlit _ => none
  | .holdFlit _ _ => none
  | .hopTimeout _ _ _ => none
  | .abortFlit _ _ _ _ => none
  | .abortFlitExpiry _ => none
  | .shadowCopy _ _ => none
  | .drainStart => none
  | .granuleAck _ => none
  | .enable _ => none
  | .use _ => none
  | .portDrain _ => none
  | .disable _ => none
  | .linkup _ _ => none
  | .trainingTimeout _ => none
  | .joined _ _ => none
  | .negotiationRetry _ _ => none
  | .degraded _ _ => none
  | .degradedRecovery _ _ => none
  | .portDrainDone _ => none
  | .linkLoss _ => none
  | .inboundRdma _ _ _ _ _ _ _ _ _ _ => none
  | .attestationRequest _ => none
  | .go _ => none
  | .resetSend _ => none
  | .load _ _ => none
  | .activate _ => none
  | .quiesce _ => none
  | .quiesceComplete _ => none
  | .kill _ => none
  | .done _ => none
  | .free _ => none
  | .ctxctlClearErr _ => none
  | .cmdbaseWrite _ => none
  | .cqbaseWrite _ _ => none
  | .snpoolWrite _ => none
  | .varianceRecordWrite _ _ _ => none
  | .feataccWrite _ => none
  | .minverWrite _ => none
  | .confirm _ => none
  | .hotremove _ => none
  | .evheadWrite _ => none
  | .ovfClear => none
  | .bootcmdReset => none
  | .registerWrite _ _ _ => none
  | .refresh _ _ => none
  | .selfRefresh _ _ _ => none
  | .parityAlert _ _ _ => none
  | .chanout _ _ => none
  | .scrub _ _ _ _ => none
  | .strike _ => none
  | .resultCommit _ => none
  | .replay _ _ _ => none
  | .powerLimit _ => none
  | .powerGood => none
  | .fwload => none
  | .hbminit _ => none
  | .links => none
  | .fatal _ => none
  | .linkLevelRetry _ => none
  | .matUpdateWritten _ _ => none
  | .remoteAtomf _ _ _ _ _ _ => none
  | .channelRetrainDone _ _ => none

/-- The instruction that a dictionary code issues: `ROT` moves the register number of every
6-bit operand field, and no plain number and no field that must be 0 (R53, R41, R61). -/
def Instr.rotate (rot : BitVec 5) : Instr → Instr
  | .pfx m z r c x => .pfx m z r c x
  | .add s u q t d a b =>
    .add s u q t (d.rotate rot) (a.rotate rot) (b.rotate rot)
  | .sub s u q t d a b =>
    .sub s u q t (d.rotate rot) (a.rotate rot) (b.rotate rot)
  | .mul s u q t d a b =>
    .mul s u q t (d.rotate rot) (a.rotate rot) (b.rotate rot)
  | .mulh s u t d a b =>
    .mulh s u t (d.rotate rot) (a.rotate rot) (b.rotate rot)
  | .mad s u q t d a b =>
    .mad s u q t (d.rotate rot) (a.rotate rot) (b.rotate rot)
  | .min s u t d a b =>
    .min s u t (d.rotate rot) (a.rotate rot) (b.rotate rot)
  | .max s u t d a b =>
    .max s u t (d.rotate rot) (a.rotate rot) (b.rotate rot)
  | .absd s u t d a b =>
    .absd s u t (d.rotate rot) (a.rotate rot) (b.rotate rot)
  | .div s u t d a b =>
    .div s u t (d.rotate rot) (a.rotate rot) (b.rotate rot)
  | .rem s u t d a b =>
    .rem s u t (d.rotate rot) (a.rotate rot) (b.rotate rot)
  | .logic s u f d a b =>
    .logic s u f (d.rotate rot) (a.rotate rot) (b.rotate rot)
  | .shift s u e p d a b =>
    .shift s u e p (d.rotate rot) (a.rotate rot) (b.rotate rot)
  | .bits s u f d a =>
    .bits s u f (d.rotate rot) (a.rotate rot)
  | .bfx s u e d a b =>
    .bfx s u e (d.rotate rot) (a.rotate rot) (b.rotate rot)
  | .bfi s u d a b =>
    .bfi s u (d.rotate rot) (a.rotate rot) (b.rotate rot)
  | .perm s u d a b =>
    .perm s u (d.rotate rot) (a.rotate rot) (b.rotate rot)
  | .sel s m d a b =>
    .sel s m (d.rotate rot) (a.rotate rot) (b.rotate rot)
  | .cmp s u c y d a b =>
    .cmp s u c y (if u then d.rotate rot else d) (a.rotate rot) (b.rotate rot)
  | .fclass s u t d a =>
    .fclass s u t (d.rotate rot) (a.rotate rot)
  | .fsgn s u o t d a b =>
    .fsgn s u o t (d.rotate rot) (a.rotate rot) (if o = 2#2 then b.rotate rot else b)
  | .sfu s h f d a =>
    .sfu s h f (d.rotate rot) (a.rotate rot)
  | .dot s f d a b =>
    .dot s f (d.rotate rot) (a.rotate rot) (b.rotate rot)
  | .mov s u d a =>
    .mov s u (d.rotate rot) (a.rotate rot)
  | .bcast s d g =>
    .bcast s (d.rotate rot) (g + rot)
  | .movi s u d i =>
    .movi s u (d.rotate rot) i
  | .movh s u d i =>
    .movh s u (d.rotate rot) i
  | .addi s u d a i =>
    .addi s u (d.rotate rot) (a.rotate rot) i
  | .lea s u h d a b =>
    .lea s u h (d.rotate rot) (a.rotate rot) (b.rotate rot)
  | .cvt s u n d a t y =>
    .cvt s u n (d.rotate rot) (a.rotate rot) t y
  | .qscl s e d a =>
    .qscl s e (d.rotate rot) (a.rotate rot)
  | .qenc s e d a b =>
    .qenc s e (d.rotate rot) (a.rotate rot) (b.rotate rot)
  | .qdec s e d a b =>
    .qdec s e (d.rotate rot) (a.rotate rot) (b.rotate rot)
  | .ald s l a =>
    .ald s l (a.rotate rot)
  | .rget s l d a b =>
    .rget s l (d.rotate rot) (a.rotate rot) (b.rotate rot)
  | .rset s l d a b =>
    .rset s l (d.rotate rot) (a.rotate rot) (b.rotate rot)
  | .runpk s l d a b =>
    .runpk s l (d.rotate rot) (a.rotate rot) (b.rotate rot)
  | .rpack s l d a b =>
    .rpack s l (d.rotate rot) (a.rotate rot) (b.rotate rot)
  | .rdot s q y x d a b =>
    .rdot s q y x (d.rotate rot) (a.rotate rot) (b.rotate rot)
  | .rsum s l d a b =>
    .rsum s l (d.rotate rot) (a.rotate rot) (b.rotate rot)
  | .rchk s l d a =>
    .rchk s l (d.rotate rot) (a.rotate rot)
  | .rmap s l d a k =>
    .rmap s l (d.rotate rot) (a.rotate rot) k
  | .rcnt s l d a b =>
    .rcnt s l (d.rotate rot) (a.rotate rot) (b.rotate rot)
  | .symld s l o c d b x =>
    .symld s l o c (d.rotate rot) b x
  | .symst s l o c d b x =>
    .symst s l o c (d.rotate rot) b x
  | .shfl s f d a b =>
    .shfl s f (d.rotate rot) (a.rotate rot) (b.rotate rot)
  | .bfly s w k d a =>
    .bfly s w k (d.rotate rot) (a.rotate rot)
  | .vote s f d a =>
    .vote s f (d.rotate rot) (a.rotate rot)
  | .redg s o d a =>
    .redg s o (d.rotate rot) (a.rotate rot)
  | .scang s e o d a =>
    .scang s e o (d.rotate rot) (a.rotate rot)
  | .lane s d a b =>
    .lane s (d + rot) (a.rotate rot) (b + rot)
  | .lmap s f d a b =>
    .lmap s f (if f = 2#5 then d else d.rotate rot) (if f = 2#5 then a.rotate rot else a) b
  | .jmp s a =>
    .jmp s (a.rotate rot)
  | .jmpd s t a b =>
    .jmpd s t (a.rotate rot) (b + rot)
  | .call s d a =>
    .call s (d.rotate rot) (a.rotate rot)
  | .loop s d a =>
    .loop s (d.rotate rot) (a.rotate rot)
  | .ctlTrap s a =>
    .ctlTrap s (a.rotate rot)
  | .ld s u z o c d b x =>
    .ld s u z o c (d.rotate rot) b x
  | .st s u z o c d b x =>
    .st s u z o c (d.rotate rot) b x
  | .atom s u p o c d b x =>
    .atom s u p o c (d.rotate rot) b x
  | .atom64 s u p o c d b x =>
    .atom64 s u p o c (d.rotate rot) b x
  | .atomf s u p o c d b x =>
    .atomf s u p o c (d.rotate rot) b x
  | .lr s u o c d b x =>
    .lr s u o c (d.rotate rot) b x
  | .sc s u m o c d b x =>
    .sc s u m o c (d.rotate rot) b x
  | .ldc s u z o c d b x =>
    .ldc s u z o c (d.rotate rot) b x
  | .stc s u z o c d b x =>
    .stc s u z o c (d.rotate rot) b x
  | .bari s d a b =>
    .bari s (d.rotate rot) (a.rotate rot) (b.rotate rot)
  | .bara s d a =>
    .bara s (d.rotate rot) (a.rotate rot)
  | .barw s d a b =>
    .barw s (d.rotate rot) (a.rotate rot) (b.rotate rot)
  | .bars s d a =>
    .bars s (d.rotate rot) (a.rotate rot)
  | .barq s d a =>
    .barq s (d.rotate rot) (a.rotate rot)
  | .sigr s a b =>
    .sigr s (a.rotate rot) (b.rotate rot)
  | .sigw s d =>
    .sigw s (d.rotate rot)
  | .cr s d r =>
    .cr s (d.rotate rot) r
  | .crW s a r =>
    .crW s (a.rotate rot) r
  | .accr s d a b =>
    .accr s (d + rot) a b
  | .qwait s d a b =>
    .qwait s (d.rotate rot) (a.rotate rot) (b.rotate rot)
  | .nop s u => .nop s u
  | .br s k a o => .br s k a o
  | .brd s t m o => .brd s t m o
  | .ctlYield s => .ctlYield s
  | .ctlExit s => .ctlExit s
  | .ctlJoinp s => .ctlJoinp s
  | .ctlBkpt s => .ctlBkpt s
  | .fence s o c => .fence s o c
  | .pref s u c b x => .pref s u c b x
  | .cntw s f => .cntw s f
  | .spawn s a b => .spawn s (a + rot) (b + rot)
  | .joinc s d a b => .joinc s (d + rot) (a + rot) (b + rot)
  | .cdec s d a => .cdec s (d + rot) (a + rot)
  | .tdef s d a => .tdef s d (a + rot)
  | .tsetEmpty s d => .tsetEmpty s d
  | .tsetReady s d => .tsetReady s d
  | .tld s t d a b => .tld s t d (a + rot) (b + rot)
  | .tst s d a b => .tst s d (a + rot) (b + rot)
  | .mmq s l f d a b => .mmq s l f d (a + rot) (b + rot)
  | .mmt s d a => .mmt s d (a + rot)
  | .mms s d a => .mms s d (a + rot)
  | .mnorm s d a => .mnorm s d (a + rot)
  | .aliasTab s d a => .aliasTab s d (a + rot)
  | .accz s d => .accz s d
  | .drain s r d a b => .drain s r d (a + rot) (b + rot)
  | .txp s d a => .txp s d a
  | .varr s d a => .varr s (d + rot) a
  | .tq s d q => .tq s d q
  | .itnew s f d a => .itnew s f d (a + rot)
  | .itadd s f d a b => .itadd s f d (a + rot) b
  | .next s f c a m => .next s f c a m
  | .enough s d => .enough s d
  | .itsave s d a b => .itsave s (d + rot) a (b + rot)
  | .itload s d a => .itload s d (a + rot)
  | .itq s d a => .itq s (d + rot) a
  | .cpy s k q g => .cpy s k q g
  | .qfence s m => .qfence s m
  | .coll s k q g => .coll s k q g
  | .snapFreeze s d a b => .snapFreeze s (d + rot) (a + rot) (b + rot)
  | .snapQuery s d => .snapQuery s (d + rot)
  | .snapRelease s d => .snapRelease s (d + rot)
  | .sysCsrr s d r => .sysCsrr s (d + rot) r
  | .sysCsrw s a r => .sysCsrw s (a + rot) r
  | .sysEret s => .sysEret s
  | .sysTlbinv s a b => .sysTlbinv s (a + rot) (b + rot)
  | .sysXtinv s a b => .sysXtinv s (a + rot) (b + rot)
  | .sysFrame s a b => .sysFrame s (a + rot) (b + rot)
  | .sysHaltg s d a => .sysHaltg s (d + rot) (a + rot)
  | .sysDictld s a => .sysDictld s (a + rot)
  | .dictPairWord x0 => .dictPairWord x0
  | .clauseFetch => .clauseFetch
  | .trapEntry x0 => .trapEntry x0
  | .preempt x0 => .preempt x0
  | .park x0 => .park x0
  | .faultRequest x0 x1 x2 x3 => .faultRequest x0 x1 x2 x3
  | .faultReplyResolved x0 x1 x2 => .faultReplyResolved x0 x1 x2
  | .faultReplyRefused x0 x1 => .faultReplyRefused x0 x1
  | .faultNak x0 x1 x2 => .faultNak x0 x1 x2
  | .forwardedAccess x0 x1 x2 x3 x4 x5 x6 x7 x8 x9 => .forwardedAccess x0 x1 x2 x3 x4 x5 x6 x7 x8 x9
  | .retired x0 x1 => .retired x0 x1
  | .remoteAccessTimeout x0 => .remoteAccessTimeout x0
  | .extentRetranslate x0 x1 x2 => .extentRetranslate x0 x1 x2
  | .accessReply x0 x1 x2 => .accessReply x0 x1 x2
  | .storeAck x0 x1 x2 x3 x4 x5 => .storeAck x0 x1 x2 x3 x4 x5
  | .recordPop x0 => .recordPop x0
  | .wheySpawn x0 => .wheySpawn x0
  | .idle x0 x1 => .idle x0 x1
  | .flush x0 => .flush x0
  | .dispatching x0 => .dispatching x0
  | .dispatchComplete x0 => .dispatchComplete x0
  | .launchRecordQueue x0 => .launchRecordQueue x0
  | .taskRetirement x0 => .taskRetirement x0
  | .rcbFold => .rcbFold
  | .queueEntryActivate x0 x1 => .queueEntryActivate x0 x1
  | .engineElement x0 x1 => .engineElement x0 x1
  | .completionWrite x0 x1 => .completionWrite x0 x1
  | .engineTimeout x0 x1 => .engineTimeout x0 x1
  | .tileRowArrival x0 x1 => .tileRowArrival x0 x1
  | .tileDrainDone x0 x1 => .tileDrainDone x0 x1
  | .iteratorPrefetch x0 x1 => .iteratorPrefetch x0 x1
  | .signalReceive x0 x1 => .signalReceive x0 x1
  | .collDataFlit x0 => .collDataFlit x0
  | .holdFlit x0 x1 => .holdFlit x0 x1
  | .hopTimeout x0 x1 x2 => .hopTimeout x0 x1 x2
  | .abortFlit x0 x1 x2 x3 => .abortFlit x0 x1 x2 x3
  | .abortFlitExpiry x0 => .abortFlitExpiry x0
  | .shadowCopy x0 x1 => .shadowCopy x0 x1
  | .drainStart => .drainStart
  | .granuleAck x0 => .granuleAck x0
  | .enable x0 => .enable x0
  | .use x0 => .use x0
  | .portDrain x0 => .portDrain x0
  | .disable x0 => .disable x0
  | .linkup x0 x1 => .linkup x0 x1
  | .trainingTimeout x0 => .trainingTimeout x0
  | .joined x0 x1 => .joined x0 x1
  | .negotiationRetry x0 x1 => .negotiationRetry x0 x1
  | .degraded x0 x1 => .degraded x0 x1
  | .degradedRecovery x0 x1 => .degradedRecovery x0 x1
  | .portDrainDone x0 => .portDrainDone x0
  | .linkLoss x0 => .linkLoss x0
  | .inboundRdma x0 x1 x2 x3 x4 x5 x6 x7 x8 x9 => .inboundRdma x0 x1 x2 x3 x4 x5 x6 x7 x8 x9
  | .attestationRequest x0 => .attestationRequest x0
  | .go x0 => .go x0
  | .resetSend x0 => .resetSend x0
  | .load x0 x1 => .load x0 x1
  | .activate x0 => .activate x0
  | .quiesce x0 => .quiesce x0
  | .quiesceComplete x0 => .quiesceComplete x0
  | .kill x0 => .kill x0
  | .done x0 => .done x0
  | .free x0 => .free x0
  | .ctxctlClearErr x0 => .ctxctlClearErr x0
  | .cmdbaseWrite x0 => .cmdbaseWrite x0
  | .cqbaseWrite x0 x1 => .cqbaseWrite x0 x1
  | .snpoolWrite x0 => .snpoolWrite x0
  | .varianceRecordWrite x0 x1 x2 => .varianceRecordWrite x0 x1 x2
  | .feataccWrite x0 => .feataccWrite x0
  | .minverWrite x0 => .minverWrite x0
  | .confirm x0 => .confirm x0
  | .hotremove x0 => .hotremove x0
  | .evheadWrite x0 => .evheadWrite x0
  | .ovfClear => .ovfClear
  | .bootcmdReset => .bootcmdReset
  | .registerWrite x0 x1 x2 => .registerWrite x0 x1 x2
  | .refresh x0 x1 => .refresh x0 x1
  | .selfRefresh x0 x1 x2 => .selfRefresh x0 x1 x2
  | .parityAlert x0 x1 x2 => .parityAlert x0 x1 x2
  | .chanout x0 x1 => .chanout x0 x1
  | .scrub x0 x1 x2 x3 => .scrub x0 x1 x2 x3
  | .strike x0 => .strike x0
  | .resultCommit x0 => .resultCommit x0
  | .replay x0 x1 x2 => .replay x0 x1 x2
  | .powerLimit x0 => .powerLimit x0
  | .powerGood => .powerGood
  | .fwload => .fwload
  | .hbminit x0 => .hbminit x0
  | .links => .links
  | .fatal x0 => .fatal x0
  | .linkLevelRetry x0 => .linkLevelRetry x0
  | .matUpdateWritten x0 x1 => .matUpdateWritten x0 x1
  | .remoteAtomf x0 x1 x2 x3 x4 x5 => .remoteAtomf x0 x1 x2 x3 x4 x5
  | .channelRetrainDone x0 x1 => .channelRetrainDone x0 x1

/-- Whether the row is an event of the hardware or of its surroundings, and no word that an
agent issues. -/
def Instr.isEvent : Instr → Bool
  | .trapEntry _ => true
  | .preempt _ => true
  | .park _ => true
  | .faultRequest _ _ _ _ => true
  | .faultReplyResolved _ _ _ => true
  | .faultReplyRefused _ _ => true
  | .faultNak _ _ _ => true
  | .forwardedAccess _ _ _ _ _ _ _ _ _ _ => true
  | .retired _ _ => true
  | .remoteAccessTimeout _ => true
  | .extentRetranslate _ _ _ => true
  | .accessReply _ _ _ => true
  | .storeAck _ _ _ _ _ _ => true
  | .recordPop _ => true
  | .wheySpawn _ => true
  | .idle _ _ => true
  | .flush _ => true
  | .dispatching _ => true
  | .dispatchComplete _ => true
  | .launchRecordQueue _ => true
  | .taskRetirement _ => true
  | .rcbFold => true
  | .queueEntryActivate _ _ => true
  | .engineElement _ _ => true
  | .completionWrite _ _ => true
  | .engineTimeout _ _ => true
  | .tileRowArrival _ _ => true
  | .tileDrainDone _ _ => true
  | .iteratorPrefetch _ _ => true
  | .signalReceive _ _ => true
  | .collDataFlit _ => true
  | .holdFlit _ _ => true
  | .hopTimeout _ _ _ => true
  | .abortFlit _ _ _ _ => true
  | .abortFlitExpiry _ => true
  | .shadowCopy _ _ => true
  | .drainStart => true
  | .granuleAck _ => true
  | .enable _ => true
  | .use _ => true
  | .portDrain _ => true
  | .disable _ => true
  | .linkup _ _ => true
  | .trainingTimeout _ => true
  | .joined _ _ => true
  | .negotiationRetry _ _ => true
  | .degraded _ _ => true
  | .degradedRecovery _ _ => true
  | .portDrainDone _ => true
  | .linkLoss _ => true
  | .inboundRdma _ _ _ _ _ _ _ _ _ _ => true
  | .attestationRequest _ => true
  | .go _ => true
  | .resetSend _ => true
  | .load _ _ => true
  | .activate _ => true
  | .quiesce _ => true
  | .quiesceComplete _ => true
  | .kill _ => true
  | .done _ => true
  | .free _ => true
  | .ctxctlClearErr _ => true
  | .cmdbaseWrite _ => true
  | .cqbaseWrite _ _ => true
  | .snpoolWrite _ => true
  | .varianceRecordWrite _ _ _ => true
  | .feataccWrite _ => true
  | .minverWrite _ => true
  | .confirm _ => true
  | .hotremove _ => true
  | .evheadWrite _ => true
  | .ovfClear => true
  | .bootcmdReset => true
  | .registerWrite _ _ _ => true
  | .refresh _ _ => true
  | .selfRefresh _ _ _ => true
  | .parityAlert _ _ _ => true
  | .chanout _ _ => true
  | .scrub _ _ _ _ => true
  | .strike _ => true
  | .resultCommit _ => true
  | .replay _ _ _ => true
  | .powerLimit _ => true
  | .powerGood => true
  | .fwload => true
  | .hbminit _ => true
  | .links => true
  | .fatal _ => true
  | .linkLevelRetry _ => true
  | .matUpdateWritten _ _ => true
  | .remoteAtomf _ _ _ _ _ _ => true
  | .channelRetrainDone _ _ => true
  | _ => false

/-- The engine class of an `OP` (R31): `none` for NOP, which belongs to every class, and for
an `OP` that the map does not assign. -/
def opClass (op : Nat) : Option Nat :=
  if 0x01 ≤ op ∧ op ≤ 0x29 ∨ 0x30 ≤ op ∧ op ≤ 0x36 then some 0
  else if op = 0x2A ∨ op = 0x2B ∨ 0x40 ≤ op ∧ op ≤ 0x4B then some 1
  else if 0x60 ≤ op ∧ op ≤ 0x6E then some 2
  else if 0x70 ≤ op ∧ op ≤ 0x76 then some 3
  else if 0x78 ≤ op ∧ op ≤ 0x7C then some 4
  else if 0x38 ≤ op ∧ op ≤ 0x3E ∨ 0x50 ≤ op ∧ op ≤ 0x5A then some 5
  else if op = 0x7D then some 6
  else none

/-- The control-transfer words (R33), by their bits: BR, BRD, JMP, JMPD, CALL, LOOP and
CTL.EXIT. -/
def isTransfer (w : Nat) : Bool :=
  let op := fld w 23 7
  decide (0x38 ≤ op ∧ op ≤ 0x3D) || (op == 0x3E && fld w 18 5 == 1)

/-- The clause header that a word holds, when its `SIG` is 0b10110 (R29). -/
def decodeHeader (w : Nat) : Option Header :=
  if fld w 0 5 = 0b10110 then
    some { n := bvAt 4 w 28, ecls := bvAt 3 w 25, w := bvAt 4 w 21,
           pair := bvAt 15 w 6, l := bitAt w 5 }
  else none

/-- The word of a clause header (R29). -/
def encodeHeader (h : Header) : Nat :=
  0b10110 + h.l.toNat * 2 ^ 5 + h.pair.toNat * 2 ^ 6 + h.w.toNat * 2 ^ 21
    + h.ecls.toNat * 2 ^ 25 + h.n.toNat * 2 ^ 28

/-- A code of a pair word (R53). -/
def decodePair (c : Nat) : PairCode :=
  { s := bitAt c 15, rot := bvAt 5 c 10, idx := bvAt 10 c 0 }

/-- The halfword of a pair code (R53). -/
def encodePair (c : PairCode) : Nat :=
  c.idx.toNat + c.rot.toNat * 2 ^ 10 + c.s.toNat * 2 ^ 15

/-- The instruction read from the bits of a 32-bit instruction word, numbered as the opcode
table numbers them; a row of any other length is no instruction word. -/
def decodeTableWord (nbits w : Nat) : Option Instr :=
  if nbits = 32 then (decodeWord w).toOption else none

end Sys2Proof
end

