-- ==== Sys2Proof/Machine/State.lean ====
section
/-! DEFINITION. The state of a Zhoxus M4 module, as plain data: groups and lead threads, the
cores that hold them, and the units of the module. Register files, memories and tables are
sparse: an address or number that is not listed holds the default that the operation which
reads it names. -/

namespace Sys2Proof.Machine

/-- A sparse table: keys in strictly rising order, and no entry equal to the default of the
table. -/
abbrev SMap (α : Type) := List (Nat × α)

/-- The memory of the module by local address (R13, R16), one byte an entry. An address that
is not listed reads as 0. -/
abbrev Memory := List Host.Cell

/-- One vector register: 32 lanes of 32 bits, logical lane 0 first. -/
abbrev VReg := List Word

/-- One entry of a path table (R217): where the path stands, who belongs to it, and whether
it waits at a JOINP. -/
structure Path where
  pc : Word64
  wix : Nat
  h : Bool
  mask : Word
  waiting : Bool
  joinp : Word64
  deriving DecidableEq, Repr

/-- A channel (R215, R393): its depth and its elements, oldest first. -/
structure Chan (α : Type) where
  depth : Nat
  elems : List α
  deriving DecidableEq, Repr

/-- The completion counter classes (R36). -/
inductive CtrClass where
  | ld | st | mat | chn
  deriving DecidableEq, Repr

/-- A write that a reply makes (R207). -/
inductive RegWrite where
  /-- Lane `t` of vector register `n`. -/
  | lane (n t : Nat) (x : Word)
  /-- A uniform or lead register. -/
  | uni (n : Nat) (x : Word64)
  /-- Bit `t` of mask register `n`. -/
  | mask (n t : Nat) (b : Bool)
  /-- One element of a group channel. -/
  | push (c : Nat) (x : VReg)
  /-- One element of a task channel. -/
  | pushTask (c : Nat) (x : Word64)
  deriving DecidableEq, Repr

/-- An access of a word that another module performs: the lane that makes it, its virtual address,
what `cr.tinfo` holds when it is refused (R14, R183), the module it went to, and the answer as soon as
there is one (R182, R183). -/
structure Rem where
  tag : Nat
  lane : Nat
  va : Word64
  info : Word64
  dst : Nat
  /-- A posted store that its word waits for: a refusal is no trap (R14). -/
  soft : Bool
  /-- It counts as outstanding work of its task while it is on its way (R311). -/
  cnt : Bool
  /-- No time-out ends it (R294). -/
  patient : Bool
  ans : Option Answer
  deriving DecidableEq, Repr

/-- An instruction that has issued and has not finished (R36): its tag, its class, the register
writes that its reply makes, the flags that it raises then, the accesses that are still to be
acknowledged, the posted stores that it has sent to other modules, and whether its accesses on this
module have yet to be counted as performed. -/
structure Outst where
  tag : Nat
  cls : CtrClass
  writes : List RegWrite
  flags : BitVec 9
  left : Nat
  sent : Nat
  more : Bool
  deriving DecidableEq, Repr

/-- The fields of a prefix word (R47). -/
structure Pfx where
  m : BitVec 3
  z : Bool
  rnd : BitVec 3
  c : Opd
  x : BitVec 10
  deriving DecidableEq, Repr

/-- A fetched clause (R28): its header's address, the header, and its words. -/
structure Clause where
  addr : Word64
  hdr : Header
  words : List Word
  deriving DecidableEq, Repr

/-- What a pair code has taken from the dictionary (R53): the instruction after `ROT`, or
none when the entry holds none, and the switch marker it issues with. -/
structure PairLatch where
  ins : Option Instr
  s : Bool
  deriving DecidableEq, Repr

/-- What an agent takes as soon as its outstanding results are written: nothing, a trap
(R413), a park with the faulting address, the access kind and the performed threads (R181),
or a halt with its cause (R210, R423). -/
inductive Pend where
  | none
  | trap (code : Nat) (info : Word64)
  | park (va : Word64) (kind : Nat) (perf : Word) (home : Option Nat) (malformed : Bool)
  | halt (cause pa va : Nat)
  deriving DecidableEq, Repr

/-- How a group came to run (R97, R229, R405): decides its decision cursor (R394) and its
part of the scratchpad (R473). -/
inductive Origin where
  | launch | formed | spawned
  deriving DecidableEq, Repr

/-- An element that a word which waits has taken out of a channel, or has seen at its head (R42): whether it
peeks, the channel, and the element of a group channel or of a task channel. -/
structure Taken where
  peek : Bool
  chan : Nat
  v : VReg
  x : Word64
  deriving DecidableEq, Repr

/-- A word that has issued and waits: for an element of a channel that it pops or peeks (R71, R215),
for its place behind earlier accesses of its agent, or for the answers to its accesses (R35, R191).
It holds its tag, the instruction, whether the accesses and channel words after it stand behind it, its counter class, the channels
whose elements its sources have yet to take and those that they have taken, its destination, the path table as it
issued, its prefix, the registers as they stood then, and what it has performed of its accesses. -/
structure Late where
  tag : Nat
  ins : Instr
  mem : Bool
  cls : Option CtrClass
  pops : List Nat
  hand : List Taken
  dst : Option Opd
  paths : List Path
  cur : Nat
  pfx : Option Pfx
  x : SMap Word64
  v : SMap VReg
  m : SMap Word
  al : SMap Word64
  tids : SMap Word
  perf : Word
  got : List (Nat × Nat)
  gotFl : BitVec 9
  rem : Option Rem
  far : Option Nat
  deriving DecidableEq, Repr

/-- What an agent lays aside while it goes on with a word that has issued: its position and registers,
and what it has performed of the word that issues next. -/
structure Aside where
  paths : List Path
  cur : Nat
  clause : Option Clause
  pfx : Option Pfx
  pairw : Option PairLatch
  x : SMap Word64
  v : SMap VReg
  m : SMap Word
  al : SMap Word64
  tids : SMap Word
  perf : Word
  got : List (Nat × Nat)
  gotFl : BitVec 9
  rem : Option Rem
  far : Option Nat
  deriving DecidableEq, Repr

/-- What the next fetch of an agent must find (R30, R57): a clause; a landing point, for a
trap vector (R408); or a landing point, for a SPAWN or JOIN record (R405). -/
inductive FetchChk where
  | plain | vector | spawned
  deriving DecidableEq, Repr

/-- A group (R214) or a lead thread (R388). A group uses `x` for `g0` to `g31` and a lead
for `s0` to `s31`. -/
structure Agent where
  lead : Bool
  ctx : Nat
  /-- The task, by the physical address of its TCB. -/
  tcb : Nat
  /-- The lead context that the task holds on the core. -/
  lctx : Nat
  origin : Origin
  /-- The group part of the scratchpad that the group holds (R473). -/
  part : Option Nat
  x : SMap Word64
  v : SMap VReg
  m : SMap Word
  al : SMap Word64
  chans : SMap (Chan VReg)
  /-- The iterator slots bound to `it0` to `it3` (R356). -/
  its : SMap Nat
  cld : Nat
  cst : Nat
  cmat : Nat
  cchn : Nat
  /-- The counters that must be zero before the next word issues: the wait mask of the
  clause (R36) and the switch marker (R37). -/
  gate : BitVec 4
  /-- Lane map: present lanes, and the thread id of each lane (R216). -/
  present : Word
  tids : SMap Word
  paths : List Path
  cur : Nat
  /-- Join list (R295). -/
  joins : List Word64
  outst : List Outst
  clause : Option Clause
  fetchChk : FetchChk
  pfx : Option Pfx
  /-- The instruction that a pair code has taken from the dictionary, with the switch marker
  it issues with. -/
  pairw : Option PairLatch
  pend : Pend
  preq : Bool
  /-- Threads that have already performed the access of the word that issues next (R181), what
  they read, the flags of their atomics, and the access that another module has yet to
  answer. -/
  perf : Word
  got : List (Nat × Nat)
  gotFl : BitVec 9
  rem : Option Rem
  /-- The tag of that word among the outstanding instructions, once it has sent a posted store to
  another module. -/
  far : Option Nat
  /-- The words that have issued and wait, oldest first. -/
  late : List Late
  /-- The one that the agent goes on with in this step, and what it lays aside for that. -/
  now : Option (Late × Aside)
  /-- Signals that it has sent to other modules and that are still to be acknowledged, by tag (R268, R440). -/
  sigs : List Nat
  /-- A page whose fault was refused (R166) or timed out (R182), by an address in it. -/
  told : Option (Word64 × Answer)
  /-- The phase that an arrived BARS waits on (R294). -/
  bwait : Option Word
  /-- Position of a group in the decision channel (R394); `none` for a group without a
  cursor. -/
  cursor : Option Nat
  otag : Word
  inHandler : Bool
  tcause : Word64
  tpc : Word64
  tclause : Word64
  tmask : Word64
  tinfo : Word64
  frame : Word64
  /-- The frame of the pool that the agent took and keeps (R409); `cr.frame` can be written, and names the frame
  of the next save or restore (R412). -/
  own : Word64
  tsave0 : Word64
  tsave1 : Word64
  ppriv : Bool
  priv : Bool
  /-- The accepted feature word as the agent became resident (R412, R470). -/
  feat : Word64
  /-- When the agent became resident (R402), as a count of the module's tags. -/
  born : Nat
  /-- What the agent has observed of the order of writes (R258, R259, R262), by the module's count of writes and
  full fences: its last acquire, its last full fence of each scope or a wider one, and by address and length what
  it has read since (the model's own fields). -/
  seen : Nat
  fences : List Nat
  floors : List (Nat × Nat × Nat)
  deriving DecidableEq, Repr

/-- An extent of a task on a core (R176, R177): the first page, the first frame and the
length in 64 KiB units, the flags, the page-table entries it was taken from by page (R174), the flags
that the task declares (R in bit 0, W in bit 1), and the window entries held with it (R186). -/
structure Extent where
  vbase : Nat
  pbase : Nat
  npg : Nat
  d : Bool
  sup : Bool
  x : Bool
  w : Bool
  r : Bool
  ord : Nat
  stale : Bool
  leaves : List Word64
  decl : Nat
  win : List Nat
  deriving DecidableEq, Repr

/-- A TLB entry of a core (R179): a leaf with the window entries held with it, or a forward entry for
one 64 KiB granule. `vpn` counts 64 KiB units. -/
inductive TlbEntry where
  | leaf (ctx vpn : Nat) (bits : Word64) (win : List Nat)
  | fwd (ctx vpn home : Nat)
  deriving DecidableEq, Repr

/-- A signal that a full inbox holds (R298): its value and its sender. -/
structure HeldSignal where
  value : Word64
  sender : SigFrom
  deriving DecidableEq, Repr

/-- Where an instruction stands that has a place in the order of a tile (R319): it waits for
its turn, its turn has begun and its word has not ended (a held TLD, MMT or MMS among them), or
its word has ended and the tile has not. -/
inductive TurnState where
  | waiting | running | ended
  deriving DecidableEq, Repr

/-- An instruction in the order of a tile: its own tag, its agent by the frame that the agent
holds, the owner of the tile, the opcode, whether it is a fill, whether it is a consumer
that may read together with its neighbours, and the flags of the steps that its word has made (R126). -/
structure TileTurn where
  tag : Nat
  frame : Word64
  op : Nat
  fill : Bool
  reader : Bool
  st : TurnState
  flags : BitVec 9 := 0
  deriving DecidableEq, Repr

/-- A task placed on a core, by the lead context it holds (R388, R390): its allocation of
scratchpad, its task-on-core registers, its outstanding count (R311), its task channels
(R393) and its extents (R176). -/
structure Placed where
  ctx : Nat
  tcb : Nat
  /-- Allocation offset, task part, group part and number of group parts (R473). -/
  off : Nat
  spt : Nat
  spg : Nat
  parts : Nat
  partUse : List Nat
  fstat : BitVec 9
  /-- Flags of words that an earlier word of their agent could still undo (R34), by the agent's index and the tag of
  that word (the model's own field). -/
  defer : List (Nat × Nat × BitVec 9)
  lscale : Word
  lgrow : Word64
  step : Word64
  seed : Word64
  coreix : Word64
  ngrp : Word64
  outst : Nat
  chans : SMap (Chan Word64)
  /-- Signals that wait for room in `ch14` (R298). -/
  inbox : List HeldSignal
  /-- The decision channel of a task with `PLACE` = 1 (R394): elements taken out so far,
  how many groups have read each kept element, and how many have retired. -/
  decBase : Nat
  decReads : List Nat
  decGone : Nat
  exts : List Extent
  /-- Loaded size of the dictionary (R55). -/
  dictN : Nat
  /-- The order on the tiles of a lead that has been saved with its tiles (R419; the model's own
  field). -/
  savedTurns : SMap (List TileTurn)
  /-- The groups of the iterator slots that were saved with them, by slot (the model's own field). -/
  savedSlots : SMap Word64
  deriving DecidableEq, Repr

/-! ## The module -/

/-- A thread in the whey store (R227): its vector registers, its bits of `m1` to `m7`, and its
thread id. -/
structure WheyThread where
  v : SMap Word
  m : BitVec 8
  tid : Word
  deriving DecidableEq, Repr

/-- A bin of the curd former (R227), threads in order of arrival. -/
structure Bin where
  ctx : Nat
  tcb : Nat
  land : Word64
  threads : List WheyThread
  deriving DecidableEq, Repr

/-- What a continuation record starts (R403): a launch group by its index, a group or lead
that was saved or parked, a formed group, or a group of SPAWN or of a fired JOIN with the
`TASK` that it names. A resumed agent may find its faulting access refused (R166) or timed out
(R182). -/
inductive RecKind where
  | group (index : Nat)
  | resume (lead : Bool) (ans : Option Answer)
  | formed (threads : List WheyThread)
  | spawn
  | join (task : Word64)
  deriving DecidableEq, Repr

/-- A continuation record (R403): kind, context, owning task by TCB address, frame pointer,
code address, and the core that it is pinned to. `home` is the core it was made for, whose
cluster holds it. -/
structure Record where
  kind : RecKind
  ctx : Nat
  tcb : Nat
  frame : Word64
  code : Word64
  pin : Bool
  home : Nat
  /-- The group part that a saved group still holds on `home` (R473). -/
  part : Option Nat
  /-- What the faulting word of a parked agent has read, by thread, and the flags that it will raise; the
  frame keeps the threads themselves (R181; the model's own fields). -/
  got : List (Nat × Nat) := []
  gotFl : BitVec 9 := 0
  /-- The frame that the agent took from the pool (R409); `frame` is where it was saved. -/
  own : Word64 := 0
  deriving DecidableEq, Repr

/-- A cluster: its continuation queue (R404), and its curd former (R227, R230). `arrive` holds
the threads that have been spawned and have not reached a bin, one in each entry; `victim` is the region whose
groups are being pre-empted, by its RCB (R402). -/
structure Cluster where
  queue : List Record
  cqbase : Word64
  idle : BitVec 16
  bins : List Bin
  arrive : List Bin
  victim : Option Nat
  deriving DecidableEq, Repr

/-- States of a task (R379, R383). -/
inductive TaskState where
  | waiting | ready | dispatching | running | draining | complete | failed
  deriving DecidableEq, Repr

/-- What the dispatcher has read and translated for a task (R385): the dictionary, the tile
images by number, the ranges by base, length and flags, the alphabets of its groups, the depths of
its channels, the extents of its ranges, and the core list. -/
structure Prep where
  dict : List Word
  tiles : List (Nat × BitVec 512)
  ranges : List (Nat × Nat × Nat)
  al : SMap Word64
  depths : SMap Nat
  exts : List Extent
  list : List Nat
  deriving DecidableEq, Repr

/-- A request of a unit that another module has yet to answer, or its answer. -/
structure UnitRem where
  tag : Nat
  ans : Option Answer
  deriving DecidableEq, Repr

/-- A launched task as the dispatcher holds it: the TCB image read at dispatch (R379), the
region chain up to the root by virtual and physical address (R397), the placed cores with their
lead contexts (R388), the next group to launch, the groups and records that have not retired
(R383), the armed JOIN records (R404), the leads that have not exited, and the places where a lead
has yet to start for want of a frame (R409); what the dispatch has prepared; what other modules have answered to its reads, and the access under way by its address;
whether it retires, with the next step, the successor list and the completion value (R386); and
the issue slots that have not been folded into its regions (R399). -/
structure Task where
  ctx : Nat
  st : TaskState
  image : BitVec 2048
  chain : List (Nat × Nat)
  cores : List (Nat × Nat)
  nextGroup : Nat
  live : Nat
  armed : Nat
  leads : Nat
  starts : List (Nat × Nat)
  prep : Option Prep
  got : SMap Nat
  want : Option (Nat × UnitRem)
  ending : Bool
  prog : Nat
  succ : List Nat
  value : Nat
  slots : Nat
  /-- When the task became READY (R401), as a count of the module's tags. -/
  born : Nat
  deriving DecidableEq, Repr

/-- A task that has just been launched. -/
def freshTask (ctx born : Nat) : Task :=
  { ctx := ctx, st := .ready, image := 0, chain := [], cores := [], nextGroup := 0, live := 0, armed := 0
    leads := 0, starts := [], prep := none, got := [], want := none, ending := false, prog := 0, succ := [], value := 0
    slots := 0, born := born }

/-- States of a context (R410). -/
inductive CtxState where
  | new | loaded | active | quiescing | killed | freed
  deriving DecidableEq, Repr

/-- A context slot (R408, R410): its state, the bits of `ctxctl`, the descriptor in force, the
frames of its pool in use (R409), and the next sequence number of its error area (R423). -/
structure CtxSlot where
  st : CtxState
  err : Bool
  done : Bool
  desc : BitVec 50
  image : BitVec 1024
  frames : List Nat
  seq : Nat
  deriving DecidableEq, Repr

/-- Who waits on a fault request (R167): a parked group by the record that resumes it, an agent in
its place at an address (a lead thread, or one that halts and marks barriers, R296), an engine queue by core and
number, a TST or DRAIN by core and tag, a dispatch or a retirement by TCB, the completion of the
context's snapshot. -/
inductive Waiter where
  | group (r : Record)
  | lead (id : AgentId) (va : Word64)
  | engine (core q : Nat)
  | tile (core tag : Nat)
  | task (tcb : Nat)
  | snap (ctx : Nat)
  deriving DecidableEq, Repr

/-- An outstanding fault request (R166, R167): its tag, context, 64 KiB granule, home, access kind,
whether the reason is MALFORMED (R172), whether the home has acknowledged it (R182), and who
waits. -/
structure FaultReq where
  tag : Nat
  ctx : Nat
  gran : Nat
  home : Nat
  kind : Nat
  malformed : Bool
  acked : Bool
  waiters : List Waiter
  deriving DecidableEq, Repr

/-- A reservation (R199): the agent, the lane that holds it, and the 64-byte granule by its
address divided by 64; a scratchpad granule stands at its window address. The context and the 64 KiB
unit of the virtual address are what TLBINV and XTINV go by (R201). -/
structure Resv where
  id : AgentId
  lane : Nat
  gran : Nat
  ctx : Nat
  vpn : Nat
  deriving DecidableEq, Repr

/-- States of a layer slice (R459). -/
inductive SliceState where
  | service | pending | reforming | reformed
  deriving DecidableEq, Repr

/-- A write to a UO page that has not settled (R262): who made it and on which lane, for which task, the local
address, the bytes and their number, the word that made it, when it was made, when a full fence of its maker first
ordered it, for each scope (R244: group, cluster, device, system; 0 for never), and for how many steps it may stay
so (R260). -/
structure UoWrite where
  who : AgentId
  lane : Nat
  tcb : Nat
  at_ : Nat
  n : Nat
  x : Nat
  word : Nat
  born : Nat
  fenced : List Nat
  left : Nat
  deriving DecidableEq, Repr

/-- What a performed write has overwritten, which an agent that is not ordered behind the write may still read
(R258, R262): who made the write, the local address, the old bytes and their number, whether the write was one to a
UO page, when it was performed, the full fences that have ordered it as above, and for how many steps the old bytes
may be read (R260). -/
structure Stale where
  who : AgentId
  at_ : Nat
  n : Nat
  old : Nat
  uo : Bool
  born : Nat
  fenced : List Nat
  left : Nat
  deriving DecidableEq, Repr

/-- What the module sends over the fabric (R439). -/
inductive PktKind where
  | rdmaRead | rdmaWrite | atomic | atomf | forward | faultRequest | faultReply | faultNak
  | signal | notification | collData | hold | abort | conflict | snapshot | attestation | reply
  deriving DecidableEq, Repr

/-- A packet handed to the transport: its kind, the module or endpoint it goes to, and its
fields in order. -/
structure Packet where
  kind : PktKind
  dst : Nat
  fields : List Nat
  deriving DecidableEq, Repr

/-! ### Tiles (R314 to R319) -/

/-- A row (a column for TLD.t) on its way to a tile (R326): the codes by element. -/
structure TileFill where
  tile : Nat
  row : Nat
  trans : Bool
  vals : List Nat
  deriving DecidableEq, Repr

/-- A TST or DRAIN at work (R329, R339): its tile and tag, its agent, task and rights, the layout
descriptors of output and residual, the output format and alphabet, the DRAIN descriptor with
its rounding code, the elements still to be written with their codes (of the accumulator until
`ready`), their places in the tile and the bytes that each write covers, the flags so far, the request under way, and whether a
page is missing. -/
structure TileJob where
  tile : Nat
  tag : Nat
  id : AgentId
  ctx : Nat
  tcb : Nat
  lctx : Nat
  priv : Bool
  frame : Word64
  out : BitVec 256
  res : BitVec 256
  fmt : Nat
  al : Word64
  drain : Option (BitVec 512)
  rnd : Nat
  ready : Bool
  todo : List (Nat × Nat × Nat)
  cells : List (Nat × Nat)
  spans : List (Nat × Nat)
  flags : BitVec 9
  rem : Option UnitRem
  held : Bool
  deriving DecidableEq, Repr

/-! ### Iterators (R356 to R360) -/

/-- An iterator slot that is held (R356 to R360): the fields of its header, its objects from the
source upward, the elements of its pull buffer by place with their count, and its group by the frame that the
group holds. -/
structure ItSlot where
  st : Nat
  linked : Bool
  rdy : Bool
  pulls : Word
  ctx : Nat
  otag : Word
  feed : Word64
  objs : List (BitVec 512)
  bcnt : Nat
  buf : SMap (Word × Word)
  frame : Word64
  deriving DecidableEq, Repr

/-! ### Engine queues (R301, R302) -/

/-- What an entry of an engine queue is: a copy or a collective of a kind, a QFENCE marker with
the number of its fence and its queues, or the marker of a TQ with its tile and the tag of its
turn there. -/
inductive QKind where
  | cpy (k : Nat)
  | coll (k : Nat)
  | fence (fid mask : Nat)
  | marker (tile turn : Nat)
  deriving DecidableEq, Repr

/-- The states of a queue entry (R302). -/
inductive QState where
  | posted | active | held | done
  deriving DecidableEq, Repr

/-- What a collective does next (R445, R447): it reads `n` elements of its source buffer from one
on into the chunk in hand, sends that chunk, receives one, folds its own elements onto it, writes
it to the destination buffer, keeps it as the data of a member, or folds the data of all members,
for one chunk or each element for its own. -/
inductive CollOp where
  | read (off n : Nat)
  | send (pos phase : Nat)
  | recv (pos phase : Nat)
  | fold (off n : Nat)
  | write (off n : Nat)
  | keep (pos : Nat)
  | foldAll (chunk : Option Nat)
  deriving DecidableEq, Repr

/-- A collective at work: its membership table and ring position, what it still does, the element
that is next in that, the chunk in hand with the flags of its fold, the data of members, and the flits that the
transport has yet to acknowledge, by position and tag (R447). -/
structure Coll where
  members : List Nat
  pos : Nat
  ops : List CollOp
  k : Nat
  hand : List Nat
  fl : BitVec 9
  raws : List (Nat × List Nat)
  sent : List (Nat × Nat)
  deriving DecidableEq, Repr

/-- An abort flit that is kept (R447): its key, its sender, its originator and its suspect. -/
structure AbortMark where
  key : CollKey
  src : Nat
  orig : Nat
  suspect : Nat
  deriving DecidableEq, Repr

/-- A key that has been completed on this module (R447, R448): its context, its status, and the
endpoint for conflicts. -/
structure DoneKey where
  ctx : Nat
  key : CollKey
  status : Nat
  nendpt : Nat
  deriving DecidableEq, Repr

/-- An entry of an engine queue (R301): what it is, its tag, its context, task and rights, the
captured descriptor, its state, the next element, what its elements have read so far, the
request under way, its status, and a collective's own state. -/
structure QEntry where
  kind : QKind
  tag : Nat
  /-- The agent that posted it (R244). -/
  poster : AgentId
  ctx : Nat
  tcb : Nat
  lctx : Nat
  priv : Bool
  desc : BitVec 512
  st : QState
  prog : Nat
  vals : List Nat
  rem : Option UnitRem
  code : Nat
  coll : Option Coll
  deriving DecidableEq, Repr

/-- The units of one core that groups and lead threads use (R12). -/
structure Core where
  groups : SMap Agent
  leads : SMap Agent
  placed : SMap Placed
  /-- Scratchpad bytes (R12). -/
  spad : Memory
  /-- Poisoned 8-byte words of the scratchpad, by offset divided by 8 (R421, R458). -/
  spoison : List Nat
  /-- Poisoned 8-byte words of the core's other memories, by window offset divided by 8 (R421, R458). -/
  lost : List Nat
  /-- Accumulator elements, by `acc * 0x400 + row * 0x20 + col` (R19). -/
  acc : SMap Word
  /-- Dictionary entries, by `dictionary * 0x400 + entry` (R55). -/
  dict : SMap Word
  tlb : List TlbEntry
  /-- Tile table entries (R314), the order on each tile (R319), rows on their way, and the work
  of the macro sequencer that outlasts its word. -/
  tiles : SMap (BitVec 512)
  turns : SMap (List TileTurn)
  fills : List TileFill
  /-- Elements of a filling tile that a store has left undefined (R320), by tile, row and column. -/
  spoilt : List (Nat × Nat × Nat)
  jobs : List TileJob
  /-- Variance records (R343). -/
  vars : SMap (BitVec 256)
  /-- Iterator slots that are held. -/
  slots : SMap ItSlot
  /-- Engine queues, oldest entry first, and the tasks, by queue and lead context, with an entry that
  has failed since their last TQ marker there (R328). -/
  queues : SMap (List QEntry)
  tqBad : List Nat
  /-- Replay queues (R465): by lane, the agents of the unchecked beats, the oldest first. -/
  beats : SMap (List Nat)
  /-- Bank conflict counters as they were last written (R206). -/
  conf : SMap Word64
  /-- Strike reports, replay entries checked, and replay mismatches after commit and within the
  window (R465). -/
  strk : Word64
  rchk : Word64
  rmisc : Word
  rmisw : Word
  deriving DecidableEq, Repr

/-! ### Snapshots (R424 to R431) -/

/-- The states of a snapshot (R426). -/
inductive SnapState where
  | none | armed | frozen | draining | complete | released | failed
  deriving DecidableEq, Repr

/-- A 64 KiB part of a granule at the freeze (R428): its frame, by the local address divided by
65,536, or why it has none. -/
inductive SnapPart where
  | data (frame : Nat)
  | absent
  | remote
  deriving DecidableEq, Repr

/-- A granule of a snapshot (R428 to R431): its virtual address, its parts in ascending order, its
kind in the manifest, its shadow in the pool, the tag of its writes to storage, its CRC, and whether
it is no longer frozen. -/
structure Gran where
  va : Nat
  parts : List SnapPart
  kind : Nat
  shadow : Option Nat
  tag : Option Nat
  crc : Nat
  free : Bool
  deriving DecidableEq, Repr

/-- The snapshot of a context (R426, R427): its state and failure code, the granules drained, the
step, the captured descriptor and ranges, the granules, those on which writes wait in the order in
which the first was held, and the tag of the manifest's writes. -/
structure Snap where
  st : SnapState
  code : Nat
  drained : Nat
  step : Nat
  priv : Bool
  desc : BitVec 1024
  ranges : List (Nat × Nat)
  grans : List Gran
  waits : List Nat
  manifest : Option Nat
  deriving DecidableEq, Repr

/-- A snapshot that has ended and whose completion and notification are still to come (R431): its
context, its rights, its code, its descriptor, and the request under way. -/
structure SnapEnd where
  ctx : Nat
  priv : Bool
  code : Nat
  desc : BitVec 1024
  rem : Option UnitRem
  deriving DecidableEq, Repr

/-! ### Ports (R434, R435) -/

/-- The states of a port. -/
inductive PortState where
  | down | training | linkup | joined | active | degraded | draining
  deriving DecidableEq, Repr

/-- A port: its state and the fields of `portctl` and `portstat`. -/
structure Port where
  st : PortState
  degth : BitVec 16
  auto : Bool
  retry : Word
  lanes : Nat
  negfail : Bool
  deriving DecidableEq, Repr

/-! ### HBM controllers (R453 to R458) -/

/-- An HBM controller: its registers, the missed-deadline counters, the corrected errors of its dies in the present
interval, by layer (R459), and
by channel how often one command has failed running, the channels whose interface is retrained or has
been, and the pseudo-channels in self-refresh. -/
structure Hbm where
  bud : Word64
  ctl : Word64
  cecnt : Word
  parcnt : Word
  out : Word
  deg : Word
  miss : SMap Word64
  errs : SMap Nat
  fails : SMap Nat
  training : List Nat
  trained : List Nat
  asleep : List Nat
  deriving DecidableEq, Repr

/-! ### Start-up (R466, R467) -/

/-- The states of the module (R466). -/
inductive BootState where
  | reset | rom | fwload | hbminit | links | ready | bootfail | fatal
  deriving DecidableEq, Repr

/-- A flash image (R467): the bytes of its header, the first one lowest, and its body. -/
structure Image where
  header : BitVec 2048
  body : List Byte
  deriving DecidableEq, Repr

/-- A valid provisioning record (R467): module id, own fabric address, host's fabric address. -/
structure Prov where
  modid : BitVec 18
  own : BitVec 128
  host : BitVec 128
  deriving DecidableEq, Repr

/-- An MNORM or ALIAS under way (R346, R348): its agent and context, the arrays that it writes or reads, by address and
length, and whether another agent has been at work on them at the same time (R354; the model's own record). -/
structure ArrayWork where
  who : AgentId
  ctx : Nat
  spans : List (Nat × Nat)
  raced : Bool
  deriving DecidableEq, Repr

/-- The state of the module. -/
structure State where
  mem : Memory
  /-- Poisoned 32-byte words of memory, by address divided by 32 (R421, R458). -/
  poison : List Nat
  /-- Writes to UO pages that have not settled, in the order in which they were made (R262). -/
  uo : List UoWrite
  /-- What performed writes have overwritten, the oldest first, and the count of writes and full fences (R258). -/
  stale : List Stale
  clock : Nat
  /-- Writes of the hardware that a frozen granule or a retraining channel holds (R429, R457), by local address, width
  and value. -/
  owed : List (Nat × Nat × Nat)
  resvs : List Resv
  /-- Sampling arrays that agents are at work on (R354). -/
  arrays : List ArrayWork
  cores : SMap Core
  clusters : SMap Cluster
  tasks : SMap Task
  ctxs : SMap CtxSlot
  faults : List FaultReq
  /-- As home: fault requests of other modules that have no reply yet, by context, granule and
  module, and the pages that are RETIRED, by context and granule, with the frame withdrawn (R166). -/
  homeReqs : List (Nat × Nat × Nat)
  withdrawn : List (Nat × Nat × Nat)
  cmdbase : Word64
  /-- The collective step counters of the contexts (R446). -/
  csteps : SMap Word64
  /-- The virtual addresses of TCBs, by physical address; a TCB that is not listed has its
  physical address (log entry 21). -/
  tcbVa : SMap Word64
  slices : SMap SliceState
  /-- The stack judged failing, by slice (R459). -/
  outstk : SMap Nat
  /-- Snapshots, by context; the contexts whose snapshots have frozen, in order (R430); snapshots that
  complete; and the controller's registers (R424). -/
  snaps : SMap Snap
  frozen : List Nat
  snapEnds : List SnapEnd
  snpool : Word64
  snshare : BitVec 7
  /-- Data flits that wait, abort flits that are kept, and the keys completed here (R444, R447). -/
  flits : List Flit
  aborts : List AbortMark
  doneKeys : List DoneKey
  ports : SMap Port
  /-- HBM controllers, by stack. -/
  hbm : SMap Hbm
  /-- Start-up (R466, R471): state, booted slot, cause; what the module holds for good: flash slots
  A and B, provisioning record, `MINVER`. -/
  boot : BootState
  slot : Bool
  cause : Nat
  /-- Whether a firmware image runs (R466, R468). -/
  loaded : Bool
  flashA : Option Image
  flashB : Option Image
  prov : Option Prov
  minver : Word
  /-- The event ring (R461). -/
  events : SMap (BitVec 128)
  evhead : BitVec 16
  evtail : BitVec 16
  evovf : Bool
  evseq : Word64
  evendpt : BitVec 16
  /-- Attestation (R468): the nonce and endpoint of `attreq`, and the requests that wait. -/
  attnonce : BitVec 256
  attendpt : BitVec 16
  attreqs : List (Nat × BitVec 256)
  /-- Routing table (R437): module map and endpoint table. -/
  modmap : SMap Word
  endpts : SMap (BitVec 256)
  /-- Packets sent, oldest first. -/
  outbox : List Packet
  /-- What comes from outside and what the hardware has under way, in the order in which it
  will happen. -/
  agenda : List Instr
  /-- The agents that can issue, the next one first. -/
  runq : List AgentId
  /-- The accepted feature word and `FERR` (R470). -/
  featacc : Word64
  ferr : Bool
  modid : Nat
  /-- The number of accesses and instructions that have been given a tag (the model's own
  field). -/
  ntag : Nat
  /-- The number of free values taken so far (the model's own field). -/
  freeCtr : Nat
  deriving DecidableEq, Repr

/-- The module right after reset (R8): nothing is placed, nothing is under way, and memory
lists nothing. -/
def State.reset : State :=
  { mem := [], poison := [], uo := [], stale := [], clock := 0, owed := [], resvs := [], arrays := [], cores := [], clusters := [], tasks := []
    ctxs := [], faults := [], homeReqs := [], withdrawn := [], cmdbase := 0, csteps := []
    tcbVa := [], slices := []
    outstk := [], snaps := [], frozen := [], snapEnds := [], snpool := 0, snshare := 10, flits := [], aborts := []
    doneKeys := [], ports := [], hbm := [], boot := .reset, slot := false, cause := 0, loaded := false, flashA := none, flashB := none
    prov := none, minver := 0, events := [], evhead := 0, evtail := 0, evovf := false, evseq := 0, evendpt := 0xFFFF
    attnonce := 0, attendpt := 0, attreqs := [], modmap := [], endpts := [], outbox := []
    agenda := [], runq := [], featacc := 0x10, ferr := false, modid := 0, ntag := 1, freeCtr := 0 }

/-- Why a step stops with a fault. -/
inductive Fault where
  /-- Raised by every meaning of an instruction word when no agent stands at the head of the
  run queue, so that there is no program position to issue from. Safe. -/
  | noAgent
  deriving DecidableEq, Repr

/-- Why a step is refused. -/
inductive Refusal where
  /-- Raised by the dispatcher of instructions for an instruction that has no meaning yet.
  Safe. -/
  | notModelled (mnemonic : String)
  deriving DecidableEq, Repr

end Sys2Proof.Machine
end

