-- ==== Sys2Proof/Machine/Regs.lean ====
section
/-! DEFINITION. Sparse tables, and the reads and writes of registers, channels, agents and
cores: every register has its one home here (R20, R41, R42, R214). -/

namespace Sys2Proof.Machine

/-! ## Sparse tables -/

/-- The entry at a key. -/
def mapFind (k : Nat) : SMap α → Option α
  | [] => none
  | (j, a) :: t => if j = k then some a else mapFind k t

/-- The entry at a key, or the default. -/
def mapGet (d : α) (m : SMap α) (k : Nat) : α := (mapFind k m).getD d

/-- The table with the entry at `k` replaced or inserted in order. -/
def mapPut (k : Nat) (a : α) : SMap α → SMap α
  | [] => [(k, a)]
  | (j, b) :: t =>
    if k < j then (k, a) :: (j, b) :: t
    else if j = k then (k, a) :: t
    else (j, b) :: mapPut k a t

/-- The table without the entry at `k`. -/
def mapErase (k : Nat) (m : SMap α) : SMap α := m.filter fun p => p.1 != k

/-- The table that holds `a` at `k`, where an unlisted key holds `d`. -/
def mapSet [DecidableEq α] (d : α) (m : SMap α) (k : Nat) (a : α) : SMap α :=
  if a = d then mapErase k m else mapPut k a m

/-- The canonical form of a table: keys strictly rising and no default entry. -/
def mapWf [DecidableEq α] (d : α) : SMap α → Bool
  | [] => true
  | (j, a) :: t => decide (a ≠ d) && t.all (fun p => decide (j < p.1)) && mapWf d t

/-! ## Bytes -/

/-- What a byte of memory that nothing has written reads as (log entry 3). -/
def blankByte : Byte := 0

/-- One byte. -/
def byteAt (m : Memory) (a : Nat) : Byte := mapGet blankByte m a

/-- The memory with one byte written. -/
def setByte (m : Memory) (a : Nat) (b : Byte) : Memory := mapSet blankByte m a b

/-- The `n` bytes from `a`, the byte at `a` lowest (R3). -/
def readN (m : Memory) (a : Nat) : Nat → Nat
  | 0 => 0
  | n + 1 => (byteAt m a).toNat + 256 * readN m (a + 1) n

/-- The memory with the low `n` bytes of `x` written from `a` upward (R3). -/
def writeN (m : Memory) (a : Nat) : Nat → Nat → Memory
  | 0, _ => m
  | n + 1, x => writeN (setByte m a (BitVec.ofNat 8 x)) (a + 1) n (x / 256)

/-- The canonical form of a memory. -/
def Memory.wf (m : Memory) : Bool := mapWf blankByte m

/-! ## Fields of a wide word -/

/-- The `n` bits of `x` from bit `lo`. -/
def getF (x : BitVec w) (lo n : Nat) : Nat := x.toNat / 2 ^ lo % 2 ^ n

/-- `x` with the `n` bits from bit `lo` replaced by those of `v`. -/
def setF (x : BitVec w) (lo n v : Nat) : BitVec w :=
  BitVec.ofNat w (x.toNat - getF x lo n * 2 ^ lo + v % 2 ^ n * 2 ^ lo)

/-! ## Registers of an agent -/

def zeroV : VReg := List.replicate 32 0

/-- A vector register from its lanes. -/
def mkV (f : Nat → Word) : VReg := (List.range 32).map f

/-- One lane. -/
def laneOf (r : VReg) (t : Nat) : Word := r.getD t 0

/-- `g`n or `s`n; number 0 reads 0 (R20). -/
def Agent.getX (a : Agent) (n : Nat) : Word64 := if n = 0 then 0 else mapGet 0 a.x n

/-- The agent with `g`n or `s`n written; a write to number 0 is discarded (R20). -/
def Agent.setX (a : Agent) (n : Nat) (x : Word64) : Agent :=
  if n = 0 then a else { a with x := mapSet 0 a.x n x }

/-- `v`n. -/
def Agent.getV (a : Agent) (n : Nat) : VReg := mapGet zeroV a.v n

def Agent.setV (a : Agent) (n : Nat) (r : VReg) : Agent := { a with v := mapSet zeroV a.v n r }

/-- `m`n; `m0` reads all ones (R20). -/
def Agent.getM (a : Agent) (n : Nat) : Word := if n = 0 then 0xFFFFFFFF else mapGet 0 a.m n

/-- The agent with `m`n written; a write to `m0` is discarded (R20). -/
def Agent.setM (a : Agent) (n : Nat) (x : Word) : Agent :=
  if n = 0 then a else { a with m := mapSet 0 a.m n x }

/-- `al`n. -/
def Agent.getAl (a : Agent) (n : Nat) : Word64 := mapGet 0 a.al n

def Agent.setAl (a : Agent) (n : Nat) (x : Word64) : Agent := { a with al := mapSet 0 a.al n x }

/-- A path that stands nowhere. -/
def noPath : Path := { pc := 0, wix := 0, h := false, mask := 0, waiting := false, joinp := 0 }

/-- The current path. -/
def Agent.path (a : Agent) : Path := a.paths.getD a.cur noPath

/-- The agent with its current path replaced. -/
def Agent.setPath (a : Agent) (p : Path) : Agent := { a with paths := a.paths.set a.cur p }

/-- Threads present on the current path (R59); bit 0 for a lead thread. -/
def Agent.live (a : Agent) : Word := a.path.mask

/-- Whether the group holds one path with all 32 threads present (R217). -/
def Agent.converged (a : Agent) : Bool := a.paths.length == 1 && a.live == 0xFFFFFFFF

/-- The counter of a class. -/
def Agent.counter (a : Agent) : CtrClass → Nat
  | .ld => a.cld
  | .st => a.cst
  | .mat => a.cmat
  | .chn => a.cchn

/-- The agent with the counter of a class replaced. -/
def Agent.setCounter (a : Agent) (c : CtrClass) (n : Nat) : Agent :=
  match c with
  | .ld => { a with cld := n }
  | .st => { a with cst := n }
  | .mat => { a with cmat := n }
  | .chn => { a with cchn := n }

/-- Whether every counter that the mask names is zero (R36); bits LD, ST, MAT, CHN. -/
def Agent.clear (a : Agent) (w : BitVec 4) : Bool :=
  (!w.getLsbD 0 || a.cld == 0) && (!w.getLsbD 1 || a.cst == 0) &&
  (!w.getLsbD 2 || a.cmat == 0) && (!w.getLsbD 3 || a.cchn == 0)

/-! ### The registers of words that wait -/

/-- A change of registers made in the agent, in what the words that wait hold of its registers, and in what it has
laid aside: as a write of the register window is (R23). -/
def Agent.everywhere (a : Agent) (f : Agent → Agent) : Agent :=
  let late := fun (l : Late) =>
    let b := f { a with x := l.x, v := l.v, m := l.m, al := l.al }
    { l with x := b.x, v := b.v, m := b.m, al := b.al }
  let aside := fun (w : Aside) =>
    let b := f { a with x := w.x, v := w.v, m := w.m, al := w.al }
    { w with x := b.x, v := b.v, m := b.m, al := b.al }
  { f a with late := a.late.map late, now := a.now.map fun p => (late p.1, aside p.2) }

/-- The bits of an alphabet register that hold a field (R112); the rest read 0 (R6). -/
def alFields : Word64 := 0x1FFFFFFFFFFFF

/-! ## Cores and agents -/

def Core.empty : Core :=
  { groups := [], leads := [], placed := [], spad := [], spoison := [], lost := [], acc := [], dict := [],
    tlb := [], tiles := [], turns := [], fills := [], spoilt := [], jobs := [], vars := [], slots := [], queues := [],
    tqBad := [], beats := [], conf := [], strk := 0, rchk := 0, rmisc := 0, rmisw := 0 }

def State.core (s : State) (c : Nat) : Core := mapGet Core.empty s.cores c

def State.setCore (s : State) (c : Nat) (k : Core) : State :=
  { s with cores := mapSet Core.empty s.cores c k }

/-- The agent of a core by its index: groups from 0, leads from 64. -/
def Core.agent (k : Core) (i : Nat) : Option Agent :=
  if i < 64 then mapFind i k.groups else mapFind (i - 64) k.leads

def Core.setAgent (k : Core) (i : Nat) (a : Agent) : Core :=
  if i < 64 then { k with groups := mapPut i a k.groups }
  else { k with leads := mapPut (i - 64) a k.leads }

/-- Where the registers of an agent lie in the window of its core (R20): vector register `n` of lane `t`, uniform or
lead register `n`, mask register `n`. -/
def vecPlace (i n t : Nat) : Nat := i * 0x1000 + n * 0x80 + t * 4
def uniPlace (i n : Nat) : Nat := if i < 64 then 0x40000 + i * 0x100 + n * 8 else 0x44000 + (i - 64) * 0x100 + n * 8
def maskPlace (i n : Nat) : Nat := 0x45000 + i * 0x20 + n * 4

/-- Whether an offset lies in the registers of an agent. -/
def placeOf (i o : Nat) : Bool :=
  decide (uniPlace i 0 ≤ o ∧ o < uniPlace i 0 + 0x100) || (decide (i < 64) &&
    (decide (vecPlace i 0 0 ≤ o ∧ o < vecPlace i 0 0 + 0x1000) || decide (maskPlace i 0 ≤ o ∧ o < maskPlace i 0 + 0x20))) ||
    decide (0x46000 + i * 0x20 ≤ o ∧ o < 0x46000 + i * 0x20 + 0x20)

/-- The first of some places in the window of a core that poison covers (R421, R458). -/
def Core.hurt (k : Core) (offs : List Nat) : Option Nat :=
  if k.lost.isEmpty then none else offs.find? fun o => k.lost.contains (o / 8)

/-- The core once 4 bytes have been written at each of some places: a word that they cover whole is no longer poisoned
(R421). -/
def Core.mended (k : Core) (offs : List Nat) : Core :=
  if k.lost.isEmpty then k
  else { k with lost := k.lost.filter fun w => !(offs.contains (8 * w) && offs.contains (8 * w + 4)) }

/-- Places where a write of 4 bytes covers a word in part only, and so consumes its poison. -/
def partPlaces (offs : List Nat) : List Nat :=
  offs.filter fun o => !(offs.contains (o / 8 * 8) && offs.contains (o / 8 * 8 + 4))

/-- A physical address in the window of a core. -/
def State.winPa (s : State) (c off : Nat) : Nat := s.modid * 2 ^ 40 + 0xF000000000 + c * 0x1000000 + off

/-- A slot is freed: what it holds is never read again before it is written, so that poison there is gone. -/
def Core.dropAgent (k : Core) (i : Nat) : Core :=
  let k : Core := { k with lost := k.lost.filter fun w => !placeOf i (8 * w) }
  if i < 64 then { k with groups := mapErase i k.groups
                          beats := (k.beats.map fun b => (b.1, b.2.filter (· != i))).filter fun b => !b.2.isEmpty }
  else { k with leads := mapErase (i - 64) k.leads }

def State.agent (s : State) (id : AgentId) : Option Agent := (s.core id.core).agent id.idx

def State.setAgent (s : State) (id : AgentId) (a : Agent) : State :=
  s.setCore id.core ((s.core id.core).setAgent id.idx a)

/-- The state without the agent: its slot is free and it issues no more. -/
def State.dropAgent (s : State) (id : AgentId) : State :=
  { s.setCore id.core ((s.core id.core).dropAgent id.idx) with
    runq := s.runq.filter (· != id), arrays := s.arrays.filter fun w => w.who != id }

/-- The agent that issues next. -/
def State.current (s : State) : Option (AgentId × Agent) :=
  match s.runq with
  | [] => none
  | id :: _ => (s.agent id).map fun a => (id, a)

/-- The run queue with its first agent moved to the end: the next agent's turn. -/
def State.rotate (s : State) : State :=
  match s.runq with
  | [] => s
  | id :: t => { s with runq := t ++ [id] }

/-- The task of an agent on its core. -/
def State.placedOf (s : State) (id : AgentId) (a : Agent) : Option Placed :=
  mapFind a.lctx (s.core id.core).placed

def State.setPlaced (s : State) (c l : Nat) (p : Placed) : State :=
  let k := s.core c
  s.setCore c { k with placed := mapPut l p k.placed }

/-- The newest of the words before that of the agent that have issued and wait on their accesses, or may trap: what
the agent's word does can still be undone (R34). -/
def Agent.unsure (a : Agent) : Option Late :=
  (a.late.filter fun l => l.mem && match a.now with
    | some p => decide (l.tag < p.1.tag)
    | none => true).getLast?

/-- The registers of a task on a core with flags joined into `cr.fstat` (R126). -/
def Placed.joined (p : Placed) (f : BitVec 9) : Placed := { p with fstat := p.fstat ||| f }

/-- The same by a word of an agent: behind a word that could still undo it, its flags wait for that word (R34). -/
def Placed.raised (p : Placed) (id : AgentId) (a : Agent) (f : BitVec 9) : Placed :=
  match a.unsure with
  | some l => { p with defer := p.defer ++ [(id.idx, l.tag, f)] }
  | none => p.joined f

/-- The flags of a word of an agent raised in its task (R126). -/
def State.raiseFlags (s : State) (id : AgentId) (a : Agent) (f : BitVec 9) : State :=
  if f = 0 then s
  else match s.placedOf id a with
    | some p => s.setPlaced id.core a.lctx (p.raised id a f)
    | none => s

/-- Flags joined into `cr.fstat` of the agent's task at once. -/
def State.joinFlags (s : State) (id : AgentId) (a : Agent) (f : BitVec 9) : State :=
  if f = 0 then s
  else match s.placedOf id a with
    | some p => s.setPlaced id.core a.lctx (p.joined f)
    | none => s

/-- The task of a lead context has `n` pieces of outstanding work less (R311). -/
def State.lowerOutst (s : State) (core lctx tcb n : Nat) : State :=
  match mapFind lctx (s.core core).placed with
  | some p => if p.tcb = tcb then s.setPlaced core lctx { p with outst := p.outst - n } else s
  | none => s

/-- The task of a lead context has `n` more pieces of outstanding work (R311). -/
def State.raiseOutst (s : State) (core lctx n : Nat) : State :=
  match mapFind lctx (s.core core).placed with
  | some p => s.setPlaced core lctx { p with outst := p.outst + n }
  | none => s

/-- Flags joined into the register of a placed task (R126). -/
def State.taskFlags (s : State) (core lctx tcb : Nat) (f : BitVec 9) : State :=
  match mapFind lctx (s.core core).placed with
  | some p => if p.tcb = tcb then s.setPlaced core lctx { p with fstat := p.fstat ||| f } else s
  | none => s

/-! ## Clusters (R404) -/

def Cluster.empty : Cluster := { queue := [], cqbase := 0, idle := 64, bins := [], arrive := [], victim := none }

def State.cluster (s : State) (c : Nat) : Cluster := mapGet Cluster.empty s.clusters c

def State.setCluster (s : State) (c : Nat) (k : Cluster) : State :=
  { s with clusters := mapSet Cluster.empty s.clusters c k }

/-- Whether the queue of a cluster has room (R404): 256 records on chip, and the spill area
in records of 32 bytes. A record for a cluster out of service waits in the dispatcher. -/
def Cluster.room (k : Cluster) : Bool :=
  !k.cqbase.getLsbD 0 || decide (k.queue.length < 256 + getF k.cqbase 5 16 * 65536)

/-- A record at the end of a cluster's queue, which a free slot can then take. -/
def State.enqueue (s : State) (c : Nat) (r : Record) : State :=
  let k := s.cluster c
  { s.setCluster c { k with queue := k.queue ++ [r] } with agenda := s.agenda ++ [.recordPop c] }

/-- The virtual address of a TCB. -/
def State.vaOf (s : State) (tcb : Nat) : Nat :=
  ((mapFind tcb s.tcbVa).getD (BitVec.ofNat 64 (s.modid * 2 ^ 40 + tcb))).toNat

/-- The task of a context whose TCB stands at a virtual address. -/
def State.taskAt (s : State) (ctx : Nat) (va : Nat) : Option (Nat × Task) :=
  s.tasks.find? fun t => t.2.ctx == ctx && s.vaOf t.1 == va

/-! ## Free values -/

/-- A free value of `n` bits, and the state that has taken it. -/
def State.free (s : State) (n : Nat) : Nat × State :=
  (Config.freeBits s.freeCtr % 2 ^ n, { s with freeCtr := s.freeCtr + 1 })

/-- A free choice among `n` things, and the state that has made it. -/
def State.choose (s : State) (n : Nat) : Nat × State :=
  (Config.freeBits s.freeCtr % n, { s with freeCtr := s.freeCtr + 1 })

end Sys2Proof.Machine
end

