-- ==== Sys2Proof/Machine/Desc.lean ====
section
/-! DEFINITION. The descriptors of engine commands: the fields of copies (R304) and of collectives (R443), and where a
command writes. -/

namespace Sys2Proof.Machine

/-! ## Copy descriptors (R304) -/

/-- A copy descriptor. -/
abbrev CopyDesc := BitVec 512

def cpInc (d : CopyDesc) : Nat := getF d 384 32
def cpCpl (d : CopyDesc) : Nat := getF d 320 64
def cpDst (d : CopyDesc) : Nat := getF d 64 64
def cpSrc (d : CopyDesc) : Nat := getF d 0 64
def cpElems (d : CopyDesc) : Nat := getF d 128 32
def cpRows (d : CopyDesc) : Nat := getF d 160 16
def cpSize (d : CopyDesc) : Nat := 2 ^ getF d 176 2
def cpIdx (d : CopyDesc) : Nat := if d.getLsbD 178 then 8 else 4
/-- `SPITCH` or `IDXA`, and `DPITCH` or `BOUND`. -/
def cpB (d : CopyDesc) : Nat := getF d 192 64
def cpC (d : CopyDesc) : Nat := getF d 256 64

/-- The number of elements of a command (R305). -/
def copyCount (k : Nat) (d : CopyDesc) : Nat := if k = 1 then cpRows d * cpElems d else cpElems d

/-! ## Collective descriptors (R443) -/

/-- A collective descriptor. -/
abbrev CollDesc := BitVec 512

def cdSbuf (d : CollDesc) : Nat := getF d 0 64
def cdDbuf (d : CollDesc) : Nat := getF d 64 64
def cdMemb (d : CollDesc) : Nat := getF d 128 64
def cdStep (d : CollDesc) : Nat := getF d 256 64
def cdCount (d : CollDesc) : Nat := getF d 320 32
def cdNmem (d : CollDesc) : Nat := getF d 352 32
def cdNendpt (d : CollDesc) : Nat := getF d 480 16
def cdOpc (d : CollDesc) : Nat := getF d 496 4
def cdAlg (d : CollDesc) : Nat := getF d 500 2

/-- The size of an element. -/
def cdSize (d : CollDesc) : Nat := if cdOpc d = 1 then 2 else 4

/-- The kinds (R442). -/
def kAllred : Nat := 0
def kRedscat : Nat := 1
def kAllgath : Nat := 2
def kBcast : Nat := 3
def kStepmark : Nat := 4

/-- The elements of the source and of the destination buffer (R445). -/
def srcCount (k : Nat) (d : CollDesc) : Nat := if k = kRedscat then cdNmem d * cdCount d else cdCount d
def dstCount (k : Nat) (d : CollDesc) : Nat := if k = kAllgath then cdNmem d * cdCount d else cdCount d

/-! ## What a command writes -/

/-- The destinations of an entry that has begun, by virtual address and length (R305, R445). -/
def QEntry.outputs (e : QEntry) : List (Nat × Nat) :=
  if e.st = .posted then []
  else match e.kind with
    | .cpy k =>
      let z := cpSize e.desc
      if k = 1 then (List.range (cpRows e.desc)).map fun r => (cpDst e.desc + r * cpC e.desc, cpElems e.desc * z)
      else [(cpDst e.desc, (if k = 3 then cpC e.desc else cpElems e.desc) * z)]
    | .coll k => [(cdDbuf e.desc, dstCount k e.desc * cdSize e.desc)]
    | _ => []

end Sys2Proof.Machine
end

