-- ==== Sys2Proof/Machine/Num.lean ====
section
/-! DEFINITION. Number formats, rounding and the exact operations of the arithmetic
instructions (R98 to R111, R116 to R122, R149). -/

namespace Sys2Proof.Machine

/-! ## Sticky flags (R125) -/

def flNV : BitVec 9 := 0x001
def flDZ : BitVec 9 := 0x002
def flOF : BitVec 9 := 0x004
def flUF : BitVec 9 := 0x008
def flNX : BitVec 9 := 0x010
def flNF : BitVec 9 := 0x020
def flINVAL : BitVec 9 := 0x040
def flRANGE : BitVec 9 := 0x080
def flNANSC : BitVec 9 := 0x100

/-- The flag when the condition holds. -/
def flagIf (c : Bool) (f : BitVec 9) : BitVec 9 := if c then f else 0

/-! ## Exact values -/

/-- A decoded value: a NaN, an infinity, or the number `(-1)^s * m * 2^e`; a zero keeps its
sign. When `st` holds, the magnitude lies strictly between `m * 2^e` and `(m+1) * 2^e`. -/
inductive Val where
  | nan (sig : Bool)
  | inf (s : Bool)
  | num (s : Bool) (m : Nat) (e : Int) (st : Bool)
  deriving DecidableEq, Repr

/-- `m * 2^e` for an exact number. -/
def Val.ofInt (n : Int) : Val := .num (decide (n < 0)) n.natAbs 0 false

def Val.isNan : Val → Bool
  | .nan _ => true
  | _ => false

def Val.isSig : Val → Bool
  | .nan s => s
  | _ => false

/-- A NaN or an infinity. -/
def Val.nonFinite : Val → Bool
  | .num _ _ _ _ => false
  | _ => true

def Val.isZero : Val → Bool
  | .num _ 0 _ false => true
  | _ => false

def Val.sign : Val → Bool
  | .nan _ => false
  | .inf s => s
  | .num s _ _ _ => s

def Val.neg : Val → Val
  | .nan s => .nan s
  | .inf s => .inf !s
  | .num s m e t => .num (!s) m e t

def Val.abs : Val → Val
  | .nan s => .nan s
  | .inf _ => .inf false
  | .num _ m e t => .num false m e t

/-- `m * 2^e` as an integer count of `2^q`, rounded down. -/
def floorAt (m : Nat) (e q : Int) : Nat :=
  if q ≤ e then m * 2 ^ (e - q).toNat else m / 2 ^ (q - e).toNat

/-- Whether `m * 2^e` is a whole count of `2^q`. -/
def exactAt (m : Nat) (e q : Int) : Bool :=
  if q ≤ e then true else m % 2 ^ (q - e).toNat == 0

/-- The order of `m * 2^e` and `n * 2^f`. -/
def cmpMag (m : Nat) (e : Int) (n : Nat) (f : Int) : Ordering :=
  let q := if e ≤ f then e else f
  compare (floorAt m e q) (floorAt n f q)

/-- Floor of the base-2 logarithm of `m * 2^e`, for `m` not 0. -/
def floorLog (m : Nat) (e : Int) : Int := (Nat.log2 m : Int) + e

/-! ## Formats -/

/-- The floating formats with a code of their own (R101, R103, R104, R106). -/
inductive Fmt where
  | f32 | f16 | bf16 | t8 | t6 | e2m1
  deriving DecidableEq, Repr

/-- Precision, least normal exponent and greatest exponent of an IEEE format. -/
structure Ieee where
  p : Nat
  emin : Int
  emax : Int
  deriving DecidableEq, Repr

def Fmt.ieee : Fmt → Option Ieee
  | .f32 => some { p := 24, emin := -126, emax := 127 }
  | .f16 => some { p := 11, emin := -14, emax := 15 }
  | .bf16 => some { p := 8, emin := -126, emax := 127 }
  | _ => none

/-- Bits of a code. -/
def Fmt.width : Fmt → Nat
  | .f32 => 32
  | .f16 => 16
  | .bf16 => 16
  | .t8 => 8
  | .t6 => 6
  | .e2m1 => 4

/-- The code of +infinity of an IEEE format, and one above the greatest magnitude code of
the others. -/
def Fmt.topCode : Fmt → Nat
  | .f32 => 0x7F800000
  | .f16 => 0x7C00
  | .bf16 => 0x7F80
  | .t8 => 128
  | .t6 => 32
  | .e2m1 => 8

/-- The canonical quiet NaN, or NaR (R102, R105). -/
def Fmt.nanCode : Fmt → Nat
  | .f32 => 0x7FC00000
  | .f16 => 0x7E00
  | .bf16 => 0x7FC0
  | .t8 => 0x80
  | .t6 => 0x20
  | .e2m1 => 0

/-- The length of the run of bits equal to the top bit of the `n`-bit number `m`, counted
from its bit `n - 1` downward (R103). -/
def runLen (m : Nat) : Nat → Nat
  | 0 => 0
  | n + 1 =>
    if n = 0 then 1
    else if m / 2 ^ n % 2 = m / 2 ^ (n - 1) % 2 then runLen m n + 1 else 1

/-- Magnitude `m * 2^e` of a tapered code of `n` magnitude bits with `eb` exponent bits, for a
code that is not 0 (R103, R104). -/
def taperMag (n eb c : Nat) : Nat × Int :=
  let k := runLen c n
  let reg : Int := if c / 2 ^ (n - 1) % 2 = 1 then (k : Int) - 1 else -(k : Int)
  let rest := n - k - 1
  let hasE := decide (1 ≤ eb ∧ 1 ≤ rest)
  let w := if hasE then rest - 1 else rest
  let ebit := if hasE then c / 2 ^ w % 2 else 0
  let ex : Int := if eb = 1 then 2 * reg + ebit else reg
  (2 ^ w + c % 2 ^ w, ex - w)

/-- The magnitude of a magnitude code. The code of +infinity of an IEEE format gives
`2^(emax+1)` (R116). -/
def Fmt.mag (f : Fmt) (c : Nat) : Nat × Int :=
  match f.ieee with
  | some i =>
    let x := c / 2 ^ (i.p - 1)
    let y := c % 2 ^ (i.p - 1)
    if x = 0 then (y, i.emin - (i.p - 1)) else (2 ^ (i.p - 1) + y, (x : Int) - 1 + i.emin - (i.p - 1))
  | none =>
    if c = 0 then (0, 0)
    else match f with
      | .t8 => taperMag 7 1 c
      | .t6 => taperMag 5 0 c
      | _ => if c / 2 = 0 then (c, -1) else (2 + c % 2, (c / 2 : Nat) - (2 : Int))

/-- The greatest magnitude code, infinity excluded, whose magnitude is at most `m * 2^e`. -/
def Fmt.floorCode (f : Fmt) (m : Nat) (e : Int) : Nat :=
  if m = 0 then 0
  else match f.ieee with
    | some i =>
      let l := floorLog m e
      if l < i.emin then floorAt m e (i.emin - (i.p - 1))
      else if i.emax < l then f.topCode - 1
      else (l - i.emin).toNat * 2 ^ (i.p - 1) + floorAt m e (l - (i.p - 1))
    | none =>
      ((List.range f.topCode).filter fun c =>
        let x := f.mag c
        decide (c ≠ 0) && (cmpMag x.1 x.2 m e != .gt)).length

/-- The value of a code (R118). An e2m1 escape is left to its consumer. -/
def Fmt.dec (f : Fmt) (bits : Nat) : Val :=
  let b := bits % 2 ^ f.width
  let s := decide (b / 2 ^ (f.width - 1) = 1)
  let c := b % 2 ^ (f.width - 1)
  match f.ieee with
  | some i =>
    if c < f.topCode then .num s (f.mag c).1 (f.mag c).2 false
    else if c = f.topCode then .inf s
    else .nan (decide (c / 2 ^ (i.p - 2) % 2 = 0))
  | none =>
    if c = 0 then (if s then .nan false else .num false 0 0 false)
    else .num s (f.mag c).1 (f.mag c).2 false

/-! ## Rounding -/

/-- Whether a magnitude between two neighbours goes to the upper one (R116): `odd` says that
the code of the lower one is odd, `half` compares the magnitude with the midpoint, and `q`
is the 23-bit position between them. -/
def roundUp (rnd : Nat) (neg odd : Bool) (half : Ordering) (q rbits : Nat) : Bool :=
  match rnd with
  | 2 => false
  | 3 => !neg
  | 4 => neg
  | 5 => decide (2 ^ 23 ≤ q + rbits % 2 ^ 23)
  | _ => match half with
    | .gt => true
    | .eq => odd
    | .lt => false

/-- `m * 2^e` between the neighbours `lo` and `hi`, all as counts of one small unit: the order
against the midpoint, and the 23-bit position. -/
def between (m : Nat) (e : Int) (st : Bool) (lo hi : Nat × Int) : Ordering × Nat :=
  let u0 := if lo.2 ≤ hi.2 then lo.2 else hi.2
  let u := (if e ≤ u0 then e else u0) - 1
  let a := floorAt m e u
  let l := floorAt lo.1 lo.2 u
  let h := floorAt hi.1 hi.2 u
  let o := match compare (2 * a) (l + h) with
    | .eq => if st then .gt else .eq
    | o => o
  (o, (a - l) * 2 ^ 23 / (h - l))

/-- The rounded value with an exponent range without bounds, at precision `p`: a significand
of at most `2^p` and its exponent (R117). -/
def roundFree (p : Nat) (neg : Bool) (m : Nat) (e : Int) (st : Bool) (rnd rbits : Nat) :
    Nat × Int :=
  let q := floorLog m e - (p - 1)
  let s := floorAt m e q
  if exactAt m e q && !st then (s, q)
  else
    let b := between m e st (s, q) (s + 1, q)
    (if roundUp rnd neg (s % 2 == 1) b.1 b.2 rbits then s + 1 else s, q)

/-- A code with its sign in the top bit. -/
def Fmt.signed (f : Fmt) (s : Bool) (c : Nat) : Nat :=
  if s then 2 ^ (f.width - 1) + c else c

/-- The code that rounding gives, and the flags that it raises (R116, R117, R105, R108). -/
def Fmt.enc (f : Fmt) (v : Val) (rnd rbits : Nat) : Nat × BitVec 9 :=
  match v with
  | .nan _ => (f.nanCode, flNF ||| flagIf (f == .e2m1) flNV)
  | .inf s =>
    match f with
    | .t8 => (f.nanCode, flNF)
    | .t6 => (f.nanCode, flNF)
    | .e2m1 => (f.signed s 7, flNF ||| flOF)
    | _ => (f.signed s f.topCode, flNF)
  | .num s m e st =>
    if m = 0 && !st then (if f.ieee.isSome then f.signed s 0 else 0, 0)
    else
      let c := f.floorCode m e
      let lo := f.mag c
      if !st && cmpMag lo.1 lo.2 m e == .eq && c < f.topCode then (f.signed s c, 0)
      else
        match f.ieee with
        | some i =>
          let hi := f.mag (c + 1)
          let b := between m e st lo hi
          let up := roundUp rnd s (c % 2 == 1) b.1 b.2 rbits
          let c' := if up then c + 1 else c
          let free := if m = 0 then (0, i.emin) else roundFree i.p s m e st rnd rbits
          let ovf := !(cmpMag free.1 free.2 1 (i.emax + 1) == .lt)
          let unf := cmpMag free.1 free.2 1 i.emin == .lt
          (f.signed s c', flNX ||| flagIf (ovf || c' == f.topCode) flOF ||| flagIf unf flUF
            ||| flagIf (c' == f.topCode) flNF)
        | none =>
          let last := f.topCode - 1
          if c = last then (f.signed s last, flNX ||| flOF)
          else
            let b := between m e st lo (f.mag (c + 1))
            let up := roundUp rnd s (c % 2 == 1) b.1 b.2 rbits
            let c' := if up then c + 1 else c
            (if c' = 0 then 0 else f.signed s c', flNX ||| flagIf (c' == 0) flUF)

/-- Rounding to an integer between `lo` and `hi` (R117). -/
def encInt (lo hi : Int) (v : Val) (rnd rbits : Nat) : Int × BitVec 9 :=
  match v with
  | .nan _ => (0, flNV)
  | .inf s => (if s then lo else hi, flNV ||| flNF)
  | .num s m e st =>
    let n := floorAt m e 0
    let exact := exactAt m e 0 && !st
    let b := between m e st (n, 0) (n + 1, 0)
    let n' := if !exact && roundUp rnd s (n % 2 == 1) b.1 b.2 rbits then n + 1 else n
    let x : Int := if s then -(n' : Int) else n'
    let nx := flagIf (!exact) flNX
    if x < lo then (lo, flNV ||| nx) else if hi < x then (hi, flNV ||| nx) else (x, nx)

/-! ## Exact operations -/

/-- Product of two values, with NV for 0 times infinity (R120, R148). -/
def Val.mul (a b : Val) : Val × BitVec 9 :=
  match a, b with
  | .nan _, _ => (.nan false, 0)
  | _, .nan _ => (.nan false, 0)
  | .inf s, .inf t => (.inf (s != t), 0)
  | .inf s, b => if b.isZero then (.nan false, flNV) else (.inf (s != b.sign), 0)
  | a, .inf t => if a.isZero then (.nan false, flNV) else (.inf (a.sign != t), 0)
  | .num s m e _, .num t n f _ => (.num (s != t) (m * n) (e + f) false, 0)

/-- A finite value as a signed count of `2^q`, for `q` at most its exponent. -/
def Val.intAt (q : Int) : Val → Int
  | .num s m e _ => if s then -(floorAt m e q : Int) else floorAt m e q
  | _ => 0

/-- The least exponent of the finite terms. -/
def minExp : List Val → Int
  | [] => 0
  | .num _ m e _ :: t => if m = 0 then minExp t else if e ≤ minExp t then e else minExp t
  | _ :: t => minExp t

/-- The exact sum of the terms (R120). Infinities of both signs among the terms set NV beside a NaN as well
(log entry 76). The sign of a zero total is negative only when every
term is a negative zero, or when `down` asks for it and not every term is a positive zero
(R149). -/
def sumExact (down : Bool) (ts : List Val) : Val × BitVec 9 :=
  let pos := ts.any fun v => match v with | .inf false => true | _ => false
  let neg := ts.any fun v => match v with | .inf true => true | _ => false
  if ts.any Val.isNan || (pos && neg) then (.nan false, flagIf (pos && neg) flNV)
  else if pos then (.inf false, 0)
  else if neg then (.inf true, 0)
  else
    let q := minExp ts
    let n := (ts.map (Val.intAt q)).foldl (· + ·) 0
    if n = 0 then
      let allNeg := ts.all fun v => v.isZero && v.sign
      let allPos := ts.all fun v => v.isZero && !v.sign
      (.num (allNeg || (down && !allPos)) 0 0 false, 0)
    else (.num (decide (n < 0)) n.natAbs q false, 0)

/-- The number `x / y` with 96 bits of quotient beyond the point of `x` and `y`, and whether a
remainder is left. -/
def quot (m : Nat) (e : Int) (n : Nat) (f : Int) : Nat × Int × Bool :=
  let k := 96 + Nat.log2 n
  (m * 2 ^ k / n, e - f - k, m * 2 ^ k % n != 0)

/-- Quotient of two values: NV for 0/0 and for a quotient of infinities, DZ for a finite
value divided by zero (R148, R150). -/
def Val.div (a b : Val) : Val × BitVec 9 :=
  match a, b with
  | .nan _, _ => (.nan false, 0)
  | _, .nan _ => (.nan false, 0)
  | .inf _, .inf _ => (.nan false, flNV)
  | .inf s, b => (.inf (s != b.sign), 0)
  | a, .inf t => (.num (a.sign != t) 0 0 false, 0)
  | .num s m e _, .num t n f _ =>
    if n = 0 then
      if m = 0 then (.nan false, flNV) else (.inf (s != t), flDZ)
    else if m = 0 then (.num (s != t) 0 0 false, 0)
    else
      let q := quot m e n f
      (.num (s != t) q.1 q.2.1 q.2.2, 0)

/-- Square root of a number by its binary digits from `2^(k-1)` downward. -/
def sqrtDigits (n : Nat) : Nat → Nat → Nat
  | 0, r => r
  | k + 1, r =>
    let r' := r + 2 ^ k
    sqrtDigits n k (if r' * r' ≤ n then r' else r)

/-- The greatest number whose square is at most `n`. -/
def natSqrt (n : Nat) : Nat := sqrtDigits n (Nat.log2 n / 2 + 1) 0

/-- The root of `m * 2^e` to at least 90 significant bits. -/
def sqrtMag (m : Nat) (e : Int) : Nat × Int × Bool :=
  let k : Nat := 200 + (e % 2).toNat
  let n := m * 2 ^ k
  let r := natSqrt n
  (r, (e - k) / 2, r * r != n)

/-! ## Block scales (R109, R111) -/

/-- The value of an s12 scale. -/
def decS12 (s : Nat) : Val :=
  let ex := s / 16 % 256
  let fr := s % 16
  if ex = 255 then .nan false
  else if ex = 0 then .num false fr (-130) false
  else .num false (16 + fr) ((ex : Int) - 131) false

/-! ## The keyed generator (R122) -/

/-- One mixing round of the generator. -/
def kmgMix (x : Word64) : Word64 :=
  let y := x ^^^ (x >>> 32)
  y * 0xD6E8FEB86659FD93#64

/-- KMG of a key and three coordinates. -/
def kmg (key a b c : Word64) : Word64 :=
  let x := key ^^^ (a * 0x9E3779B97F4A7C15#64) ^^^ (b * 0xC2B2AE3D27D4EB4F#64)
    ^^^ (c * 0x165667B19E3779F9#64)
  let y := kmgMix (kmgMix x)
  y ^^^ (y >>> 32)

/-! ## Special functions (R155) -/

/-- Fraction bits of the fixed-point evaluations. -/
def fixBits : Nat := 320

/-- A fixed-point product. -/
def fixMul (a b : Nat) : Nat := a * b / 2 ^ fixBits

/-- `m * 2^e` in fixed point. -/
def fixOf (m : Nat) (e : Int) : Nat := floorAt m e (-(fixBits : Int))

/-- The sum of `y^k / (2k+1)` for `k` up to the fuel, with `y` in fixed point. -/
def atanhSum (y : Nat) : Nat → Nat → Nat → Nat
  | 0, _, _ => 0
  | k + 1, i, p => p / (2 * i + 1) + atanhSum y k (i + 1) (fixMul p y)

/-- Twice the inverse hyperbolic tangent of the fixed-point `z`, at most one half. -/
def fixAtanh2 (z : Nat) : Nat :=
  2 * fixMul z (atanhSum (fixMul z z) 170 0 (2 ^ fixBits))

/-- The natural logarithm of 2, as twice the inverse hyperbolic tangent of 1/3. -/
def fixLn2 : Nat := fixAtanh2 (2 ^ fixBits / 3)

/-- The sum of `p, p*y/i, p*y^2/(i*(i+1)), …`: an exponential series. -/
def expSum (y : Nat) : Nat → Nat → Nat → Nat
  | 0, _, _ => 0
  | k + 1, i, p => p + expSum y k (i + 1) (fixMul p y / i)

/-- `exp y - 1` for a fixed-point `y` below 1. -/
def fixExpm1 (y : Nat) : Nat := expSum y 90 2 y

/-- The alternating sum of `p, p*y/(i*(i+1)), …`: a sine series. -/
def sinSum (y : Nat) : Nat → Nat → Nat → Int
  | 0, _, _ => 0
  | k + 1, i, p => (p : Int) - sinSum y k (i + 2) (fixMul p y / (i * (i + 1)))

/-- Arc tangent of the reciprocal of `n`, by its alternating series. -/
def atanInv (n : Nat) : Nat → Nat → Nat → Int
  | 0, _, _ => 0
  | k + 1, i, p => ((p / (2 * i + 1) : Nat) : Int) - atanInv n k (i + 1) (p / (n * n))

/-- The number pi: `16 atan(1/5) - 4 atan(1/239)`. -/
def fixPi : Nat :=
  (16 * atanInv 5 75 0 (2 ^ fixBits / 5) - 4 * atanInv 239 25 0 (2 ^ fixBits / 239)).toNat

/-- `sin (pi t)` for a fixed-point `t` from 0 to 1/2. -/
def fixSinPi (t : Nat) : Nat :=
  let y := fixMul fixPi t
  (sinSum (fixMul y y) 50 2 y).toNat

/-- A fixed-point magnitude that is not exact, read to 40 bits above the last. -/
def fixVal (s : Bool) (x : Nat) (e : Int) : Val :=
  .num s (x / 2 ^ 40) (e - fixBits + 40) true

/-- `2^x`. -/
def sfuExp2 (s : Bool) (m : Nat) (e : Int) : Val :=
  if m = 0 then .num false 1 0 false
  else if 10 < floorLog m e then (if s then .num false 1 (-100000) true else .num false 1 100000 true)
  else
    let n := floorAt m e 0
    if exactAt m e 0 then .num false 1 (if s then -(n : Int) else n) false
    else
      let y := fixOf m e % 2 ^ fixBits
      let y' := if s then 2 ^ fixBits - y else y
      let k : Int := if s then -(n : Int) - 1 else n
      fixVal false (2 ^ fixBits + fixExpm1 (fixMul y' fixLn2)) k

/-- The base-2 logarithm of a positive number. -/
def sfuLog2 (m : Nat) (e : Int) : Val :=
  let l := floorLog m e
  if m = 2 ^ Nat.log2 m then Val.ofInt l
  else
    let x := fixOf m (-(Nat.log2 m : Int))
    let big := decide (3 * 2 ^ fixBits ≤ 2 * x)
    let k := if big then l + 1 else l
    let one := if big then 2 * 2 ^ fixBits else 2 ^ fixBits
    let neg := decide (x < one)
    let d := if neg then one - x else x - one
    let z := d * 2 ^ fixBits / (x + one)
    let y := fixAtanh2 z * 2 ^ fixBits / fixLn2
    let t : Int := k * 2 ^ fixBits + (if neg then -(y : Int) else y)
    fixVal (decide (t < 0)) t.natAbs 0

/-- `sin (pi x)` of a magnitude that is no integer and no half-integer, in the quadrant
arithmetic of `x` modulo 2. -/
def sfuSinPi (s : Bool) (m : Nat) (e : Int) : Val :=
  if exactAt m e 0 then .num s 0 0 false
  else
    let n := floorAt m e 0
    let t := fixOf m e % 2 ^ fixBits
    let neg := s != (n % 2 == 1)
    if t = 2 ^ (fixBits - 1) then .num neg 1 0 false
    else fixVal neg (fixSinPi (if t < 2 ^ (fixBits - 1) then t else 2 ^ fixBits - t)) 0

/-- `cos (pi x)`. -/
def sfuCosPi (m : Nat) (e : Int) : Val :=
  let n := floorAt m e 0
  if exactAt m e 0 then .num (n % 2 == 1) 1 0 false
  else
    let t := fixOf m e % 2 ^ fixBits
    if t = 2 ^ (fixBits - 1) then .num false 0 0 false
    else
      let h := 2 ^ (fixBits - 1)
      if t = 0 then .num (n % 2 == 1) (2 ^ 80 - 1) (-80) true
      else if t < h then fixVal (n % 2 == 1) (fixSinPi (h - t)) 0
      else fixVal (n % 2 == 0) (fixSinPi (t - h)) 0

/-- `tanh x` of a magnitude that is not 0. -/
def sfuTanh (s : Bool) (m : Nat) (e : Int) : Val :=
  if 6 ≤ floorLog m e then .num s (2 ^ 80 - 1) (-80) true
  else
    let y := fixOf m (e + 1)
    let k := y / fixLn2
    let r := y % fixLn2
    let t := fixExpm1 r
    -- exp y - 1, in fixed point
    let em := t * 2 ^ k + (2 ^ k - 1) * 2 ^ fixBits
    if em / 2 ^ 60 = 0 then .num s m e true
    else fixVal s (em * 2 ^ fixBits / (em + 2 * 2 ^ fixBits)) 0

/-- The exact value of a special function and its flags, before rounding (R155). The codes
are those of `FN`[2:0]. -/
def sfuExact (fn : Nat) (v : Val) : Val × BitVec 9 :=
  match v with
  | .nan _ => (.nan false, 0)
  | .inf s =>
    match fn with
    | 0 => (.num s 0 0 false, 0)
    | 1 => if s then (.nan false, flNV) else (.num false 0 0 false, 0)
    | 2 => if s then (.nan false, flNV) else (.inf false, 0)
    | 3 => if s then (.num false 0 0 false, 0) else (.inf false, 0)
    | 4 => if s then (.nan false, flNV) else (.inf false, 0)
    | 7 => (.num s 1 0 false, 0)
    | _ => (.nan false, flNV)
  | .num s m e _ =>
    match fn with
    | 0 =>
      if m = 0 then (.inf s, flDZ)
      else let q := quot 1 0 m e; (.num s q.1 q.2.1 q.2.2, 0)
    | 1 =>
      if m = 0 then (.inf s, flDZ) else if s then (.nan false, flNV)
      else
        -- the root of 1/x, from a quotient of 400 bits
        let ev := e % 2
        let n := m * 2 ^ ev.toNat
        let q := 2 ^ 600 / n
        let r := natSqrt q
        (.num false r ((-600 - (e - ev)) / 2) (r * r * n != 2 ^ 600), 0)
    | 2 =>
      if m = 0 then (.num s 0 0 false, 0) else if s then (.nan false, flNV)
      else let q := sqrtMag m e; (.num false q.1 q.2.1 q.2.2, 0)
    | 3 => (sfuExp2 s m e, 0)
    | 4 => if m = 0 then (.inf true, flDZ) else if s then (.nan false, flNV) else (sfuLog2 m e, 0)
    | 5 => if m = 0 then (.num s 0 0 false, 0) else (sfuSinPi s m e, 0)
    | 6 => if m = 0 then (.num false 1 0 false, 0) else (sfuCosPi m e, 0)
    | _ => if m = 0 then (.num s 0 0 false, 0) else (sfuTanh s m e, 0)

/-! ## Operations with one rounding (R149, R150) -/

/-- NV for a signalling operand and NF for each NaN or infinity read (R118, R148). -/
def operandFlags (vs : List Val) : BitVec 9 :=
  flagIf (vs.any Val.isSig) flNV ||| flagIf (vs.any Val.nonFinite) flNF

/-- The float operations of R150. -/
inductive Fop where
  | add | sub | mul | mad | absd | div
  deriving DecidableEq, Repr

/-- The exact result of a float operation. -/
def fopExact (op : Fop) (rnd : Nat) (a b c : Val) : Val × BitVec 9 :=
  let down := rnd == 4
  match op with
  | .add => sumExact down [a, b]
  | .sub => sumExact down [a, b.neg]
  | .mul => a.mul b
  | .div => a.div b
  | .absd => let r := sumExact false [a, b.neg]; (r.1.abs, r.2)
  | .mad =>
    let p := a.mul b
    if c.isNan then (.nan false, p.2)
    else let r := sumExact down [p.1, c]; (r.1, p.2 ||| r.2)

/-- `Fop` of R149 on codes of one format: the result code and the flags. -/
def fop (op : Fop) (f : Fmt) (rnd a b c : Nat) : Nat × BitVec 9 :=
  let x := f.dec a
  let y := f.dec b
  let z := f.dec c
  let r := fopExact op rnd x y z
  let q := f.enc r.1 rnd 0
  (q.1, q.2 ||| r.2 ||| operandFlags (if op == .mad then [x, y, z] else [x, y]))

/-- The order of two values that are no NaN, with -0 below +0 when `zeros` says so (R151,
R152). -/
def cmpVal (zeros : Bool) (a b : Val) : Ordering :=
  let rank : Val → Int := fun v => match v with
    | .inf true => -2
    | .inf false => 2
    | _ => 0
  match compare (rank a) (rank b) with
  | .eq =>
    let q := minExp [a, b]
    match compare (a.intAt q) (b.intAt q) with
    | .eq => if zeros && a.isZero && b.isZero then compare b.sign.toNat a.sign.toNat else .eq
    | o => o
  | o => o

/-- MIN and MAX of two codes (R151): the bits of an operand, or the canonical NaN. -/
def fminmax (max : Bool) (f : Fmt) (a b : Nat) : Nat × BitVec 9 :=
  let x := f.dec a
  let y := f.dec b
  let fl := operandFlags [x, y]
  if x.isNan && y.isNan then (f.nanCode, fl)
  else if x.isNan then (b, fl)
  else if y.isNan then (a, fl)
  else
    let lt := cmpVal true x y == .lt
    (if lt != max then a else b, fl)

/-- The class bits of R154. -/
def fclassBits (f : Fmt) (a : Nat) : Nat :=
  match f.dec a with
  | .nan true => 2 ^ 8
  | .nan false => 2 ^ 9
  | .inf s => if s then 2 ^ 0 else 2 ^ 7
  | .num s m _ _ =>
    let normal := match f.ieee with
      | some i => decide (2 ^ (i.p - 1) ≤ m)
      | none => true
    if m = 0 then (if s then 2 ^ 3 else 2 ^ 4)
    else if normal then (if s then 2 ^ 1 else 2 ^ 6)
    else (if s then 2 ^ 2 else 2 ^ 5)

end Sys2Proof.Machine
end

