-- ==== Sys2Proof/Machine/Alu.lean ====
section
/-! DEFINITION. What the register instructions compute for one thread, or once in uniform
form: pure functions of operand bits and sub-function codes, each with the flags it raises
(R128 to R164). Vector operands are 32 bits wide and uniform operands 64 (R128). -/

namespace Sys2Proof.Machine

/-- A result and the flags raised. -/
abbrev Out (n : Nat) := BitVec n × BitVec 9

/-! ## Elements of a packed operand (R129) -/

/-- Width of the elements of an integer type in an operand of `n` bits. -/
def tyWidth (n : Nat) (t : BitVec 3) : Nat :=
  match t.toNat with
  | 5 => 16
  | 6 => 8
  | _ => n

/-- `TY` 1 is unsigned; every other integer type is signed. -/
def tySigned (t : BitVec 3) : Bool := t != 1

/-- Element `j` of width `w`, as an integer. -/
def elemInt (sg : Bool) (w j : Nat) (x : BitVec n) : Int :=
  let e := (x >>> (w * j)).setWidth w
  if sg then e.toInt else e.toNat

/-- The elements packed into one word, element 0 lowest. -/
def packElems (n w : Nat) : List Int → BitVec n
  | [] => 0
  | e :: t => (BitVec.ofInt w e).setWidth n ||| (packElems n w t <<< w)

/-- An element function over every element of three operands: the results packed, and the
flags joined (R126). -/
def mapElems (n w : Nat) (f : Nat → Int × BitVec 9) : Out n :=
  let r := (List.range (n / w)).map f
  (packElems n w (r.map Prod.fst), (r.map Prod.snd).foldl (· ||| ·) 0)

def tyLo (sg : Bool) (w : Nat) : Int := if sg then -(2 ^ (w - 1) : Int) else 0
def tyHi (sg : Bool) (w : Nat) : Int := if sg then 2 ^ (w - 1) - 1 else 2 ^ w - 1

/-- Saturation of an exact result, with OF (R99). -/
def saturate (sat sg : Bool) (w : Nat) (x : Int) : Int × BitVec 9 :=
  if sat && decide (x < tyLo sg w) then (tyLo sg w, flOF)
  else if sat && decide (tyHi sg w < x) then (tyHi sg w, flOF)
  else (x, 0)

/-- Integer ADD, SUB, MUL and MAD (R130): the exact result by `g`, then wrap or saturate. -/
def intArith (g : Int → Int → Int → Int) (sat : Bool) (t : BitVec 3) (a b c : BitVec n) : Out n :=
  let w := tyWidth n t
  let sg := tySigned t
  mapElems n w fun j => saturate sat sg w (g (elemInt sg w j a) (elemInt sg w j b) (elemInt sg w j c))

/-- Integer MULH, MIN, MAX and ABSD (R132, R133): no flag. -/
def intPlain (g : Nat → Int → Int → Int) (t : BitVec 3) (a b : BitVec n) : Out n :=
  let w := tyWidth n t
  let sg := tySigned t
  mapElems n w fun j => (g w (elemInt sg w j a) (elemInt sg w j b), 0)

/-- The quotient of R100, with DZ. -/
def intDiv (t : BitVec 3) (a b : BitVec n) : Out n :=
  let sg := tySigned t
  let x := elemInt sg n 0 a
  let y := elemInt sg n 0 b
  if y = 0 then
    (if sg && decide (x < 0) then BitVec.ofInt n (tyLo sg n) else BitVec.ofInt n (tyHi sg n), flDZ)
  else (BitVec.ofInt n (x.tdiv y), 0)

/-- The remainder of R100, with DZ. -/
def intRem (t : BitVec 3) (a b : BitVec n) : Out n :=
  let sg := tySigned t
  let x := elemInt sg n 0 a
  let y := elemInt sg n 0 b
  if y = 0 then (a, flDZ) else (BitVec.ofInt n (x.tmod y), 0)

/-! ## Float types (R150, R151) -/

/-- The format of a float `TY`. -/
def tyFmt (t : BitVec 3) : Fmt :=
  match t.toNat with
  | 3 => .f16
  | 4 => .bf16
  | _ => .f32

/-- Whether a `TY` is a float type. -/
def tyFloat (t : BitVec 3) : Bool := t == 2 || t == 3 || t == 4

/-- The bits of element `j` of a float type. -/
def fElem (f : Fmt) (j : Nat) (x : BitVec n) : Nat := x.toNat / 2 ^ (f.width * j) % 2 ^ f.width

/-- An element function over the elements of a float type in the low 32 bits (R148). -/
def mapFloat (n : Nat) (f : Fmt) (g : Nat → Nat × BitVec 9) : Out n :=
  let r := (List.range (32 / f.width)).map g
  (packElems n f.width (r.map fun p => (p.1 : Int)), (r.map Prod.snd).foldl (· ||| ·) 0)

/-- `Fop` on every element (R150). -/
def floatArith (op : Fop) (t : BitVec 3) (rnd : Nat) (a b c : BitVec n) : Out n :=
  let f := tyFmt t
  mapFloat n f fun j => fop op f rnd (fElem f j a) (fElem f j b) (fElem f j c)

/-! ## The arithmetic instructions -/

def aluAdd (sat : Bool) (t : BitVec 3) (rnd : Nat) (a b : BitVec n) : Out n :=
  if tyFloat t then floatArith .add t rnd a b 0 else intArith (fun x y _ => x + y) sat t a b 0

def aluSub (sat : Bool) (t : BitVec 3) (rnd : Nat) (a b : BitVec n) : Out n :=
  if tyFloat t then floatArith .sub t rnd a b 0 else intArith (fun x y _ => x - y) sat t a b 0

def aluMul (sat : Bool) (t : BitVec 3) (rnd : Nat) (a b : BitVec n) : Out n :=
  if tyFloat t then floatArith .mul t rnd a b 0 else intArith (fun x y _ => x * y) sat t a b 0

def aluMad (sat : Bool) (t : BitVec 3) (rnd : Nat) (a b c : BitVec n) : Out n :=
  if tyFloat t then floatArith .mad t rnd a b c else intArith (fun x y z => x * y + z) sat t a b c

/-- MULH (R132). -/
def aluMulh (t : BitVec 3) (a b : BitVec n) : Out n :=
  intPlain (fun w x y => (x * y) / 2 ^ w) t a b

/-- MIN and MAX (R133, R151). -/
def aluMinMax (max : Bool) (t : BitVec 3) (a b : BitVec n) : Out n :=
  if tyFloat t then
    let f := tyFmt t
    mapFloat n f fun j => fminmax max f (fElem f j a) (fElem f j b)
  else intPlain (fun _ x y => if max == decide (x < y) then y else x) t a b

/-- ABSD (R133, R150). -/
def aluAbsd (t : BitVec 3) (rnd : Nat) (a b : BitVec n) : Out n :=
  if tyFloat t then floatArith .absd t rnd a b 0
  else intPlain (fun _ x y => (x - y).natAbs) t a b

/-- DIV (R134, R150). -/
def aluDiv (t : BitVec 3) (rnd : Nat) (a b : BitVec n) : Out n :=
  if tyFloat t then floatArith .div t rnd a b 0 else intDiv t a b

/-- LOGIC (R135). -/
def aluLogic (f : BitVec 5) (a b : BitVec n) : BitVec n :=
  match f.toNat with
  | 0 => a &&& b
  | 1 => a ||| b
  | 2 => a ^^^ b
  | 3 => a &&& ~~~b
  | 4 => a ||| ~~~b
  | _ => ~~~(a ^^^ b)

/-- One element of SHIFT (R136): the amount is the whole element of B, unsigned. -/
def shiftElem (op w : Nat) (a : BitVec w) (k : Nat) : BitVec w :=
  match op with
  | 0 => if w ≤ k then 0 else a <<< k
  | 1 => if w ≤ k then 0 else a >>> k
  | 2 => a.sshiftRight (min k w)
  | _ => a.rotateLeft (k % w)

/-- SHIFT (R136). -/
def aluShift (e : BitVec 3) (p : BitVec 2) (a b : BitVec n) : BitVec n :=
  let w := match e.toNat with
    | 1 => 16
    | 2 => 8
    | _ => n
  packElems n w ((List.range (n / w)).map fun j =>
    ((shiftElem p.toNat w ((a >>> (w * j)).setWidth w) ((b >>> (w * j)).setWidth w).toNat).toNat : Int))

/-- The positions of the 1 bits. -/
def oneBits (a : BitVec n) : List Nat := (List.range n).filter fun i => a.getLsbD i

/-- BITS (R137). -/
def aluBits (f : BitVec 5) (a : BitVec n) : BitVec n :=
  match f.toNat with
  | 0 => BitVec.ofNat n (oneBits a).length
  | 1 => BitVec.ofNat n (match (oneBits a).getLast? with | some i => n - 1 - i | none => n)
  | 2 => BitVec.ofNat n ((oneBits a).head?.getD n)
  | 3 => BitVec.ofNat n (((oneBits a).map fun i => 2 ^ (n - 1 - i)).foldl (· + ·) 0)
  | _ => packElems n 8 (((List.range (n / 8)).map fun i =>
      (((a >>> (8 * (n / 8 - 1 - i))).setWidth 8).toNat : Int)))

/-- Position and length of the field that B names, cut at the top (R138). -/
def fieldOf (n : Nat) (b : BitVec n) : Nat × Nat :=
  let pos := b.toNat % 256
  let len := b.toNat / 256 % 256
  (pos, if n ≤ pos then 0 else Nat.min len (n - pos))

/-- BFX (R138). -/
def aluBfx (sx : Bool) (a b : BitVec n) : BitVec n :=
  let p := fieldOf n b
  let f := (a >>> p.1).setWidth p.2
  if p.2 = 0 then 0 else if sx then f.signExtend n else f.setWidth n

/-- BFI (R138): the field of the old destination replaced by the low bits of A. -/
def aluBfi (a b d : BitVec n) : BitVec n :=
  let p := fieldOf n b
  let m : BitVec n := BitVec.ofNat n ((2 ^ p.2 - 1) * 2 ^ p.1)
  if p.2 = 0 then d else (d &&& ~~~m) ||| ((a <<< p.1) &&& m)

/-- Byte `i` of `x`, counted from the lowest. -/
def byteOf (x : BitVec n) (i : Nat) : Nat := x.toNat / 2 ^ (8 * i) % 256

/-- PERM in vector form (R139). -/
def permVec (a b c : Word) : Word :=
  packElems 32 8 ((List.range 4).map fun j =>
    let s := c.toNat / 2 ^ (4 * j) % 16
    let y := if s % 8 < 4 then byteOf a (s % 8) else byteOf b (s % 8 - 4)
    if s < 8 then (y : Int) else if 128 ≤ y then 255 else 0)

/-- PERM in uniform form (R139). -/
def permUni (a b c : Word64) : Word64 :=
  packElems 64 8 ((List.range 8).map fun j =>
    let s := c.toNat / 2 ^ (4 * j) % 16
    ((if s < 8 then byteOf a s else byteOf b (s - 8) : Nat) : Int))

/-- LEA (R146). -/
def aluLea (h : BitVec 3) (a b : BitVec n) : BitVec n := a + (b <<< h.toNat)

/-- The condition codes of CMP on an order (R140). -/
def condOf (c : Nat) (o : Ordering) : Bool :=
  match c with
  | 0 => o == .eq
  | 1 => o != .eq
  | 2 => o == .lt
  | 3 => o != .gt
  | 4 => o == .gt
  | 5 => o != .lt
  | 6 => false
  | _ => true

/-- CMP (R140, R152): the outcome and the flags. -/
def aluCmp (c : BitVec 3) (y : BitVec 2) (a b : BitVec n) : Bool × BitVec 9 :=
  if y = 2 then
    let u := Fmt.f32.dec (a.toNat % 2 ^ 32)
    let v := Fmt.f32.dec (b.toNat % 2 ^ 32)
    let un := u.isNan || v.isNan
    let quiet := decide (2 ≤ c.toNat ∧ c.toNat ≤ 5) && un
    let r := if un then c == 1 || c == 6 else condOf c.toNat (cmpVal false u v)
    (r, operandFlags [u, v] ||| flagIf quiet flNV)
  else
    let o := if y = 1 then compare a.toNat b.toNat else compare a.toInt b.toInt
    (condOf c.toNat o, 0)

/-- FSGN (R153) on every element. -/
def aluFsgn (o : BitVec 2) (t : BitVec 3) (a b : BitVec n) : BitVec n :=
  let f := tyFmt t
  let m := 2 ^ (f.width - 1)
  (mapFloat n f fun j =>
    let x := fElem f j a
    let y := fElem f j b
    let s := match o.toNat with
      | 0 => 0
      | 1 => 1 - x / m
      | _ => y / m
    (x % m + s * m, 0)).1

/-- FCLASS (R154) on every element. -/
def aluFclass (t : BitVec 3) (a : BitVec n) : BitVec n :=
  let f := tyFmt t
  (mapFloat n f fun j => (fclassBits f (fElem f j a), 0)).1

/-- SFU (R155). -/
def aluSfu (h : Bool) (fn : BitVec 3) (rnd : Nat) (a : Word) : Out 32 :=
  let f := if h then Fmt.f16 else Fmt.f32
  mapFloat 32 f fun j =>
    let v := f.dec (fElem f j a)
    let x := sfuExact fn.toNat v
    let r := f.enc x.1 (if fn = 2 then rnd else 0) 0
    (r.1, r.2 ||| x.2 ||| operandFlags [v])

/-- The products and the addend of a sum, all exact, in one total (R120, R156). -/
def dotSum (ps : List (Val × Val)) (c : Val) : Val × BitVec 9 :=
  let qs := ps.map fun p => p.1.mul p.2
  let r := sumExact false (qs.map Prod.fst ++ [c])
  (r.1, (qs.map Prod.snd).foldl (· ||| ·) r.2)

/-- DOT (R156). -/
def aluDot (fn : BitVec 5) (rnd : Nat) (a b c : Word) : Out 32 :=
  if fn = 3 then
    let s := ((List.range 4).map fun j => elemInt true 8 j a * elemInt true 8 j b).foldl (· + ·) c.toInt
    (BitVec.ofInt 32 s, 0)
  else
    let sp : Fmt × Nat × Nat := match fn.toNat with
      | 0 => (.f16, 2, 16)
      | 1 => (.bf16, 2, 16)
      | 2 => (.t8, 4, 8)
      | _ => (.t6, 5, 6)
    let el := fun (x : Word) (j : Nat) => sp.1.dec (x.toNat / 2 ^ (sp.2.2 * j))
    let ps := (List.range sp.2.1).map fun j => (el a j, el b j)
    let cv := Fmt.f32.dec c.toNat
    let s := dotSum ps cv
    let r := Fmt.f32.enc s.1 rnd 0
    (BitVec.ofNat 32 r.1, r.2 ||| s.2 ||| operandFlags (cv :: ps.map Prod.fst ++ ps.map Prod.snd))

/-! ## Conversion (R157 to R159) -/

/-- The format of a format code, when it is a floating one. -/
def codeFmt (k : Nat) : Option Fmt :=
  match k with
  | 2 => some .f32
  | 3 => some .f16
  | 4 => some .bf16
  | 9 => some .t8
  | 10 => some .t6
  | 11 => some .e2m1
  | 13 => some .f16
  | 14 => some .bf16
  | _ => none

/-- Signedness and width of an integer format code; i32 and n32 are as wide as the operand. -/
def codeInt (n k : Nat) : Bool × Nat :=
  match k with
  | 0 => (true, n)
  | 1 => (false, n)
  | 5 => (true, 16)
  | 6 => (false, 16)
  | 7 => (true, 8)
  | _ => (false, 8)

/-- The value of a source element, with NV for an e2m1 escape and a signalling NaN and NF for
a value that is not finite (R159). -/
def cvtDec (n k : Nat) (x : Nat) : Val × BitVec 9 :=
  match codeFmt k with
  | some .e2m1 =>
    if x % 16 = 8 then (.nan false, flNV ||| flNF) else (Fmt.e2m1.dec x, 0)
  | some f => let v := f.dec x; (v, operandFlags [v])
  | none =>
    let p := codeInt n k
    (.ofInt (elemInt p.1 p.2 0 (BitVec.ofNat p.2 x)), 0)

/-- The code of a converted value: signed narrow integers extended by sign, every other code
by zeros (R159). -/
def cvtEnc (n k : Nat) (v : Val) (rnd rb : Nat) : Out n :=
  match codeFmt k with
  | some f => let r := f.enc v rnd rb; (BitVec.ofNat n r.1, r.2)
  | none =>
    let p := codeInt n k
    let r := encInt (tyLo p.1 p.2) (tyHi p.1 p.2) v rnd rb
    (BitVec.ofInt n r.1, r.2)

/-- One conversion. -/
def cvtElem (n sty dty : Nat) (rnd rb : Nat) (x : Nat) : Out n :=
  let v := cvtDec n sty x
  let r := cvtEnc n dty v.1 rnd rb
  (r.1, r.2 ||| v.2)

/-- The rbits of sub-element `j` (R119). -/
def rbitsOf (c : Word) (j : Nat) : Nat := (c.rotateRight (8 * j)).toNat

/-! ## Block scales (R160 to R164) -/

/-- The greatest finite magnitude of an element format of R160. -/
def qMax (k : Nat) : Nat :=
  match k with
  | 7 => 127
  | 9 => 4096
  | 10 => 16
  | _ => 6

/-- An element code under a rounding, for the formats of R160. -/
def qEncVal (k : Nat) (v : Val) (rnd rb : Nat) : Nat × BitVec 9 :=
  match codeFmt k with
  | some f => f.enc v rnd rb
  | none =>
    let r := encInt (-128) 127 v rnd rb
    ((BitVec.ofInt 8 r.1).toNat, r.2)

/-- The smallest s12 scale whose value is at least `amax / L` (R161): `none` when every scale
is too small. -/
def qScale (k : Nat) (m : Nat) (e : Int) : Option Nat :=
  (List.range 0xFF0).find? fun s =>
    match decS12 s with
    | .num _ n f _ => n != 0 && cmpMag (n * qMax k) f m e != .lt
    | _ => false

/-- QSCL over the operands of the active threads (R161). -/
def aluQscl (k : Nat) (xs : List Word) : Nat × BitVec 9 :=
  let vs := xs.map fun x => Fmt.f32.dec x.toNat
  if vs.any Val.nonFinite then (0xFF0, operandFlags vs)
  else
    let amax := vs.foldl (fun acc v => if cmpVal false acc v.abs == .lt then v.abs else acc)
      (.num false 0 0 false)
    match amax with
    | .num _ m e _ =>
      if m = 0 then (0x7F0, 0)
      else match qScale k m e with
        | some s => (s, 0)
        | none => (0xFEF, flOF)
    | _ => (0x7F0, 0)

/-- Whether QENC.e2m1 escapes the element (R163). -/
def qEscaped (x s : Word) : Bool :=
  match decS12 (s.toNat % 4096) with
  | .num _ n f _ =>
    if n = 0 then false
    else match Fmt.f32.dec x.toNat with
      | .inf _ => true
      | .num _ m e _ => cmpMag m e (6 * n) f == .gt
      | .nan _ => false
  | _ => false

/-- QENC of one element (R162, R163); `rank` is the number of escaped active threads of lower
lane. -/
def aluQenc (k : Nat) (rnd rb rank : Nat) (x s : Word) : Out 32 :=
  let v := Fmt.f32.dec x.toNat
  let sv := decS12 (s.toNat % 4096)
  let fl := operandFlags [v]
  if sv.isNan then
    let r := qEncVal k (.nan false) rnd rb
    (BitVec.ofNat 32 r.1, r.2 ||| fl ||| flNANSC ||| flNF)
  else if sv.isZero then
    if v.nonFinite then
      let r := qEncVal k v rnd rb
      (BitVec.ofNat 32 r.1, r.2 ||| fl)
    else (0, flagIf (!v.isZero) flDZ)
  else if k = 11 && qEscaped x s then
    let q := (v.div sv).1
    let r := Fmt.f16.enc q rnd rb
    (BitVec.ofNat 32 (8 + rank * 256 + r.1 * 65536), r.2 ||| fl)
  else
    let r := qEncVal k (v.div sv).1 rnd rb
    (BitVec.ofNat 32 r.1, r.2 ||| fl)

/-- QDEC of one element (R164, R110). -/
def aluQdec (k : Nat) (rnd : Nat) (x s : Word) : Out 32 :=
  let v : Val := match codeFmt k with
    | some .e2m1 => if x.toNat % 16 = 8 then Fmt.f16.dec (x.toNat / 65536) else Fmt.e2m1.dec x.toNat
    | some f => f.dec x.toNat
    | none => .ofInt (elemInt true 8 0 x)
  let sv := decS12 (s.toNat % 4096)
  if sv.isNan then (BitVec.ofNat 32 Fmt.f32.nanCode, flNANSC ||| flNF ||| operandFlags [v])
  else
    let p := v.mul sv
    let r := Fmt.f32.enc p.1 rnd 0
    (BitVec.ofNat 32 r.1, r.2 ||| p.2 ||| operandFlags [v])

end Sys2Proof.Machine
end

