-- ==== Sys2Proof/Machine/Radix.lean ====
section
/-! DEFINITION. Alphabets and packed words (R112 to R115, R271 to R273): the arithmetic of
descriptors, digits and symbol values. -/

namespace Sys2Proof.Machine

/-- A run of an alphabet: its radix, its number of digits and its mapping (R112). -/
structure Run where
  radix : Nat
  cnt : Nat
  map : Nat
  deriving DecidableEq, Repr

/-- Run `i` of a descriptor. -/
def alRun (al : Word64) (i : Nat) : Run :=
  let x := al.toNat / 2 ^ (16 * i)
  { radix := x / 2 ^ 8 % 2 ^ 8 + 1, cnt := x / 2 ^ 3 % 2 ^ 5, map := x % 8 }

/-- The runs of a descriptor that are present. -/
def alRuns (al : Word64) : List Run := ([0, 1, 2].map (alRun al)).filter fun r => r.radix != 1

/-- The run of each digit (R114). -/
def alDigits (al : Word64) : List Run := ((alRuns al).map fun r => List.replicate r.cnt r).flatten

/-- `n(al)`: digits in a word. -/
def alN (al : Word64) : Nat := (alDigits al).length

/-- `TRAPINV`. -/
def alTrap (al : Word64) : Bool := al.getLsbD 48

/-- `Rad(al, i)`. -/
def alRad (al : Word64) (i : Nat) : Nat := (((alDigits al)[i]?).map Run.radix).getD 1

/-- `Wt(al, i)`. -/
def alWt (al : Word64) (i : Nat) : Nat := ((alDigits al).take i).foldl (fun p r => p * r.radix) 1

/-- `P(al)`. -/
def alP (al : Word64) : Nat := alWt al (alN al)

/-- `Code(al, x, i)`. -/
def alCode (al : Word64) (x i : Nat) : Nat := x / alWt al i % alRad al i

/-- The value of a code under a run (R112). -/
def runVal (r : Run) (c : Nat) : Int :=
  match r.map with
  | 0 => c
  | 1 => (c : Int) - (r.radix / 2 : Nat)
  | _ => if c % 2 = 1 then -(c / 2 : Nat) else (c / 2 : Nat)

/-- The run of digit `i`. -/
def alRunOf (al : Word64) (i : Nat) : Run := ((alDigits al)[i]?).getD { radix := 1, cnt := 0, map := 0 }

/-- `Val(al, c, i)`. -/
def alVal (al : Word64) (c i : Nat) : Int := runVal (alRunOf al i) c

/-- The range of a digit (R272). -/
def runLo (r : Run) : Int :=
  match r.map with
  | 0 => 0
  | 1 => -(r.radix / 2 : Nat)
  | _ => -((r.radix - 2) / 2 : Nat)

def runHi (r : Run) : Int :=
  match r.map with
  | 0 => (r.radix : Int) - 1
  | 1 => (r.radix : Int) - 1 - (r.radix / 2 : Nat)
  | _ => ((r.radix - 1) / 2 : Nat)

/-- The least code of a value within the range of a run. -/
def runCode (r : Run) (v : Int) : Nat :=
  match r.map with
  | 0 => v.toNat
  | 1 => (v + (r.radix / 2 : Nat)).toNat
  | _ => if v < 0 then (-v).toNat * 2 + 1 else v.toNat * 2

/-- `CodeOf(al, v, i)` (R272): the code of the clamped value, with RANGE when it was clamped. -/
def alCodeOf (al : Word64) (v : Int) (i : Nat) : Nat × BitVec 9 :=
  let r := alRunOf al i
  let w := max (runLo r) (min v (runHi r))
  (runCode r w, flagIf (w != v) flRANGE)

/-- `Zero(al)` (R115). -/
def alZero (al : Word64) : Nat :=
  ((List.range (alN al)).map fun i => runCode (alRunOf al i) 0 * alWt al i).foldl (· + ·) 0

/-- Whether a descriptor is valid (R113). -/
def alValid (al : Word64) : Bool :=
  al == 0 ||
    (let rs := [0, 1, 2].map (alRun al)
     let present := rs.map fun r => r.radix != 1
     (present.getD 0 false) && (!(present.getD 2 false) || present.getD 1 false) &&
       rs.all (fun r => if r.radix = 1 then r.cnt == 0 && r.map == 0 else r.cnt != 0 && decide (r.map ≤ 2)) &&
       decide (al.toNat / 2 ^ 49 = 0) && decide (alP al ≤ 2 ^ 32))

/-- `Read(al, x)` (R273): the word, or none when the thread is marked for INVALID_CODE, with the
flag. -/
def alRead (al : Word64) (x : Nat) : Option Nat × BitVec 9 :=
  if x < alP al then (some x, 0)
  else if alTrap al then (none, 0)
  else (some (alZero al), flINVAL)

/-- A word with digit `i`'s code replaced (R114). -/
def alPut (al : Word64) (x i c : Nat) : Nat := x - alCode al x i * alWt al i + c * alWt al i

/-- The read-modify-write of SYMST on a word (R284): whether the thread is marked, the new word,
and the flags. -/
def symPut (al : Word64) (i : Nat) (v : Int) (w : Nat) : Bool × Nat × BitVec 9 :=
  match alRead al w with
  | (none, _) => (true, w, 0)
  | (some x, f) =>
    let c := alCodeOf al v i
    (false, alPut al x i c.1, f ||| c.2)

/-- The codes of a byte as a symbol value (R277). -/
def symByte (al : Word64) (i b : Nat) : Int :=
  if (alRunOf al i).map = 0 then (b : Int) else (BitVec.ofNat 8 b).toInt

end Sys2Proof.Machine
end

