-- ==== Sys2Proof/Machine/Sha.lean ====
section
/-! DEFINITION. SHA-384, the digest of a flash image (R467). -/

namespace Sys2Proof

/-- The greatest natural number whose `k`-th power is at most `x`, bit by bit from bit `b - 1`. -/
def rootAt (k x : Nat) : Nat → Nat → Nat
  | 0, r => r
  | b + 1, r => if (r + 2 ^ b) ^ k ≤ x then rootAt k x b (r + 2 ^ b) else rootAt k x b r

/-- The first 64 bits of the fractional part of the `k`-th root of a number. -/
def rootFrac (k p : Nat) : Word64 := BitVec.ofNat 64 (rootAt k (p * 2 ^ (64 * k)) 80 0)

/-- The first 80 prime numbers. -/
def shaPrimes : List Nat :=
  (List.range 410).filter fun n => decide (2 ≤ n) && (List.range n).all fun d => decide (d < 2) || n % d != 0

/-- The round constants and the initial hash value. -/
def shaK : List Word64 := shaPrimes.map (rootFrac 3)
def shaInit : List Word64 := ((shaPrimes.drop 8).take 8).map (rootFrac 2)

/-- A message with its padding. -/
def shaPad (m : List Byte) : List Byte :=
  let z := (239 - m.length % 128) % 128
  m ++ 0x80 :: List.replicate z 0 ++ (List.range 16).map fun i => BitVec.ofNat 8 (8 * m.length / 256 ^ (15 - i))

/-- The number that bytes make, the first highest. -/
def bigEnd (l : List Byte) : Nat := l.foldl (fun x b => x * 256 + b.toNat) 0

/-- The 80 words of the schedule of a block, the latest first. -/
def shaSchedule (block : List Byte) : List Word64 :=
  let first := ((List.range 16).map fun i => BitVec.ofNat 64 (bigEnd ((block.drop (8 * i)).take 8))).reverse
  (List.range 64).foldl (fun w _ =>
    let at_ := fun (i : Nat) => w.getD i 0
    let a := at_ 14
    let b := at_ 1
    let s0 := a.rotateRight 1 ^^^ a.rotateRight 8 ^^^ (a >>> 7)
    let s1 := b.rotateRight 19 ^^^ b.rotateRight 61 ^^^ (b >>> 6)
    (at_ 15 + s0 + at_ 6 + s1) :: w) first

/-- One round on the eight working words. -/
def shaRound (h : List Word64) (kw : Word64) : List Word64 :=
  let v := fun (i : Nat) => h.getD i 0
  let s1 := (v 4).rotateRight 14 ^^^ (v 4).rotateRight 18 ^^^ (v 4).rotateRight 41
  let ch := (v 4 &&& v 5) ^^^ (~~~ v 4 &&& v 6)
  let t1 := v 7 + s1 + ch + kw
  let s0 := (v 0).rotateRight 28 ^^^ (v 0).rotateRight 34 ^^^ (v 0).rotateRight 39
  let maj := (v 0 &&& v 1) ^^^ (v 0 &&& v 2) ^^^ (v 1 &&& v 2)
  [t1 + s0 + maj, v 0, v 1, v 2, v 3 + t1, v 4, v 5, v 6]

/-- The blocks of a padded message taken one by one. -/
def shaBlocks : Nat → List Byte → List Word64 → List Word64
  | 0, _, h => h
  | n + 1, m, h =>
    let w := (shaSchedule (m.take 128)).reverse
    let r := (List.zipWith (· + ·) shaK w).foldl shaRound h
    shaBlocks n (m.drop 128) (List.zipWith (· + ·) h r)

/-- The digest of a message, 48 bytes. -/
def sha384 (m : List Byte) : List Byte :=
  let p := shaPad m
  ((shaBlocks (p.length / 128) p shaInit).take 6).flatMap fun x => (List.range 8).map fun i => BitVec.ofNat 8 (x.toNat / 256 ^ (7 - i))

end Sys2Proof
end

