-- ==== Sys2Proof/Machine/Curve.lean ====
section
/-! DEFINITION. ECDSA with SHA-384 on brainpoolP384r1 (RFC 5639), for flash images and attestation
reports (R467, R468). -/

namespace Sys2Proof

/-- The curve y² = x³ + A x + B over the integers modulo `curveP`, with a base point of order `curveQ`. -/
def curveP : Nat := 0x8CB91E82A3386D280F5D6F7E50E641DF152F7109ED5456B412B1DA197FB71123ACD3A729901D1A71874700133107EC53
def curveA : Nat := 0x7BC382C63D8C150C3C72080ACE05AFA0C2BEA28E4FB22787139165EFBA91F90F8AA5814A503AD4EB04A8C7DD22CE2826
def curveB : Nat := 0x04A8C7DD22CE28268B39B55416F0447C2FB77DE107DCD2A62E880EA53EEB62D57CB4390295DBC9943AB78696FA504C11
def curveQ : Nat := 0x8CB91E82A3386D280F5D6F7E50E641DF152F7109ED5456B31F166E6CAC0425A7CF3AB6AF6B7FC3103B883202E9046565
def curveG : Nat × Nat :=
  (0x1D1C64F068CF45FFA2A63A81B7C13F6B8847A3E77EF14FE3DB7FCAFE0CBD10E8E826E03436D646AAEF87B2E247D4AF1E,
   0x8ABE1D7520F9C2A45CB1EB8E95CFD55262B70B29FEEC5864E19C054FF99129280E4646217791811142820341263C5315)

/-- `x` to the power of the lowest bits of `e`, as many as the fuel, modulo `m`. -/
def powMod (m x : Nat) : Nat → Nat → Nat
  | 0, _ => 1 % m
  | n + 1, e =>
    let h := powMod m x n (e / 2)
    if e % 2 = 1 then h * h % m * x % m else h * h % m

/-- The inverse of a number modulo a prime of at most 384 bits. -/
def invMod (m x : Nat) : Nat := powMod m x 384 (m - 2)

/-- A point of the curve; the point at infinity is none. -/
abbrev CurvePt := Option (Nat × Nat)

/-- Whether a point lies on the curve. -/
def CurvePt.onCurve : CurvePt → Bool
  | none => true
  | some (x, y) => y * y % curveP == (x * x % curveP * x + curveA * x + curveB) % curveP

/-- The sum of two points. -/
def CurvePt.add : CurvePt → CurvePt → CurvePt
  | none, b => b
  | a, none => a
  | some (x, y), some (u, v) =>
    if x = u ∧ (y + v) % curveP = 0 then none
    else
      let k := if x = u then (3 * x * x + curveA) * invMod curveP (2 * y % curveP) % curveP
        else (v + curveP - y) * invMod curveP ((u + curveP - x) % curveP) % curveP
      let r := (k * k + 2 * curveP - x - u) % curveP
      some (r, (k * (x + curveP - r) + curveP - y) % curveP)

/-- A point taken `e` times, for the lowest bits of `e`, as many as the fuel. -/
def CurvePt.times (g : CurvePt) : Nat → Nat → CurvePt
  | 0, _ => none
  | n + 1, e =>
    let h := times g n (e / 2)
    let d := h.add h
    if e % 2 = 1 then d.add g else d

/-- A number of the base point. -/
def baseTimes (e : Nat) : CurvePt := CurvePt.times (some curveG) 384 e

/-- The private key that a number stands for, from 1 to `curveQ - 1`. -/
def secretOf (x : Nat) : Nat := 1 + x % (curveQ - 1)

/-- The digest of a message as a number. -/
def digestNum (m : List Byte) : Nat := bigEnd (sha384 m)

/-- Whether (r, s) is a signature of a message under a public key. -/
def verifies (key : CurvePt) (m : List Byte) (r s : Nat) : Bool :=
  let w := invMod curveQ s
  decide (0 < r ∧ r < curveQ ∧ 0 < s ∧ s < curveQ)
    && match ((baseTimes (digestNum m * w % curveQ)).add (key.times 384 (r * w % curveQ))) with
      | none => false
      | some p => p.1 % curveQ == r

/-- A signature of a message under a private key with a nonce; none where the nonce gives none. -/
def signWith (d : Nat) (m : List Byte) (k : Nat) : Option (Nat × Nat) :=
  match baseTimes k with
  | none => none
  | some p =>
    let r := p.1 % curveQ
    let s := invMod curveQ k * (digestNum m + r * d) % curveQ
    if r = 0 ∨ s = 0 then none else some (r, s)

/-- The key of the boot ROM (R467) and the identity key (R468), public. -/
def romKey : CurvePt := baseTimes (secretOf Config.romSecret)
def idKey : CurvePt := baseTimes (secretOf Config.idSecret)

/-- The signature of a message under the identity key: with the first nonce of those drawn that gives one. -/
def signId (m : List Byte) : Nat × Nat :=
  ((List.range 64).findSome? fun i => signWith (secretOf Config.idSecret) m (secretOf (Config.signNonce m i))).getD (1, 1)

end Sys2Proof
end

