-- ==== Sys2Proof/Machine/Turn.lean ====
section
/-! DEFINITION. Tile table entries (R314, R317) and the order of the instructions on each tile
(R319): what an agent leaves behind on the tiles when it stops. -/

namespace Sys2Proof.Machine

/-! ## Entries (R314) -/

abbrev Entry := BitVec 512

def Entry.state (e : Entry) : Nat := getF e 0 3
def Entry.own (e : Entry) : Bool := e.getLsbD 3
def Entry.lc (e : Entry) : Nat := getF e 8 2
def Entry.ctx (e : Entry) : Nat := getF e 10 4
def Entry.pend (e : Entry) : Nat := getF e 14 6
def Entry.prog (e : Entry) : Nat := getF e 20 6
def Entry.held (e : Entry) : Bool := e.getLsbD 26
def Entry.arrv (e : Entry) : Nat := getF e 32 32
def Entry.kind (e : Entry) : Nat := getF e 64 2
def Entry.rows (e : Entry) : Nat := getF e 69 6
def Entry.cols (e : Entry) : Nat := getF e 75 6
def Entry.layout (e : Entry) : Nat := getF e 81 2
def Entry.fmt (e : Entry) : Nat := getF e 83 5
def Entry.base (e : Entry) : Nat := getF e 128 64
def Entry.pitch (e : Entry) : Nat := getF e 192 64
def Entry.alph (e : Entry) : Word64 := BitVec.ofNat 64 (getF e 320 64)
def Entry.scpl (e : Entry) : Nat := getF e 384 64
def Entry.outl (e : Entry) : Nat := getF e 448 64

def Entry.setState (e : Entry) (x : Nat) : Entry := setF e 0 3 x
def Entry.setPend (e : Entry) (x : Nat) : Entry := setF e 14 6 (min x 63)
def Entry.setProg (e : Entry) (x : Nat) : Entry := setF e 20 6 x
def Entry.setHeld (e : Entry) (b : Bool) : Entry := setF e 26 1 b.toNat
def Entry.setArrv (e : Entry) (x : Nat) : Entry := setF e 32 32 x

/-- The bits of an entry that hold a field; the rest are reserved and read 0 (R6, R314). -/
def Entry.fields : Entry :=
  BitVec.ofNat 512 (2 ^ 512 - 2 ^ 320 + (2 ^ 256 - 2 ^ 128) + (2 ^ 88 - 2 ^ 69) + 3 * 2 ^ 64 + (2 ^ 64 - 2 ^ 32) + (2 ^ 27 - 2 ^ 8) + 15)

/-- The states of a tile. -/
def tEmpty : Nat := 0
def tFilling : Nat := 1
def tReady : Nat := 2
def tDraining : Nat := 3

/-- The kinds of a tile (R315). -/
def kSP : Nat := 0
def kACC : Nat := 1
def kREGW : Nat := 2

/-- The entry of a tile of a core. -/
def State.tile (s : State) (c t : Nat) : Entry := mapGet 0 (s.core c).tiles t

def State.setTile (s : State) (c t : Nat) (e : Entry) : State :=
  let k := s.core c
  s.setCore c { k with tiles := mapSet 0 k.tiles t e }

/-- Whether a tile belongs to the task of an agent (R317). -/
def Entry.ownedBy (e : Entry) (a : Agent) : Bool := e.own && e.ctx == a.ctx && e.lc == a.lctx

/-! ## The order on a tile (R319) -/

def State.turns (s : State) (c t : Nat) : List TileTurn := mapGet [] (s.core c).turns t

def State.setTurns (s : State) (c t : Nat) (l : List TileTurn) : State :=
  let k := s.core c
  s.setCore c { k with turns := mapSet [] k.turns t l }

/-- What stands for an agent in the order of a tile: the frame that it took from the pool, and its context. -/
def Agent.key (a : Agent) : Word64 := a.own + BitVec.ofNat 64 (a.ctx * 2 ^ 60)

/-- The place of an agent's word in the order of a tile. -/
def myTurn (l : List TileTurn) (frame : Word64) : Option TileTurn := l.find? fun x => x.frame == frame && x.st != .ended

/-- The word of an agent has ended, and the tile goes on until what `tag` stands for has
finished. -/
def State.turnEnded (s : State) (c t : Nat) (a : Agent) (tag : Nat) : State :=
  s.setTurns c t ((s.turns c t).map fun z =>
    if z.frame = a.key ∧ z.st ≠ .ended then { z with st := .ended, tag := tag } else z)

/-- The place with a tag given up: what it stood for has finished. -/
def State.endTurn (s : State) (c t tag : Nat) : State :=
  s.setTurns c t ((s.turns c t).filter fun z => z.tag != tag)

/-- One fill of a tile less (R318, R326). -/
def State.lessPend (s : State) (c t : Nat) : State :=
  let e := s.tile c t
  s.setTile c t (e.setPend (e.pend - 1))

/-- Whether it is the turn of an agent's word: nothing stands before it, or it is a reader behind
readers. -/
def turnNow (l : List TileTurn) (frame : Word64) : Bool :=
  match myTurn l frame with
  | none => false
  | some x => (l.takeWhile fun y => y.tag != x.tag).all fun y => x.reader && y.reader

/-- The place of an agent's word changed, or given up with `none`. -/
def State.markTurn (s : State) (c t : Nat) (a : Agent) (st : Option TurnState) : State :=
  match myTurn (s.turns c t) a.key with
  | none => s
  | some x =>
    match st with
    | some y => s.setTurns c t ((s.turns c t).map fun z => if z.tag = x.tag then { z with st := y } else z)
    | none => s.setTurns c t ((s.turns c t).filter fun z => z.tag != x.tag)

/-- The word of an agent fills the tile from now on: its place counts as a fill. -/
def State.turnFills (s : State) (c t : Nat) (a : Agent) : State :=
  match myTurn (s.turns c t) a.key with
  | none => s
  | some x => s.setTurns c t ((s.turns c t).map fun z => if z.tag = x.tag then { z with fill := true } else z)

/-- The flags that the word of an agent has gathered in its steps on a tile. -/
def State.turnFlags (s : State) (c t : Nat) (a : Agent) : BitVec 9 :=
  match myTurn (s.turns c t) a.key with
  | some x => x.flags
  | none => 0

/-- Flags of one more step. -/
def State.addTurnFlags (s : State) (c t : Nat) (a : Agent) (fl : BitVec 9) : State :=
  match myTurn (s.turns c t) a.key with
  | none => s
  | some x => s.setTurns c t ((s.turns c t).map fun z => if z.tag = x.tag then { z with flags := z.flags ||| fl } else z)

/-- The words of an agent that wait for a turn lose their place, and a fill among them counts no
longer (R319). -/
def State.dropTurns (s : State) (c : Nat) (frame : Word64) : State :=
  (s.core c).turns.foldl (fun s p =>
    match myTurn (s.turns c p.1) frame with
    | some x =>
      if x.st = .waiting then
        let s := s.endTurn c p.1 x.tag
        if x.fill then s.lessPend c p.1 else s
      else s
    | none => s) s

/-- The record of an accumulator (R343). -/
def State.varOf (s : State) (c a : Nat) : BitVec 256 := mapGet 0 (s.core c).vars a

def State.setVar (s : State) (c a : Nat) (x : BitVec 256) : State :=
  let k := s.core c
  s.setCore c { k with vars := mapSet 0 k.vars a ((x.setWidth 116).setWidth 256) }

/-- Whether an MMS holds a tile of an accumulator (R344). -/
def Core.sampling (k : Core) (a : Nat) : Bool :=
  k.tiles.any fun p => Entry.own p.2 && Entry.kind p.2 == kACC && Entry.base p.2 == a &&
    (mapGet [] k.turns p.1).any fun x => x.op == 0x66 && x.st == .running

/-- `RUN` of the record of a tile cleared (R344). -/
def State.stopVar (s : State) (c t : Nat) : State :=
  let a := (s.tile c t).base
  s.setVar c a (setF (s.varOf c a) 114 1 0)

/-- The tiles that are fresh or held when a word stops before its end: `HELD` is set where its
turn has begun (R327, R335, R351). -/
def State.holdTurns (s : State) (c : Nat) (frame : Word64) : State :=
  (s.core c).turns.foldl (fun s p =>
    match myTurn (s.turns c p.1) frame with
    | some x => if x.st = .running then s.setTile c p.1 ((s.tile c p.1).setHeld true) else s
    | none => s) s

/-- What an agent that stops before the end of its word leaves on the tiles: its place where it
waits is lost, and what it has begun is held. -/
def State.leaveTurns (s : State) (c : Nat) (frame : Word64) : State :=
  (s.dropTurns c frame).holdTurns c frame

/-! ## The end of a task on a core (R317, R344, R422) -/

/-- The core with the tiles that meet a condition freed: EMPTY and owned by no task, with
everything that was under way on them discarded, and the records of their accumulators zeroed. -/
def Core.freeTiles (k : Core) (f : Entry → Bool) : Core :=
  let gone := k.tiles.filter fun p => Entry.own p.2 && f p.2
  let here := fun (t : Nat) => gone.any fun p => p.1 == t
  let clear := fun (e : Entry) => (((e.setState tEmpty).setPend 0).setHeld false) &&& ~~~ (8 : Entry)
  { k with
    tiles := gone.foldl (fun m p => mapSet 0 m p.1 (clear p.2)) k.tiles
    turns := k.turns.filter fun p => !here p.1
    fills := k.fills.filter fun x => !here x.tile
    jobs := k.jobs.filter fun x => !here x.tile
    vars := k.vars.filter fun v => !gone.any fun p => Entry.kind p.2 == kACC && Entry.base p.2 == v.1 }

/-- The core without a placed task: its lead context, tiles and queue counts are free. -/
def Core.unplace (k : Core) (l : Nat) : Core :=
  let k : Core := match mapFind l k.placed with
    | some p => k.freeTiles fun e => e.ctx == p.ctx && e.lc == l
    | none => k
  { k with placed := mapErase l k.placed, tqBad := k.tqBad.filter fun x => x % 4 != l }

end Sys2Proof.Machine
end

