-- ==== Sys2Proof/Machine/Window.lean ====
section
/-! DEFINITION. The physical map of the module (R13 to R23): which unit a local address
belongs to, where it lies in the stacks, routes to other modules, and the core windows. -/

namespace Sys2Proof.Machine

/-- An empty context slot. -/
def CtxSlot.new : CtxSlot :=
  { st := .new, err := false, done := false, desc := 0, image := 0, frames := [], seq := 0 }

/-- Where a local address lies (R16): memory in service, the scratchpad of a core, another
part of a core window, a control window, or nowhere. -/
inductive Loc where
  | hbm (a : Nat)
  | spad (core off : Nat)
  | win (core off : Nat)
  | ctl (off : Nat)
  | none
  deriving DecidableEq, Repr

/-- Whether an HBM address is in service (R15, R459, R460). -/
def State.inService (s : State) (a : Nat) : Bool :=
  match mapGet .service s.slices (a / 2 ^ 35) with
  | .reforming => false
  | .reformed => decide (a % 2 ^ 35 < 0x700000000)
  | _ => true

/-- The stack of an HBM address, with its layer and the byte's offset there (R17, R460). -/
def State.stackOf (s : State) (a : Nat) : Nat × Nat × Nat :=
  let n := a / 2 ^ 35
  if mapGet .service s.slices n = .reformed then
    let b := a / 256 % 2 ^ 27
    (((List.range 8).filter fun k => k != mapGet 0 s.outstk n).getD (b % 7) 0, n, b / 7 * 256 + a % 256)
  else (a / 256 % 8, n, a % 2 ^ 35 / 2 ^ 11 * 256 + a % 256)

/-- The registers of an HBM controller after reset (R454). -/
def Hbm.fresh : Hbm :=
  { bud := 0xFFF400100040, ctl := 0x4001001000, cecnt := 0, parcnt := 0, out := 0, deg := 0, miss := [], errs := [], fails := []
    training := [], trained := [], asleep := [] }

def State.hbmOf (s : State) (stack : Nat) : Hbm := mapGet Hbm.fresh s.hbm stack
def State.setHbm (s : State) (stack : Nat) (h : Hbm) : State := { s with hbm := mapSet Hbm.fresh s.hbm stack h }

/-- The pseudo-channel that serves an HBM address, with its stack. -/
def State.pcOf (s : State) (a : Nat) : Nat × Nat :=
  let p := s.stackOf a
  (p.1, Config.pseudoChannel p.2.1 (p.2.2 / 256) % 64)

/-- Whether the channel of an HBM address is out of service (R457). -/
def State.outAt (s : State) (a : Nat) : Bool :=
  s.hbm.any (fun h => h.2.out != 0) && let p := s.pcOf a; (s.hbmOf p.1).out.getLsbD (p.2 / 2)

/-- Whether the channel of an HBM address is retraining, so that its requests wait (R457). -/
def State.trainingAt (s : State) (a : Nat) : Bool :=
  s.hbm.any (fun h => !h.2.training.isEmpty) && let p := s.pcOf a; (s.hbmOf p.1).training.contains (p.2 / 2)

/-- A request to an HBM address ends the self-refresh of its pseudo-channel (R456). -/
def State.rouse (s : State) (a : Nat) : State :=
  if s.hbm.any fun h => !h.2.asleep.isEmpty then
    let p := s.pcOf a
    let h := s.hbmOf p.1
    s.setHbm p.1 { h with asleep := h.asleep.filter (· != p.2) }
  else s

/-- Whether any of the `n` bytes at an HBM address is poisoned, or lies in a channel out of service (R421, R457,
R458). A block of 256 bytes lies in one channel (R17). -/
def State.poisonAt (s : State) (a n : Nat) : Bool :=
  (s.poison.any fun p => decide (a / 32 ≤ p ∧ p ≤ (a + n - 1) / 32))
    || (s.hbm.any (fun h => h.2.out != 0) && (List.range ((a % 256 + n + 255) / 256)).any fun i => s.outAt (a / 256 * 256 + 256 * i))

/-- The place of a local address. The command-window alias leads to the command area while
`cmdbase` is enabled (R377). -/
def State.locOf (s : State) (a : Nat) : Loc :=
  if a < 0xA000000000 then (if s.inService a then .hbm a else .none)
  else if 0xF000000000 ≤ a ∧ a < 0xF200000000 then
    let c := (a - 0xF000000000) / 0x1000000
    let o := a % 0x1000000
    if 0x200000 ≤ o ∧ o < 0x280000 then .spad c (o - 0x200000) else .win c o
  else if 0xFE00000000 ≤ a ∧ a < 0xFF00000000 then
    let o := a - 0xFE00000000
    if 0x1000000 ≤ o ∧ o < 0x1F00000 then
      let b := getF s.cmdbase 24 16 * 2 ^ 24 + (o - 0x1000000)
      if s.cmdbase.getLsbD 0 && s.inService b then .hbm b else .none
    else .ctl o
  else .none

/-- The endpoint that a module id leads to (R437). -/
def State.endptOf (s : State) (m : Nat) : Option Nat :=
  let e := (mapGet 0 s.modmap m).toNat
  if e / 2 ^ 31 % 2 = 1 ∧ (mapGet 0 s.endpts (e % 2 ^ 16)).getLsbD 128 then some (e % 2 ^ 16) else none

/-- Whether another module's memory can be reached: its endpoint is valid and a peer (R437). -/
def State.routed (s : State) (m : Nat) : Bool :=
  match s.endptOf m with
  | some e => (mapGet 0 s.endpts e).getLsbD 130
  | none => false

/-! ## Core windows (R19, R20, R22) -/

/-- What a place of a core window that a program may not see, or may not see now, does. -/
inductive WinSlot (α : Type) where
  | refused
  | hole
  | undef
  | at (x : α)

/-- The 4 bytes of a register of the register window (R20), read for a context. -/
def Core.regWord (k : Core) (ctx off : Nat) : WinSlot Word :=
  let ofAgent := fun (o : Option Agent) (f : Agent → Word) =>
    match o with
    | none => WinSlot.undef
    | some a => if a.ctx = ctx then .at (f a) else .refused
  let foreign := fun (l : Nat) => match mapFind l k.placed with
    | some p => p.ctx != ctx
    | none => false
  let half := fun (x : Word64) => if off % 8 = 0 then x.setWidth 32 else (x >>> 32).setWidth 32
  if off < 0x40000 then
    ofAgent (k.agent (off / 0x1000)) fun a => laneOf (a.getV (off / 0x80 % 32)) (off / 4 % 32)
  else if off < 0x44000 then
    ofAgent (k.agent ((off - 0x40000) / 0x100)) fun a => half (a.getX (off / 8 % 32))
  else if off < 0x44400 then
    if foreign ((off - 0x44000) / 0x100) then .refused
    else ofAgent (k.agent (64 + (off - 0x44000) / 0x100)) fun a => half (a.getX (off / 8 % 32))
  else if 0x45000 ≤ off ∧ off < 0x45800 then
    ofAgent (k.agent ((off - 0x45000) / 0x20)) fun a => a.getM (off / 4 % 8)
  else if 0x46000 ≤ off ∧ off < 0x46800 then
    ofAgent (k.agent ((off - 0x46000) / 0x20)) fun a => half (a.getAl (off / 8 % 4))
  else .hole

/-- The core with 4 bytes of a register written: `none` when the write is refused. -/
def Core.setRegWord (k : Core) (ctx off : Nat) (x : Word) : Option Core :=
  let ofAgent := fun (i : Nat) (f : Agent → Agent) =>
    match k.agent i with
    | none => some k
    | some a => if a.ctx = ctx then some (k.setAgent i (a.everywhere f)) else none
  let foreign := fun (l : Nat) => match mapFind l k.placed with
    | some p => p.ctx != ctx
    | none => false
  let half := fun (y : Word64) =>
    BitVec.ofNat 64 (if off % 8 = 0 then y.toNat / 2 ^ 32 * 2 ^ 32 + x.toNat
      else y.toNat % 2 ^ 32 + x.toNat * 2 ^ 32)
  if off < 0x40000 then
    let n := off / 0x80 % 32
    ofAgent (off / 0x1000) fun a => a.setV n (mkV fun t => if t = off / 4 % 32 then x else laneOf (a.getV n) t)
  else if off < 0x44000 then
    let n := off / 8 % 32
    ofAgent ((off - 0x40000) / 0x100) fun a => a.setX n (half (a.getX n))
  else if off < 0x44400 then
    let n := off / 8 % 32
    if foreign ((off - 0x44000) / 0x100) then none
    else ofAgent (64 + (off - 0x44000) / 0x100) fun a => a.setX n (half (a.getX n))
  else if 0x45000 ≤ off ∧ off < 0x45800 then
    ofAgent ((off - 0x45000) / 0x20) fun a => a.setM (off / 4 % 8) x
  else if 0x46000 ≤ off ∧ off < 0x46800 then
    let n := off / 8 % 4
    ofAgent ((off - 0x46000) / 0x20) fun a => a.setAl n (half (a.getAl n) &&& alFields)
  else some k

/-- The 32 bytes of an extent entry (R177). -/
def Extent.bits (x : Extent) : Nat :=
  1 + x.ord * 2 + x.r.toNat * 2 ^ 3 + x.w.toNat * 2 ^ 4 + x.x.toNat * 2 ^ 5 + x.sup.toNat * 2 ^ 6
    + x.d.toNat * 2 ^ 12 + x.stale.toNat * 2 ^ 13 + x.vbase * 2 ^ 16 + x.pbase * 2 ^ 80
    + x.npg * 2 ^ 128

/-- The 4 bytes at an offset of the control part of a core window (R177, R206, R311, R343, R465). -/
def Core.ctlWord (k : Core) (ctx off : Nat) : WinSlot Word :=
  let half := fun (x : Nat) => BitVec.ofNat 32 (if off % 8 = 0 then x else x / 2 ^ 32)
  if 0x3F0400 ≤ off ∧ off < 0x3F0500 then .at (half (mapGet 0 k.conf ((off - 0x3F0400) / 8)).toNat)
  else if 0x3F0600 ≤ off ∧ off < 0x3F0620 then
    match mapFind ((off - 0x3F0600) / 8) k.placed with
    | some p => if p.ctx = ctx then .at (half p.outst) else .refused
    | none => .at 0
  else if 0x3F0800 ≤ off ∧ off < 0x3F0808 then .at (half k.strk.toNat)
  else if 0x3F0808 ≤ off ∧ off < 0x3F0810 then .at (half k.rchk.toNat)
  else if 0x3F0810 ≤ off ∧ off < 0x3F0818 then .at (if off % 8 = 0 then k.rmisw else k.rmisc)
  else if 0x3F1000 ≤ off ∧ off < 0x3F1400 then
    .at (BitVec.ofNat 32 ((mapGet 0 k.vars ((off - 0x3F1000) / 0x20)).toNat / 2 ^ (off % 0x20 * 8)))
  else if 0x3F8000 ≤ off ∧ off < 0x3FA000 then
    match mapFind ((off - 0x3F8000) / 0x800) k.placed with
    | some p =>
      if p.ctx = ctx then
        .at (BitVec.ofNat 32 (((p.exts.map Extent.bits).getD (off / 0x20 % 64) 0) / 2 ^ (off % 32 * 8)))
      else .refused
    | none => .at 0
  else .hole

/-- Word 0 of a slot's header, as ITQ reads it (R372). -/
def ItSlot.word0 (s : ItSlot) : Nat :=
  s.st + s.linked.toNat * 2 ^ 3 + s.objs.length * 2 ^ 4 + s.bcnt % 64 * 2 ^ 8 + s.rdy.toNat * 2 ^ 14
    + s.pulls.toNat * 2 ^ 32

/-- The 0x340 bytes of a slot as the window shows them (R356, R357). -/
def ItSlot.image (s : ItSlot) : Nat :=
  s.word0 + s.otag.toNat * 2 ^ 64 + s.ctx * 2 ^ 96 + s.feed.toNat * 2 ^ 128
    + (s.objs.zipIdx.map fun o => o.1.toNat * 2 ^ (512 * (o.2 + 1))).foldl (· + ·) 0
    + (s.buf.map fun e => (e.2.1.toNat + e.2.2.toNat * 2 ^ 32) * 2 ^ (8 * (0x240 + 8 * e.1))).foldl (· + ·) 0

/-- The 4 bytes at an offset of a core window, outside the scratchpad (R19, R22, R314, R356). -/
def Core.winWord (k : Core) (ctx off : Nat) : WinSlot Word :=
  if off < 0x100000 then k.regWord ctx off
  else if off < 0x120000 then .at (mapGet 0 k.acc ((off - 0x100000) / 4))
  else if 0x300000 ≤ off ∧ off < 0x301000 then
    let e : Entry := mapGet 0 k.tiles ((off - 0x300000) / 0x40)
    if e.own && e.ctx != ctx then .refused else .at (BitVec.ofNat 32 (e.toNat / 2 ^ (off % 0x40 * 8)))
  else if 0x310000 ≤ off ∧ off < 0x320000 then
    match mapFind ((off - 0x310000) / 0x400) k.slots with
    | none => .at 0
    | some x => if x.ctx = ctx then .at (BitVec.ofNat 32 (x.image / 2 ^ (off % 0x400 * 8))) else .refused
  else if 0x320000 ≤ off ∧ off < 0x324000 then .at (mapGet 0 k.dict ((off - 0x320000) / 4))
  else if 0x340000 ≤ off ∧ off < 0x360000 then .undef
  else if 0x3F0000 ≤ off ∧ off < 0x400000 then k.ctlWord ctx off
  else .hole

/-- A read of 4 bytes of a core window: `none` when it is refused. -/
def State.winRead4 (s : State) (ctx c off : Nat) : Option (Nat × State) :=
  match (s.core c).winWord ctx off with
  | .refused => none
  | .hole => some (0, s)
  | .undef => some (s.free 32)
  | .at x => some (x.toNat, s)

/-- A bank conflict counter grows by an amount that timing decides before it is read (R206). -/
def State.growConf (s : State) (c off : Nat) : State :=
  if 0x3F0400 ≤ off ∧ off < 0x3F0500 then
    let f := s.free 32
    let k := f.2.core c
    let b := (off - 0x3F0400) / 8
    f.2.setCore c { k with conf := mapSet 0 k.conf b (mapGet 0 k.conf b + BitVec.ofNat 64 f.1) }
  else s

/-- A read of a core window, of 4 or 8 bytes (R21). -/
def State.winRead (s : State) (ctx c off n : Nat) : Option (Nat × State) :=
  let s := s.growConf c off
  if n = 4 then s.winRead4 ctx c off
  else
    (s.winRead4 ctx c off).bind fun l =>
      (l.2.winRead4 ctx c (off + 4)).map fun h => (l.1 + 2 ^ 32 * h.1, h.2)

/-- A write of 4 bytes of a core window (R22, R344). -/
def State.winWrite4 (s : State) (ctx : Nat) (priv : Bool) (c off x : Nat) : Option State :=
  let k := s.core c
  let foreign := fun (l : Nat) => match mapFind l k.placed with
    | some p => p.ctx != ctx
    | none => false
  let w : Word := BitVec.ofNat 32 x
  if off < 0x100000 then (k.setRegWord ctx off w).map fun k => s.setCore c k
  else if off < 0x120000 then
    some (s.setCore c { k with acc := mapSet 0 k.acc ((off - 0x100000) / 4) w })
  else if 0x300000 ≤ off ∧ off < 0x301000 then
    let t := (off - 0x300000) / 0x40
    let e := s.tile c t
    if (e.own && e.ctx != ctx) || e.state != tEmpty || off % 0x40 < 8 then none
    else some (s.setTile c t (setF e (off % 0x40 * 8) 32 x &&& Entry.fields))
  else if 0x310000 ≤ off ∧ off < 0x320000 then
    if (mapFind ((off - 0x310000) / 0x400) k.slots).isSome then none else some s
  else if 0x320000 ≤ off ∧ off < 0x324000 then none
  else if 0x3F1000 ≤ off ∧ off < 0x3F1400 then
    let a := (off - 0x3F1000) / 0x20
    if priv && !k.sampling a then some (s.setVar c a (setF (s.varOf c a) (off % 0x20 * 8) 32 x)) else none
  else if 0x3F0400 ≤ off ∧ off < 0x3F0500 then
    let b := (off - 0x3F0400) / 8
    let y := (mapGet 0 k.conf b).toNat
    let z := if off % 8 = 0 then y / 2 ^ 32 * 2 ^ 32 + x else y % 2 ^ 32 + x * 2 ^ 32
    some (s.setCore c { k with conf := mapSet 0 k.conf b (BitVec.ofNat 64 z) })
  else if 0x3F0600 ≤ off ∧ off < 0x3F0620 then if foreign ((off - 0x3F0600) / 8) then none else some s
  else if 0x3F8000 ≤ off ∧ off < 0x3FA000 then if foreign ((off - 0x3F8000) / 0x800) then none else some s
  else some s

/-- A write of a core window, of 4 or 8 bytes (R21, R22): `none` when it is refused. -/
def State.winWrite (s : State) (ctx : Nat) (priv : Bool) (c off n x : Nat) : Option State :=
  if n = 4 then s.winWrite4 ctx priv c off x
  else (s.winWrite4 ctx priv c off (x % 2 ^ 32)).bind fun s =>
    s.winWrite4 ctx priv c (off + 4) (x / 2 ^ 32)

end Sys2Proof.Machine
end

