-- ==== Sys2Proof/Machine/Control.lean ====
section
/-! DEFINITION. The module control windows (R24): what their registers read as, and which events a
write to them is (R6, R230, R376, R404, R410, R424, R435, R437, R446, R454, R471). -/

namespace Sys2Proof.Machine

/-! ## Fields of the registers -/

/-- The code of a context's state (R410). -/
def CtxState.code : CtxState → Nat
  | .new => 0
  | .loaded => 1
  | .active => 2
  | .quiescing => 3
  | .killed => 4
  | .freed => 5

def SnapState.code : SnapState → Nat
  | .none => 0
  | .armed => 1
  | .frozen => 2
  | .draining => 3
  | .complete => 4
  | .released => 5
  | .failed => 6

def PortState.code : PortState → Nat
  | .down => 0
  | .training => 1
  | .linkup => 2
  | .joined => 3
  | .active => 4
  | .degraded => 5
  | .draining => 6

def BootState.code : BootState → Nat
  | .reset => 0
  | .rom => 1
  | .fwload => 2
  | .hbminit => 3
  | .links => 4
  | .ready => 5
  | .bootfail => 6
  | .fatal => 7

def SliceState.code : SliceState → Nat
  | .service => 0
  | .pending => 1
  | .reforming => 2
  | .reformed => 3

/-- A context that has no snapshot. -/
def Snap.fresh : Snap :=
  { st := .none, code := 0, drained := 0, step := 0, priv := false, desc := 0, ranges := [], grans := [], waits := []
    manifest := none }

def State.snap (s : State) (ctx : Nat) : Snap := mapGet Snap.fresh s.snaps ctx

/-- The state word of a snapshot (R426). -/
def Snap.word (p : Snap) : Nat := p.st.code + p.code % 2 ^ 8 * 2 ^ 16 + p.drained % 2 ^ 32 * 2 ^ 32

/-- A port after reset (R435). -/
def Port.fresh : Port := { st := .down, degth := 1024, auto := true, retry := 0, lanes := 0, negfail := false }

def State.port (s : State) (p : Nat) : Port := mapGet Port.fresh s.ports p
def State.setPort (s : State) (p : Nat) (x : Port) : State := { s with ports := mapSet Port.fresh s.ports p x }

/-- The granules of the pool that hold a shadow, by number. -/
def State.shadows (s : State) : List Nat := s.snaps.flatMap fun p => p.2.grans.filterMap Gran.shadow

/-- `SIZE` of `snpool` (R424). -/
def State.poolSize (s : State) : Nat := getF s.snpool 5 16

/-- The slots of the whey store in use in a cluster (R230). -/
def Cluster.wheySlots (k : Cluster) : Nat := ((k.bins ++ k.arrive).map fun b => b.threads.length).foldl (· + ·) 0

/-- The certificate as the window shows it: its length, then its bytes (R468). -/
def certBytes : Nat := Config.cert.length + 2 ^ 32 * Config.cert.foldr (fun b x => b.toNat + 256 * x) 0

/-! ## Reads -/

/-- The management window, by offset (R471). -/
def State.mgmtWord (s : State) (off : Nat) : Nat :=
  if off = 0x000 then Config.feat.toNat
  else if off = 0x008 then s.featacc.toNat + s.ferr.toNat * 2 ^ 63
  else if off = 0x010 then s.boot.code + s.slot.toNat * 8 + s.cause % 2 ^ 8 * 2 ^ 8
  else if off = 0x020 then s.modid
  else if off = 0x028 then s.minver.toNat
  else if off = 0x030 then s.evendpt.toNat
  else if 0x040 ≤ off ∧ off < 0x070 then getF (BitVec.ofNat 384 ((idKey.map (·.1)).getD 0)) ((off - 0x040) * 8) 64
  else if 0x070 ≤ off ∧ off < 0x0A0 then getF (BitVec.ofNat 384 ((idKey.map (·.2)).getD 0)) ((off - 0x070) * 8) 64
  else if 0x100 ≤ off ∧ off < 0x120 then getF s.attnonce ((off - 0x100) * 8) 64
  else if off = 0x120 then s.attendpt.toNat
  else if 0x200 ≤ off ∧ off < 0x2A0 then
    let n := (off - 0x200) / 8
    let st := mapGet .service s.slices n
    (if st = .reformed then 0x700000000 + mapGet 0 s.outstk n * 2 ^ 40 else 0x800000000) + st.code * 2 ^ 44
  else if 0x400 ≤ off ∧ off < 0x800 then getF (mapGet 0 s.events ((off - 0x400) / 16)) (off % 16 * 8) 64
  else if off = 0x800 then s.evhead.toNat
  else if off = 0x808 then s.evtail.toNat + s.evovf.toNat * 2 ^ 63
  else if 0x1000 ≤ off ∧ off < 0x1000000 then certBytes / 2 ^ ((off - 0x1000) * 8) % 2 ^ 64
  else 0

/-- The block of a die, by offset (R435, R437, R446, R454). -/
def State.dieWord (s : State) (d off : Nat) : Nat :=
  if d = 0 ∧ 0x1000 ≤ off ∧ off < 0x1080 then (mapGet 0 s.csteps ((off - 0x1000) / 8)).toNat
  else if 0x2000000 ≤ off ∧ off < 0x4000000 then
    let h := s.hbmOf (2 * d + (off - 0x2000000) / 0x1000000)
    let r := off % 0x1000000
    if r = 0 then h.bud.toNat
    else if r = 0x08 then h.ctl.toNat
    else if r = 0x10 then h.parcnt.toNat + h.cecnt.toNat * 2 ^ 32
    else if r = 0x18 then h.deg.toNat + h.out.toNat * 2 ^ 32
    else if 0x1000 ≤ r ∧ r < 0x1100 then (mapGet 0 h.miss ((r - 0x1000) / 8)).toNat
    else 0
  else if 0x4000000 ≤ off ∧ off < 0x6000000 then
    let p := s.port (2 * d + (off - 0x4000000) / 0x1000000)
    let r := off % 0x1000000
    if r = 0 then p.auto.toNat * 2 ^ 8 + p.degth.toNat * 2 ^ 16
    else if r = 8 then p.st.code + p.negfail.toNat * 2 ^ 3 + p.lanes % 16 * 2 ^ 12 + p.retry.toNat * 2 ^ 32
    else 0
  else if d = 0 ∧ 0x7000000 ≤ off ∧ off < 0x7100000 then
    let m := (off - 0x7000000) / 4
    (mapGet 0 s.modmap m).toNat + (mapGet 0 s.modmap (m + 1)).toNat * 2 ^ 32
  else if d = 0 ∧ 0x7100000 ≤ off ∧ off < 0x72FFFE0 then
    getF (mapGet 0 s.endpts ((off - 0x7100000) / 32)) (off % 32 * 8) 64
  else 0

/-- The 8 bytes of a control register, by its offset in the control windows. An offset that the manual lists nothing
at reads 0 (log entry 87). -/
def State.ctlWord (s : State) (off : Nat) : Nat :=
  if off < 0x1000000 then s.mgmtWord off
  else if off = 0x1F00000 then s.cmdbase.toNat
  else if 0x2001000 ≤ off ∧ off < 0x2001080 then
    let c := mapGet CtxSlot.new s.ctxs ((off - 0x2001000) / 8)
    c.st.code + c.err.toNat * 2 ^ 6 + c.done.toNat * 2 ^ 7 + c.desc.toNat * 2 ^ 8
  else if off = 0x3000000 then s.snpool.toNat
  else if off = 0x3000008 then s.snshare.toNat
  else if off = 0x3000010 then (s.poolSize - s.shadows.length) % 2 ^ 16
  else if 0x3000100 ≤ off ∧ off < 0x3000180 then (s.snap ((off - 0x3000100) / 8)).word
  else if 0x10000000 ≤ off ∧ off < 0x50000000 then s.dieWord (off / 0x10000000 - 1) (off % 0x10000000)
  else if 0x50000000 ≤ off ∧ off < 0x60000000 then
    let k := s.cluster (off / 0x1000000 % 16)
    let r := off % 0x1000000
    if r = 0 then k.cqbase.toNat
    else if r = 0x400000 then k.idle.toNat * 2
    else if r = 0x400008 then k.wheySlots + k.bins.length * 2 ^ 32
    else 0
  else 0

/-- Whether a register counts what timing decides: the missed deadlines (R454). -/
def ctlGrows (off : Nat) : Bool :=
  decide (0x10000000 ≤ off ∧ off < 0x50000000) &&
    let r := off % 0x10000000
    decide (0x2000000 ≤ r ∧ r < 0x4000000) && decide (0x1000 ≤ r % 0x1000000 ∧ r % 0x1000000 < 0x1100)

/-- Such a count grows by an amount that timing decides before it is read. -/
def State.growMiss (s : State) (off : Nat) : State :=
  if ctlGrows off then
    let f := s.free 64
    let k := 2 * (off / 0x10000000 - 1) + (off % 0x10000000 - 0x2000000) / 0x1000000
    let r := (off % 0x1000000 - 0x1000) / 8
    let h := f.2.hbmOf k
    f.2.setHbm k { h with miss := mapSet 0 h.miss r (mapGet 0 h.miss r + BitVec.ofNat 64 f.1) }
  else s

/-- A read of control registers: `n` bytes at an offset. -/
def State.ctlRead (s : State) (off n : Nat) : Nat × State :=
  let s := (List.range ((off % 8 + n + 7) / 8)).foldl (fun s i => s.growMiss (off / 8 * 8 + 8 * i)) s
  let ws := (List.range ((off % 8 + n + 7) / 8)).map fun i => s.ctlWord (off / 8 * 8 + 8 * i)
  let x := (ws.zipIdx.map fun w => w.1 * 2 ^ (64 * w.2)).foldl (· + ·) 0
  let y := x / 2 ^ (off % 8 * 8)
  (y % 2 ^ (8 * n), s)

/-! ## Writes -/

/-- The events that a write of the 8 bytes of a register is. -/
def ctlEvent (off : Nat) (x : Word64) : List Instr :=
  let y := x.toNat
  let set : Instr := .registerWrite off 8 y
  if off = 0x008 then [.feataccWrite x]
  else if off = 0x018 then (if x.getLsbD 0 then [.bootcmdReset] else [])
  else if off = 0x028 then [.minverWrite (x.setWidth 32)]
  else if off = 0x120 then [.go x]
  else if 0x200 ≤ off ∧ off < 0x2A0 then (if x.getLsbD 47 then [.confirm ((off - 0x200) / 8)] else [])
  else if off = 0x800 then [.evheadWrite (x.setWidth 16)]
  else if off = 0x808 then (if x.getLsbD 63 then [.ovfClear] else [])
  else if off = 0x1F00000 then [.cmdbaseWrite x]
  else if 0x2001000 ≤ off ∧ off < 0x2001080 then
    let c := (off - 0x2001000) / 8
    match y / 8 % 8 with
    | 0 => [.ctxctlClearErr c]
    | 1 => [.load c (BitVec.ofNat 50 (y / 2 ^ 8))]
    | 2 => [.activate c]
    | 3 => [.quiesce c]
    | 4 => [.kill c]
    | 5 => [.free c]
    | _ => [set]
  else if off = 0x3000000 then [.snpoolWrite x]
  else if 0x10000000 ≤ off ∧ off < 0x50000000 ∧ 0x4000000 ≤ off % 0x10000000 ∧ off % 0x10000000 < 0x6000000 ∧ off % 0x1000000 = 0 then
    let p := 2 * (off / 0x10000000 - 1) + (off % 0x10000000 - 0x4000000) / 0x1000000
    set :: match y % 8 with
      | 1 => [.enable p]
      | 2 => [.use p]
      | 3 => [.portDrain p]
      | 4 => [.disable p]
      | _ => []
  else if 0x50000000 ≤ off ∧ off < 0x60000000 then
    let c := off / 0x1000000 % 16
    let r := off % 0x1000000
    if r = 0 then [.cqbaseWrite c x]
    else if r = 0x400000 then set :: (if x.getLsbD 0 then [.flush c] else [])
    else [set]
  else [set]

/-- The bits of a register that a write to a part of it leaves at 0 elsewhere: a 1 there would clear
`FERR` or `OVF`. -/
def ctlOnce (off : Nat) : Nat := if off = 0x008 ∨ off = 0x808 then 2 ^ 63 else 0

/-- The events that a write of `n` bytes at an offset is: a register that is written in part keeps
what its other bytes read as. -/
def State.ctlWrite (s : State) (off n x : Nat) : List Instr :=
  (List.range ((off % 8 + n + 7) / 8)).flatMap fun i =>
    let o := off / 8 * 8 + 8 * i
    let old := s.ctlWord o % 2 ^ 64
    let old := if old &&& ctlOnce o = 0 then old else old - ctlOnce o
    let byte := fun (j : Nat) =>
      let a := o + j
      if off ≤ a ∧ a < off + n then x / 2 ^ (8 * (a - off)) % 256 else old / 2 ^ (8 * j) % 256
    ctlEvent o (BitVec.ofNat 64 (((List.range 8).map fun j => byte j * 2 ^ (8 * j)).foldl (· + ·) 0))

end Sys2Proof.Machine
end

