-- ==== Sys2Proof/Machine/Shadow.lean ====
section
/-! DEFINITION. Frozen granules (R428, R429): which writes they hold, and the copy of a granule into the
reserve pool. -/

namespace Sys2Proof.Machine

/-- Whether a snapshot keeps its granules frozen (R427). -/
def Snap.freezes (p : Snap) : Bool := p.st == .frozen || p.st == .draining

/-- The frozen granule without a shadow that holds an HBM address: its context and number (R429). -/
def State.frozenAt (s : State) (a : Nat) : Option (Nat × Nat) :=
  s.snaps.findSome? fun p =>
    if p.2.freezes then
      (p.2.grans.findIdx? fun g => !g.free && g.shadow.isNone && g.parts.contains (.data (a / 65536))).map fun i => (p.1, i)
    else none

def State.setSnap (s : State) (ctx : Nat) (p : Snap) : State := { s with snaps := mapSet Snap.fresh s.snaps ctx p }

/-- An event added unless it is already due. -/
def State.due (s : State) (e : Instr) : State := if s.agenda.contains e then s else { s with agenda := s.agenda ++ [e] }

/-- A write to a frozen granule held: the granule is copied, or drained first (R429, R430). -/
def State.holdWrite (s : State) (ctx g : Nat) : State :=
  let p := s.snap ctx
  let s : State := if p.waits.contains g then s else s.setSnap ctx { p with waits := p.waits ++ [g] }
  (s.due (.shadowCopy ctx g)).due .drainStart

/-- The memory with `n` bytes copied from one address to another. -/
def copyBytes (m : Memory) (src dst n : Nat) : Memory :=
  let out := m.filter fun c => !decide (dst ≤ c.1 ∧ c.1 < dst + n)
  (m.filter fun c => decide (src ≤ c.1 ∧ c.1 < src + n)).foldl (fun m c => setByte m (dst + (c.1 - src)) c.2) out

/-- The local address of a granule of the pool (R424). -/
def State.poolAt (s : State) (i : Nat) : Nat := getF s.snpool 21 19 * 2 ^ 21 + i * 2 ^ 21

/-- The free granules of the pool. -/
def State.poolFree (s : State) : List Nat := (List.range s.poolSize).filter fun i => !s.shadows.contains i

/-- A part of a granule copied, with its poison (R429): that of its ECC words, that which a channel out of service gives
(R457), and for a part of a scratchpad that of its words of 8 bytes. -/
def State.copyPart (s : State) (src dst : Nat) : State :=
  let here := fun (b p : Nat) => decide (b ≤ p * 32 ∧ p * 32 < b + 65536)
  let kept := s.poison.filter fun p => !here dst p
  match s.locOf src with
  | .spad c off =>
    let k := s.core c
    let out := s.mem.filter fun x => !decide (dst ≤ x.1 ∧ x.1 < dst + 65536)
    let bytes := k.spad.filter fun x => decide (off ≤ x.1 ∧ x.1 < off + 65536)
    let bad := (List.range 2048).filter fun i => k.spoison.any fun w => decide (off + 32 * i ≤ 8 * w ∧ 8 * w < off + 32 * i + 32)
    { s with mem := bytes.foldl (fun m x => setByte m (dst + (x.1 - off)) x.2) out
             poison := kept ++ bad.map fun i => dst / 32 + i }
  | _ =>
    let moved := (s.poison.filter (here src)).map fun p => (dst + (p * 32 - src)) / 32
    let lost := if s.hbm.any (fun h => h.2.out != 0) then
        ((List.range 2048).filter fun i => s.outAt (src + 32 * i) && !moved.contains (dst / 32 + i)).map fun i => dst / 32 + i
      else []
    { s with mem := copyBytes s.mem src dst 65536, poison := kept ++ moved ++ lost }

/-- A granule copied into a granule of the pool and marked SHADOWED (R429). It keeps its place in the order of the drain
(R430). -/
def State.copyGranule (s : State) (ctx g i : Nat) : State :=
  let p := s.snap ctx
  match p.grans[g]? with
  | none => s
  | some x =>
    let s : State := x.parts.zipIdx.foldl (fun s q => match q.1 with
      | .data f => s.copyPart (f * 65536) (s.poolAt i + q.2 * 65536)
      | _ => s) s
    s.setSnap ctx { p with grans := p.grans.set g { x with shadow := some i } }

/-- A snapshot that fails (R427, R431): every granule is unfrozen, every shadow is free, and its
completion and notification follow. -/
def State.failSnap (s : State) (ctx code : Nat) : State :=
  let p := s.snap ctx
  let s : State := s.setSnap ctx { p with
    st := .failed, code := code, waits := [], manifest := none
    grans := p.grans.map fun g => { g with shadow := none, tag := none, free := true } }
  let e : SnapEnd := { ctx := ctx, priv := p.priv, code := code, desc := p.desc, rem := none }
  let s : State := { s with frozen := s.frozen.filter (· != ctx), snapEnds := s.snapEnds ++ [e] }
  s.due .drainStart

/-- The snapshot whose writes to storage have a tag. -/
def State.drainOf (s : State) (tag : Nat) : Option (Nat × Snap) :=
  s.snaps.find? fun p => p.2.freezes && (p.2.manifest == some tag || p.2.grans.any fun g => g.tag == some tag)

/-- A write to storage that is refused or times out (R427). -/
def State.drainFails (s : State) (tag code : Nat) : State :=
  match s.drainOf tag with
  | some p => s.failSnap p.1 code
  | none => s

/-- A granule copied where the pool is in service and has room, and the drain is not reading it. -/
def State.shadowNow (s : State) (ctx g : Nat) : Option State :=
  match (s.snap ctx).grans[g]?, s.poolFree with
  | some x, i :: _ =>
    if s.snpool.getLsbD 0 && (s.snap ctx).freezes && !x.free && x.shadow.isNone && x.tag.isNone then some (s.copyGranule ctx g i) else none
  | _, _ => none

end Sys2Proof.Machine
end

