-- ==== Sys2Proof/Machine/TileMem.lean ====
section
/-! DEFINITION. The memory of a tile: the place of each element (R315, R316), reads and writes of
elements, and what a store into it does while the tile fills or drains (R320). -/

namespace Sys2Proof.Machine

/-! ## Formats and places (R315, R316) -/

/-- Bits of an element of a format; 0 for a code that names no tile format. -/
def fmtBits (f : Nat) : Nat :=
  match f with
  | 2 => 32
  | 3 => 16
  | 4 => 16
  | 7 => 8
  | 9 => 8
  | 10 => 8
  | 11 => 4
  | 16 => 32
  | _ => 0

/-- Bytes that hold an element. -/
def fmtBytes (f : Nat) : Nat := max 1 (fmtBits f / 8)

/-- Digits in a word of a radix tile. -/
def Entry.n (e : Entry) : Nat := alN e.alph

/-- Word-rows of a tile (R316). -/
def Entry.wrows (e : Entry) : Nat := if e.fmt = 16 then (e.rows + e.n - 1) / e.n else e.rows

/-- The offset of element (i, j), and for e2m1 the nibble (R316). -/
def Entry.place (e : Entry) (i j : Nat) : Nat × Option Bool :=
  let z := fmtBits e.fmt
  let o := j * z / 8
  let r : Nat × Nat :=
    if e.layout = 1 then (j * e.pitch + i * z / 8, i % 2)
    else if e.layout = 2 then (i * e.pitch + (o ^^^ (i % 32 * 8)), j % 2)
    else (i * e.pitch + o, j % 2)
  (r.1, if z = 4 then some (r.2 == 1) else none)

/-! ## Elements (R315) -/

/-- The core and the scratchpad offset of byte `b` of a tile of kind SP or RSP. -/
def Entry.spadAt (e : Entry) (c b : Nat) : Nat × Nat :=
  if e.kind = kSP then (c, e.base + b) else (c / 32 * 32 + e.base / 2 ^ 19 % 32, e.base % 2 ^ 19 + b)

/-- One byte of a tile's memory; a register that no group of the owner's context holds reads as 0 (R315). -/
def State.tileByte (s : State) (c : Nat) (e : Entry) (b : Nat) : Nat :=
  if e.kind = kREGW then
    let a := e.base + b
    match (s.core c).regWord e.ctx (a / 4 * 4) with
    | .at w => w.toNat / 2 ^ (8 * (a % 4)) % 256
    | _ => 0
  else
    let p := e.spadAt c b
    (byteAt (s.core p.1).spad p.2).toNat

/-- The `n` bytes at `b` of a tile's memory. -/
def State.tileBytes (s : State) (c : Nat) (e : Entry) (b : Nat) : Nat → Nat
  | 0 => 0
  | n + 1 => s.tileByte c e b + 256 * s.tileBytes c e (b + 1) n

/-- The code of element (i, j) of a tile, or the word of word-row i of a radix tile. -/
def State.tileCode (s : State) (c : Nat) (e : Entry) (i j : Nat) : Nat :=
  if e.kind = kACC then (mapGet 0 (s.core c).acc (e.base * 0x400 + i * 32 + j)).toNat
  else
    let p := e.place i j
    let x := s.tileBytes c e p.1 (fmtBytes e.fmt)
    match p.2 with
    | some h => if h then x / 16 % 16 else x % 16
    | none => if e.fmt = 10 then x % 64 else x

/-- One byte of a tile's memory written. -/
def State.setTileByte (s : State) (c : Nat) (e : Entry) (b x : Nat) : State :=
  if e.kind = kREGW then
    let a := e.base + b
    let k := s.core c
    match k.regWord e.ctx (a / 4 * 4) with
    | .at w =>
      let y := w.toNat - w.toNat / 2 ^ (8 * (a % 4)) % 256 * 2 ^ (8 * (a % 4)) + x % 256 * 2 ^ (8 * (a % 4))
      match k.setRegWord e.ctx (a / 4 * 4) (BitVec.ofNat 32 y) with
      | some k => s.setCore c k
      | none => s
    | _ => s
  else
    let p := e.spadAt c b
    let k := s.core p.1
    s.setCore p.1 { k with spad := setByte k.spad p.2 (BitVec.ofNat 8 x) }

def State.setTileBytes (s : State) (c : Nat) (e : Entry) (b : Nat) : Nat → Nat → State
  | 0, _ => s
  | n + 1, x => (s.setTileByte c e b x).setTileBytes c e (b + 1) n (x / 256)

/-- The code of element (i, j) of a tile written. -/
def State.setTileCode (s : State) (c : Nat) (e : Entry) (i j x : Nat) : State :=
  if e.kind = kACC then
    let k := s.core c
    s.setCore c { k with acc := mapSet 0 k.acc (e.base * 0x400 + i * 32 + j) (BitVec.ofNat 32 x) }
  else
    let p := e.place i j
    match p.2 with
    | some h =>
      let o := s.tileByte c e p.1
      s.setTileByte c e p.1 (if h then o % 16 + x % 16 * 16 else o / 16 * 16 + x % 16)
    | none => s.setTileBytes c e p.1 (fmtBytes e.fmt) (if e.fmt = 10 then x % 64 else x)

/-- Every element of a tile becomes a free value: its contents are lost (R318). -/
def State.loseTile (s : State) (c : Nat) (e : Entry) : State :=
  ((List.range e.wrows).flatMap fun i => (List.range e.cols).map fun j => (i, j)).foldl
    (fun s p =>
      let f := s.free 32
      f.2.setTileCode c e p.1 p.2 (f.1 % 2 ^ fmtBits e.fmt)) s

/-! ## Places given up (R317, R319) -/

/-- A place given up before the end of its word: a fill counts no longer, a tile on which the word had begun
becomes EMPTY, and what a fill has brought by then is undefined (R317, R318). -/
def State.giveUp (s : State) (c t : Nat) (x : TileTurn) : State :=
  let s : State := s.endTurn c t x.tag
  let s : State := if x.fill then s.lessPend c t else s
  let k := s.core c
  let s : State := if x.st = .running then s.setCore c { k with fills := k.fills.filter fun f => f.tile != t } else s
  let s : State := if x.st = .running ∧ x.fill then s.loseTile c (s.tile c t) else s
  if x.st = .running then s.setTile c t (((s.tile c t).setState tEmpty).setHeld false) else s

/-- A word that issues takes its place at the end of the order, unless it has one; a fill raises
`PEND` (R326). Another word of the agent in that place gives it up first. -/
def State.joinTurn (s : State) (c t : Nat) (a : Agent) (op : Nat) (fill reader : Bool) : State :=
  let add := fun (s : State) =>
    let x : TileTurn := { tag := s.ntag, frame := a.key, op := op, fill := fill, reader := reader, st := .waiting }
    let s : State := { s.setTurns c t (s.turns c t ++ [x]) with ntag := s.ntag + 1 }
    if fill then let e := s.tile c t; s.setTile c t (e.setPend (e.pend + 1)) else s
  match myTurn (s.turns c t) a.key with
  | some x => if x.op = op then s else add (s.giveUp c t x)
  | none => add s

/-- The words of an agent that will not be issued again give up their places (R317). -/
def State.abandonTurns (s : State) (c : Nat) (frame : Word64) : State :=
  (s.core c).turns.foldl (fun s p => match myTurn (s.turns c p.1) frame with
    | some x => s.giveUp c p.1 x
    | none => s) s

/-! ## Stores into a tile that fills or drains (R320) -/

/-- Where element (i, j) of a tile of core `tc` lies: in the scratchpad or in the rest of a core
window, the core, the offset there, and the bytes. -/
def Entry.cell (e : Entry) (tc i j : Nat) : Bool × Nat × Nat × Nat :=
  if e.kind = kACC then (false, tc, 0x100000 + (e.base * 0x400 + i * 32 + j) * 4, 4)
  else if e.kind = kREGW then (false, tc, e.base + (e.place i j).1, fmtBytes e.fmt)
  else let p := e.spadAt tc (e.place i j).1; (true, p.1, p.2, fmtBytes e.fmt)

/-- The elements of a tile that `n` bytes at an offset of a core meet. -/
def Entry.met (e : Entry) (tc : Nat) (pad : Bool) (c off n : Nat) : List (Nat × Nat) :=
  ((List.range e.wrows).flatMap fun i => (List.range e.cols).map fun j => (i, j)).filter fun x =>
    let p := e.cell tc x.1 x.2
    p.1 == pad && p.2.1 == c && decide (p.2.2.1 < off + n ∧ off < p.2.2.1 + p.2.2.2)

/-- An element takes a free value, in the tile, in a row that is on its way there, and among the codes that a
TST or DRAIN has yet to write; in a row that a fill has yet to request it will take one. -/
def State.unsettle (s : State) (tc t : Nat) (e : Entry) (i j : Nat) : State :=
  let f := s.free 32
  let x := f.1 % 2 ^ fmtBits e.fmt
  let s := f.2.setTileCode tc e i j x
  let k := s.core tc
  let fill := fun (y : TileFill) =>
    if y.tile = t then
      { y with vals := y.vals.zipIdx.map fun v => if (if y.trans then (v.2, y.row) else (y.row, v.2)) = (i, j) then x else v.1 }
    else y
  let job := fun (y : TileJob) =>
    if y.tile = t then { y with todo := (y.todo.zip y.cells).map fun d => if d.2 = (i, j) then (d.1.1, d.1.2.1, x) else d.1 }
    else y
  s.setCore tc { k with fills := k.fills.map fill, jobs := k.jobs.map job
                        spoilt := if e.state = tFilling ∧ ¬ k.spoilt.contains (t, i, j) then (t, i, j) :: k.spoilt else k.spoilt }

/-- A store into the memory of a tile that is FILLING or DRAINING leaves the affected elements
undefined (R320): `n` bytes at an offset of the scratchpad, or of the rest of the window, of core
`c`. -/
def State.disturb (s : State) (pad : Bool) (c off n : Nat) : State :=
  s.cores.foldl (fun s p =>
    if p.1 / 32 = c / 32 then
      p.2.tiles.foldl (fun s q =>
        let e : Entry := q.2
        if e.own && (e.state == tFilling || e.state == tDraining) then
          (e.met p.1 pad c off n).foldl (fun s x => s.unsettle p.1 q.1 e x.1 x.2) s
        else s) s
    else s) s

end Sys2Proof.Machine
end

