-- ==== Sys2Proof/Machine/Vmem.lean ====
section
/-! DEFINITION. Virtual memory: translation through extents, the TLB and the page tables
(R168 to R180, R186), and the accesses that agents and engines make through it. -/

namespace Sys2Proof.Machine

/-! ## Context descriptors (R408) -/

def State.ctx (s : State) (c : Nat) : CtxSlot := mapGet CtxSlot.new s.ctxs c

def CtxSlot.ptroot (c : CtxSlot) : Nat := getF c.image 14 44 * 2 ^ 14
def CtxSlot.ownt (c : CtxSlot) : Nat := getF c.image 64 64
def CtxSlot.wint (c : CtxSlot) : Nat := getF c.image 128 64
def CtxSlot.aper (c : CtxSlot) : Nat := getF c.image 192 64
def CtxSlot.rootRcb (c : CtxSlot) : Nat := getF c.image 256 64
def CtxSlot.tvec (c : CtxSlot) : Nat := getF c.image 320 64
def CtxSlot.lvec (c : CtxSlot) : Nat := getF c.image 384 64
def CtxSlot.svec (c : CtxSlot) : Nat := getF c.image 448 64
def CtxSlot.lsvec (c : CtxSlot) : Nat := getF c.image 512 64
def CtxSlot.frpool (c : CtxSlot) : Nat := getF c.image 576 64
def CtxSlot.nfr (c : CtxSlot) : Nat := getF c.image 640 32
def CtxSlot.rto (c : CtxSlot) : Nat := getF c.image 672 32
def CtxSlot.erra (c : CtxSlot) : Nat := getF c.image 704 64
def CtxSlot.errn (c : CtxSlot) : Nat := getF c.image 768 32
def CtxSlot.nendpt (c : CtxSlot) : Nat := getF c.image 800 16

/-- A context in whose address space accesses are served (R411). -/
def CtxSlot.resident (c : CtxSlot) : Bool :=
  c.st == .loaded || c.st == .active || c.st == .quiescing

/-! ## Who makes an access -/

/-- The maker of an access: its context, its privilege, its core, the lead context whose
extents it uses, the agent, whether everything that it has done before is performed and acknowledged
(R261), the virtual address of the access, the lane and the word that makes it, and whether it is a plain access to
an RC page (R258). An engine stands under index 128 and upward; core 512
stands for the units of the module, and core 513 for what lies outside it. -/
structure Req where
  ctx : Nat
  priv : Bool
  lctx : Nat
  id : AgentId
  quiet : Bool := true
  va : Nat := 0
  word : Nat := 0
  loose : Bool := false
  deriving DecidableEq, Repr

/-- Whether the accesses of a maker are those of an agent, and no engine's or dispatcher's. -/
def Req.agent (r : Req) : Bool := decide (r.id.core < 512 ∧ r.id.idx < 128)

/-- Access kinds by the permission they need (R173). A probe of a barrier needs that of an
atomic, and writes nothing. -/
inductive Kind where
  | load | store | atomic | fetch | probe
  deriving DecidableEq, Repr

def Kind.writes : Kind → Bool
  | .store => true
  | .atomic => true
  | _ => false

def Kind.code : Kind → Nat
  | .load => 0
  | .store => 1
  | .atomic => 2
  | .fetch => 3
  | .probe => 2

/-! ## Leaf entries (R170) -/

def leafV (e : Nat) : Bool := e % 2 == 1
def leafOrd (e : Nat) : Nat := e / 2 % 4
def leafR (e : Nat) : Bool := e / 8 % 2 == 1
def leafW (e : Nat) : Bool := e / 16 % 2 == 1
def leafX (e : Nat) : Bool := e / 32 % 2 == 1
def leafS (e : Nat) : Bool := e / 64 % 2 == 1
def leafSpan (e : Nat) : Nat := e / 2 ^ 7 % 32
def leafD (e : Nat) : Bool := e / 2 ^ 12 % 2 == 1
def leafA (e : Nat) : Bool := e / 2 ^ 13 % 2 == 1

/-- The physical address that a leaf gives (R170). -/
def leafPa (e va : Nat) : Nat :=
  let n := 16 + leafSpan e
  e / 2 ^ n % 2 ^ (58 - n) * 2 ^ n + va % 2 ^ n

/-- A translation in force: what Allowed and SetD of R179 look at. -/
structure Trans where
  pa : Nat
  ord : Nat
  r : Bool
  w : Bool
  x : Bool
  sup : Bool
  d : Bool
  /-- The value of the page-table entry that it was taken from. -/
  leaf : Nat
  /-- The storage window that the address lies in (R186). -/
  win : Option Nat
  deriving DecidableEq, Repr

def Trans.allows (t : Trans) (k : Kind) (priv : Bool) : Bool :=
  (match k with
    | .load => t.r
    | .store => t.w
    | .atomic => t.r && t.w
    | .fetch => t.x
    | .probe => t.r && t.w) && (!t.sup || priv)

/-- What a walk finds (R179, R172, R180): a leaf with its entry address, a forward entry, a
missing or malformed entry of a home, or a refused or poisoned table read. -/
inductive Walk where
  | leaf (e pte : Nat)
  | fwd (home : Nat)
  | missing (home : Option Nat) (malformed : Bool)
  | fatal (poison : Bool)
  deriving DecidableEq, Repr

/-- A read of a table entry by a walk: refused where no memory in service stands, or with poison (R180, R421);
the error says which. -/
def State.tableRead (s : State) (a n : Nat) : Except Bool Nat :=
  match s.locOf a with
  | .hbm b => if s.poisonAt b n then .error true else .ok (readN s.mem b n)
  | _ => .error false

/-- The home that the ownership table names for an address (R178). -/
def State.homeFrom (s : State) (vpn : Nat) : Nat → Nat → Except Bool (Option Nat)
  | 0, _ => .ok none
  | k + 1, a => match s.tableRead a 16 with
    | .error p => .error p
    | .ok e =>
      if e % 2 = 0 then .ok none
      else
        let vb := e / 2 ^ 16 % 2 ^ 44
        let len := e / 2 ^ 82 % 2 ^ 44
        if vb ≤ vpn ∧ vpn < vb + len then .ok (some (e / 2 ^ 64 % 2 ^ 18)) else s.homeFrom vpn k (a + 16)

def State.homeOf (s : State) (c va : Nat) : Except Bool (Option Nat) :=
  s.homeFrom (va / 2 ^ 16) 4096 ((s.ctx c).ownt % 2 ^ 40)

/-- Where a missing entry leads (R179). -/
def State.walkMiss (s : State) (c va : Nat) (malformed : Bool) : Walk :=
  match s.homeOf c va with
  | .ok (some h) => if h = s.modid || malformed then .missing (some h) malformed else .fwd h
  | .ok none => .missing none malformed
  | .error p => .fatal p

/-- One level of the walk, from the table at physical address `tab` (R168, R169, R172). -/
def State.walkFrom (s : State) (c va : Nat) : Nat → Nat → Nat → Walk
  | 0, _, _ => .fatal false
  | k + 1, lvl, tab =>
    if tab / 2 ^ 40 ≠ s.modid ∨ 0xA000000000 ≤ tab % 2 ^ 40 then s.walkMiss c va true
    else
      let a := tab % 2 ^ 40 + va / 2 ^ (49 - 11 * lvl) % 2 ^ 11 * 8
      match s.locOf a with
      | .hbm _ =>
        if s.poisonAt a 8 then .fatal true
        else
          let e := readN s.mem a 8
          if !leafV e then s.walkMiss c va false
          else if lvl < 2 ∨ lvl = 2 ∧ !leafR e ∧ !leafW e ∧ !leafX e then
            if e / 2 % 2 ^ 13 ≠ 0 then s.walkMiss c va true
            else s.walkFrom c va k (lvl + 1) (e / 2 ^ 14 % 2 ^ 44 * 2 ^ 14)
          else
            let sp := leafSpan e
            let fit := if lvl = 2 then 11 ≤ sp ∧ sp ≤ 20 else sp ≤ 10
            if e / 2 ^ 14 % 4 ≠ 0 ∨ leafOrd e = 3 ∨ ¬ fit then s.walkMiss c va true
            else .leaf e a
      | _ => .fatal false

def State.walk (s : State) (c va : Nat) : Walk := s.walkFrom c va 4 0 (s.ctx c).ptroot

/-- Whether a window entry is in use and covers a 64 KiB unit (R186). -/
def winCovers (vpn e : Nat) : Bool :=
  let vb := e / 2 ^ 16 % 2 ^ 44
  e % 2 == 1 && decide (vb ≤ vpn ∧ vpn < vb + e / 2 ^ 64 % 2 ^ 64)

/-- The entries of a window table that cover some of `n` units from `vpn` on, in table order (R186). Of two entries
that cover one address the first in the table applies, which the manual leaves open (log entry 92). -/
def State.winsFrom (s : State) (vpn n : Nat) : Nat → Nat → Except Bool (List Nat)
  | 0, _ => .ok []
  | k + 1, a => match s.tableRead a 32, s.winsFrom vpn n k (a + 32) with
    | .error p, _ => .error p
    | _, .error p => .error p
    | .ok e, .ok rest =>
      let vb := e / 2 ^ 16 % 2 ^ 44
      .ok (if e % 2 = 1 ∧ vb < vpn + n ∧ vpn < vb + e / 2 ^ 64 % 2 ^ 64 then e :: rest else rest)

/-- The window entries that are held with a page of `n` units from `vpn` on (R186); the error says whether the table
is poisoned, or cannot be read (R180, R421). -/
def State.windowsOf (s : State) (c vpn n : Nat) : Except Bool (List Nat) :=
  let w := (s.ctx c).wint
  if w = 0 then .ok [] else s.winsFrom vpn n 64 (w % 2 ^ 40)

/-- The window entry that covers an address (R186). -/
def State.windowOf (s : State) (c va : Nat) : Option Nat :=
  match s.windowsOf c (va / 2 ^ 16) 1 with
  | .ok l => l.head?
  | .error _ => none

/-- The translation that a leaf gives, with the window entries held with it. -/
def leafTrans (e va : Nat) (win : List Nat) : Trans :=
  { pa := leafPa e va, ord := leafOrd e, r := leafR e, w := leafW e, x := leafX e,
    sup := leafS e, d := leafD e, leaf := e, win := win.find? (winCovers (va / 2 ^ 16)) }

/-- The leaf of a page that an extent was made from (R174). -/
def Extent.leafAt (x : Extent) (vpn : Nat) : Nat := (x.leaves.getD (vpn - x.vbase) 0).toNat

/-- The translation that an extent gives. -/
def Extent.trans (x : Extent) (va : Nat) : Trans :=
  let vpn := va / 2 ^ 16
  { pa := (x.pbase + (vpn - x.vbase)) * 2 ^ 16 + va % 2 ^ 16, ord := x.ord, r := x.r, w := x.w, x := x.x
    sup := x.sup, d := x.d || leafD (x.leafAt vpn), leaf := x.leafAt vpn, win := x.win.find? (winCovers vpn) }

/-- The extent of a placed task that holds the page (R176). -/
def findExtent (p : Placed) (vpn : Nat) : Option Extent :=
  p.exts.find? fun x => decide (x.vbase ≤ vpn ∧ vpn < x.vbase + x.npg)

/-- The TLB entry of a context that holds the page (R179). -/
def findTlb (l : List TlbEntry) (c vpn : Nat) : Option TlbEntry :=
  l.find? fun e => match e with
    | .leaf c' v b _ => c' == c && v / 2 ^ leafSpan b.toNat == vpn / 2 ^ leafSpan b.toNat
    | .fwd c' v _ => c' == c && v == vpn

/-- The core's TLB with one more entry; the oldest of 64 gives way. -/
def State.addTlb (s : State) (c : Nat) (e : TlbEntry) : State :=
  let k := s.core c
  s.setCore c { k with tlb := (e :: k.tlb).take 64 }

/-- The result of a translation (R179). -/
inductive Tr where
  | ok (t : Trans)
  | fwd (home : Nat)
  | access
  | stale
  | missing (home : Option Nat) (malformed : Bool)
  | fatal (poison : Bool)
  deriving DecidableEq, Repr

/-- A leaf added to the core's TLB with the window entries of its page (R179, R186), and the translation
that it gives. -/
def State.fillTlb (s : State) (r : Req) (va e : Nat) : State × Tr :=
  let n := 2 ^ leafSpan e
  match s.windowsOf r.ctx (va / 2 ^ 16 / n * n) n with
  | .error p => (s, .fatal p)
  | .ok win => (s.addTlb r.id.core (.leaf r.ctx (va / 2 ^ 16) (BitVec.ofNat 64 e) win), .ok (leafTrans e va win))

/-! ## Writes that the hardware makes by itself -/

/-- Reservations on the bytes that a write covers are lost, the writer's own thread excepted
(R200). -/
def breakResv (l : List Resv) (id : AgentId) (lane a n : Nat) : List Resv :=
  l.filter fun v => (v.id == id && v.lane == lane) || decide (v.gran ≠ a / 64 ∧ v.gran ≠ (a + n - 1) / 64)

/-- The units of the module as the maker of a write. -/
def moduleUnit : AgentId := { core := 512, idx := 0 }

/-- Bytes of memory written by the hardware at a local address. A write that covers a whole ECC word clears its
poison (R421), and a channel out of service drops it (R457). -/
def State.hwSet (s : State) (a n x : Nat) : State :=
  if s.outAt a then s
  else
    { s with mem := writeN s.mem a n x, resvs := breakResv s.resvs moduleUnit 0 a n
             poison := s.poison.filter fun p => !decide (a ≤ 32 * p ∧ 32 * p + 32 ≤ a + n) }

/-- A write of the hardware. A frozen granule holds it until it has a shadow, or is no longer frozen (R429), and a
channel that is retraining keeps it waiting (R457). -/
def State.hwPut (s : State) (a n x : Nat) : State :=
  if s.trainingAt a then { s with owed := s.owed ++ [(a, n, x)] }
  else match s.frozenAt a with
  | none => s.hwSet a n x
  | some f => match s.shadowNow f.1 f.2 with
    | some s => s.hwSet a n x
    | none => { s.holdWrite f.1 f.2 with owed := s.owed ++ [(a, n, x)] }

/-- The `n` bytes at a local address as the hardware has written them, those writes among them that are held. -/
def State.hwGet (s : State) (a n : Nat) : Nat := readN (s.owed.foldl (fun m o => writeN m o.1 o.2.1 o.2.2) s.mem) a n

/-- The held writes of the hardware that nothing holds any longer performed. -/
def State.payOwed (s : State) : State := s.owed.foldl (fun s o => s.hwPut o.1 o.2.1 o.2.2) { s with owed := [] }

/-- A walk for an access, with the `A` bit set and the TLB filled (R174, R179). -/
def State.walkFill (s : State) (r : Req) (va : Nat) : State × Tr :=
  match s.walk r.ctx va with
  | .leaf e pte =>
    let e' := if leafA e then e else e + 2 ^ 13
    let s := if leafA e then s else s.hwPut pte 8 e'
    s.fillTlb r va e'
  | .fwd h => (s.addTlb r.id.core (.fwd r.ctx (va / 2 ^ 16) h), .fwd h)
  | .missing h m => (s, .missing h m)
  | .fatal p => (s, .fatal p)

/-- The extent of the maker's task that holds an address (R176). -/
def State.extentOf (s : State) (r : Req) (va : Nat) : Option Extent :=
  (mapFind r.lctx (s.core r.id.core).placed).bind fun p => if p.ctx = r.ctx then findExtent p (va / 2 ^ 16) else none

/-- The translation of an address before the permission check: extent, TLB, walk (R179). -/
def State.lookup (s : State) (r : Req) (va : Nat) : State × Tr :=
  match s.extentOf r va with
  | some x => if x.stale then (s, .stale) else (s, .ok (x.trans va))
  | none =>
    match findTlb (s.core r.id.core).tlb r.ctx (va / 2 ^ 16) with
    | some (.leaf _ _ b win) => (s, .ok (leafTrans b.toNat va win))
    | some (.fwd _ _ h) => (s, .fwd h)
    | none => s.walkFill r va

/-- The physical address that an address translates to now, where it does. -/
def State.paOf (s : State) (r : Req) (va : Nat) : Option Nat :=
  match (s.lookup r va).2 with
  | .ok t => some t.pa
  | _ => none

/-- The core's TLB without the entries that hold a page. -/
def State.dropTlb (s : State) (c ctx vpn : Nat) : State :=
  let k := s.core c
  s.setCore c { k with tlb := k.tlb.filter fun e => match e with
    | .leaf c' v b _ => !(c' == ctx && v / 2 ^ leafSpan b.toNat == vpn / 2 ^ leafSpan b.toNat)
    | .fwd c' v _ => !(c' == ctx && v == vpn) }

/-- The extent that holds a page changed. -/
def State.onExtent (s : State) (r : Req) (va : Nat) (f : Extent → Extent) : State :=
  let here := fun (x : Extent) => decide (x.vbase ≤ va / 2 ^ 16 ∧ va / 2 ^ 16 < x.vbase + x.npg)
  match mapFind r.lctx (s.core r.id.core).placed with
  | some p => s.setPlaced r.id.core r.lctx { p with exts := p.exts.map fun x => if here x then f x else x }
  | none => s

/-- The translation dropped, and the address walked again (R174, R184). Through an extent a page keeps the
permissions that its range declares (R176). -/
def State.rewalk (s : State) (r : Req) (va : Nat) : State × Tr :=
  match (s.dropTlb r.id.core r.ctx (va / 2 ^ 16)).walkFill r va with
  | (s, .ok t) => match s.extentOf r va with
    | some x => (s, .ok { t with r := t.r && x.decl.testBit 0, w := t.w && x.decl.testBit 1 })
    | none => (s, .ok t)
  | p => p

/-- `D` set in a leaf at its place, and in the TLB's copy of it (R174). -/
def State.markDirty (s : State) (r : Req) (va e pte : Nat) (t : Trans) : State × Tr :=
  let e' := e ||| 2 ^ 12
  let win := match findTlb (s.core r.id.core).tlb r.ctx (va / 2 ^ 16) with
    | some (.leaf _ _ _ w) => w
    | _ => []
  (((s.hwPut pte 8 e').dropTlb r.id.core r.ctx (va / 2 ^ 16)).addTlb r.id.core
    (.leaf r.ctx (va / 2 ^ 16) (BitVec.ofNat 64 e') win), .ok { t with d := true, leaf := e' })

/-- `D` set before a first write, in the entry that the access's own index selects (R171, R174): a
compare-and-swap against the value that the translation was taken from. Where it fails the translation
is dropped: a page of an extent waits until the extent is translated again, and another page is
translated again at once. -/
def State.setDirty (s : State) (r : Req) (va : Nat) (k : Kind) (t : Trans) : State × Tr :=
  match s.walk r.ctx va with
  | .leaf e pte =>
    match s.extentOf r va with
    | some _ =>
      if e = t.leaf then
        let e' := e ||| 2 ^ 12
        ((s.hwPut pte 8 e').onExtent r va fun x =>
          { x with leaves := x.leaves.set (va / 2 ^ 16 - x.vbase) (BitVec.ofNat 64 e') }, .ok { t with d := true, leaf := e' })
      else (s.onExtent r va fun x => { x with stale := true }, .stale)
    | none =>
      if e = t.leaf then s.markDirty r va e pte t
      else match s.rewalk r va with
        | (s, .ok t) =>
          if (!t.allows k r.priv || (t.win.isSome && t.ord != 2)) = true then (s, .access)
          else if t.d then (s, .ok t)
          else s.markDirty r va t.leaf pte t
        | p => p
  | .fwd h => ((s.dropTlb r.id.core r.ctx (va / 2 ^ 16)).addTlb r.id.core (.fwd r.ctx (va / 2 ^ 16) h), .fwd h)
  | .missing h m => (s.dropTlb r.id.core r.ctx (va / 2 ^ 16), .missing h m)
  | .fatal p => (s, .fatal p)

/-- What follows on a translation: the window's attribute and the `D` bit (R174, R186). -/
def State.permit (s : State) (r : Req) (va : Nat) (k : Kind) (t : Trans) : State × Tr :=
  if t.win.isSome && t.ord != 2 then (s, .access)
  else if k.writes && !t.d then s.setDirty r va k t
  else (s, .ok t)

/-- `Translate` of R179. A permission that has been added since a translation was made counts (R184). -/
def State.translate (s : State) (r : Req) (va : Nat) (k : Kind) : State × Tr :=
  if va / 2 ^ 60 ≠ 0 then (s, .access)
  else
    match s.lookup r va with
    | (s, .ok t) =>
      if t.allows k r.priv then s.permit r va k t
      else match s.rewalk r va with
        | (s, .ok t) => if t.allows k r.priv then s.permit r va k t else (s, .access)
        | p => p
    | p => p

/-! ## Physical accesses -/

/-- Whether a byte of a core's scratchpad lies in an allocation of the context (R203). -/
def State.spadOwned (s : State) (c ctx off : Nat) : Bool :=
  (s.core c).placed.any fun p =>
    p.2.ctx == ctx && decide (p.2.off ≤ off ∧ off < p.2.off + p.2.spt + p.2.parts * p.2.spg)

/-- The atomic operations (R196, R197): the number of R68, with 8 and up for ATOMF. -/
def rmw (op n : Nat) (rnd : Nat) (old x c : Nat) : Nat × BitVec 9 :=
  let sg := fun (y : Nat) => (BitVec.ofNat (8 * n) y).toInt
  match op with
  | 0 => ((old + x) % 2 ^ (8 * n), 0)
  | 1 => (if sg x < sg old then x else old, 0)
  | 2 => (if sg old < sg x then x else old, 0)
  | 3 => (old &&& x, 0)
  | 4 => (old ||| x, 0)
  | 5 => (old ^^^ x, 0)
  | 6 => (x, 0)
  | 7 => (if old = c then x else old, 0)
  | 8 => fop .add .f32 rnd old x 0
  | 9 =>
    let l := fop .add .f16 rnd (old % 65536) (x % 65536) 0
    let h := fop .add .f16 rnd (old / 65536) (x / 65536) 0
    (h.1 * 65536 + l.1, h.2 ||| l.2)
  | 10 => fminmax false .f32 old x
  | _ => fminmax true .f32 old x

/-! ### Objects that one access reads and rewrites whole -/

/-- An operation on an object in memory: the reading of a barrier, BARI with a valid
configuration, an arrival, the abandonment of a barrier by a halting agent with its record
(R291, R296), CDEC (R405), a completion write (R308), and the write of half a byte (R322). -/
inductive ObjOp where
  | probe
  | bari (cfg : Word64)
  | bara
  | mark (who : Nat)
  | cdec
  | cpl (inc code : Nat)
  | nib (high : Bool) (x : Nat)
  deriving DecidableEq, Repr

/-- Bits `lo` to `hi` of an object. -/
def bitsOf (o hi lo : Nat) : Nat := o / 2 ^ lo % 2 ^ (hi + 1 - lo)

/-- An initialised barrier that breaks R290. -/
def barBad (o : Nat) : Bool :=
  bitsOf o 120 120 == 1 &&
    (bitsOf o 255 186 != 0 || bitsOf o 167 153 != 0 || bitsOf o 143 137 != 0 || bitsOf o 135 134 != 0 ||
     bitsOf o 127 124 != 0 || bitsOf o 119 88 != 0 || bitsOf o 31 24 != 0 ||
     bitsOf o 123 122 == 0 || bitsOf o 87 64 == 0)

/-- The status that a barrier answers with (R290, R291, R293): OK, ABANDONED, NOINIT or
BADCFG. -/
def barSt (o : Nat) : Nat :=
  if barBad o then 3 else if bitsOf o 121 121 = 1 then 1 else if bitsOf o 120 120 = 0 then 2 else 0

/-- The phase of a barrier. -/
def barPhase (o : Nat) : Nat := bitsOf o 63 32

/-- An arrival at an armed barrier (R291, R294). -/
def barArrive (o : Nat) : Nat :=
  let arr := (bitsOf o 23 0 + 1) % 2 ^ 24
  if arr = bitsOf o 87 64 then o / 2 ^ 64 * 2 ^ 64 + (barPhase o + 1) % 2 ^ 32 * 2 ^ 32
  else o / 2 ^ 24 * 2 ^ 24 + arr

/-- Whether a CDEC fires an armed record (R405). -/
def cdecFires (o : Nat) : Bool := bitsOf o 31 0 == 1 && bitsOf o 39 32 == 0x10

/-- What the operation leaves in the object. -/
def ObjOp.new : ObjOp → Nat → Nat
  | .probe, o => o
  | .bari cfg, o =>
    if barBad o then o
    else barPhase o * 2 ^ 32 + getF cfg 0 24 * 2 ^ 64 + 2 ^ 120 + getF cfg 24 2 * 2 ^ 122
  | .bara, o => if barSt o = 0 then barArrive o else o
  | .mark who, o => if barSt o = 0 then o % 2 ^ 128 + 2 ^ 121 + who * 2 ^ 128 else o
  | .cdec, o =>
    let d := o / 2 ^ 32 * 2 ^ 32 + (bitsOf o 31 0 + (2 ^ 32 - 1)) % 2 ^ 32
    if cdecFires o then d + 2 ^ 32 else d
  | .cpl inc code, o =>
    (bitsOf o 63 0 + inc) % 2 ^ 64 + max (bitsOf o 95 64) code * 2 ^ 64 + bitsOf o 127 96 * 2 ^ 96
  | .nib h x, o => if h then o % 16 + x % 16 * 16 else o / 16 * 16 + x % 16

/-- What stands for the task of a record that has not been found: no TCB lies there. -/
def noTask : Nat := 2 ^ 40

/-- A fired record queued (R404, R405): it counts as a group of the task that it names, and
the task's armed records fall by 1 while they are not 0, on whatever module has dispatched it: another module hears
of it in a message of its own. The task of a record that names none now is looked for when it is to start. -/
def State.fire (s : State) (ctx : Nat) (o : Nat) : State :=
  let core := bitsOf o 48 40
  let r : Record := { kind := .join (BitVec.ofNat 64 (bitsOf o 255 192)), ctx := ctx, tcb := noTask
                      frame := BitVec.ofNat 64 (bitsOf o 191 128), code := BitVec.ofNat 64 (bitsOf o 127 64)
                      pin := bitsOf o 49 49 == 1, home := core, part := none }
  match s.taskAt ctx (bitsOf o 255 192) with
  | some (tcb, t) =>
    let s : State := { s with tasks := mapPut tcb { t with armed := t.armed - 1, live := t.live + 1 } s.tasks }
    s.enqueue (core / 32) { r with tcb := tcb }
  | none =>
    let s : State := match s.walk ctx (bitsOf o 255 192) with
      | .leaf e _ =>
        let pa := leafPa e (bitsOf o 255 192)
        if pa / 2 ^ 40 ≠ s.modid && s.routed (pa / 2 ^ 40) then
          { s with ntag := s.ntag + 1, outbox := s.outbox ++ [{ kind := .atomic, dst := pa / 2 ^ 40
                                                                fields := [s.ntag, ctx, pa % 2 ^ 40, 4, 24, 0, 0, 0, 0, 0] }] }
        else s
      | _ => s
    s.enqueue (core / 32) r

/-- One access to be performed: its width is given beside it. `lr` loads and reserves (R199),
`sc` stores while the reservation holds and answers 1 or 0 (R200), and `sym` replaces one
digit of a packed word and answers 1 for an invalid word that traps (R284), and `obj`
rewrites a whole object and answers what it held. `fetch` is the fetch of an instruction word. -/
inductive Acc where
  | load
  | fetch
  | lr
  | store (x : Nat)
  | sc (x : Nat)
  | sym (al : Word64) (i : Nat) (v : Int)
  | rmw (op rnd x c : Nat)
  | obj (op : ObjOp)
  deriving DecidableEq, Repr

def Acc.kind : Acc → Kind
  | .load => .load
  | .fetch => .fetch
  | .lr => .load
  | .store _ => .store
  | .sc _ => .store
  | .sym _ _ _ => .store
  | .rmw _ _ _ _ => .atomic
  | .obj .probe => .probe
  | .obj (.nib _ _) => .store
  | .obj _ => .atomic

/-- The outcome of an access: the value read (0 for a store) with the flags of an ATOMF, a
refusal, poison, an access that must wait, or the module that must perform it. -/
inductive PRes where
  | val (x : Nat) (fl : BitVec 9)
  | refused
  | poisoned
  | busy
  | remote (mod loc : Nat)
  deriving DecidableEq, Repr

/-- The pages whose withdrawn frame has been replaced are no longer RETIRED (R166). -/
def State.remapped (s : State) : State :=
  if s.withdrawn.isEmpty then s
  else { s with withdrawn := s.withdrawn.filter fun w => match s.walk w.1 (w.2.1 * 65536) with
    | .leaf e _ => leafPa e (w.2.1 * 65536) / 65536 == w.2.2
    | _ => true }

/-! ### What an agent may observe (R244, R258 to R262) -/

/-- The bytes at a local address: of the memory, or of a scratchpad. -/
def State.rawRead (s : State) (a n : Nat) : Nat :=
  match s.locOf a with
  | .spad c off => readN (s.core c).spad off n
  | _ => readN s.mem a n

/-- Bytes written at a local address of the memory or of a scratchpad. -/
def State.rawWrite (s : State) (a n x : Nat) : State :=
  match s.locOf a with
  | .spad c off => let k := s.core c; s.setCore c { k with spad := writeN k.spad off n x }
  | _ => { s with mem := writeN s.mem a n x }

/-- The command that an engine queue works on, for a maker of accesses that is one. -/
def State.engineOf (s : State) (id : AgentId) : Option QEntry :=
  if id.idx < 128 then none else match mapFind (id.idx - 128) (s.core id.core).queues with
    | some (e :: _) => some e
    | _ => none

/-- Whether a maker of accesses is the collective engine, which belongs to no group and to no cluster (R244). -/
def State.isColl (s : State) (id : AgentId) : Bool :=
  match s.engineOf id with
  | some e => match e.kind with
    | .coll _ => true
    | _ => false
  | none => false

/-- The agent whose group instance a maker of accesses belongs to: for a command of an engine queue the one
that posted it (R244). -/
def State.groupOf (s : State) (id : AgentId) : AgentId :=
  match s.engineOf id with
  | some e => if s.isColl id then id else e.poster
  | none => id

/-- The narrowest scope that two makers of accesses share (R244): 1 the group, 2 the cluster, 3 the
device, 4 the system. -/
def State.shared (s : State) (x y : AgentId) : Nat :=
  if x.core = 513 ∨ y.core = 513 then 4
  else if s.groupOf x = s.groupOf y then 1
  else if x.core < 512 ∧ y.core < 512 ∧ x.core / 32 = y.core / 32 ∧ !s.isColl x ∧ !s.isColl y then 2 else 3

/-- The times with a full fence of a scope noted for that scope and the narrower ones (R245). -/
def noteFence (l : List Nat) (scope t : Nat) (again : Bool) : List Nat :=
  (List.range 4).map fun k => if k < scope && (again || l.getD k 0 == 0) then t else l.getD k 0

/-- Whether a write that full fences have ordered comes before what a maker of accesses now reads (R259, R262): a full
fence of the writer after it, and after that one of the reader, each of a scope that both share. A unit that makes no
fences of its own follows those of the writer. -/
def State.ordered (s : State) (who x : AgentId) (fenced : List Nat) : Bool :=
  let k := s.shared who x - 1
  let t := fenced.getD k 0
  t != 0 && match s.agent (s.groupOf x) with
    | some a => decide (t ≤ a.fences.getD k 0)
    | none => true

/-- Whether a write reaches some of `n` bytes from `a` on. -/
def UoWrite.meets (w : UoWrite) (a n : Nat) : Bool := decide (w.at_ < a + n ∧ a < w.at_ + w.n)

/-- The same for what a write has overwritten. -/
def Stale.meets (g : Stale) (a n : Nat) : Bool := decide (g.at_ < a + n ∧ a < g.at_ + g.n)

/-- The `n` bytes from `a` on, which held `v`, with the `m` bytes of `x` from `b` on over them. -/
def overBytes (b m x a n v : Nat) : Nat :=
  ((List.range n).map fun i =>
    (if b ≤ a + i ∧ a + i < b + m then x / 256 ^ (a + i - b) % 256 else v / 256 ^ i % 256) * 256 ^ i).foldl (· + ·) 0

def UoWrite.over (w : UoWrite) (a n v : Nat) : Nat := overBytes w.at_ w.n w.x a n v
def Stale.over (g : Stale) (a n v : Nat) : Nat := overBytes g.at_ g.n g.old a n v

/-! ### Writes -/

/-- A write performed. What it overwrites stays readable for a while to an agent that is not ordered behind the
write (R258); `fenced` are the fences of its maker after it, if it is one to a UO page. -/
def State.performed (s : State) (who : AgentId) (a n x : Nat) (uo : Bool) (fenced : List Nat) : State :=
  let old := s.rawRead a n
  if old = x % 256 ^ n ∧ ¬ (s.stale.any fun g => g.meets a n) then s.rawWrite a n x
  else
    let p := s.free 16
    { p.2.rawWrite a n x with
      stale := s.stale ++ [{ who := who, at_ := a, n := n, old := old, uo := uo, born := s.clock + 1, fenced := fenced, left := p.1 }]
      clock := s.clock + 1 }

/-- Whether a write to a UO page comes before another one of its maker to the same bytes: both are of one word, in
its lane order (R192), or a full fence stands between them (R262). -/
def UoWrite.before (w v : UoWrite) : Bool :=
  w.who == v.who && w.meets v.at_ v.n && decide (w.born < v.born)
    && (w.word == v.word || w.fenced.any fun t => t != 0 && decide (t < v.born))

/-- Writes, with those that come before them. -/
def withEarlier (all : List UoWrite) : Nat → List UoWrite → List UoWrite
  | 0, ws => ws
  | k + 1, ws => withEarlier all k (all.filter fun w => ws.contains w || ws.any fun v => w.before v)

/-- Writes performed in a free order, as far as none comes before another one. -/
def landFree : Nat → List UoWrite → State → State
  | 0, _, s => s
  | k + 1, ws, s =>
    let open_ := ws.filter fun w => !ws.any fun u => u.before w
    let p := s.choose open_.length
    match open_[p.1]? with
    | none => s
    | some w =>
      let s : State := p.2.performed w.who w.at_ w.n w.x true w.fenced
      landFree k (ws.filter (· != w)) { s with resvs := breakResv s.resvs w.who w.lane w.at_ w.n }

/-- The unsettled writes that meet a condition settle, and what comes before them (R262). -/
def State.land (s : State) (f : UoWrite → Bool) : State :=
  let ws := withEarlier s.uo s.uo.length (s.uo.filter f)
  if ws.isEmpty then s
  else (landFree ws.length ws { s with uo := s.uo.filter fun w => !ws.contains w }).remapped

/-- The task that an access is made for. -/
def State.taskOf (s : State) (r : Req) : Nat :=
  match mapFind r.lctx (s.core r.id.core).placed with
  | some p => if p.ctx = r.ctx then p.tcb else 0
  | none => 0

/-- A write to a UO page that has yet to settle. -/
def State.unsettled (s : State) (r : Req) (lane a n x : Nat) : State :=
  let p := s.free 16
  { p.2 with
    uo := s.uo ++ [{ who := r.id, lane := lane, tcb := s.taskOf r, at_ := a, n := n, x := x, word := r.word
                     born := s.clock + 1, fenced := [], left := p.1 }]
    clock := s.clock + 1 }

/-- The write of a store: it is performed at once, or left unsettled as a plain one to a UO page is (R262), 8 bytes
apart (R192). One that another module has forwarded is performed before it is acknowledged (R268). -/
def State.put (s : State) (r : Req) (lane a n x : Nat) (weak : Bool) : State :=
  if !weak then s.performed r.id a n x false []
  else if r.id.core = 513 then s.performed r.id a n x true (List.replicate 4 (s.clock + 1))
  else if n = 16 then (s.unsettled r lane a 8 (x % 2 ^ 64)).unsettled r lane (a + 8) 8 (x / 2 ^ 64 % 2 ^ 64)
  else s.unsettled r lane a n x

/-- The write of an atomic, or of what else reads and writes in one: it is indivisible, and performed at once. -/
def State.swap (s : State) (r : Req) (a n x : Nat) (weak : Bool) : State :=
  s.performed r.id a n x weak (if r.id.core = 513 then List.replicate 4 (s.clock + 1) else [])

/-! ### Reads -/

/-- What memory holds from `a` on once every write to it has settled (R263). -/
def State.newest (s : State) (a n : Nat) : Nat × State :=
  let s := s.land fun w => w.meets a n
  (s.rawRead a n, s)

/-- Whether a plain load may miss a performed write (R258, R262): one to a UO page unless full fences order it before
the load, and any other unless the agent made it, has acquired since, or has read it or a later one there. -/
def State.mayMiss (s : State) (r : Req) (a n : Nat) (weak : Bool) (g : Stale) : Bool :=
  if weak && g.uo then !s.ordered g.who r.id g.fenced
  else r.agent && g.who != r.id && match s.agent r.id with
    | some ag => decide (ag.seen < g.born) && !ag.floors.any fun f =>
        decide (f.1 < a + n ∧ a < f.1 + f.2.1 ∧ g.born ≤ f.2.2)
    | none => false

/-- What the agent has read counts for its later loads of the same bytes (R258). -/
def State.noteRead (s : State) (r : Req) (a n : Nat) (g : Option Stale) : State :=
  match g, s.agent r.id with
  | some g, some ag => if r.agent then s.setAgent r.id { ag with floors := (a, n, g.born) :: ag.floors } else s
  | _, _ => s

/-- Writes put over a value in a free order, as many of them as the free choice takes. -/
def overSome (a n : Nat) : Nat → List UoWrite → Nat → State → Nat × State
  | 0, _, v, s => (v, s)
  | k + 1, ws, v, s =>
    let p := s.choose (ws.length + 1)
    match ws[p.1]? with
    | none => (v, p.2)
    | some w => overSome a n k (ws.eraseIdx p.1) (w.over a n v) p.2

/-- What a plain load of at most 8 bytes reads (R192, R258, R262): a value that the last writes to these bytes have
left or overwritten, as far back as the load may miss them; on a UO page under the unsettled writes that fences have
ordered before it, and then any others. -/
def State.glance (s : State) (r : Req) (a n : Nat) (weak : Bool) : Nat × State :=
  let s := if weak then s else s.land fun w => w.meets a n
  let gs := (s.stale.filter fun g => g.meets a n).reverse
  let open_ := gs.takeWhile fun g => s.mayMiss r a n weak g
  let p := if open_.isEmpty then (0, s) else s.choose (open_.length + 1)
  let v := (open_.take p.1).foldl (fun v g => g.over a n v) (p.2.rawRead a n)
  let s := if weak then p.2 else p.2.noteRead r a n (gs.drop p.1).head?
  let ws := if weak then s.uo.filter fun w => w.meets a n else []
  let v := (ws.filter fun w => s.ordered w.who r.id w.fenced).foldl (fun v w => w.over a n v) v
  let ws := ws.filter fun w => !s.ordered w.who r.id w.fenced
  if ws.isEmpty then (v, s) else overSome a n ws.length ws v s

/-- What a load reads: a plain one as above, each half of 16 bytes by itself (R192), and any other the newest
value. -/
def State.see (s : State) (r : Req) (a n : Nat) (weak : Bool) : Nat × State :=
  if s.uo.isEmpty && s.stale.isEmpty then (s.rawRead a n, s)
  else if !(weak || r.loose) then s.newest a n
  else if n = 16 then
    let l := s.glance r a 8 weak
    let h := l.2.glance r (a + 8) 8 weak
    (l.1 + h.1 * 2 ^ 64, h.2)
  else s.glance r a n weak

/-! ### Fences -/

/-- An agent has acquired: everything performed so far is what it reads from now on (R249, R257). -/
def State.acquired (s : State) (id : AgentId) : State :=
  match s.agent id with
  | some a => s.setAgent id { a with seen := s.clock, floors := [] }
  | none => s

/-- A full fence of an agent at a scope, 1 the group, 2 the cluster, 3 the device and 4 the system: its
writes to UO pages are ordered toward all who share the scope, and so are its later loads (R245, R262). -/
def State.fenceUo (s : State) (id : AgentId) (scope : Nat) : State :=
  let t := s.clock + 1
  let s : State := { s with
    clock := t
    uo := s.uo.map fun w => if w.who = id then { w with fenced := noteFence w.fenced scope t false } else w
    stale := s.stale.map fun g => if g.who = id ∧ g.uo then { g with fenced := noteFence g.fenced scope t false } else g }
  match s.agent id with
  | some a => s.setAgent id { a with seen := t, floors := [], fences := noteFence a.fences scope t true }
  | none => s

/-- The writes of an agent that leaves its slot for a while settle, and every agent finds them (R38). -/
def State.flushUo (s : State) (id : AgentId) : State :=
  let s := s.land fun w => w.who == id
  { s with stale := s.stale.filter fun g => g.who != id }

/-- The writes of an agent that is gone belong to no agent of the core: a later one in its slot is another. -/
def State.disown (s : State) (id : AgentId) : State :=
  let other : AgentId := { id with idx := 200 }
  { s with uo := s.uo.map (fun w => if w.who = id then { w with who := other } else w)
           stale := s.stale.map fun g => if g.who = id then { g with who := other } else g }

/-- The passing of a step: every write settles, and every agent finds it, after a finite time (R260), and what a
granule held is performed once nothing holds it (R429). -/
def State.tick (s : State) : State :=
  if s.uo.isEmpty && s.stale.isEmpty && s.owed.isEmpty then s
  else
    let s := s.land fun w => w.left == 0
    let s : State := { s with uo := s.uo.map (fun w => { w with left := w.left - 1 })
                              stale := (s.stale.filter fun g => g.left != 0).map fun g => { g with left := g.left - 1 } }
    s.payOwed

/-- The launch that a 4-byte atomic makes when it takes `PRED` from 1 to 0 (R378, R380). The TCB's virtual
address is that of an access of the task's own context (R382). -/
def State.launch (s : State) (r : Req) (tcb : Nat) : State :=
  let c := readN s.mem (tcb + 5) 1 % 16
  let st := (s.ctx c).st
  let s : State := { s with tcbVa := if r.va ≠ 0 ∧ r.ctx = c then mapPut tcb (BitVec.ofNat 64 r.va) s.tcbVa else mapErase tcb s.tcbVa }
  if st == .new || st == .killed || st == .freed then
    (s.hwSet (tcb + 4) 1 6).hwSet (tcb + 6) 1 0x11
  else
    { s.hwSet (tcb + 4) 1 1 with
      tasks := mapPut tcb (freshTask c s.ntag) s.tasks
      ntag := s.ntag + 1
      agenda := if st == .active then s.agenda ++ [.dispatching tcb] else s.agenda }

/-- Whether an address is a TCB slot of the command area (R376). -/
def State.isTcb (s : State) (a : Nat) : Bool :=
  s.cmdbase.getLsbD 0 && a % 256 == 0 &&
    decide (getF s.cmdbase 24 16 * 2 ^ 24 ≤ a ∧ a < getF s.cmdbase 24 16 * 2 ^ 24 + 0xF00000)

/-- The launch rule applied to a 4-byte atomic that has read `old` and written `new`. -/
def State.launchRule (s : State) (r : Req) (a n old new : Nat) : State :=
  if n = 4 ∧ old = 1 ∧ new = 0 ∧ s.isTcb a ∧ readN s.mem (a + 4) 1 = 0 then s.launch r a else s

/-- The reservation of a thread replaced by one on a granule (R199). -/
def reserve (l : List Resv) (id : AgentId) (lane gran : Nat) : List Resv :=
  (l.filter fun v => !(v.id == id && v.lane == lane)) ++ [{ id := id, lane := lane, gran := gran, ctx := 0, vpn := 0 }]

/-- The reservation of a thread with the context and the 64 KiB unit of its address (R201). -/
def nameResv (l : List Resv) (id : AgentId) (lane ctx vpn : Nat) : List Resv :=
  l.map fun v => if v.id = id ∧ v.lane = lane then { v with ctx := ctx, vpn := vpn } else v

/-- Whether a thread holds a reservation on a granule (R200). -/
def reserved (l : List Resv) (id : AgentId) (lane gran : Nat) : Bool :=
  l.any fun v => v.id == id && v.lane == lane && v.gran == gran

/-- The reservations without that of a thread. -/
def unreserve (l : List Resv) (id : AgentId) (lane : Nat) : List Resv :=
  l.filter fun v => !(v.id == id && v.lane == lane)

/-- The reservations after a write that covers bytes, and those of the writer's own thread kept or not. -/
def State.unresv (s : State) (id : AgentId) (lane a n : Nat) : State := { s with resvs := breakResv s.resvs id lane a n }

/-- An access to HBM at address `a`. `weak` says that it is a plain one to a UO page
(R262, R263). A channel out of service poisons reads and drops writes, and one that is retraining
keeps its requests waiting (R457). -/
def State.atHbm (s : State) (r : Req) (lane a n : Nat) (weak : Bool) (acc : Acc) : State × PRes :=
  let id := r.id
  let s : State := s.rouse a
  let part := n % 32 ≠ 0 ∨ a % 32 ≠ 0
  let here := fun (p : Nat) => decide (a / 32 ≤ p ∧ p ≤ (a + n - 1) / 32)
  if s.trainingAt a then (s, .busy)
  else if (match acc with
    | .store _ => s.outAt a
    | _ => false) then (s, .val 0 0)
  else if s.poisonAt a n && (acc.kind != .store || part) then (s, .poisoned)
  else
    match acc with
    | .load => let q := s.see r a n weak; (q.2, .val q.1 0)
    | .fetch => let q := s.newest a n; (q.2, .val q.1 0)
    | .lr =>
      let q := s.newest a n
      ({ q.2 with resvs := reserve q.2.resvs id lane (a / 64) }, .val q.1 0)
    | .store x =>
      let s : State := { s.unresv id lane a n with poison := s.poison.filter fun p => !here p }
      ((s.put r lane a n x weak).remapped, .val 0 0)
    | .sc x =>
      let s' := { s with resvs := unreserve s.resvs id lane }
      if reserved s.resvs id lane (a / 64) then
        (((s'.swap r a n x weak).unresv id lane a n).remapped, .val 1 0)
      else (s', .val 0 0)
    | .rmw op rnd x c =>
      let v := s.newest a n
      let q := rmw op n rnd v.1 x c
      let s := (v.2.swap r a n q.1 weak).unresv id lane a n
      ((s.launchRule r a n v.1 q.1).remapped, .val v.1 q.2)
    | .sym al i x =>
      let v := s.newest a n
      let q := symPut al i x v.1
      if q.1 then (v.2, .val 1 0)
      else (((v.2.swap r a n q.2.1 weak).unresv id lane a n).remapped, .val 0 q.2.2)
    | .obj op =>
      let v := s.newest a n
      let x := op.new v.1
      if op = .cdec && cdecFires v.1 && !(s.cluster (bitsOf v.1 48 40 / 32)).room then (s, .busy)
      else
        let t := if x = v.1 then v.2 else (v.2.swap r a n x false).unresv id lane a n
        let t := if op = .cdec then
            (if cdecFires v.1 then t.fire r.ctx v.1 else t.launchRule r a 4 (bitsOf v.1 31 0) (bitsOf x 31 0))
          else t
        (t.remapped, .val v.1 0)

/-- An access to a core's scratchpad at offset `off`, whose local address is `a` (R203). Every byte must lie
in an allocation of the context. An agent's store into a tile that fills or drains leaves the elements
undefined (R320). -/
def State.atSpad (s : State) (r : Req) (lane c off a n : Nat) (weak : Bool) (acc : Acc) : State × PRes :=
  let k := s.core c
  let here := fun (p : Nat) => decide (off / 8 ≤ p ∧ p ≤ (off + n - 1) / 8)
  let put := fun (s : State) (f : State → State) =>
    let k := s.core c
    let t : State := f ((s.setCore c { k with spoison := k.spoison.filter fun p => !here p }).unresv r.id lane a n)
    if r.agent then t.disturb true c off n else t
  let swap := fun (s : State) (x : Nat) (weak : Bool) => put s fun s => s.swap r a n x weak
  if !((List.range n).all fun i => s.spadOwned c r.ctx (off + i)) then (s, .refused)
  else if k.spoison.any here && (acc.kind != .store || n % 8 != 0) then (s, .poisoned)
  else
    match acc with
    | .load => let q := s.see r a n weak; (q.2, .val q.1 0)
    | .fetch => let q := s.newest a n; (q.2, .val q.1 0)
    | .lr =>
      let q := s.newest a n
      ({ q.2 with resvs := reserve q.2.resvs r.id lane (a / 64) }, .val q.1 0)
    | .store x => (put s fun s => s.put r lane a n x weak, .val 0 0)
    | .sc x =>
      if reserved s.resvs r.id lane (a / 64) then
        let s := swap s x weak
        ({ s with resvs := unreserve s.resvs r.id lane }, .val 1 0)
      else ({ s with resvs := unreserve s.resvs r.id lane }, .val 0 0)
    | .rmw op rnd x c' =>
      let v := s.newest a n
      let q := rmw op n rnd v.1 x c'
      (swap v.2 q.1 weak, .val v.1 q.2)
    | .sym al i x =>
      let v := s.newest a n
      let q := symPut al i x v.1
      if q.1 then (v.2, .val 1 0) else (swap v.2 q.2.1 weak, .val 0 q.2.2)
    | .obj op =>
      let v := s.newest a n
      let x := op.new v.1
      if op = .cdec && cdecFires v.1 && !(s.cluster (bitsOf v.1 48 40 / 32)).room then (s, .busy)
      else
        let t := if x = v.1 then v.2 else swap v.2 x false
        (if op = .cdec && cdecFires v.1 then t.fire r.ctx v.1 else t, .val v.1 0)

/-- An access to HBM, where writes to a frozen granule are held (R429). -/
def State.atMem (s : State) (r : Req) (lane a n : Nat) (weak : Bool) (acc : Acc) : State × PRes :=
  match (if acc.kind.writes then s.frozenAt a else none) with
  | some f => (s.holdWrite f.1 f.2, .busy)
  | none => s.atHbm r lane a n weak acc

/-- Whether a write to a control register of the module has yet to take effect, which a later access to the
control windows follows (R247, R261). -/
def State.ctlDue (s : State) : Bool := s.agenda.any fun i => match i with
  | .registerWrite _ _ _ => true
  | .feataccWrite _ => true
  | .minverWrite _ => true
  | .go _ => true
  | .confirm _ => true
  | .evheadWrite _ => true
  | .ovfClear => true
  | .cmdbaseWrite _ => true
  | .cqbaseWrite _ _ => true
  | .snpoolWrite _ => true
  | .ctxctlClearErr _ => true
  | .load _ _ => true
  | .activate _ => true
  | .quiesce _ => true
  | .kill _ => true
  | .free _ => true
  | .enable _ => true
  | .use _ => true
  | .portDrain _ => true
  | .disable _ => true
  | .bootcmdReset => true
  | _ => false

/-- An access at a local address (R14 to R25). `ord` is the page attribute, and `plain` says
that the access is a plain one, which alone is weakened on a UO page (R204, R263). A core window outside the scratchpad,
and a control window, serve loads and stores: whether they serve a fetch, LR, SC or SYMST the manual leaves open, and
here they refuse it (log entry 91). -/
def State.atLocal (s : State) (r : Req) (lane a n ord : Nat) (plain : Bool) (sup : Bool) (acc : Acc) :
    State × PRes :=
  match s.locOf a with
  | .hbm b =>
    -- the command window's alias is a control window (R25, R377)
    if a ≠ b ∧ (r.priv && sup) = false then (s, .refused) else s.atMem r lane b n (ord == 2 && plain) acc
  | .spad c off => match (if acc.kind.writes then s.frozenAt a else none) with
    | some f => (s.holdWrite f.1 f.2, .busy)
    | none => s.atSpad r lane c off a n (ord == 2 && plain) acc
  | .win c off =>
    if !(n = 4 ∨ n = 8) ∨ off % n ≠ 0 then (s, .refused)
    else
      match acc with
      | .load => match s.winRead r.ctx c off n with
        | some (x, s) => (s, if ((s.core c).hurt [off, off + n - 4]).isSome then .poisoned else .val x 0)
        | none => (s, .refused)
      | .store x => match s.winWrite r.ctx (r.priv && sup) c off n x with
        | some t =>
          if n = 4 ∧ ((s.core c).hurt [off]).isSome then (s, .poisoned)
          else
            let s := t.setCore c ((t.core c).mended [off, off + n - 4])
            (if r.agent then s.disturb false c off n else s, .val 0 0)
        | none => (s, .refused)
      | _ => (s, .refused)
  | .ctl off =>
    if !(r.priv && sup) then (s, .refused)
    else if s.ctlDue then (s, .busy)
    else
      match acc with
      | .load => let q := s.ctlRead off n; (q.2, .val q.1 0)
      | .store x => ({ s with agenda := s.agenda ++ s.ctlWrite off n x }, .val 0 0)
      | _ => (s, .refused)
  | .none => (s, .refused)

/-- An access at a physical address: local, or at the module that the address names (R14). -/
def State.atPhys (s : State) (r : Req) (lane pa n ord : Nat) (plain sup : Bool) (acc : Acc) :
    State × PRes :=
  if pa / 2 ^ 40 = s.modid then s.atLocal r lane (pa % 2 ^ 40) n ord plain sup acc
  else if s.routed (pa / 2 ^ 40) then (s, .remote (pa / 2 ^ 40) (pa % 2 ^ 40))
  else (s, .refused)

/-! ## Virtual accesses -/

/-- The outcome of a virtual access (R60, R179). -/
inductive VRes where
  | val (x : Nat) (fl : BitVec 9)
  /-- ACCESS with this information (R14, R173, R175). -/
  | access (info : Word64)
  /-- Refused at the target (R14), which for a posted store is no trap. -/
  | refused (pa : Nat)
  | poisoned (pa : Nat)
  | busy
  /-- Performed elsewhere: the kind of packet, the module or, with a memory key, the endpoint of a
  storage window (R187), the address there, and whether the page is SO (R261). -/
  | remote (kind : PktKind) (dst : Nat) (addr : Nat) (key : Option Nat) (so : Bool)
  | stale
  | fault (home : Option Nat) (malformed : Bool)
  | fatal (poison : Bool)
  deriving DecidableEq, Repr

/-- The accesses that are performed only on memory of the issuing module (R201, R284). -/
def Acc.near : Acc → Bool
  | .lr => true
  | .sc _ => true
  | .sym _ _ _ => true
  | _ => false

/-- The packet that carries an access to a physical address of another module (R439). -/
def Acc.packet : Acc → PktKind
  | .load => .rdmaRead
  | .fetch => .rdmaRead
  | .lr => .rdmaRead
  | .store _ => .rdmaWrite
  | .sc _ => .rdmaWrite
  | .sym _ _ _ => .rdmaWrite
  | .rmw op _ _ _ => if op < 8 then .atomic else .atomf
  | .obj _ => .atomic

/-- An access to a storage window (R187): what the window permits is sent to its target, and everything else
raises ACCESS. A fetch is not among the accesses that the rule accepts (log entry 73). -/
def windowAccess (w : Nat) (va : Word64) (win : Bool) (acc : Acc) : VRes :=
  let at_ := w / 2 ^ 128 % 2 ^ 64 + (va.toNat - w / 2 ^ 16 % 2 ^ 44 * 2 ^ 16)
  let dst := w / 2 ^ 192 % 2 ^ 16
  match acc with
  | .load => if w / 2 % 2 = 1 && win then .remote .rdmaRead dst at_ (some (w / 2 ^ 224)) false else .access va
  | .store _ => if w / 4 % 2 = 1 && win then .remote .rdmaWrite dst at_ (some (w / 2 ^ 224)) false else .access va
  | _ => .access va

/-- `Perform` of R60 without the alignment check, which the instructions make for all of
their threads first (R191). `win` says that the access may go through a storage window
(R187). An access to an SO page follows everything that its maker has done, and is a full fence of system scope toward
its accesses to pages of every attribute (R261, log entry 7). One that its home performs follows it as well, since the
page may be SO there. -/
def State.perform (s : State) (r : Req) (lane : Nat) (va : Word64) (n : Nat) (plain win : Bool) (acc : Acc) :
    State × VRes :=
  match s.translate r va.toNat acc.kind with
  | (s, .ok t) =>
    match t.win with
    | some w => (s, windowAccess w va win acc)
    | none =>
      if t.ord = 1 ∧ r.quiet = false then (s, .busy)
      else match (if t.ord = 1 && r.agent then s.fenceUo r.id 4 else s).atPhys { r with va := va.toNat, loose := plain && t.ord == 0 }
          lane t.pa n t.ord plain t.sup acc with
      | (s, .val x f) =>
        (if acc = .lr then { s with resvs := nameResv s.resvs r.id lane r.ctx (va.toNat / 65536) } else s, .val x f)
      | (s, .refused) => (s, if acc.near && t.pa / 2 ^ 40 != s.modid then .access va else .refused t.pa)
      | (s, .poisoned) => (s, .poisoned t.pa)
      | (s, .busy) => (s, .busy)
      | (s, .remote m a) => (s, .remote acc.packet m a none (t.ord == 1))
  | (s, .fwd h) =>
    if r.quiet = false then (s, .busy)
    else if s.routed h then (s, .remote .forward h va.toNat none false)
    else (s, .access va)
  | (s, .access) => (s, .access va)
  | (s, .stale) => (s, .stale)
  | (s, .missing h m) => (s, .fault h m)
  | (s, .fatal p) => (s, .fatal p)

end Sys2Proof.Machine
end

