-- ==== Sys2Proof/Machine/Reach.lean ====
section
/-! DEFINITION. One access of an agent (R60, R179 to R183): performed on this module, sent to another one,
or held behind what must come first (R247, R261, R320, R440). -/

namespace Sys2Proof.Machine

/-! ## Trap codes (R414) -/

def trIllegalInstr : Nat := 0x01
def trIllegalClause : Nat := 0x02
def trIllegalState : Nat := 0x03
def trBadTarget : Nat := 0x04
def trMisaligned : Nat := 0x05
def trAccess : Nat := 0x06
def trTileEmpty : Nat := 0x07
def trInvalidCode : Nat := 0x08
def trResource : Nat := 0x09
def trRemoteTimeout : Nat := 0x0A
def trSwTrap : Nat := 0x0B
def trBkpt : Nat := 0x0C
def trPreempt : Nat := 0x10

/-- The maker of an agent's accesses. -/
def reqOf (id : AgentId) (a : Agent) : Req :=
  { ctx := a.ctx, priv := a.priv, lctx := a.lctx, id := id }

/-- What an instruction allows of its accesses: `plain` a plain access (R249, R263), `win` an
access through a storage window (R187), `posted` a posted store (R14), `near` an access that
only memory of this module serves (R201), `sync` a posted store that its word waits for, `patient` an
access that no time-out ends (R294), and `counts` an access that is outstanding work of its task as a posted store
is (R311). -/
structure Mode where
  plain : Bool
  win : Bool := false
  posted : Bool := false
  near : Bool := false
  sync : Bool := false
  patient : Bool := false
  counts : Bool := false
  deriving DecidableEq, Repr

/-- What one access comes to. -/
inductive Got where
  | val (x : Nat) (fl : BitVec 9)
  /-- A posted access that failed (R14, R182). -/
  | failed
  | wait
  | trap (code : Nat) (info : Word64)
  | fault (va : Word64) (home : Option Nat) (malformed : Bool)
  | poison (pa va : Nat)
  | fatal (va : Word64)
  deriving DecidableEq, Repr

/-- The fields of a packet that carries an access; one to a physical address names a fetch as a read. -/
def accFields : Acc → List Nat
  | .load => [0, 0, 0, 0]
  | .fetch => [23, 0, 0, 0]
  | .lr => [0, 0, 0, 0]
  | .store x => [1, x, 0, 0]
  | .sc x => [1, x, 0, 0]
  | .sym _ _ _ => []
  | .rmw op rnd x c => [2 + op, x, c, rnd]
  | .obj .probe => [16, 0, 0, 0]
  | .obj (.bari cfg) => [17, cfg.toNat, 0, 0]
  | .obj .bara => [18, 0, 0, 0]
  | .obj .cdec => [19, 0, 0, 0]
  | .obj (.mark w) => [20, w, 0, 0]
  | .obj (.cpl i c) => [21, i, c, 0]
  | .obj (.nib h x) => [22, h.toNat, x, 0]

/-- The answer of another module to the access that an agent waits for. -/
def answered (md : Mode) (va : Word64) (r : Rem) : Answer → Got
  | .value x fl => .val x fl
  | .refused => if r.soft then .failed else .trap trAccess r.info
  | .timeout => if md.posted then .failed else .trap trRemoteTimeout r.va
  | .nak => .fault va (some r.dst) false
  | .dropped => .val 0 0
  | .poisoned => .poison 0 r.va.toNat

/-- The extent that holds a page has been marked stale: the core translates it again (R185). -/
def State.retranslate (s : State) (id : AgentId) (lctx vpn : Nat) : State :=
  let e : Instr := .extentRetranslate id.core lctx vpn
  if s.agenda.contains e then s else { s with agenda := s.agenda ++ [e] }

/-! ## What comes first -/

/-- Whether a TST or DRAIN of the agent still has writes to perform. -/
def State.drains (s : State) (a : Agent) : Bool :=
  s.cores.any fun c => c.2.jobs.any fun j => j.frame == a.key && !j.todo.isEmpty

/-- Whether two runs of bytes meet. -/
def meets (a n b m : Nat) : Bool := decide (a < b + m ∧ b < a + n)

/-- Whether a TST or DRAIN of the agent has yet to write to some of the bytes, by their virtual or by their
physical addresses (R247, R320). -/
def State.drainsAt (s : State) (id : AgentId) (a : Agent) (va n : Nat) : Bool :=
  s.cores.any fun c => c.2.jobs.any fun j => j.frame == a.key && j.spans.any fun p =>
    meets va n p.1 p.2 || match s.paOf (reqOf id a) va, s.paOf { reqOf id a with id := { id with core := c.1 } } p.1 with
      | some x, some y => meets x n y p.2
      | _, _ => false

/-- Whether a TST or DRAIN of the agent has yet to write to an SO page, which its later accesses follow (R261). -/
def State.drainsSo (s : State) (id : AgentId) (a : Agent) : Bool :=
  s.cores.any fun c => c.2.jobs.any fun j => j.frame == a.key && j.spans.any fun p =>
    match (s.lookup { reqOf id a with id := { id with core := c.1 } } p.1).2 with
    | .ok t => t.ord == 1
    | _ => false

/-- Whether every store and signal of the agent to other modules is acknowledged, the word that issues apart (R268,
R440). -/
def Agent.acked (a : Agent) : Bool :=
  a.sigs.isEmpty && a.outst.all fun o => o.sent == 0 || o.left == 0 || a.far == some o.tag

/-- Whether an access is an acquire where it is no plain one (R249). -/
def Acc.acquires : Acc → Bool
  | .load => true
  | .lr => true
  | .rmw _ _ _ _ => true
  | .obj .probe => true
  | _ => false

/-- The agent after an access that has returned: an acquire orders its later ones (R249, R257). -/
def State.ordersLater (s : State) (id : AgentId) (md : Mode) (acc : Acc) : State :=
  if !md.plain && acc.acquires then s.acquired id else s

/-! ## Accesses -/

/-- The tag of the word that issues: a new one, or that of a word which has issued and waits. -/
def State.wordTag (s : State) (a : Agent) : Nat × State :=
  match a.far, a.now with
  | some t, _ => (t, s)
  | none, some p => (p.1.tag, s)
  | none, none => (s.ntag, { s with ntag := s.ntag + 1 })

/-- A posted store sent to another module: the word of the agent has one more to be acknowledged, and so
has its task (R14, R311). -/
def State.countFar (s : State) (id : AgentId) (a : Agent) (t : Nat) : State :=
  let o : Outst := match a.outst.find? fun o => o.tag == t with
    | some o => { o with left := o.left + 1, sent := o.sent + 1 }
    | none => { tag := t, cls := .st, writes := [], flags := 0, left := 1, sent := 1, more := true }
  let s : State := s.setAgent id { a with far := some t, outst := (a.outst.filter fun x => x.tag != t) ++ [o] }
  match s.placedOf id a with
  | some p => s.setPlaced id.core a.lctx { p with outst := p.outst + 1 }
  | none => s

/-- One access of a thread, or one of the numbered accesses of a word (R60). An access that
another module performs is sent, and its word goes on when the answer is there; a posted store through a
physical mapping is sent and not waited for. A store counts as outstanding work of its task until it is
acknowledged (R311). -/
def State.access (s : State) (id : AgentId) (a : Agent) (lane : Nat) (va : Word64) (n : Nat) (md : Mode)
    (acc : Acc) : State × Got :=
  let told := match a.told with
    | some (v, x) => if v = va then some x else none
    | none => none
  let mine := match a.rem with
    | some r => r.lane == lane
    | none => false
  match told, a.rem, mine with
  | some .timeout, _, _ => (s.setAgent id { a with told := none }, if md.posted then .failed else .trap trRemoteTimeout va)
  | some _, _, _ => (s.setAgent id { a with told := none }, .trap trAccess va)
  | none, some r, true => match r.ans with
    | none => (s, .wait)
    | some x =>
      let s := (s.setAgent id { a with rem := none }).ordersLater id md acc
      (if r.cnt then s.lowerOutst id.core a.lctx a.tcb 1 else s, answered md va r x)
  | _, _, _ =>
    if s.drainsAt id a va.toNat n || s.drainsSo id a then (s, .wait)
    else match s.perform { reqOf id a with quiet := a.acked && !s.drains a, word := (s.wordTag a).1 } lane va n md.plain md.win acc with
    | (s, .val x f) => (s.ordersLater id md acc, .val x f)
    | (s, .access i) => (s, .trap trAccess i)
    | (s, .refused pa) =>
      (s, if md.posted then .failed else .trap trAccess (BitVec.ofNat 64 (pa / 65536 * 65536)))
    | (s, .poisoned pa) => (s, .poison pa va.toNat)
    | (s, .busy) => (s, .wait)
    | (s, .stale) => (s.retranslate id a.lctx (va.toNat / 65536), .wait)
    | (s, .fault h m) => (s, .fault va h m)
    | (s, .fatal _) => (s, .fatal va)
    | (s, .remote k dst addr key so) =>
      if md.near then (s, .trap trAccess va)
      else if (match a.rem with
        | some r => r.ans.isNone
        | none => false) then (s, .wait)
      else
        let send : State → Nat → State := fun s t => { s with outbox := s.outbox ++
          [{ kind := k, dst := dst, fields := [t, a.ctx, addr, n] ++ accFields (if k ≠ .forward ∧ acc = .fetch then .load else acc) ++
            [a.priv.toNat, md.plain.toNat] ++ key.toList }] }
        if md.posted && !md.sync && !so && key.isNone && k == .rdmaWrite then
          match s.agent id with
          | none => (s, .wait)
          | some a =>
            let p := s.wordTag a
            ((send p.2 p.1).countFar id a p.1, .val 0 0)
        else match s.agent id with
        | none => (s, .wait)
        | some a =>
          let t := s.ntag
          let s : State := { s with ntag := t + 1 }
          let info := if k = .forward ∨ key.isSome then va else BitVec.ofNat 64 (dst * 2 ^ 40 + addr / 65536 * 65536)
          let r : Rem := { tag := t, lane := lane, va := va, info := info, dst := dst,
                           soft := md.posted && key.isNone && k == .rdmaWrite
                           cnt := md.posted || md.counts, patient := md.patient, ans := none }
          let s := (send s t).setAgent id { a with rem := some r }
          (if r.cnt then s.raiseOutst id.core a.lctx 1 else s, .wait)

end Sys2Proof.Machine
end

