-- ==== Sys2Proof/Machine/Sources.lean ====
section
/-! DEFINITION. Source fields: what one reads, for registers, group channels and task channels (R41, R42,
R215, R393, R394). A read that must wait answers `none`. -/

namespace Sys2Proof.Machine

/-- Elements of the decision channel that every group has read or retired from are gone
(R394). -/
def trimDecision (groups : Nat) : Nat → Placed → Placed
  | 0, p => p
  | f + 1, p =>
    match p.decReads, mapFind 15 p.chans with
    | r :: rs, some ch =>
      if groups ≤ r then
        let q : Chan Word64 := { ch with elems := ch.elems.drop 1 }
        trimDecision groups f
          { p with decReads := rs, decBase := p.decBase + 1, chans := mapPut 15 q p.chans }
      else p
    | _, _ => p

/-- What the word that an agent goes on with has already taken for a source, and the agent without it. -/
def Agent.taken (a : Agent) (peek : Bool) (c : Nat) : Option (Taken × Agent) :=
  match a.now with
  | none => none
  | some (l, w) => (l.hand.find? fun h => h.peek == peek && h.chan == c).map fun h =>
      (h, { a with now := some ({ l with hand := l.hand.erase h }, w) })

/-- The head of a group channel, popped unless it is peeked. -/
def popV (s : State) (id : AgentId) (a : Agent) (peek : Bool) (c : Nat) : Option (VReg × State) :=
  match mapFind c a.chans with
  | some ch => match ch.elems with
    | e :: t =>
      if peek then some (e, s)
      else some (e, s.setAgent id { a with chans := mapPut c { ch with elems := t } a.chans })
    | [] => none
  | none => none

/-- A vector source: a vector register, or the head of a group channel. -/
def readV (s : State) (id : AgentId) (o : Opd) : Option (VReg × State) :=
  (s.agent id).bind fun a =>
    match o with
    | .reg n => some (a.getV n.toNat, s)
    | .chan peek c => match a.taken peek c.toNat with
      | some (h, a) => some (h.v, s.setAgent id a)
      | none => popV s id a peek c.toNat

/-- The task of an agent has the decision channel of `PLACE` = 1 (R394). -/
def State.decides (s : State) (a : Agent) : Bool :=
  match mapFind a.tcb s.tasks with
  | some t => t.image.getLsbD 825
  | none => false

/-- The sender of a signal learns whether it was accepted (R298, R441). -/
def State.ackSignal (s : State) (w : SigFrom) (ok : Bool) : State :=
  match w with
  | .here a lctx tcb => { s with agenda := s.agenda ++ [.storeAck a lctx tcb 0 1 ok] }
  | .endpt e tag => { s with outbox := s.outbox ++ [{ kind := .reply, dst := e, fields := [tag, ok.toNat] }] }

/-- A pop or peek of a task channel is an acquire (R249, R393). -/
def Agent.acquired (a : Agent) (s : State) : Agent := { a with seen := s.clock, floors := [] }

/-- An element of a task channel: of the decision channel at the group's own cursor (R394),
and else the head. A pop of `ch14` makes room for a signal that waits (R298). -/
def readTask (s : State) (id : AgentId) (a : Agent) (peek : Bool) (c : Nat) : Option (Word64 × State) :=
  (s.placedOf id a).bind fun p =>
    let got := fun (s : State) => s.setAgent id (a.acquired s)
    (mapFind c p.chans).bind fun ch =>
      if c = 15 && s.decides a then
        let k := a.cursor.getD 0
        (ch.elems[k - p.decBase]?).map fun e =>
          if peek then (e, got s)
          else
            let reads := p.decReads.zipIdx.map fun r => if r.2 = k - p.decBase then r.1 + 1 else r.1
            let p := trimDecision (getF p.ngrp 0 32) 16 { p with decReads := reads }
            (e, (s.setPlaced id.core a.lctx p).setAgent id { a.acquired s with cursor := some (k + 1) })
      else match ch.elems with
        | e :: t =>
          let popped := got (s.setPlaced id.core a.lctx { p with chans := mapPut c { ch with elems := t } p.chans })
          if peek then some (e, got s)
          else match p.inbox with
            | h :: r =>
              if c = 14 ∧ t.length < ch.depth then
                let ch : Chan Word64 := { ch with elems := t ++ [h.value] }
                some (e, (got (s.setPlaced id.core a.lctx { p with chans := mapPut c ch p.chans, inbox := r })).ackSignal
                  h.sender true)
              else some (e, popped)
            | [] => some (e, popped)
        | [] => none

/-- A uniform source: a uniform or lead register, or a task channel. -/
def readU (s : State) (id : AgentId) (o : Opd) : Option (Word64 × State) :=
  (s.agent id).bind fun a =>
    match o with
    | .reg n => some (a.getX n.toNat, s)
    | .chan peek c => match a.taken peek c.toNat with
      | some (h, a) => some (h.x, s.setAgent id a)
      | none => readTask s id a peek c.toNat

/-- Vector sources in the order of R42. -/
def readVs (s : State) (id : AgentId) : List Opd → Option (List VReg × State)
  | [] => some ([], s)
  | o :: t => (readV s id o).bind fun p => (readVs p.2 id t).map fun q => (p.1 :: q.1, q.2)

/-- Uniform sources in the order of R42. -/
def readUs (s : State) (id : AgentId) : List Opd → Option (List Word64 × State)
  | [] => some ([], s)
  | o :: t => (readU s id o).bind fun p => (readUs p.2 id t).map fun q => (p.1 :: q.1, q.2)

/-! ## What a word that waits takes (R42, R71) -/

/-- The channel that an operand names. -/
def opdChan : Opd → Option Nat
  | .reg _ => none
  | .chan _ c => some c.toNat

/-- One element taken, or seen, for a source of a word that waits. -/
def State.takeOne (s : State) (id : AgentId) (a : Agent) (o : Opd) : Option (Taken × State) :=
  match o with
  | .reg _ => none
  | .chan peek c =>
    if c.toNat < 8 then (popV s id a peek c.toNat).map fun p => ({ peek := peek, chan := c.toNat, v := p.1, x := 0 }, p.2)
    else (readTask s id a peek c.toNat).map fun p => ({ peek := peek, chan := c.toNat, v := [], x := p.1 }, p.2)

/-- The elements that are there for the sources given, in their order up to the first that is not: what is taken, and
the state. -/
def State.draw (id : AgentId) : List Opd → State → List Taken × State
  | [], s => ([], s)
  | o :: t, s => match (s.agent id).bind fun a => s.takeOne id a o with
    | none => ([], s)
    | some (h, s) => let p := State.draw id t s; (h :: p.1, p.2)

/-- An element that a word has taken back at the head of its channel: the word has had no effect (R34). A channel may
hold one element more than its depth then. -/
def State.giveOne (s : State) (id : AgentId) (h : Taken) : State :=
  match s.agent id with
  | none => s
  | some a =>
    if h.peek then s
    else if h.chan < 8 then match mapFind h.chan a.chans with
      | some ch => s.setAgent id { a with chans := mapPut h.chan { ch with elems := h.v :: ch.elems } a.chans }
      | none => s
    else match s.placedOf id a with
      | none => s
      | some p => match mapFind h.chan p.chans with
        | none => s
        | some ch =>
          if h.chan = 15 && s.decides a then
            let k := a.cursor.getD 0 - 1
            let q : Placed :=
              if p.decBase ≤ k then
                { p with decReads := p.decReads.zipIdx.map fun r => if r.2 = k - p.decBase then r.1 - 1 else r.1 }
              else
                { p with decBase := k, decReads := (getF p.ngrp 0 32 - 1) :: p.decReads
                         chans := mapPut 15 { ch with elems := h.x :: ch.elems } p.chans }
            (s.setPlaced id.core a.lctx q).setAgent id { a with cursor := some k }
          else s.setPlaced id.core a.lctx { p with chans := mapPut h.chan { ch with elems := h.x :: ch.elems } p.chans }

/-- Elements given back, the one taken last first. -/
def State.giveBack (s : State) (id : AgentId) (l : List Taken) : State := l.reverse.foldl (fun s h => s.giveOne id h) s

end Sys2Proof.Machine
end

