-- ==== Sys2Proof/WellFormed.lean ====
section
/-! DEFINITION. Which field values the opcode map allows (R61, R64 to R70): the checks of an
instruction word that need no agent and no memory. A word that fails one of them raises
ILLEGAL_INSTR when it issues. -/

namespace Sys2Proof

/-- A register, not a channel. -/
def Opd.isReg : Opd → Bool
  | .reg _ => true
  | .chan _ _ => false

/-- A register of even number, which holds a 64-bit vector value (R43). -/
def Opd.isEven : Opd → Bool
  | .reg n => n.toNat % 2 == 0
  | .chan _ _ => false

/-- The integer types that have sub-word forms (R64). -/
def intTy (t : BitVec 3) : Bool := t == 0 || t == 1 || t == 5 || t == 6

/-- Every type but `TY` 7, and in uniform form `TY` 0 to 2 (R64). -/
def anyTy (u : Bool) (t : BitVec 3) : Bool := t != 7 && (!u || decide (t.toNat ≤ 2))

/-- The types of ADD, SUB, MUL and MAD, with `SAT` on the integer types alone (R64). -/
def arithTy (q u : Bool) (t : BitVec 3) : Bool := anyTy u t && (!q || intTy t)

/-- The types of FCLASS and FSGN (R64). -/
def signTy (u : Bool) (t : BitVec 3) : Bool := if u then t == 2 else t == 2 || t == 3 || t == 4

/-- The element formats of QSCL, QENC and QDEC (R160). -/
def scaleFmt (e : BitVec 4) : Bool := e == 7 || e == 9 || e == 10 || e == 11

/-- The destination of a vector CMP: a mask register other than `m0` (R140). -/
def maskDest : Opd → Bool
  | .reg n => decide (1 ≤ n.toNat ∧ n.toNat < 8)
  | .chan _ _ => false

/-- The format pairs of CVT, with the register rules of the pack and unpack forms (R158). -/
def cvtPair (u : Bool) (sty dty : Nat) (d a : Opd) : Bool :=
  if u then decide (sty ≤ 2 ∧ dty ≤ 2 ∧ sty ≠ dty)
  else if sty ≤ 11 ∧ dty ≤ 11 then sty != dty
  else if sty = 2 ∧ (dty = 13 ∨ dty = 14) then a.isEven && d.isReg
  else if (sty = 13 ∨ sty = 14) ∧ dty = 2 then d.isEven && a.isReg
  else decide (sty = 13 ∧ dty = 14 ∨ sty = 14 ∧ dty = 13)

/-- A uniform memory word has no index (R68). -/
def noIndex (u : Bool) (x : BitVec 5) : Bool := !u || x == 31

/-- The register shape of a memory operand of size code `z` (R190). -/
def shapeOk (u : Bool) (z : Nat) (d : Opd) : Bool :=
  match d with
  | .reg n =>
    if u then z != 4 || n.toNat % 2 == 0
    else if z = 3 then n.toNat % 2 == 0
    else if z = 4 then n.toNat % 4 == 0
    else true
  | .chan _ _ => if u then z != 4 else decide (z ≠ 3 ∧ z ≠ 4)

/-- The field values that the opcode map allows. -/
def Instr.wf : Instr → Bool
  | .nop _ _ => true
  | .pfx _ _ r _ _ => decide (r.toNat ≤ 5)
  | .add _ u q t _ _ _ => arithTy q u t
  | .sub _ u q t _ _ _ => arithTy q u t
  | .mul _ u q t _ _ _ => arithTy q u t
  | .mulh _ u t _ _ _ => intTy t && (!u || decide (t.toNat ≤ 1))
  | .mad _ u q t _ _ _ => arithTy q u t
  | .min _ u t _ _ _ => anyTy u t
  | .max _ u t _ _ _ => anyTy u t
  | .absd _ u t _ _ _ => anyTy u t
  | .div _ _ t _ _ _ => decide (t.toNat ≤ 2)
  | .rem _ _ t _ _ _ => decide (t.toNat ≤ 1)
  | .logic _ _ f _ _ _ => decide (f.toNat < 6)
  | .shift _ u e _ _ _ _ => decide (e.toNat < 3) && (!u || e == 0)
  | .bits _ _ f _ _ => decide (f.toNat < 5)
  | .bfx _ _ _ _ _ _ => true
  | .bfi _ _ _ _ _ => true
  | .perm _ _ _ _ _ => true
  | .sel _ _ _ _ _ => true
  | .cmp _ u c y d _ _ => y != 3 && (decide (c.toNat < 6) || y == 2) && (u || maskDest d)
  | .fclass _ u t _ _ => signTy u t
  | .fsgn _ u o t _ _ b => o != 3 && signTy u t && (o == 2 || b == .reg 0)
  | .sfu _ _ _ _ _ => true
  | .dot _ f _ _ _ => decide (f.toNat < 5)
  | .mov _ _ _ _ => true
  | .bcast _ _ _ => true
  | .movi _ _ _ _ => true
  | .movh _ _ _ _ => true
  | .addi _ _ _ _ _ => true
  | .lea _ _ _ _ _ _ => true
  | .cvt _ u n d a t y => decide (n.toNat ≤ 5) && cvtPair u t.toNat y.toNat d a
  | .qscl _ e _ _ => scaleFmt e
  | .qenc _ e _ _ _ => scaleFmt e
  | .qdec _ e _ _ _ => scaleFmt e
  | .ald _ _ _ => true
  | .rget _ _ _ _ _ => true
  | .rset _ _ _ _ _ => true
  | .runpk _ _ _ _ _ => true
  | .rpack _ _ _ _ _ => true
  | .rdot _ _ _ _ _ _ _ => true
  | .rsum _ _ _ _ _ => true
  | .rchk _ _ _ _ => true
  | .rmap _ _ _ _ _ => true
  | .rcnt _ _ _ _ _ => true
  | .symld _ _ _ _ _ _ _ => true
  | .symst _ _ _ _ _ _ _ => true
  | .shfl _ f _ _ _ => decide (f.toNat < 4)
  | .bfly _ w k _ _ => w != 3 && decide (k.toNat < 5)
  | .vote _ f _ _ => decide (f.toNat < 3)
  | .redg _ _ _ _ => true
  | .scang _ _ _ _ _ => true
  | .lane _ _ _ _ => true
  | .lmap _ f d a b => decide (f.toNat < 3) && (if f = 2 then d == .reg 0 else a == .reg 0) && b == .reg 0
  | .br _ k a _ => decide (k.toNat < 5) && (k != 0 || a == 0)
  | .brd _ _ _ _ => true
  | .jmp _ a => a.isReg
  | .jmpd _ _ a _ => a.isReg
  | .call _ d a => d.isReg && a.isReg
  | .loop _ d a => d.isReg && a.isReg
  | .ctlYield _ => true
  | .ctlExit _ => true
  | .ctlJoinp _ => true
  | .ctlTrap _ a => a.isReg
  | .ctlBkpt _ => true
  | .ld _ u z _ _ d _ x => z != 7 && noIndex u x && shapeOk u z.toNat d
  | .st _ u z _ _ d _ x => decide (z.toNat ≤ 4) && noIndex u x && shapeOk u z.toNat d
  | .atom _ u p _ _ d _ x => noIndex u x && d.isReg && !(u && d == .reg 0 && p == 7)
  | .atom64 _ u p _ _ d _ x => noIndex u x && (if u then d.isReg && !(d == .reg 0 && p == 7) else d.isEven)
  | .atomf _ u p _ _ d _ x => noIndex u x && d.isReg && decide (p.toNat < 4) && !(u && p == 1)
  | .lr _ u _ _ d _ x => noIndex u x && d.isReg
  | .sc _ u m _ _ d _ x => noIndex u x && d.isReg && (if u then m == 1 else m != 0)
  | .fence _ o _ => o != 3
  | .pref _ u _ _ x => noIndex u x
  | .ldc _ u z _ _ d b x => z != 7 && noIndex u x && b != 31 && shapeOk u z.toNat d
  | .stc _ u z _ _ d b x => decide (z.toNat ≤ 4) && noIndex u x && b != 31 && shapeOk u z.toNat d
  | .cntw _ _ => true
  | .bari _ _ _ _ => true
  | .bara _ _ _ => true
  | .barw _ _ _ _ => true
  | .bars _ _ _ => true
  | .barq _ _ _ => true
  | .sigr _ _ _ => true
  | .sigw _ _ => true
  | .spawn _ _ _ => true
  | .joinc _ _ _ _ => true
  | .cdec _ _ _ => true
  | .cr _ _ r => decide (r.toNat ≤ 6)
  | .crW _ _ r => decide (r.toNat ≤ 4)
  | .tdef _ _ _ => true
  | .tsetEmpty _ _ => true
  | .tsetReady _ _ => true
  | .tld _ _ _ _ _ => true
  | .tst _ _ _ _ => true
  | .mmq _ l f _ _ _ => l == 0 || f == 4 || f == 5
  | .mmt _ _ _ => true
  | .mms _ _ _ => true
  | .mnorm _ _ _ => true
  | .aliasTab _ _ _ => true
  | .accz _ _ => true
  | .accr _ d _ _ => d.toNat % 8 == 0
  | .drain _ r _ _ _ => decide (r.toNat ≤ 5)
  | .txp _ _ _ => true
  | .varr _ _ _ => true
  | .tq _ _ _ => true
  | .itnew _ f _ _ => decide (f.toNat ≤ 5)
  | .itadd _ f _ _ _ => decide (f.toNat ≤ 7)
  | .next _ _ _ _ _ => true
  | .enough _ _ => true
  | .itsave _ _ _ _ => true
  | .itload _ _ _ => true
  | .itq _ _ _ => true
  | .cpy _ k _ _ => decide (k.toNat < 5)
  | .qfence _ m => m != 0
  | .qwait _ _ _ _ => true
  | .coll _ k _ _ => decide (k.toNat < 5)
  | .snapFreeze _ _ _ _ => true
  | .snapQuery _ _ => true
  | .snapRelease _ _ => true
  | .sysCsrr _ _ r => decide (r.toNat ≤ 10)
  | .sysCsrw _ _ r => decide (r.toNat ≤ 8)
  | .sysEret _ => true
  | .sysTlbinv _ _ _ => true
  | .sysXtinv _ _ _ => true
  | .sysFrame _ _ _ => true
  | .sysHaltg _ _ _ => true
  | .sysDictld _ _ => true
  | .dictPairWord _ => true
  | .clauseFetch => true
  | .trapEntry _ => true
  | .preempt _ => true
  | .park _ => true
  | .faultRequest _ _ _ _ => true
  | .faultReplyResolved _ _ _ => true
  | .faultReplyRefused _ _ => true
  | .faultNak _ _ _ => true
  | .forwardedAccess _ _ _ _ _ _ _ _ _ _ => true
  | .retired _ _ => true
  | .remoteAccessTimeout _ => true
  | .extentRetranslate _ _ _ => true
  | .accessReply _ _ _ => true
  | .storeAck _ _ _ _ _ _ => true
  | .recordPop _ => true
  | .wheySpawn _ => true
  | .idle _ _ => true
  | .flush _ => true
  | .dispatching _ => true
  | .dispatchComplete _ => true
  | .launchRecordQueue _ => true
  | .taskRetirement _ => true
  | .rcbFold => true
  | .queueEntryActivate _ _ => true
  | .engineElement _ _ => true
  | .completionWrite _ _ => true
  | .engineTimeout _ _ => true
  | .tileRowArrival _ _ => true
  | .tileDrainDone _ _ => true
  | .iteratorPrefetch _ _ => true
  | .signalReceive _ _ => true
  | .collDataFlit _ => true
  | .holdFlit _ _ => true
  | .hopTimeout _ _ _ => true
  | .abortFlit _ _ _ _ => true
  | .abortFlitExpiry _ => true
  | .shadowCopy _ _ => true
  | .drainStart => true
  | .granuleAck _ => true
  | .enable _ => true
  | .use _ => true
  | .portDrain _ => true
  | .disable _ => true
  | .linkup _ _ => true
  | .trainingTimeout _ => true
  | .joined _ _ => true
  | .negotiationRetry _ _ => true
  | .degraded _ _ => true
  | .degradedRecovery _ _ => true
  | .portDrainDone _ => true
  | .linkLoss _ => true
  | .inboundRdma _ _ _ _ _ _ _ _ _ _ => true
  | .attestationRequest _ => true
  | .go _ => true
  | .resetSend _ => true
  | .load _ _ => true
  | .activate _ => true
  | .quiesce _ => true
  | .quiesceComplete _ => true
  | .kill _ => true
  | .done _ => true
  | .free _ => true
  | .ctxctlClearErr _ => true
  | .cmdbaseWrite _ => true
  | .cqbaseWrite _ _ => true
  | .snpoolWrite _ => true
  | .varianceRecordWrite _ _ _ => true
  | .feataccWrite _ => true
  | .minverWrite _ => true
  | .confirm _ => true
  | .hotremove _ => true
  | .evheadWrite _ => true
  | .ovfClear => true
  | .bootcmdReset => true
  | .registerWrite _ _ _ => true
  | .refresh _ _ => true
  | .selfRefresh _ _ _ => true
  | .parityAlert _ _ _ => true
  | .chanout _ _ => true
  | .scrub _ _ _ _ => true
  | .strike _ => true
  | .resultCommit _ => true
  | .replay _ _ _ => true
  | .powerLimit _ => true
  | .powerGood => true
  | .fwload => true
  | .hbminit _ => true
  | .links => true
  | .fatal _ => true
  | .linkLevelRetry _ => true
  | .matUpdateWritten _ _ => true
  | .remoteAtomf _ _ _ _ _ _ => true
  | .channelRetrainDone _ _ => true

end Sys2Proof
end

