-- ==== Sys2Proof/Machine/Ops.lean ====
section
/-! DEFINITION. The operations that the meanings share: error records and halts (R210, R296,
R400, R421 to R423), frames (R417), parking (R181), taking a trap and returning from one
(R413, R418), the position of an agent, and the issue of a word, with what becomes of one that has issued and
waits (R35, R36, R71). -/

namespace Sys2Proof.Machine

/-! ## Task control blocks -/

/-- The code of a task state (R379). -/
def TaskState.code : TaskState → Nat
  | .waiting => 0
  | .ready => 1
  | .dispatching => 2
  | .running => 3
  | .draining => 4
  | .complete => 5
  | .failed => 6

/-! ## Error records (R423) -/

/-- The fields of an error record; `task` is a virtual address. -/
structure ErrRec where
  level : Nat
  cause : Nat
  core : Nat
  slot : Nat
  lead : Bool
  pa : Nat
  va : Nat
  pc : Nat
  task : Nat
  deriving DecidableEq, Repr

/-- One record written to the error area of a context (R423); a killed context writes none. -/
def State.errRecord (s : State) (ctx : Nat) (e : ErrRec) : State :=
  let c := s.ctx ctx
  if c.st == .killed || c.st == .new || c.st == .freed then s
  else
    let x := e.level + e.cause * 2 ^ 8 + ctx * 2 ^ 17 + e.core * 2 ^ 21 + e.slot * 2 ^ 30
      + e.lead.toNat * 2 ^ 36 + e.pa / 2 ^ 16 * 2 ^ 16 * 2 ^ 192 + e.va * 2 ^ 256 + e.pc * 2 ^ 320
      + e.task * 2 ^ 384 + c.seq * 2 ^ 448
    ({ s with ctxs := mapPut ctx { c with seq := c.seq + 1 } s.ctxs } : State).hwPut
      (c.erra % 2 ^ 40 + c.seq % c.errn * 64) 64 x

/-! ## Killing a context (R422) -/

/-- The core without what belongs to a context. -/
def Core.purge (k : Core) (ctx : Nat) : Core :=
  let k : Core := (k.placed.filter fun p => p.2.ctx == ctx).foldl (fun k p => k.unplace p.1) k
  { k with
    groups := k.groups.filter fun p => p.2.ctx != ctx
    leads := k.leads.filter fun p => p.2.ctx != ctx
    slots := k.slots.filter fun p => p.2.ctx != ctx
    queues := (k.queues.map fun p => (p.1, p.2.filter fun e => e.ctx != ctx)).filter fun p => !p.2.isEmpty }

/-- The cluster without the records and the whey-store threads of a context. -/
def Cluster.purge (k : Cluster) (ctx : Nat) : Cluster :=
  { k with queue := k.queue.filter fun r => r.ctx != ctx
           bins := k.bins.filter fun b => b.ctx != ctx
           arrive := k.arrive.filter fun b => b.ctx != ctx }

/-- A host notification (R382). -/
def State.notify (s : State) (endpt ctx status tag tcbva value : Nat) : State :=
  { s with outbox := s.outbox ++
      [{ kind := .notification, dst := endpt, fields := [ctx, s.modid, status, tag, tcbva, value] }] }

/-! ### What a killed context leaves (R383, R422) -/

/-- Every byte of `n` from a local address of the memory on becomes undefined (R7). -/
def State.blur (s : State) (a n : Nat) : State :=
  (List.range n).foldl (fun (s : State) i =>
    let f := s.free 8
    { f.2 with mem := setByte f.2.mem (a + i) (BitVec.ofNat 8 f.1) }) s

/-- The bytes of `n` from a virtual address on become undefined, as far as they are mapped to the HBM of this
module. -/
def State.blurVa (s : State) (ctx va n : Nat) : State :=
  (List.range ((va % 65536 + n + 65535) / 65536)).foldl (fun s i =>
    let lo := max va (va / 65536 * 65536 + 65536 * i)
    let hi := min (va + n) (va / 65536 * 65536 + 65536 * (i + 1))
    match s.walk ctx lo with
    | .leaf e _ =>
      let pa := leafPa e lo
      match if pa / 2 ^ 40 = s.modid then s.locOf (pa % 2 ^ 40) else .none with
      | .hbm b => s.blur b (hi - lo)
      | _ => s
    | _ => s) s

/-- Numbers of a table of a core become free values. -/
def State.blurKeys (s : State) (c : Nat) (put : Core → Nat → Word → Core) (l : List Nat) : State :=
  l.foldl (fun (s : State) i =>
    let f := s.free 32
    f.2.setCore c (put (f.2.core c) i (BitVec.ofNat 32 f.1))) s

/-- What a killed context's task on a core had there becomes undefined (R355, R422): its scratchpad, its dictionary, and
the accumulators that its tiles name with their records. -/
def State.blurPlaced (s : State) (c l : Nat) (p : Placed) : State :=
  let accs := ((s.core c).tiles.filter fun t => Entry.own t.2 && Entry.ctx t.2 == p.ctx && Entry.lc t.2 == l
    && Entry.kind t.2 == kACC).map fun t => Entry.base t.2
  let s := (List.range (p.spt + p.parts * p.spg)).foldl (fun (s : State) i =>
    let f := s.free 8
    let k := f.2.core c
    f.2.setCore c { k with spad := setByte k.spad (p.off + i) (BitVec.ofNat 8 f.1) }) s
  let s := s.blurKeys c (fun k i x => { k with dict := mapSet 0 k.dict i x }) ((List.range p.dictN).map fun i => l * 0x400 + i)
  accs.foldl (fun s a =>
    let s := s.blurKeys c (fun k i x => { k with acc := mapSet 0 k.acc i x }) ((List.range 0x400).map fun i => a * 0x400 + i)
    let f := s.free 116
    f.2.setVar c a (BitVec.ofNat 256 f.1)) s

/-- What a killed context leaves becomes undefined: its frames in use, the outputs of its tasks, which are the ranges
that they may write and the destinations of what its engines and tiles have begun, and what it had on the cores
(R302, R340, R355, R422). -/
def State.blurCtx (s : State) (ctx : Nat) : State :=
  let c := s.ctx ctx
  let frames := c.frames.map fun i => (c.frpool + i * 0x6000, 0x6000)
  let ranges := (s.tasks.filter fun t => t.2.ctx == ctx && t.2.st != .ready).flatMap fun t => match t.2.prep with
    | some p => (p.ranges.filter fun r => r.2.2.testBit 1).map fun r => (r.1, r.2.1)
    | none => []
  let engines := s.cores.flatMap fun k => k.2.queues.flatMap fun q => (q.2.filter fun e => e.ctx == ctx).flatMap QEntry.outputs
  let jobs := s.cores.flatMap fun k => (k.2.jobs.filter fun j => j.ctx == ctx).flatMap fun j => j.spans
  let s := (frames ++ ranges ++ engines ++ jobs).foldl (fun s r => s.blurVa ctx (r.1 % 2 ^ 64) r.2) s
  s.cores.foldl (fun s k => (k.2.placed.filter fun p => p.2.ctx == ctx).foldl (fun s p => s.blurPlaced k.1 p.1 p.2) s) s

/-- The signals that wait for room at a task on a core refused (R298). -/
def State.refuseHeld (s : State) (c l : Nat) : State :=
  match mapFind l (s.core c).placed with
  | none => s
  | some p => p.inbox.foldl (fun s h => s.ackSignal h.sender false) (s.setPlaced c l { p with inbox := [] })

/-- The signals that wait for room at the tasks of a context refused. -/
def State.refuseSignals (s : State) (ctx : Nat) : State :=
  s.cores.foldl (fun s k => (k.2.placed.filter fun p => p.2.ctx == ctx).foldl (fun s p => s.refuseHeld k.1 p.1) s) s

/-- The activation of every queue's oldest entry. -/
def State.queueHeads (s : State) : List Instr :=
  s.cores.flatMap fun c => c.2.queues.map fun q => .queueEntryActivate c.1 q.1

/-- A context becomes KILLED: every piece of its work is discarded, its resources are freed,
and the notification is sent. The event DONE follows. -/
def State.killCtx (s : State) (ctx task : Nat) : State :=
  let c := s.ctx ctx
  if c.st == .killed || c.st == .new || c.st == .freed then s
  else
    let s := if c.nendpt = 0xFFFF then s else s.notify c.nendpt ctx 0x20 0 task 0
    let s := (s.blurCtx ctx).refuseSignals ctx
    let s := (s.cores.flatMap fun k => ((k.2.groups.filter fun g => g.2.ctx == ctx).map fun g => AgentId.mk k.1 g.1) ++
      (k.2.leads.filter fun g => g.2.ctx == ctx).map fun g => AgentId.mk k.1 (64 + g.1)).foldl State.disown s
    { s with
      ctxs := mapPut ctx { c with st := .killed, done := false, frames := [] } s.ctxs
      cores := s.cores.map fun p => (p.1, p.2.purge ctx)
      clusters := s.clusters.map fun p => (p.1, p.2.purge ctx)
      tasks := s.tasks.filter fun p => p.2.ctx != ctx
      faults := s.faults.filter fun f => f.ctx != ctx
      snaps := mapErase ctx s.snaps
      frozen := s.frozen.filter (· != ctx)
      snapEnds := s.snapEnds.filter fun e => e.ctx != ctx
      uo := s.uo.filter fun w => match mapFind w.tcb s.tasks with
        | some t => t.ctx != ctx
        | none => true
      resvs := s.resvs.filter fun v => match s.agent v.id with
        | some a => a.ctx != ctx
        | none => false
      runq := s.runq.filter fun id => match s.agent id with
        | some a => a.ctx != ctx
        | none => false
      agenda := s.agenda ++ ([.done ctx, .drainStart] : List Instr) ++ s.queueHeads }

/-- A context-fatal error: its record, then the kill (R421, R422). -/
def State.ctxFatal (s : State) (ctx : Nat) (e : ErrRec) : State :=
  (s.errRecord ctx { e with level := 3 }).killCtx ctx e.task

/-- A failure of a unit of the module at work for a context (R421): no core, agent or position belongs to it. -/
def State.unitFatal (s : State) (ctx cause pa va task : Nat) : State :=
  s.ctxFatal ctx { level := 3, cause := cause, core := 0x1FF, slot := 0, lead := false, pa := pa, va := va, pc := 0, task := task }

/-- A byte of a TCB written by the dispatcher. The TCB's poison is consumed (R421). -/
def State.putTcb (s : State) (tcb ctx off x : Nat) : State :=
  if s.poisonAt (tcb + off) 1 then s.unitFatal ctx 1 (s.modid * 2 ^ 40 + tcb) (s.vaOf tcb) (s.vaOf tcb)
  else s.hwPut (tcb + off) 1 x

/-- The task's state changed, in the TCB as well (R383). -/
def State.setTask (s : State) (tcb : Nat) (st : TaskState) : State :=
  match mapFind tcb s.tasks with
  | some t => ({ s with tasks := mapPut tcb { t with st := st } s.tasks } : State).putTcb tcb t.ctx 4 st.code
  | none => s

/-- `FCODE` raised to at least `code` (R384). -/
def State.failCode (s : State) (tcb code : Nat) : State :=
  if s.hwGet (tcb + 6) 1 < code then s.putTcb tcb (match mapFind tcb s.tasks with
    | some t => t.ctx
    | none => readN s.mem (tcb + 5) 1 % 16) 6 code
  else s

/-- The error record of an agent. -/
def errOf (s : State) (id : AgentId) (a : Agent) (cause pa va : Nat) : ErrRec :=
  { level := if a.lead then 2 else 1, cause := cause, core := id.core, slot := id.idx % 64, lead := a.lead,
    pa := pa, va := va, pc := a.path.pc.toNat, task := s.vaOf a.tcb }

/-! ## Fault requests (R166, R167) -/

/-- A waiter joined to the fault request of its granule; a first one sends the request to the
home with its reason (R172), and an address without a home, or one whose home no route leads to (R437), is answered
REFUSED (R178). -/
def State.requestFault (s : State) (ctx va kind : Nat) (home : Option Nat) (malformed : Bool)
    (w : List Waiter) : State :=
  let g := va / 2 ^ 16
  match s.faults.find? (fun f => f.ctx == ctx && f.gran == g) with
  | some _ =>
    { s with faults := s.faults.map fun f =>
        if f.ctx == ctx && f.gran == g then { f with waiters := f.waiters ++ w } else f }
  | none =>
    let t := s.ntag
    let f : FaultReq := { tag := t, ctx := ctx, gran := g, home := home.getD s.modid, kind := kind,
                          malformed := malformed, acked := false, waiters := w }
    let s : State := { s with faults := s.faults ++ [f], ntag := t + 1 }
    match home with
    | none => { s with agenda := s.agenda ++ [.faultReplyRefused ctx g] }
    | some h =>
      if h = s.modid then { s with agenda := s.agenda ++ [.faultRequest ctx va kind { mod := h, tag := t, malformed := malformed }] }
      else if !s.routed h then { s with agenda := s.agenda ++ [.faultReplyRefused ctx g] }
      else { s with outbox := s.outbox ++
              [{ kind := .faultRequest, dst := h, fields := [t, ctx, va, kind, s.modid, malformed.toNat] }] }

/-! ## The accesses that hardware makes for an agent -/

/-- What an access of the hardware for a context comes to. -/
inductive Hw (α : Type) where
  | ok (x : α) (s : State)
  /-- It waits: for a channel that is retraining (R457), or for an extent that is translated again (R185). -/
  | wait (s : State)
  /-- It has met poison (R421). -/
  | poison (pa va : Nat)
  /-- It has faulted, is refused, leads to another module or meets a refused walk: the cause of R423. -/
  | bad (cause va : Nat)

/-- One access after another. -/
def Hw.bind (x : Hw α) (f : α → State → Hw β) : Hw β :=
  match x with
  | .ok x s => f x s
  | .wait s => .wait s
  | .poison pa va => .poison pa va
  | .bad c va => .bad c va

/-- What has stopped an access of the hardware. -/
def hwStop (r : Req) (va : Nat) : State × VRes → Hw α
  | (s, .busy) => .wait s
  | (s, .stale) => .wait (s.retranslate r.id r.lctx (va / 65536))
  | (_, .poisoned pa) => .poison pa va
  | (_, .fatal _) => .bad 7 va
  | _ => .bad 5 va

/-- A read, with what the hardware has written and a frozen granule still holds. -/
def State.hwRead (s : State) (r : Req) (va n : Nat) : Hw Nat :=
  match s.perform r 0 (BitVec.ofNat 64 va) n false false .load with
  | (s, .val x _) =>
    .ok (if s.owed.isEmpty then x else match s.paOf r va with
      | some pa => s.owed.foldl (fun v o => overBytes o.1 o.2.1 o.2.2 (pa % 2 ^ 40) n v) x
      | none => x) s
  | p => hwStop r va p

/-- A write. Where a frozen granule would hold it, the hardware's write waits there (R429), and what the write is
for goes on. -/
def State.hwWrite (s : State) (r : Req) (va n x : Nat) : Hw Unit :=
  match s.perform r 0 (BitVec.ofNat 64 va) n false false (.store x) with
  | (s, .val _ _) => .ok () s
  | (s, .busy) => match s.paOf r va with
    | some pa => if (s.frozenAt (pa % 2 ^ 40)).isSome then .ok () (s.hwPut (pa % 2 ^ 40) n x) else .wait s
    | none => .wait s
  | p => hwStop r va p

/-- Parts of a structure, by offset, width in bytes and value, joined into whole ECC words of 32 bytes where they follow
on each other. -/
def joinParts (l : List (Nat × Nat × Nat)) : List (Nat × Nat × Nat) :=
  l.foldr (fun p acc => match acc with
    | q :: t => if p.1 + p.2.1 = q.1 ∧ p.1 / 32 = q.1 / 32 then (p.1, p.2.1 + q.2.1, p.2.2 % 2 ^ (8 * p.2.1) + q.2.2 * 2 ^ (8 * p.2.1)) :: t
      else p :: acc
    | [] => [p]) []

/-- Parts written to a structure at `base`, one after another. -/
def State.hwWriteAll (s : State) (r : Req) (base : Nat) : List (Nat × Nat × Nat) → Hw Unit
  | [] => .ok () s
  | (o, n, x) :: t => (s.hwWrite r (base + o) n x).bind fun _ s => s.hwWriteAll r base t

def State.hwWrites (s : State) (r : Req) (base : Nat) (l : List (Nat × Nat × Nat)) : Hw Unit :=
  s.hwWriteAll r base (joinParts l)

/-- The values at the offsets given, with their widths. -/
def State.hwReads (s : State) (r : Req) (base : Nat) : List (Nat × Nat) → Hw (List Nat)
  | [] => .ok [] s
  | (o, n) :: t => (s.hwRead r (base + o) n).bind fun x s => (s.hwReads r base t).bind fun xs s => .ok (x :: xs) s

/-! ## Frames (R417) -/

/-- `H` and `WIX` of a path (R34). -/
def Path.tcl (p : Path) : Nat := p.h.toNat * 16 + p.wix % 16

/-- The frame header of an agent: `kind` 1 PARK or 2 PREEMPT, the faulting address, and the
performed threads. -/
def frameHeader (s : State) (id : AgentId) (a : Agent) (kind fva perf : Nat) (pin : Bool) : Nat :=
  let p := a.path
  let spriv := if kind = 1 then a.priv else a.ppriv
  p.pc.toNat + p.tcl * 2 ^ 64 + a.bwait.isSome.toNat * 2 ^ 69 + spriv.toNat * 2 ^ 70
    + a.cur % 4 * 2 ^ 80 + a.paths.length % 8 * 2 ^ 84 + kind * 2 ^ 88
    + (if a.lead then 1 else a.present.toNat) * 2 ^ 96 + a.otag.toNat * 2 ^ 128
    + (a.bwait.getD 0).toNat * 2 ^ 160 + s.vaOf a.tcb * 2 ^ 192 + fva * 2 ^ 256 + perf * 2 ^ 320
    + id.core * 2 ^ 352 + pin.toNat * 2 ^ 368

/-- The header, path table and lane map (R416, R417). -/
def frameHead (s : State) (id : AgentId) (a : Agent) (kind fva perf : Nat) (pin : Bool) : List (Nat × Nat × Nat) :=
  let h := frameHeader s id a kind fva perf pin
  ((List.range 8).map fun i => (8 * i, 8, h / 2 ^ (64 * i) % 2 ^ 64))
    ++ ((List.range 4).map fun i =>
        let p := a.paths.getD i noPath
        [(0x180 + 32 * i, 8, p.pc.toNat), (0x188 + 32 * i, 4, p.tcl + p.waiting.toNat * 32),
         (0x18C + 32 * i, 4, p.mask.toNat), (0x190 + 32 * i, 8, p.joinp.toNat), (0x198 + 32 * i, 8, 0)]).flatten
    ++ (List.range 32).map fun i => (0x200 + 4 * i, 4, (mapGet 0 a.tids i).toNat)

def frameUniform (a : Agent) : List (Nat × Nat × Nat) :=
  (List.range 32).map fun n => (0x40 + 8 * n, 8, (a.getX n).toNat)
def frameAlpha (a : Agent) : List (Nat × Nat × Nat) :=
  (List.range 4).map fun n => (0x140 + 8 * n, 8, (a.getAl n).toNat)
def frameMasks (a : Agent) : List (Nat × Nat × Nat) :=
  (List.range 8).map fun n => (0x160 + 4 * n, 4, (a.getM n).toNat)
def frameVectors (a : Agent) : List (Nat × Nat × Nat) :=
  (List.range 1024).map fun i => (0x400 + 4 * i, 4, (laneOf (a.getV (i / 32)) (i % 32)).toNat)

/-- The channels of a group, with count, depth and elements. -/
def frameChans (a : Agent) : List (Nat × Nat × Nat) :=
  ((List.range 8).map fun c =>
    let o := 0x1400 + 0x840 * c
    match mapFind c a.chans with
    | none => [(o, 4, 0), (o + 4, 4, 0)]
    | some ch => [(o, 4, ch.elems.length), (o + 4, 4, ch.depth)] ++
        (ch.elems.zipIdx.map fun e => (List.range 32).map fun t =>
          (o + 0x40 + 128 * e.2 + 4 * t, 4, (laneOf e.1 t).toNat)).flatten).flatten

/-- The join list and the links, and the zeros after them. -/
def frameLinks (a : Agent) : List (Nat × Nat × Nat) :=
  ((List.range 8).map fun i => (0x280 + 8 * i, 8, (a.joins.getD i 0).toNat))
    ++ ((List.range 4).map fun i => (0x2C0 + i, 1, mapGet 0xFF a.its i))
    ++ [(0x2C4, 4, 0), (0x2C8, 8, a.cursor.getD 0)] ++ (List.range 38).map fun i => (0x2D0 + 8 * i, 8, 0)

/-- Whether an address is that of a frame of the pool (R409). -/
def CtxSlot.frameOk (c : CtxSlot) (frame : Word64) : Bool :=
  let x := frame.toNat
  decide (c.frpool ≤ x) && (x - c.frpool) % 0x6000 == 0 && decide ((x - c.frpool) / 0x6000 < c.nfr)

/-- Parts written to the frame of an agent by the hardware. A value of `cr.frame` outside the pool is an error
(R409, R412). -/
def State.saveParts (s : State) (id : AgentId) (a : Agent) (parts : List (Nat × Nat × Nat)) : Hw Unit :=
  if (s.ctx a.ctx).frameOk a.frame then s.hwWrites { reqOf id a with priv := true } a.frame.toNat parts
  else .bad 5 a.frame.toNat

/-- The pin of a saved group: it holds iterator slots, or its task is static (R416). -/
def State.pins (s : State) (a : Agent) : Bool :=
  a.lead || !a.its.isEmpty || match mapFind a.tcb s.tasks with
    | some t => t.image.getLsbD 825
    | none => false

/-! ## Regions (R396, R397, R400) -/

/-- A field of an RCB in memory. -/
def State.rcbF (s : State) (pa lo n : Nat) : Nat := s.hwGet pa 128 / 2 ^ lo % 2 ^ n

/-- The RCB whose field is in force: the nearest with its override flag set, or the root
(R397). -/
def State.rcbEff (s : State) (ovr : Nat) : List (Nat × Nat) → Nat × Nat
  | [] => (0, 0)
  | [r] => r
  | r :: t => if s.rcbF r.2 (88 + ovr) 1 = 1 then r else s.rcbEff ovr t

/-! ## What the dispatcher looks at again -/

/-- Whether a context that is QUIESCING has nothing left to save (R411). -/
def State.quiesced (s : State) (ctx : Nat) : Bool :=
  (s.ctx ctx).st == .quiescing && !(s.tasks.any fun t => t.2.ctx == ctx && t.2.st == .dispatching)
    && !(s.clusters.any fun k => k.2.arrive.any fun b => b.ctx == ctx)
    && !s.cores.any fun c => c.2.groups.any (fun g => g.2.ctx == ctx) || c.2.leads.any (fun g => g.2.ctx == ctx)
        || c.2.queues.any fun q => q.2.any fun e => e.ctx == ctx

/-- The leads of QUIESCING contexts whose groups have all been saved asked to leave (R411, R416). -/
def State.askLeads (s : State) : State :=
  let ask := fun (k : Core) (a : Agent) =>
    if (s.ctx a.ctx).st = .quiescing ∧ ¬ (k.groups.any fun g => g.2.tcb == a.tcb) then { a with preq := true } else a
  { s with cores := s.cores.map fun c => (c.1, { c.2 with leads := c.2.leads.map fun g => (g.1, ask c.2 g.2) }) }

/-- The events that follow when something that work waits for may have become free: records to pop
(R210), tasks to dispatch or to place (R388), launch records to queue (R383), and the end of a
QUIESCE (R411). -/
def State.wake (s : State) : State :=
  let s : State := if s.ctxs.any fun c => c.2.st == .quiescing then s.askLeads else s
  let quiet := (s.ctxs.filter fun c => s.quiesced c.1).map fun c => Instr.quiesceComplete c.1
  let pops := (s.clusters.filter fun p => !p.2.queue.isEmpty).map fun p => Instr.recordPop p.1
  let placing := fun (t : Task) => (t.st == .ready || (t.st == .dispatching && !t.ending)) && (s.ctx t.ctx).st == .active
  let disp := (s.tasks.filter fun t => placing t.2).map fun t =>
    if t.2.cores.isEmpty then Instr.dispatching t.1 else .dispatchComplete t.1
  let late := (s.tasks.filter fun t => t.2.st == .running && !t.2.starts.isEmpty).map fun t => Instr.dispatchComplete t.1
  let more := (s.tasks.filter fun t => t.2.st == .running && decide (t.2.nextGroup < t.2.image.toNat / 2 ^ 768 % 2 ^ 32)).map
    fun t => Instr.launchRecordQueue t.1
  { s with agenda := s.agenda ++ (quiet ++ pops ++ disp ++ late ++ more).filter fun e => !s.agenda.contains e }

/-! ## Leaving a core -/

/-- A frame of the pool is free again (R409). -/
def State.freeFrame (s : State) (ctx : Nat) (frame : Word64) : State :=
  let c := s.ctx ctx
  let i := (frame.toNat - c.frpool) / 0x6000
  { s with ctxs := mapPut ctx { c with frames := c.frames.filter (· != i) } s.ctxs }

/-- A group part is free again (R473). -/
def State.freePart (s : State) (core lctx : Nat) (part : Option Nat) : State :=
  match part, mapFind lctx (s.core core).placed with
  | some p, some k => s.setPlaced core lctx { k with partUse := k.partUse.filter (· != p) }
  | _, _ => s

/-- The flags that an agent's words from a tag on have left for an earlier word to settle dropped (R34). -/
def State.dropFlags (s : State) (id : AgentId) (a : Agent) (tag : Nat) : State :=
  match s.placedOf id a with
  | some p => s.setPlaced id.core a.lctx { p with defer := p.defer.filter fun d => !(d.1 == id.idx && decide (tag ≤ d.2.1)) }
  | none => s

/-- A launch group that leaves for good counts as having read every later element (R394). -/
def Placed.leave (p : Placed) (cursor : Nat) : Placed :=
  let reads := p.decReads.zipIdx.map fun r => if cursor ≤ p.decBase + r.2 then r.1 + 1 else r.1
  trimDecision (getF p.ngrp 0 32) reads.length { p with decReads := reads, decGone := p.decGone + 1 }

/-- A bin turned into a record of kind FORMED, with the address of its task's frame (R228, R229). -/
def binRecord (home : Nat) (frame : Word64) (b : Bin) : Record :=
  { kind := .formed b.threads, ctx := b.ctx, tcb := b.tcb, frame := frame, code := b.land, pin := false,
    home := home, part := none }

/-- The bins of a cluster that meet a condition flushed into records (R228). -/
def State.flushBins (s : State) (c : Nat) (f : Bin → Bool) : State :=
  let k := s.cluster c
  let out := k.bins.filter f
  let s := s.setCluster c { k with bins := k.bins.filter fun b => !f b }
  out.foldl (fun s b =>
    match mapFind b.tcb s.tasks with
    | some t =>
      ({ s with tasks := mapPut b.tcb { t with live := t.live + 1 } s.tasks } : State).enqueue c
        (binRecord (32 * c) (t.image.extractLsb' 704 64) b)
    | none => s) s

/-- Whether a record is that of a lead thread. -/
def Record.ofLead (r : Record) : Bool := match r.kind with
  | .resume lead _ => lead
  | _ => false

/-- Whether a cluster holds a resident, queued or parked group of a task (R228). -/
def State.hasGroups (s : State) (c tcb : Nat) : Bool :=
  (s.cores.any fun p => p.1 / 32 == c && p.2.groups.any fun g => g.2.tcb == tcb)
    || ((s.cluster c).queue.any fun r => r.tcb == tcb && !r.ofLead)
    || s.faults.any fun f => f.waiters.any fun w => match w with
        | .group r => r.tcb == tcb && r.home / 32 == c
        | _ => false

/-- The outstanding counts of a task on all of its cores (R311). -/
def State.outstOf (s : State) (t : Task) : Nat :=
  (t.cores.map fun c => match mapFind c.2 (s.core c.1).placed with
    | some p => p.outst
    | none => 0).foldl (· + ·) 0

/-- What follows when a task's groups, leads or outstanding work have changed: lone bins flush
(R228), a task that has run out of work drains, and a drained task retires (R383). -/
def State.settleTask (s : State) (tcb : Nat) : State :=
  match mapFind tcb s.tasks with
  | none => s
  | some _ =>
    let s := s.clusters.foldl (fun s p =>
      if s.hasGroups p.1 tcb then s else s.flushBins p.1 fun b => b.tcb == tcb) s
    match mapFind tcb s.tasks with
    | none => s
    | some t =>
      let st := (s.ctx t.ctx).st
      if st ≠ .active ∧ st ≠ .quiescing then s else
      let threads := s.clusters.any fun p => (p.2.bins ++ p.2.arrive).any fun b => b.tcb == tcb
      let s := if t.st == .running && t.live == 0 && t.armed == 0 && t.leads == 0 && !threads &&
          decide (t.image.toNat / 2 ^ 768 % 2 ^ 32 ≤ t.nextGroup)
        then s.setTask tcb .draining else s
      match mapFind tcb s.tasks with
      | some t =>
        if t.st == .draining && s.outstOf t == 0 then { s with agenda := s.agenda ++ [.taskRetirement tcb] }
        else s
      | none => s

/-- An agent that is gone for good: its slot, frame and part are free and its task has one
group or lead less. -/
def State.removeAgent (s : State) (id : AgentId) (a : Agent) : State :=
  let s : State := (s.joinFlags id a ((a.outst.map Outst.flags).foldl (· ||| ·) 0)).dropFlags id a 0
  let s : State := s.abandonTurns id.core a.key
  let k := s.core id.core
  let s : State := s.setCore id.core { k with slots := k.slots.filter fun p => p.2.frame != a.key }
  let s : State := (s.dropAgent id).disown id
  let s : State := s.freeFrame a.ctx a.own
  let here := fun (w : Waiter) => match w with
    | .lead x _ => x == id
    | _ => false
  let s : State := { s with resvs := s.resvs.filter (fun v => v.id != id),
                            faults := s.faults.map fun f => { f with waiters := f.waiters.filter fun w => !here w } }
  let s : State := s.freePart id.core a.lctx a.part
  let s : State := match a.cursor, mapFind a.lctx (s.core id.core).placed with
    | some c, some p => s.setPlaced id.core a.lctx (p.leave c)
    | _, _ => s
  let s : State := match mapFind a.tcb s.tasks with
    | some t =>
      let t := if a.lead then { t with leads := t.leads - 1 } else { t with live := t.live - 1 }
      { s with tasks := mapPut a.tcb t s.tasks }
    | none => s
  s.wake

/-- An agent that retires or exits (R210, R226). -/
def State.retire (s : State) (id : AgentId) (a : Agent) : State :=
  (s.removeAgent id a).settleTask a.tcb

/-! ## Halts (R210, R296, R400) -/

/-- How the marking of barriers ended. -/
inductive Marked where
  | all
  | waits
  | fault (va : Nat) (home : Option Nat) (malformed : Bool)
  /-- An access has failed, has met poison or a refused walk: the cause of R423. -/
  | failed (cause pa va : Nat)

/-- The barriers of a halting agent's join list marked abandoned, one after another, through one indivisible
access each (R296). A marked barrier leaves the list. -/
def markBarriers (id : AgentId) : List Word64 → State → State × Marked
  | [], s => (s, .all)
  | b :: t, s =>
    match s.agent id with
    | none => (s, .all)
    | some a =>
      let w := id.idx % 64 + a.lead.toNat * 2 ^ 8 + id.core * 2 ^ 16 + s.modid * 2 ^ 40
      match s.access id a 0 b 32 { plain := false } (.obj (.mark w)) with
      | (s, .val _ _) =>
        markBarriers id t (match s.agent id with
          | some a => s.setAgent id { a with joins := a.joins.filter (· != b) }
          | none => s)
      | (s, .wait) => (s, .waits)
      | (s, .fault _ h m) => (s, .fault b.toNat h m)
      | (s, .poison pa va) => (s, .failed 1 pa va)
      | (s, .fatal va) => (s, .failed 7 0 va.toNat)
      | (s, _) => (s, .failed 8 0 b.toNat)

/-- A halt without the policy: barriers abandoned, the error record written, the agent gone. It answers
false while it waits for a barrier: for the answer of another module, for its turn at the memory, or for a
page. What the agent has issued and not finished is given up, and counts as outstanding no longer. -/
def State.haltOne (s : State) (id : AgentId) (a : Agent) (cause pa va : Nat) : State × Bool :=
  let b : Agent := match a.pend with
    | .halt _ _ _ => a
    | _ => { a with pend := .halt cause pa va, rem := none, late := [], now := none, told := none }
  let gone : List Rem := match a.pend with
    | .halt _ _ _ => []
    | _ => a.rem.toList ++ a.late.filterMap fun l => l.rem
  let s : State := s.lowerOutst id.core a.lctx a.tcb (gone.filter fun r => r.cnt).length
  match markBarriers id b.joins (s.setAgent id b) with
  | (s, .all) => ((s.errRecord a.ctx (errOf s id a cause pa va)).removeAgent id ((s.agent id).getD b), true)
  | (s, .waits) => (s.rotate, false)
  | (s, .fault va h m) =>
    ({ s.requestFault a.ctx va 2 h m [.lead id (BitVec.ofNat 64 va)] with runq := s.runq.filter (· != id) }, false)
  | (s, .failed c p v) => (s.ctxFatal a.ctx (errOf s id a c p v), true)

/-- Every agent of the tasks that meet a condition halted, for a region's policy (R400). -/
def State.haltAll (s : State) (f : Nat → Bool) : State :=
  let ids := (s.cores.map fun p =>
    (p.2.groups.map fun g => (AgentId.mk p.1 g.1, g.2.tcb)) ++
    (p.2.leads.map fun g => (AgentId.mk p.1 (64 + g.1), g.2.tcb))).flatten
  (ids.filter fun x => f x.2).foldl (fun s x => match s.agent x.1 with
    | some a => (s.haltOne x.1 a 10 0 0).1
    | none => s) s

/-- A record discarded: its agent's frame, group part, iterator slots and places at tiles are free, and its task has
one group or lead less. -/
def State.dropRecord (s : State) (r : Record) : State :=
  let s : State := match r.kind with
    | .resume _ _ =>
      let key := r.own + BitVec.ofNat 64 (r.ctx * 2 ^ 60)
      let s : State := s.abandonTurns r.home key
      let k := s.core r.home
      let s : State := s.setCore r.home { k with slots := k.slots.filter fun p => p.2.frame != key }
      let s : State := s.freeFrame r.ctx r.own
      match (s.core r.home).placed.find? fun p => p.2.tcb == r.tcb with
      | some p => s.freePart r.home p.1 r.part
      | none => s
    | _ => s
  match mapFind r.tcb s.tasks with
  | some t =>
    let t := if r.ofLead then { t with leads := t.leads - 1 } else { t with live := t.live - 1 }
    { s with tasks := mapPut r.tcb t s.tasks }
  | none => s

/-- The policy of a task acts (R400), with HALTED or POSTFAIL as the code. -/
def State.policy (s : State) (tcb code : Nat) : State :=
  match mapFind tcb s.tasks with
  | none => s
  | some t =>
    let r := s.rcbEff 5 t.chain
    let pol := s.rcbF r.2 80 2
    let note := fun (s : State) (c : Nat) =>
      if s.rcbF r.2 82 1 = 1 then
        s.notify (s.rcbF r.2 400 16) t.ctx c (s.rcbF r.2 416 32) (s.vaOf tcb) 0
      else s
    match t.chain.find? fun c => s.poisonAt c.2 128 with
    | some c => s.unitFatal t.ctx 1 (s.modid * 2 ^ 40 + c.2) c.1 (s.vaOf tcb)
    | none =>
    if t.chain.isEmpty || pol = 0 then
      let s := s.failCode tcb code
      note (s.settleTask tcb) (s.hwGet (tcb + 6) 1)
    else if pol = 1 then
      let below := fun (x : Nat) => match mapFind x s.tasks with
        | some k => k.chain.any fun c => c.2 == r.2
        | none => false
      let s : State := s.hwPut (r.2 + 48) 1 (s.hwGet (r.2 + 48) 1 ||| 1)
      let s : State := s.haltAll below
      let parked := s.faults.flatMap fun f => f.waiters.filterMap fun w => match w with
        | .group q => if below q.tcb then some q else none
        | _ => none
      let keep := fun (w : Waiter) => match w with
        | .group q => !below q.tcb
        | _ => true
      let s : State := { s with faults := s.faults.map fun f => { f with waiters := f.waiters.filter keep } }
      let gone := parked ++ s.clusters.flatMap fun p => p.2.queue.filter fun q => below q.tcb
      let cut := fun (k : Cluster) =>
        { k with queue := k.queue.filter (fun q => !below q.tcb),
                 bins := k.bins.filter (fun b => !below b.tcb),
                 arrive := k.arrive.filter (fun b => !below b.tcb) }
      let s : State := { s with clusters := s.clusters.map fun p => (p.1, cut p.2) }
      let s : State := gone.foldl (fun s q => s.dropRecord q) s
      let s : State := s.tasks.foldl (fun s k =>
        if below k.1 && (k.2.st == .running || k.2.st == .draining) then
          let t := mapGet k.2 s.tasks k.1
          let s : State := { s with tasks := mapPut k.1 { t with armed := 0, nextGroup := 2 ^ 32, leads := t.leads - t.starts.length, starts := [] } s.tasks }
          (s.failCode k.1 0x14).settleTask k.1
        else if below k.1 && k.2.st == .dispatching && !k.2.ending then
          let t := mapGet k.2 s.tasks k.1
          let s : State := s.failCode k.1 0x14
          { s with tasks := mapPut k.1 { t with ending := true, prog := 0, want := none, got := [] } s.tasks
                   agenda := s.agenda ++ [.taskRetirement k.1] }
        else s) s
      note s 0x14
    else s.unitFatal t.ctx 10 0 0 (s.vaOf tcb)

/-- A group or lead halts, and its task's policy acts (R210, R400). -/
def State.halt (s : State) (id : AgentId) (a : Agent) (cause pa va : Nat) : State :=
  let p := s.haltOne id a cause pa va
  if p.2 then p.1.policy a.tcb 0x13 else p.1

/-! ## Traps (R413, R414) -/

/-- Whether nothing that the agent has issued is unfinished (R38). -/
def Agent.settled (a : Agent) : Bool := a.clear 0xF && a.outst.isEmpty && a.late.isEmpty

/-- The virtual address that a trap concerns (R414, R423). -/
def trapVa (code : Nat) (info : Word64) : Nat := if code = trAccess ∨ code = trRemoteTimeout then info.toNat else 0

/-- The trap registers set from the current position, and the fetch sent to a vector (R413). -/
def Agent.enter (a : Agent) (code : Nat) (info vec : Word64) : Agent :=
  let p := a.path
  { a.setPath { p with pc := vec, wix := 0, h := false } with
    tcause := BitVec.ofNat 64 code, tpc := p.pc, tclause := BitVec.ofNat 64 p.tcl
    tmask := (if a.lead then 1 else p.mask).setWidth 64, tinfo := info
    ppriv := a.priv, priv := true, inHandler := true
    clause := none, fetchChk := .vector, pfx := none, pairw := none, gate := 0, pend := .none, perf := 0, got := [], gotFl := 0, rem := none, far := none
    told := none, bwait := none }

/-- The vector of an agent's traps (R413). -/
def State.vector (s : State) (a : Agent) : Word64 :=
  BitVec.ofNat 64 (if a.lead then (s.ctx a.ctx).lvec else (s.ctx a.ctx).tvec)

/-- TAKING A TRAP (R413, R415): at once when every outstanding result is written, and else as
soon as it is. A trap inside a handler halts the agent with cause DOUBLE. -/
def State.trap (s : State) (id : AgentId) (a : Agent) (code : Nat) (info : Word64) : State :=
  let s : State := s.leaveTurns id.core a.key
  if a.inHandler then s.halt id a 3 0 (trapVa code info)
  else if a.settled then (s.setAgent id (a.enter code info (s.vector a))).rotate
  else (s.setAgent id { a with pend := .trap code info, pfx := a.pfx }).rotate

/-! ## Parking (R181) -/

/-- A group saved whole to its frame with KIND PARK, its slot freed, and the fault request
sent; the record that resumes it waits for the reply. What threads have performed of the word is kept (R181); any
other word issues afresh. -/
def State.park (s : State) (id : AgentId) (a : Agent) (va : Word64) (kind : Nat) (perf : Word)
    (home : Option Nat) (malformed : Bool) : State :=
  let pin := s.pins a
  let parts := frameHead s id a 1 va.toNat perf.toNat pin ++ frameUniform a ++ frameAlpha a ++ frameMasks a
    ++ frameLinks a ++ frameVectors a ++ frameChans a
  let s : State := (s.fenceUo id 3).flushUo id
  match s.saveParts id a parts with
  | .bad c v => s.ctxFatal a.ctx (errOf s id a c 0 v)
  | .poison p v => s.ctxFatal a.ctx (errOf s id a 1 p v)
  | .wait s => (s.setAgent id { a with pend := .park va kind perf home malformed }).rotate
  | .ok _ s =>
    let r : Record := { kind := .resume false none, ctx := a.ctx, tcb := a.tcb, frame := a.frame, own := a.own
                        code := a.path.pc, pin := pin, home := id.core, part := a.part, got := if perf = 0 then [] else a.got
                        gotFl := if perf = 0 then 0 else a.gotFl }
    let s : State := { s.dropAgent id with resvs := s.resvs.filter fun v => v.id != id }
    s.wake.requestFault a.ctx va.toNat kind home malformed [.group r]

/-- A fault of an agent's access (R181, R389): a group parks as soon as its outstanding results and its writes
from tiles are performed (R269), a lead waits in its place for the reply, and a fault in a handler halts the
agent (R415). A page whose fault has been refused or timed out is not asked for again (R166, R182). -/
def State.pageFault (s : State) (id : AgentId) (a : Agent) (va : Word64) (kind : Nat) (perf : Word)
    (home : Option Nat) (malformed : Bool) : State :=
  let s : State := s.leaveTurns id.core a.key
  let told := match a.told with
    | some (v, x) => if v.toNat / 65536 = va.toNat / 65536 then some x else none
    | none => none
  let later := (s.setAgent id { a with pend := .park va kind perf home malformed }).rotate
  if a.inHandler then s.halt id a 3 0 va.toNat
  else if told = some .refused then s.trap id a trAccess va
  else if told = some .timeout then s.trap id a trRemoteTimeout va
  else if a.lead then
    if !a.late.isEmpty then later
    else
      let s := s.setAgent id { a with clause := none, pairw := none, pfx := none, perf := perf
                                      got := if perf = 0 then [] else a.got, gotFl := if perf = 0 then 0 else a.gotFl }
      { s.requestFault a.ctx va.toNat kind home malformed [.lead id va] with
        runq := s.runq.filter (· != id) }
  else if a.settled && !s.drains a && a.sigs.isEmpty then s.park id a va kind perf home malformed
  else later

/-! ## Positions (R34, R217, R218) -/

/-- The current path moved past the word just issued: past a prefix and its word together, to
the high code of a pair word, or to the next clause (R28, R34, R47). -/
def Agent.advance (a : Agent) : Agent :=
  let p := a.path
  let n := match a.clause with
    | some c => c.hdr.n.toNat
    | none => 15
  let q : Path :=
    if a.pairw.isSome && !p.h then { p with h := true }
    else
      let w := p.wix + (if a.pfx.isSome then 2 else 1)
      if n ≤ w then { p with pc := p.pc + BitVec.ofNat 64 (4 * (n + 1)), wix := 0, h := false }
      else { p with wix := w, h := false }
  { a.setPath q with
    clause := if n ≤ q.wix ∨ q.pc ≠ p.pc then none else a.clause
    pfx := none, pairw := none, perf := 0, got := [], gotFl := 0, rem := none, far := none, told := none }

/-- The next path in table order that is not waiting: of the `k` after which the table comes round to `cur` (R218). -/
def nextPath (ps : List Path) (cur : Nat) : Nat → Option Nat
  | 0 => none
  | k + 1 =>
    let j := (cur + ps.length - (k + 1)) % ps.length
    match ps[j]? with
    | some p => if p.waiting then nextPath ps cur k else some j
    | none => none

/-- The threads of all paths. -/
def pathMask (ps : List Path) : Word := ps.foldl (fun m p => m ||| p.mask) 0

/-- A switch point (R218): the next path that is not waiting becomes current. A handler runs
on its path alone (R413). -/
def Agent.switch (a : Agent) : Agent :=
  if a.inHandler then a
  else match nextPath a.paths a.cur (a.paths.length - 1) with
    | some j => { a with cur := j, clause := none }
    | none => a

/-! ## Issue -/

/-- What a word comes to when it issues. -/
inductive Res where
  /-- It has its effect, and the position moves past it. -/
  | done (s : State)
  /-- It has its effect, the position moves past it, and it is a switch point (R218). -/
  | switched (s : State)
  /-- It has its effect, and has set the position itself. -/
  | moved (s : State)
  /-- It has its effect, and the agent is gone from its slot. -/
  | left (s : State)
  /-- It holds the issue, without any effect. -/
  | wait
  /-- It holds the issue, with part of its effect performed. -/
  | hold (s : State)
  | trap (s : State) (code : Nat) (info : Word64)
  | fault (s : State) (va : Word64) (kind : Nat) (perf : Word) (home : Option Nat) (malformed : Bool)
  | poison (s : State) (pa va : Nat)
  | fatal (s : State) (cause pa : Nat) (va : Word64)

/-- The forms of the opcode map (R62). -/
inductive Form where
  | any | v | vu | u | ug | l
  deriving DecidableEq, Repr

/-- The features that gate an instruction, as bits of the feature word (R63, R72, R469). -/
def featNeed : Instr → Nat
  | .ald _ _ _ => 1
  | .rget _ _ _ _ _ => 1
  | .rset _ _ _ _ _ => 1
  | .runpk _ _ _ _ _ => 1
  | .rpack _ _ _ _ _ => 1
  | .rdot _ _ _ _ _ _ _ => 1
  | .rsum _ _ _ _ _ => 1
  | .rchk _ _ _ _ => 1
  | .rmap _ _ _ _ _ => 1
  | .rcnt _ _ _ _ _ => 1
  | .symld _ _ _ _ _ _ _ => 1
  | .symst _ _ _ _ _ _ _ => 1
  | .mmq _ _ f _ _ _ => if f = 4 ∨ f = 5 then 1 else 0
  | .mms _ _ _ => 4
  | .mnorm _ _ _ => 4
  | .aliasTab _ _ _ => 4
  | .varr _ _ _ => 4
  | .itnew _ f _ _ => if f = 4 then 6 else 2
  | .itadd _ _ _ _ _ => 2
  | .next _ _ _ _ _ => 2
  | .enough _ _ => 2
  | .itsave _ _ _ _ => 2
  | .itload _ _ _ => 2
  | .itq _ _ _ => 2
  | .snapFreeze _ _ _ _ => 8
  | .snapQuery _ _ => 8
  | .snapRelease _ _ => 8
  | _ => 0

/-- What the issue stage checks of a word before it has any effect: its form and `U` bit, its counter
class (R71), the prefix fields that it accepts (R49), its source and destination operands (R42), and whether its own fields are legal.
`regs` says that it acts on nothing but the registers, channels and position of its agent; `traps` that its
sources may make it trap; `late` that it has issued while it waits for a channel element, for its place or for
an answer (R35, R71); `fixed` that it acts on more than its agent, which an earlier word could not undo (R34); `sw` that it is a switch point once it has issued (R218); and `first` is the trap that the agent's own state gives it before it
reads its sources (R58). -/
structure Rules where
  form : Form
  u : Bool
  cls : Option CtrClass := none
  okM : Bool := false
  rnd : Nat := 0
  okC : Bool := false
  okX : Bool := false
  src : List Opd := []
  dst : Option Opd := none
  legal : Bool := true
  regs : Bool := false
  traps : Bool := false
  late : Bool := false
  fixed : Bool := false
  sw : Bool := false
  first : Agent → Option (Nat × Word64) := fun _ => none

/-- Whether the form allows the word in this code (R40, R62). -/
def Form.allows (f : Form) (u lead : Bool) : Bool :=
  match f with
  | .any => true
  | .v => !u && !lead
  | .vu => u || !lead
  | .u => u
  | .ug => u && !lead
  | .l => u && lead

/-- Whether a source operand may be named (R42, R393, R394). -/
def srcOk (s : State) (a : Agent) (u : Bool) : Opd → Bool
  | .reg _ => true
  | .chan _ c =>
    if !u then decide (c.toNat < 8)
    else decide (8 ≤ c.toNat) && (c != 15 || (!a.lead && (a.cursor.isSome ||
      match mapFind a.tcb s.tasks with
      | some t => !t.image.getLsbD 825
      | none => true)))

/-- Whether a destination operand may be named (R42, R393). -/
def dstOk (a : Agent) (u : Bool) : Opd → Bool
  | .reg _ => true
  | .chan p c =>
    !p && (if !u then decide (c.toNat < 8) else decide (8 ≤ c.toNat) && c != 14 && (c != 15 || a.lead))

/-- Whether a prefix holds only fields that the word accepts (R49, R52). -/
def pfxOk (r : Rules) (p : Pfx) : Bool :=
  (p.m == 0 || (r.okM && !r.u)) && (!p.z || (r.okM && !r.u)) && decide (p.rnd.toNat ≤ r.rnd)
    && (p.c == .reg 0 || r.okC) && (p.x == 0 || r.okX)

/-- The prefix in front of the word, all fields 0 when there is none. -/
def Agent.prefixOf (a : Agent) : Pfx := a.pfx.getD { m := 0, z := false, rnd := 0, c := .reg 0, x := 0 }

/-- Whether the issue stage accepts the word (R40, R42, R49, R61, R72). -/
def accepts (s : State) (a : Agent) (i : Instr) (r : Rules) : Bool :=
  i.wf && r.legal && r.form.allows r.u a.lead && (a.feat.toNat &&& featNeed i == featNeed i)
    && pfxOk r a.prefixOf && r.src.all (srcOk s a r.u)
    && (!r.okC || srcOk s a r.u a.prefixOf.c)
    && (match r.dst with
      | some d => dstOk a r.u d
      | none => true)

/-- The state after a word's result: position, switch marker (R37), and the next turn. -/
def finish (s0 : State) (id : AgentId) (a0 : Agent) (sbit : Bool) : Res → State
  | .done s =>
    match s.agent id with
    | some a => (s.setAgent id { a.advance with gate := if sbit then 0xF else 0 }).rotate
    | none => s.rotate
  | .switched s =>
    match s.agent id with
    | some a => (s.setAgent id { a.advance.switch with gate := if sbit then 0xF else 0 }).rotate
    | none => s.rotate
  | .moved s =>
    match s.agent id with
    | some a => (s.setAgent id { a with gate := if sbit then 0xF else 0, pfx := none, pairw := none,
                                        perf := 0, got := [], gotFl := 0, rem := none, far := none, clause := none }).rotate
    | none => s.rotate
  | .left s => s
  | .wait => s0.rotate
  | .hold s => s.rotate
  | .trap s code info => match s.agent id with
    | some a => s.trap id { a with pfx := a0.pfx, pairw := a0.pairw } code info
    | none => s
  | .fault s va kind perf home m => match s.agent id with
    | some a => s.pageFault id a va kind perf home m
    | none => s
  | .poison s pa va => match s.agent id with
    | some a => s.halt id a 1 pa va
    | none => s
  | .fatal s cause pa va => match s.agent id with
    | some a => s.ctxFatal a.ctx (errOf s id a cause pa va.toNat)
    | none => s

/-- The switch marker of the word: its own `S`, or with a pair code the `S` of code and entry
(R37). -/
def Agent.marker (a : Agent) (sbit : Bool) : Bool :=
  sbit || match a.pairw with
    | some p => p.s
    | none => false

/-- Whether a word with this result has issued. -/
def Res.issues : Res → Bool
  | .wait => false
  | .hold _ => false
  | _ => true

/-- Whether the agent is gone from its slot. -/
def Res.leaves : Res → Bool
  | .left _ => true
  | _ => false

/-- Issue slots of one word (R399): 32 beats of a lane in vector form (R211), and one issue of a uniform pipe
or of the scalar pipe, which runs all lead code (R213). -/
def Agent.slots (a : Agent) (u : Bool) : Nat := if u || a.lead then 1 else 32

/-- Issue slots that a task has consumed (R399). -/
def State.spent (s : State) (tcb n : Nat) : State :=
  match mapFind tcb s.tasks with
  | some t => { s with tasks := mapPut tcb { t with slots := t.slots + n } s.tasks }
  | none => s

/-! ### Replay (R465) -/

/-- Whether the beats of a word enter the replay queues: it is of class VEC, and no cross-lane word. -/
def replays (i : Instr) : Bool :=
  match encodeWord i with
  | some w => opClass (fld w 23 7) == some 0 && !decide (0x30 ≤ fld w 23 7 ∧ fld w 23 7 ≤ 0x36)
  | none => false

/-- The beats of a word that has been executed in vector form enter the replay queues of their lanes, which keep 16
each. Replay is off while the strike sensor is not accepted. -/
def State.queueBeats (s : State) (id : AgentId) (a : Agent) (i : Instr) (r : Rules) : State :=
  if !s.featacc.getLsbD 6 || r.u || !replays i then s
  else
    let k := s.core id.core
    let on := a.live &&& a.getM a.prefixOf.m.toNat
    let put := fun (m : SMap (List Nat)) (t : Nat) =>
      let q := mapGet [] m t ++ [id.idx]
      mapSet [] m t (q.drop (q.length - 16))
    s.setCore id.core { k with beats := ((List.range 32).filter fun t => on.getLsbD t).foldl put k.beats }

/-- The same where the word has had its effect. -/
def Res.beats (res : Res) (s : State) (id : AgentId) (a : Agent) (i : Instr) (r : Rules) : State :=
  match res with
  | .done _ => s.queueBeats id a i r
  | _ => s

/-! ### What a word waits behind -/

/-- The words that come only after the writes of the agent's TST and DRAIN (R320): releases, fences and
strong accesses (R249, R256, R264, R266), pushes among them, and the words of the tile and iterator
engines. -/
def ordersDrains (i : Instr) (dst : Option Opd) : Bool :=
  (match dst with
    | some (.chan _ _) => true
    | _ => false) ||
  match i with
  | .ld _ _ _ o _ _ _ _ => o == 3
  | .ldc _ _ _ o _ _ _ _ => o == 3
  | .lr _ _ o _ _ _ _ => o == 3
  | .symld _ _ o _ _ _ _ => o == 3
  | .st _ _ _ o _ _ _ _ => o != 0
  | .stc _ _ _ o _ _ _ _ => o != 0
  | .sc _ _ _ o _ _ _ _ => o != 0
  | .symst _ _ o _ _ _ _ => o != 0
  | .atom _ _ _ o _ _ _ _ => o != 0
  | .atom64 _ _ _ o _ _ _ _ => o != 0
  | .atomf _ _ _ o _ _ _ _ => o != 0
  | .fence _ _ _ => true
  | .bara _ _ _ => true
  | .bars _ _ _ => true
  | .sigr _ _ _ => true
  | .spawn _ _ _ => true
  | .cdec _ _ _ => true
  | .tsetReady _ _ => true
  | .tld _ _ _ _ _ => true
  | .tst _ _ _ _ => true
  | .drain _ _ _ _ _ => true
  | .mmt _ _ _ => true
  | .mms _ _ _ => true
  | .itnew _ _ _ _ => true
  | .itadd _ _ _ _ _ => true
  | .next _ _ _ _ _ => true
  | .itsave _ _ _ _ => true
  | .itload _ _ _ => true
  | .cpy _ _ _ _ => true
  | .coll _ _ _ _ => true
  | .qfence _ _ => true
  | .snapFreeze _ _ _ _ => true
  | _ => false

/-- The words that follow the acknowledgement of every earlier store of the agent to other modules (R254,
R266, R268, R440): releases, strong accesses and fences of system scope, arrivals at barriers, signals, and
the countdown of a record. -/
def ordersRemote : Instr → Bool
  | .ld _ _ _ o c _ _ _ => o == 3 && c == 3
  | .ldc _ _ _ o c _ _ _ => o == 3 && c == 3
  | .lr _ _ o c _ _ _ => o == 3 && c == 3
  | .symld _ _ o c _ _ _ => o == 3 && c == 3
  | .st _ _ _ o c _ _ _ => o != 0 && c == 3
  | .stc _ _ _ o c _ _ _ => o != 0 && c == 3
  | .sc _ _ _ o c _ _ _ => o != 0 && c == 3
  | .symst _ _ o c _ _ _ => o != 0 && c == 3
  | .atom _ _ _ o c _ _ _ => o != 0 && c == 3
  | .atom64 _ _ _ o c _ _ _ => o != 0 && c == 3
  | .atomf _ _ _ o c _ _ _ => o != 0 && c == 3
  | .fence _ o c => o != 1 && c == 3
  | .bara _ _ _ => true
  | .bars _ _ _ => true
  | .sigr _ _ _ => true
  | .cdec _ _ _ => true
  | _ => false

/-- The source operands of a word, the prefix operand last (R42). -/
def Rules.sources (r : Rules) (p : Pfx) : List Opd := r.src ++ if r.okC then [p.c] else []

/-- The channel operands among them. -/
def Rules.chans (r : Rules) (p : Pfx) : List Opd := (r.sources p).filter fun o => (opdChan o).isSome

/-- The channels that they name, once for each. -/
def Rules.pops (r : Rules) (p : Pfx) : List Nat := (r.chans p).filterMap opdChan

/-- The channel that the destination of a word names. -/
def Rules.out (r : Rules) : Option Nat := r.dst.bind opdChan

/-- Whether every channel source of a word has its element. -/
def State.ready (s : State) (id : AgentId) (a : Agent) (r : Rules) : Bool :=
  if r.u then (readUs s id (r.sources a.prefixOf)).isSome else (readVs s id (r.sources a.prefixOf)).isSome

/-- Whether an earlier word that waits takes elements before a later one takes those of a channel: it waits for the same
channel, or both are task channels, whose pops and peeks are acquires (R42, R251). -/
def Late.before (l : Late) (c : Nat) : Bool := l.pops.any fun k => k == c || (decide (8 ≤ k) && decide (8 ≤ c))

/-- Whether a word waits for an element of a task channel: an acquire that is still to come (R249). -/
def Late.acquires (l : Late) : Bool := l.pops.any fun k => decide (8 ≤ k)

/-- Whether a word has what its sources take and may still trap: a later word's pops and pushes could not be undone. -/
def Late.risky (l : Late) : Bool := l.mem && l.pops.isEmpty

/-- Whether a word waits: behind an earlier word that has issued and waits, whose accesses and channels it
follows (R34, R251), behind the writes of the agent's tiles (R320), behind acknowledgements (R440), or for the elements
of its own channels. `pend` are the channels whose elements it has yet to take. -/
def State.held (s : State) (id : AgentId) (a : Agent) (i : Instr) (r : Rules) (older : List Late) (pend : List Nat) : Bool :=
  let far := r.out.any fun c => decide (8 ≤ c)
  (older.any fun l =>
    (l.mem && (!r.regs || r.fixed || far)) || pend.any l.before || (l.acquires && (!r.regs || far))
      || (l.risky && (!(r.chans a.prefixOf).isEmpty || r.out.isSome)) || (r.out.isSome && l.dst.bind opdChan == r.out))
    || (s.drains a && ordersDrains i r.dst) || (ordersRemote i && !a.acked)
    || (r.late && !s.ready id a r)

/-- The words that hold the issue for their access once they have taken their elements: their status is there for the
next word (R38, R292). -/
def waitsHere : Instr → Bool
  | .bari _ _ _ _ => true
  | .bara _ _ _ => true
  | .barq _ _ _ => true
  | _ => false

/-- Whether a word that waits holds the issue for as long, and is not set aside: a register word whose pops, pushes or
other effects could not be undone, a push to a task channel, which is a release (R251), and a word that waits for its
access alone. -/
def State.stays (s : State) (id : AgentId) (a : Agent) (i : Instr) (r : Rules) : Bool :=
  !r.late || (waitsHere i && s.ready id a r) || (r.regs && a.late.any fun l =>
    (l.risky && (!(r.chans a.prefixOf).isEmpty || r.out.isSome)) || (l.mem && r.fixed)
      || ((l.mem || l.acquires) && r.out.any fun c => decide (8 ≤ c)))

/-! ### Words that have issued and wait (R35, R36, R71) -/

/-- The elements that a word takes now for the channel operands given, behind earlier words that wait. -/
def State.drawn (s : State) (id : AgentId) (r : Rules) (ops : List Opd) (older : List Late) : List Taken × State :=
  if r.regs && older.any Late.risky then ([], s)
  else State.draw id (ops.takeWhile fun o => !older.any fun l => (opdChan o).any l.before) s

/-- The channels whose elements a word that issues would wait for. -/
def State.pending (s : State) (id : AgentId) (a : Agent) (r : Rules) : List Nat :=
  if r.late then (r.pops a.prefixOf).drop (s.drawn id r (r.chans a.prefixOf) a.late).1.length else []

/-- Whether a destination is a full channel. -/
def State.chanFull (s : State) (id : AgentId) (a : Agent) : Option Opd → Bool
  | some (.chan _ c) =>
    if c.toNat < 8 then match mapFind c.toNat a.chans with
      | some ch => decide (ch.depth ≤ ch.elems.length)
      | none => false
    else match (s.placedOf id a).bind fun p => mapFind c.toNat p.chans with
      | some ch => decide (ch.depth ≤ ch.elems.length)
      | none => false
  | _ => false

/-- Whether no word issues now: this one would raise a counter above 63 (R36), an earlier one has taken its elements and
waits to write into a full channel (R215), or for an access whose status the next word may read (R38). -/
def State.closed (s : State) (id : AgentId) (a : Agent) (r : Rules) : Bool :=
  decide (63 < a.cchn + (s.pending id a r).length + if r.cls = some .chn then 1 else 0) ||
    (match r.cls with
      | some c => decide (63 ≤ a.counter c)
      | none => false) ||
    a.late.any fun l => l.pops.isEmpty && ((!l.mem && s.chanFull id a l.dst) || waitsHere l.ins)

/-- A word set aside: it has issued and counts under its class, and under CHN once for each channel element
that it waits for, and the agent goes on. The elements that are there it has taken, in the order of its operands (R42). -/
def State.setAside (s : State) (id : AgentId) (a : Agent) (i : Instr) (sbit : Bool) (r : Rules) : State :=
  let d := s.drawn id r (r.chans a.prefixOf) a.late
  let a := (d.2.agent id).getD a
  let p := d.2.wordTag a
  let l : Late :=
    { tag := p.1, ins := i, mem := !r.regs || r.traps, cls := r.cls, pops := (r.pops a.prefixOf).drop d.1.length, hand := d.1
      dst := r.dst, paths := a.paths, cur := a.cur, pfx := a.pfx, x := a.x, v := a.v, m := a.m, al := a.al, tids := a.tids
      perf := a.perf, got := a.got, gotFl := a.gotFl, rem := a.rem, far := a.far }
  let b := { a with late := a.late ++ [l], cchn := a.cchn + l.pops.length }
  let b := match r.cls with
    | some c => b.setCounter c (b.counter c + 1)
    | none => b
  let b := if r.sw then b.advance.switch else b.advance
  ((p.2.setAgent id { b with gate := if a.marker sbit then 0xF else 0 }).rotate).spent a.tcb (a.slots r.u)

/-- The agent's counters without a word that waited. -/
def Agent.uncount (b : Agent) (l : Late) : Agent :=
  let b := { b with cchn := b.cchn - l.pops.length }
  match l.cls with
  | some c => b.setCounter c (b.counter c - 1)
  | none => b

/-- The agent as it was when a word issued, which it now goes on with; what it lays aside for that stands
beside it. -/
def Agent.view (a : Agent) (l : Late) : Agent :=
  { a with
    paths := l.paths, cur := l.cur, clause := none, pfx := l.pfx, pairw := none, x := l.x, v := l.v, m := l.m, al := l.al
    tids := l.tids, perf := l.perf, got := l.got, gotFl := l.gotFl, rem := l.rem, far := l.far
    now := some (l, { paths := a.paths, cur := a.cur, clause := a.clause, pfx := a.pfx, pairw := a.pairw, x := a.x
                      v := a.v, m := a.m, al := a.al, tids := a.tids, perf := a.perf, got := a.got, gotFl := a.gotFl, rem := a.rem
                      far := a.far }) }

/-- What was laid aside taken up again. -/
def Agent.restore (b : Agent) (w : Aside) : Agent :=
  { b with
    paths := w.paths, cur := w.cur, clause := w.clause, pfx := w.pfx, pairw := w.pairw, x := w.x, v := w.v, m := w.m, al := w.al
    tids := w.tids, perf := w.perf, got := w.got, gotFl := w.gotFl, rem := w.rem, far := w.far, now := none }

/-- Uniform registers, or thread ids, where what changed between two readings is put over a third. -/
def mergeX (old new cur : SMap (BitVec w)) : SMap (BitVec w) :=
  (List.range 32).foldl (fun m n =>
    if mapGet 0 new n = mapGet 0 old n then m else mapSet 0 m n (mapGet 0 new n)) cur

/-- The same for vector registers, by lane. -/
def mergeV (old new cur : SMap VReg) : SMap VReg :=
  (List.range 32).foldl (fun m n =>
    let o := mapGet zeroV old n
    let w := mapGet zeroV new n
    if w = o then m
    else mapSet zeroV m n (mkV fun t => if laneOf w t = laneOf o t then laneOf (mapGet zeroV m n) t else laneOf w t)) cur

/-- The same for mask registers, by bit. -/
def mergeM (old new cur : SMap Word) : SMap Word :=
  (List.range 8).foldl (fun m n =>
    let d := mapGet 0 new n ^^^ mapGet 0 old n
    if d = 0 then m else mapSet 0 m n ((mapGet 0 m n &&& ~~~ d) ||| (mapGet 0 new n &&& d))) cur

/-- What an earlier word has written, between two states of its agent, put over the registers of a word that
has issued later and waits (R38). -/
def Late.takes (y : Late) (tag : Nat) (a b : Agent) : Late :=
  if tag < y.tag then
    { y with x := mergeX a.x b.x y.x, v := mergeV a.v b.v y.v, m := mergeM a.m b.m y.m, al := mergeX a.al b.al y.al
             tids := mergeX a.tids b.tids y.tids }
  else y

/-- The words that wait once an earlier one has written, which brought the agent from `a` to `b`. -/
def Agent.passOn (b : Agent) (tag : Nat) (a : Agent) : Agent := { b with late := b.late.map fun y => y.takes tag a b }

/-- The agent once a word that waited has had its effect: the registers that the word has written are put
over the present ones, a register that a later word has written too ending with one of the two values
(R38). -/
def Agent.back (b : Agent) (l : Late) (w : Aside) : Agent :=
  { (b.restore w).uncount l with
    x := mergeX l.x b.x w.x, v := mergeV l.v b.v w.v, m := mergeM l.m b.m w.m, al := mergeX l.al b.al w.al
    tids := mergeX l.tids b.tids w.tids
    late := (b.late.filter fun y => y.tag != l.tag).map fun y => y.takes l.tag (b.view l) b }

/-- The agent when a word that waited traps or faults: it stands at that word with the registers of that
moment, and later words have had no effect (R34). -/
def Agent.undo (b : Agent) (l : Late) : Agent :=
  { (b.late.filter fun y => decide (l.tag ≤ y.tag)).foldl Agent.uncount b with
    late := b.late.filter fun y => decide (y.tag < l.tag)
    outst := b.outst.map fun o => if l.tag < o.tag then { o with writes := [], flags := 0 } else o
    now := none, pend := .none, gate := 0, clause := none, present := pathMask b.paths }

/-- The flags that later words have left to a word which has now had its effect (R34): an earlier word takes them over, or
they are raised. -/
def State.settleFlags (s : State) (id : AgentId) (a : Agent) (tag : Nat) : State :=
  match s.placedOf id a with
  | none => s
  | some p =>
    let here := fun (d : Nat × Nat × BitVec 9) => d.1 == id.idx && d.2.1 == tag
    if !p.defer.any here then s
    else s.setPlaced id.core a.lctx (match (a.late.filter fun l => l.mem && decide (l.tag < tag)).getLast? with
      | some l => { p with defer := p.defer.map fun d => if here d then (d.1, l.tag, d.2.2) else d }
      | none => ({ p with defer := p.defer.filter fun d => !here d } : Placed).joined
          (((p.defer.filter here).map fun d => d.2.2).foldl (· ||| ·) 0))

/-- The agent stands at a word that waited again, with what that word and the later ones have taken out of channels given
back, and the flags of the later ones dropped (R34). -/
def State.undone (s : State) (id : AgentId) (b : Agent) (l : Late) : State :=
  let later := b.late.filter fun y => decide (l.tag < y.tag)
  ((s.setAgent id (b.undo l)).dropFlags id b l.tag).giveBack id ((l :: later).flatMap Late.hand)

/-! ### Poisoned registers and tables (R421, R458) -/

/-- The tiles whose table entries a word reads, by its own fields. -/
def tilesNamed : Instr → List Nat
  | .tsetEmpty _ d => [d.toNat]
  | .tsetReady _ d => [d.toNat]
  | .tld _ _ d _ _ => [d.toNat]
  | .tst _ d _ _ => [d.toNat]
  | .tq _ d _ => [d.toNat]
  | .mmq _ _ _ d _ _ => [d.toNat]
  | .mmt _ d _ => [d.toNat]
  | .mms _ d _ => [d.toNat]
  | .accz _ d => [d.toNat]
  | .accr _ _ a _ => [a.toNat]
  | .drain _ _ d _ _ => [d.toNat]
  | .txp _ d a => [d.toNat, a.toNat]
  | .varr _ _ a => [a.toNat]
  | _ => []

/-- Whether a word's work is that of the tile loaders and the macro sequencer, so that poison is fatal to the context. -/
def sequenced : Instr → Bool
  | .tld _ _ _ _ _ => true
  | .tst _ _ _ _ => true
  | .tq _ _ _ => true
  | .mmt _ _ _ => true
  | .mms _ _ _ => true
  | .drain _ _ _ _ _ => true
  | .txp _ _ _ => true
  | _ => false

/-- The iterator slot that a word reads, by its name. -/
def slotNamed : Instr → Option Nat
  | .itadd _ _ d _ _ => some d.toNat
  | .next _ _ _ a _ => some a.toNat
  | .enough _ d => some d.toNat
  | .itsave _ _ a _ => some a.toNat
  | .itq _ _ a => some a.toNat
  | _ => none

/-- Where a word's destination register is written, 4 bytes each. -/
def Rules.writes (r : Rules) (i : Nat) (a : Agent) (p : Pfx) : List Nat :=
  match r.dst with
  | some (.reg n) =>
    if r.u then [uniPlace i n.toNat, uniPlace i n.toNat + 4]
    else ((List.range 32).filter fun t => (a.live &&& a.getM p.m.toNat).getLsbD t).map (vecPlace i n.toNat)
  | _ => []

/-- What a word reads of the memories of its core: its source registers, its mask, the table entries that it names, and
words of its destination that it writes in part. -/
def Rules.reads (r : Rules) (w : Instr) (i : Nat) (a : Agent) (p : Pfx) : List Nat :=
  ((r.sources p).flatMap fun o => match o with
    | .reg n =>
      if r.u then [uniPlace i n.toNat]
      else ((List.range 32).filter fun t => (a.live &&& a.getM p.m.toNat).getLsbD t).map (vecPlace i n.toNat)
    | .chan _ _ => [])
    ++ (if p.m = 0 then [] else [maskPlace i p.m.toNat])
    ++ ((tilesNamed w).flatMap fun t => (List.range 8).map fun j => 0x300000 + t * 0x40 + j * 8)
    ++ (match (slotNamed w).bind fun n => mapFind n a.its with
      | some n => (List.range 104).map fun j => 0x310000 + n * 0x400 + j * 8
      | none => [])
    ++ partPlaces (r.writes i a p)

/-- The effect of a word where poison covers nothing that it reads: poison halts its agent, and is fatal to the context where the
macro sequencer reads. -/
def guarded (i : Instr) (r : Rules) (body : State → AgentId → Agent → Pfx → Res) (s : State) (id : AgentId) (a : Agent)
    (p : Pfx) : Res :=
  if (s.core id.core).lost.isEmpty then body s id a p
  else match (s.core id.core).hurt (r.reads i id.idx a p) with
    | some o => if sequenced i then .fatal s 1 (s.winPa id.core o) 0 else .poison s (s.winPa id.core o) 0
    | none => match body s id a p with
      | .done t => .done (t.setCore id.core ((t.core id.core).mended (r.writes id.idx a p)))
      | x => x

/-- The word that an agent goes on with takes the elements that have come (R42, R71). -/
def State.takeMore (s : State) (id : AgentId) (a : Agent) (r : Rules) (l : Late) (w : Aside) : State × Agent × Late :=
  let d := s.drawn id r ((r.chans a.prefixOf).drop l.hand.length) (a.late.filter fun y => decide (y.tag < l.tag))
  let l : Late := { l with hand := l.hand ++ d.1, pops := l.pops.drop d.1.length }
  let a := (d.2.agent id).getD a
  let a : Agent := { a with now := some (l, w), cchn := a.cchn - d.1.length, late := a.late.map fun z => if z.tag = l.tag then l else z }
  (d.2.setAgent id a, a, l)

/-- The agent goes on with a word that has issued, which has what it could take. -/
def goOnWith (i : Instr) (r : Rules) (body : State → AgentId → Agent → Pfx → Res) (s : State) (id : AgentId) (a : Agent)
    (l : Late) (w : Aside) : State :=
  let back := fun (s : State) => match s.agent id with
    | some b => ((s.setAgent id (b.back l w)).settleFlags id (b.back l w) l.tag).rotate
    | none => s.rotate
  let undo := fun (s : State) (k : State → Agent → State) => match s.agent id with
    | some b =>
      let s := s.undone id b l
      match s.agent id with
      | some b => k s b
      | none => s
    | none => s
  if s.held id a i r (a.late.filter fun y => decide (y.tag < l.tag)) l.pops then (s.setAgent id (a.restore w)).rotate
  else match guarded i r body s id a a.prefixOf with
    | .done s => (back s).queueBeats id a i r
    | .switched s => back s
    | .moved s => back s
    | .left s => s
    | .wait => (s.setAgent id (a.restore w)).rotate
    | .hold s => match s.agent id with
      | some b =>
        let y := { l with perf := b.perf, got := b.got, gotFl := b.gotFl, rem := b.rem, far := b.far }
        (s.setAgent id { b.restore w with late := b.late.map fun z => if z.tag = l.tag then y else z }).rotate
      | none => s.rotate
    | .trap s code info => undo s fun s b => s.trap id b code info
    | .fault s va kind perf home m => undo s fun s b => s.pageFault id b va kind perf home m
    | .poison s pa va => undo s fun s b => s.halt id b 1 pa va
    | .fatal s cause pa va => undo s fun s b => s.ctxFatal b.ctx (errOf s id b cause pa va.toNat)

/-- The agent goes on with a word that has issued. -/
def goOn (i : Instr) (r : Rules) (body : State → AgentId → Agent → Pfx → Res) (s : State) (id : AgentId) (a : Agent)
    (l : Late) (w : Aside) : State :=
  let q := s.takeMore id a r l w
  goOnWith i r body q.1 id q.2.1 q.2.2 w

/-- The issue of an instruction word by the agent whose turn it is: the counters that it must
find zero (R36, R37), the checks of `Rules`, what it waits behind, and then its own effect. A word whose agent
would be gone waits until nothing that the agent has issued is unfinished. -/
def issue (i : Instr) (sbit : Bool) (r : Rules) (body : State → AgentId → Agent → Pfx → Res) (s : State) :
    Host.Outcome State Fault Refusal :=
  match s.current with
  | none => .fault .noAgent
  | some (id, a) =>
    match a.now with
    | some p => .next (goOn i r body s id a p.1 p.2)
    | none =>
      if !a.clear a.gate then .next s.rotate
      else if !accepts s a i r then .next (s.trap id a trIllegalInstr 0)
      else match r.first a with
        | some t => .next (s.trap id a t.1 t.2)
        | none =>
          if s.closed id a r then .next s.rotate
          else if s.held id a i r a.late (r.pops a.prefixOf) then
            .next (if s.stays id a i r then s.rotate else s.setAside id a i sbit r)
          else
            let res := guarded i r body s id a a.prefixOf
            if res.leaves && !a.late.isEmpty then .next s.rotate
            else
              let s' : State := finish s id a (a.marker sbit) res
              .next (if res.issues then res.beats (s'.spent a.tcb (a.slots r.u)) id a i r
                else match res with
                  | .hold t => if r.late && !waitsHere i then match t.agent id with
                      | some b => t.setAside id b i sbit r
                      | none => s'
                    else s'
                  | _ => s')

end Sys2Proof.Machine
end

