-- ==== Sys2Proof/Machine/Operands.lean ====
section
/-! DEFINITION. Destination fields: what one does with a result, for registers, group channels, task
channels and masks (R41 to R43, R50, R215, R393, R394), and the bodies of the register words. A write
that must wait answers `none`. -/

namespace Sys2Proof.Machine

/-! ## Destinations -/

/-- The new lanes of a destination register (R50): an active thread takes its result, a masked
thread keeps its value or takes 0, an absent thread keeps its value. -/
def blend (act live : Word) (z : Bool) (old : VReg) (f : Nat → Word) : VReg :=
  mkV fun t =>
    if act.getLsbD t then f t else if live.getLsbD t && z then 0 else laneOf old t

/-- One element pushed into a channel, or `none` while it is full. -/
def push (ch : Chan α) (e : α) : Option (Chan α) :=
  if ch.elems.length < ch.depth then some { ch with elems := ch.elems ++ [e] } else none

/-- A vector result. In a pushed element the lanes that are not active hold 0 (R215). -/
def writeV (s : State) (id : AgentId) (act : Word) (z : Bool) (d : Opd) (f : Nat → Word) : Option State :=
  (s.agent id).bind fun a =>
    match d with
    | .reg n => some (s.setAgent id (a.setV n.toNat (blend act a.live z (a.getV n.toNat) f)))
    | .chan _ c =>
      (mapFind c.toNat a.chans).bind fun ch =>
        (push ch (mkV fun t => if act.getLsbD t then f t else 0)).map fun ch =>
          s.setAgent id { a with chans := mapPut c.toNat ch a.chans }

/-- One element pushed into a task channel (R393). The decision channel counts the groups that
have retired as having read it (R394). -/
def pushTask (s : State) (core lctx : Nat) (decides : Bool) (c : Nat) (x : Word64) : Option State :=
  (mapFind lctx (s.core core).placed).bind fun p =>
    (mapFind c p.chans).bind fun ch =>
      (push ch x).map fun ch =>
        let p := { p with chans := mapPut c ch p.chans }
        let p := if c = 15 && decides then
            trimDecision (getF p.ngrp 0 32) 16 { p with decReads := p.decReads ++ [p.decGone] }
          else p
        s.setPlaced core lctx p

/-- A uniform result. -/
def writeU (s : State) (id : AgentId) (d : Opd) (x : Word64) : Option State :=
  (s.agent id).bind fun a =>
    match d with
    | .reg n => some (s.setAgent id (a.setX n.toNat x))
    | .chan _ c => pushTask s id.core a.lctx (s.decides a) c.toNat x

/-- A mask result, by thread (R50, R140). -/
def writeM (s : State) (id : AgentId) (act : Word) (z : Bool) (n : Nat) (f : Nat → Bool) : State :=
  match s.agent id with
  | none => s
  | some a =>
    let old := a.getM n
    let bits := (List.range 32).map fun t =>
      if act.getLsbD t then f t else if a.live.getLsbD t && z then false else old.getLsbD t
    s.setAgent id (a.setM n (BitVec.ofBoolListLE bits |>.setWidth 32))

/-- The active threads of a vector word (R59). -/
def Agent.active (a : Agent) (p : Pfx) : Word := a.live &&& a.getM p.m.toNat

/-- The active threads in ascending logical lane order (R9). -/
def lanes (w : Word) : List Nat := (List.range 32).filter fun t => w.getLsbD t

/-! ## Bodies of register instructions -/

/-- A vector register instruction: sources read in order, one result for each active thread,
flags joined (R126). -/
def vecBody (d : Opd) (srcs : List Opd) (f : List Word → Nat → Out 32)
    (s : State) (id : AgentId) (a : Agent) (p : Pfx) : Res :=
  match readVs s id srcs with
  | none => .wait
  | some (vs, s1) =>
    let act := a.active p
    let out := (List.range 32).map fun t =>
      if act.getLsbD t then f (vs.map fun v => laneOf v t) t else (0, 0)
    match writeV s1 id act p.z d fun t => (out.getD t (0, 0)).1 with
    | none => .wait
    | some s2 => .done (s2.raiseFlags id a ((out.map Prod.snd).foldl (· ||| ·) 0))

/-- A uniform register instruction. -/
def uniBody (d : Opd) (srcs : List Opd) (f : List Word64 → Out 64)
    (s : State) (id : AgentId) (a : Agent) (_ : Pfx) : Res :=
  match readUs s id srcs with
  | none => .wait
  | some (xs, s1) =>
    let out := f xs
    match writeU s1 id d out.1 with
    | none => .wait
    | some s2 => .done (s2.raiseFlags id a out.2)

/-- The first, second and third operand of a list. -/
def arg (xs : List (BitVec n)) (i : Nat) : BitVec n := xs.getD i 0

/-- An instruction with a vector and a uniform form of two sources. -/
def alu2 (u : Bool) (d a b : Opd) (f : Word → Word → Out 32) (g : Word64 → Word64 → Out 64) :
    State → AgentId → Agent → Pfx → Res :=
  if u then uniBody d [a, b] fun xs => g (arg xs 0) (arg xs 1)
  else vecBody d [a, b] fun xs _ => f (arg xs 0) (arg xs 1)

/-- An instruction with a vector and a uniform form of one source. -/
def alu1 (u : Bool) (d a : Opd) (f : Word → Out 32) (g : Word64 → Out 64) :
    State → AgentId → Agent → Pfx → Res :=
  if u then uniBody d [a] fun xs => g (arg xs 0)
  else vecBody d [a] fun xs _ => f (arg xs 0)

/-- The fourth operand: the register or channel that the prefix names, or the old destination
without a prefix (R131). -/
def fourth (a : Agent) (p : Pfx) (d : Opd) : Opd := if a.pfx.isSome then p.c else d

/-- An instruction with an addend (R131). -/
def alu3 (u : Bool) (d a b : Opd) (f : Word → Word → Word → Nat → Out 32)
    (g : Word64 → Word64 → Word64 → Nat → Out 64) (s : State) (id : AgentId) (ag : Agent) (p : Pfx) : Res :=
  let c := fourth ag p d
  if u then uniBody d [a, b, c] (fun xs => g (arg xs 0) (arg xs 1) (arg xs 2) p.rnd.toNat) s id ag p
  else vecBody d [a, b, c] (fun xs _ => f (arg xs 0) (arg xs 1) (arg xs 2) p.rnd.toNat) s id ag p

/-- Without a prefix the addend is the old destination, which a channel has not (R131). -/
def addendFirst (d : Opd) (a : Agent) : Option (Nat × Word64) :=
  if a.pfx.isNone && !d.isReg then some (trIllegalInstr, 0) else none

/-- The check of the instructions that need a fully converged group (R232). -/
def convergedFirst (a : Agent) : Option (Nat × Word64) :=
  if a.converged then none else some (trIllegalState, a.live.setWidth 64)

/-- The rules of a register instruction in either form. -/
def regRules (u : Bool) (d : Opd) (src : List Opd) (rnd : Nat) : Rules :=
  { form := .vu, u := u, okM := true, rnd := rnd, src := src, dst := some d, regs := true, late := true }

/-- The rules of a register instruction of vector form alone. -/
def vecRules (d : Opd) (src : List Opd) (rnd : Nat) : Rules :=
  { form := .v, u := false, okM := true, rnd := rnd, src := src, dst := some d, regs := true, late := true }

end Sys2Proof.Machine
end

