-- ==== Sys2Proof/Machine/Access.lean ====
section
/-! DEFINITION. The accesses of a word: the threads of an instruction in lane order (R191), the posting of
what its replies bring (R36, R71, R207, R311), and numbered reads. -/

namespace Sys2Proof.Machine

/-- The accesses of an instruction by its threads in ascending lane order (R191): a thread
that has performed its access does not perform it again (R181). The first thread that does not
complete ends the run. -/
def runLanes (id : AgentId) (md : Mode) (n : Nat) (addr : Nat → Word64) (acc : Nat → Acc) :
    List Nat → State → State × Option Got
  | [], s => (s, none)
  | t :: ts, s =>
    match s.agent id with
    | none => (s, none)
    | some a =>
      if a.perf.getLsbD t then runLanes id md n addr acc ts s
      else
        let keep := fun (s : State) (x : Nat) (fl : BitVec 9) =>
          match s.agent id with
          | some a => s.setAgent id { a with perf := a.perf ||| BitVec.twoPow 32 t,
                                             got := a.got ++ [(t, x)], gotFl := a.gotFl ||| fl }
          | none => s
        match s.access id a t (addr t) n md (acc t) with
        | (s, .val x fl) => runLanes id md n addr acc ts (keep s x fl)
        | (s, .failed) =>
          runLanes id md n addr acc ts
            (keep { s with agenda := s.agenda ++ [.storeAck id a.lctx a.tcb 0 0 false] } 0 0)
        | (s, g) => (s, some g)

/-- An instruction of a counter class has its accesses performed: its count rises until its reply or
acknowledgement, which is under way, and its task's outstanding count rises by its posted accesses (R311). Of
`n` stores those sent to other modules count already. -/
def State.post (s : State) (id : AgentId) (cls : CtrClass) (writes : List RegWrite) (flags : BitVec 9)
    (n : Nat) : State :=
  match s.agent id with
  | none => s
  | some a =>
    let p := s.wordTag a
    let t := p.1
    let raise := fun (s : State) (n : Nat) => match s.placedOf id a with
      | some p => s.setPlaced id.core a.lctx { p with outst := p.outst + n }
      | none => s
    match a.outst.find? fun o => o.tag == t with
    | none =>
      let o : Outst := { tag := t, cls := cls, writes := writes, flags := flags, left := n, sent := 0, more := false }
      let s : State := p.2.setAgent id { a.setCounter cls (a.counter cls + 1) with outst := a.outst ++ [o], far := none }
      if cls = .st then
        { raise s n with agenda := (raise s n).agenda ++ [.storeAck id a.lctx a.tcb t n true] }
      else { s with agenda := s.agenda ++ [.accessReply id t (.value 0 0)] }
    | some o =>
      let l := a.outst.map fun x => if x.tag = t then { x with flags := x.flags ||| flags } else x
      let s : State := p.2.setAgent id { a.setCounter cls (a.counter cls + 1) with outst := l, far := none }
      { raise s (n - o.sent) with
        agenda := (raise s (n - o.sent)).agenda ++ [.storeAck id a.lctx a.tcb 0 (n - o.sent) true, .accessReply id t (.value 0 0)] }

/-- The threads whose address is not a multiple of the access width (R191). -/
def badLanes (n : Nat) (addr : Nat → Word64) (ls : List Nat) : Word :=
  ls.foldl (fun m t => if (addr t).toNat % n = 0 then m else m ||| BitVec.twoPow 32 t) 0

/-- A memory instruction over its threads: its counter class, what it allows of its accesses,
its width and access kind, the threads that perform it with their addresses and accesses, the
register writes that the values read bring and the flags they raise, the writes of the masked
threads, whether what the threads read takes effect only when all have performed, what takes a
channel element that was read, the threads that the values mark for INVALID_CODE, and whether the word holds
the issue until everything has returned, so that its effect is there as it ends (R283, R284). -/
structure MemOp where
  cls : CtrClass
  md : Mode
  n : Nat
  kind : Nat
  ls : List Nat
  addr : Nat → Word64
  acc : Nat → Acc
  writes : List (Nat × Nat) → List RegWrite := fun _ => []
  flag : Nat × Nat → BitVec 9 := fun _ => 0
  zeros : List RegWrite := []
  whole : Bool := false
  pop : State → State := fun s => s
  marks : List (Nat × Nat) → Word := fun _ => 0
  sync : Bool := false

/-- The flags of what the threads have performed. -/
def MemOp.flags (m : MemOp) (a : Agent) : BitVec 9 := (a.got.map m.flag).foldl (· ||| ·) a.gotFl

/-- What the threads have performed so far is posted with flags, as far as a reply has anything to bring. -/
def MemOp.send (m : MemOp) (s : State) (id : AgentId) (zeros : List RegWrite) (fl : BitVec 9) : State :=
  match s.agent id with
  | none => s
  | some a =>
    let w := m.writes a.got ++ zeros
    let n := if m.cls = .st then a.got.length else 0
    let s : State := s.setAgent id { a with got := [], gotFl := 0 }
    if w.isEmpty && n == 0 then s else s.post id m.cls w fl n

/-- The instruction is performed: what its threads have performed is posted with all flags. -/
def MemOp.post (m : MemOp) (s : State) (id : AgentId) (zeros : List RegWrite) : State :=
  m.send s id zeros (match s.agent id with
    | some a => m.flags a
    | none => 0)

/-- What remains of an instruction whose run has stopped (R191): what it has performed is posted, or is kept
until every thread has performed (R181). Its flags are kept for the execution that completes (R126). -/
def MemOp.part (m : MemOp) (s : State) (id : AgentId) : State :=
  if m.whole then s
  else match s.agent id with
    | none => s
    | some a =>
      let s := m.send s id [] 0
      match s.agent id with
      | none => s
      | some b => s.setAgent id { b with gotFl := m.flags a }

/-- One register write of a reply; `none` while a channel is full. -/
def State.applyWrite (s : State) (id : AgentId) (w : RegWrite) : Option State :=
  (s.agent id).bind fun a =>
    match w with
    | .lane n t x => some (s.setAgent id (a.setV n (mkV fun j => if j = t then x else laneOf (a.getV n) j)))
    | .uni n x => some (s.setAgent id (a.setX n x))
    | .mask n t b =>
      let m := a.getM n
      some (s.setAgent id (a.setM n (if b then m ||| BitVec.twoPow 32 t else m &&& ~~~ BitVec.twoPow 32 t)))
    | .push c x =>
      (mapFind c a.chans).bind fun ch => (push ch x).map fun ch =>
        s.setAgent id { a with chans := mapPut c ch a.chans }
    | .pushTask c x => pushTask s id.core a.lctx (s.decides a) c x

/-- The register writes of a reply; those that a full channel holds up are left. -/
def State.applyWrites (s : State) (id : AgentId) : List RegWrite → State × List RegWrite
  | [] => (s, [])
  | w :: t => match s.applyWrite id w with
    | some s => s.applyWrites id t
    | none => (s, w :: t)

/-- What the threads have performed takes effect at once (R283, R284). -/
def MemOp.land (m : MemOp) (s : State) (id : AgentId) : State :=
  match s.agent id with
  | none => s
  | some a => (s.applyWrites id (m.writes a.got ++ m.zeros)).1.raiseFlags id a (m.flags a)

/-- A memory instruction (R191): the alignment of every thread first, then the accesses in lane
order, and the result when all of them are performed. -/
def MemOp.run (m : MemOp) (ok : State → Res) (s : State) (id : AgentId) : Res :=
  let bad := badLanes m.n m.addr m.ls
  if bad ≠ 0 then .trap s trMisaligned (bad.setWidth 64)
  else
    match runLanes id m.md m.n m.addr m.acc m.ls s with
    | (s, none) =>
      let bad : Word := match s.agent id with
        | some a => m.marks a.got
        | none => 0
      if bad ≠ 0 then .trap (m.part s id) trInvalidCode (bad.setWidth 64)
      else if m.sync then ok (m.land (m.pop s) id)
      else ok (m.post (m.pop s) id m.zeros)
    | (s, some g) => match g with
      | .trap c i => .trap (m.part s id) c i
      | .fault va h b =>
        let s := m.part s id
        .fault s va m.kind (match s.agent id with
          | some a => a.perf
          | none => 0) h b
      | .poison pa va => .poison (m.part s id) pa va
      | .fatal va => .fatal (m.part s id) 7 0 va
      | _ => .hold s

/-! ## Numbered reads of one word -/

/-- Read number `i` of the word that issues, which makes any number of reads: the answer of
another module is kept, so that no read goes out twice. -/
def State.read1 (s : State) (id : AgentId) (i : Nat) (va : Word64) (n : Nat) (md : Mode) (acc : Acc := .load) :
    State × Got :=
  match s.agent id with
  | none => (s, .wait)
  | some a =>
    match mapFind i a.got with
    | some x => (s, .val x 0)
    | none =>
      let far := match a.rem with
        | some r => r.lane == i
        | none => false
      match s.access id a i va n md acc with
      | (s, .val x f) =>
        if far then
          match s.agent id with
          | some b => (s.setAgent id { b with got := mapPut i x b.got }, .val x f)
          | none => (s, .val x f)
        else (s, .val x f)
      | p => p

/-- Reads in order, numbered from `i`: their values, or what stops them. -/
def State.reads (s : State) (id : AgentId) (md : Mode) (i : Nat) (l : List (Word64 × Nat)) (acc : Acc := .load) :
    State × Except Got (List Nat) :=
  match l with
  | [] => (s, .ok [])
  | (va, n) :: t =>
    match s.read1 id i va n md acc with
    | (s, .val x _) =>
      match s.reads id md (i + 1) t acc with
      | (s, .ok xs) => (s, .ok (x :: xs))
      | (s, .error g) => (s, .error g)
    | (s, g) => (s, .error g)

/-- What a read that has not been performed makes of its word. `unit` says that poison met by it
is consumed by a unit, and is fatal for the context (R421). -/
def Got.res (g : Got) (s : State) (unit : Bool) (kind : Nat) : Res :=
  match g with
  | .trap c i => .trap s c i
  | .fault va h m => .fault s va kind 0 h m
  | .poison pa va => if unit then .fatal s 1 pa (BitVec.ofNat 64 va) else .poison s pa va
  | .fatal va => .fatal s 7 0 va
  | _ => .hold s

/-- The number that bytes read as `w`-byte words make, the first lowest. -/
def joinWords (w : Nat) : List Nat → Nat
  | [] => 0
  | x :: t => x + 2 ^ (8 * w) * joinWords w t

/-- What has been read under the numbers from `i` on is kept: a word that holds the issue does not read it again. -/
def State.keepReads (s : State) (id : AgentId) (i : Nat) (xs : List Nat) : State :=
  match s.agent id with
  | some a => s.setAgent id { a with got := xs.zipIdx.foldl (fun m x => mapPut (i + x.2) x.1 m) a.got }
  | none => s

/-- What has been read under the numbers from `n` on is dropped: the word goes on to other reads. -/
def State.dropReads (s : State) (id : AgentId) (n : Nat) : State :=
  match s.agent id with
  | some a => s.setAgent id { a with got := a.got.filter fun g => decide (g.1 < n) }
  | none => s

/-- A structure of `8 * n` bytes read as plain loads of the agent, numbered from `i`, once for each time that its word
issues. -/
def State.readStruct (s : State) (id : AgentId) (i : Nat) (va : Word64) (n : Nat) : State × Except Got Nat :=
  match s.reads id { plain := true } i ((List.range n).map fun j => (va + BitVec.ofNat 64 (8 * j), 8)) with
  | (s, .ok xs) => (s.keepReads id i xs, .ok (joinWords 8 xs))
  | (s, .error g) => (s, .error g)

end Sys2Proof.Machine
end

