-- ==== Sys2Proof/Machine/Memory.lean ====
section
/-! DEFINITION. The memory instructions (R188 to R202): loads, stores, atomics, reservations,
fences, prefetches and CNTW, and the arrival of their replies (R207, R311). -/

namespace Sys2Proof.Machine

/-! ## Addresses, widths and data (R189, R190) -/

/-- The access width of an `SZ` code (R190). -/
def szBytes (z : Nat) : Nat :=
  match z with
  | 0 => 1
  | 1 => 2
  | 2 => 4
  | 3 => 8
  | 4 => 16
  | 5 => 1
  | _ => 2

/-- The index register of a thread as an unsigned number; `v31` reads as 0, and a uniform form
has no index. -/
def idxOf (a : Agent) (u : Bool) (x : BitVec 5) (t : Nat) : Word :=
  if u || x == 31 then 0 else laneOf (a.getV x.toNat) t

/-- The byte offset of a prefix (R46). -/
def Pfx.off (p : Pfx) : Word64 := p.x.signExtend 64

/-- The address of a thread (R189). -/
def eaOf (a : Agent) (u : Bool) (b x : BitVec 5) (p : Pfx) (t : Nat) : Word64 :=
  a.getX b.toNat + (idxOf a u x t).setWidth 64 + p.off

/-- The threads that access memory: the active ones, or the group once in uniform form. -/
def memLanes (u : Bool) (a : Agent) (p : Pfx) : List Nat := if u then [0] else lanes (a.active p)

/-- The masked threads that a zeroing prefix clears (R50). -/
def zeroLanes (a : Agent) (p : Pfx) : List Nat :=
  if p.z then lanes (a.live &&& ~~~ a.active p) else []

/-- A loaded value filled to `w` bits (R190). -/
def fillLoad (w z x : Nat) : Nat :=
  if z = 5 ∨ z = 6 then ((BitVec.ofNat (8 * szBytes z) x).signExtend w).toNat else x

/-- The register writes of a load (R190): one value for each thread, over as many registers as
the width takes, lowest first. -/
def loadWrites (u : Bool) (z : Nat) (d : Opd) (got : List (Nat × Nat)) : List RegWrite :=
  match d with
  | .chan _ c =>
    if u then got.map fun g => .pushTask c.toNat (BitVec.ofNat 64 (fillLoad 64 z g.2))
    else [.push c.toNat (mkV fun t => BitVec.ofNat 32 (match mapFind t got with
      | some x => fillLoad 32 z x
      | none => 0))]
  | .reg n =>
    if u then
      (got.map fun g => (List.range (if z = 4 then 2 else 1)).map fun j =>
        RegWrite.uni (n.toNat + j) (BitVec.ofNat 64 (fillLoad 64 z g.2 / 2 ^ (64 * j)))).flatten
    else
      (got.map fun g => (List.range (if z = 3 then 2 else if z = 4 then 4 else 1)).map fun j =>
        RegWrite.lane (n.toNat + j) g.1 (BitVec.ofNat 32 (fillLoad 32 z g.2 / 2 ^ (32 * j)))).flatten

/-- The zeroing writes of a load (R50). -/
def loadZeros (u : Bool) (z : Nat) (d : Opd) (ls : List Nat) : List RegWrite :=
  match d with
  | .chan _ _ => []
  | .reg n =>
    if u then []
    else (ls.map fun t => (List.range (if z = 3 then 2 else if z = 4 then 4 else 1)).map fun j =>
      RegWrite.lane (n.toNat + j) t 0).flatten

/-- Whether a channel destination has room for one more element beside those under way. -/
def roomFor (s : State) (id : AgentId) (a : Agent) (u : Bool) : Opd → Bool
  | .reg _ => true
  | .chan _ c =>
    let pend := (a.outst.map fun o => o.writes.countP fun w => match w with
      | .push k _ => !u && k == c.toNat
      | .pushTask k _ => u && k == c.toNat
      | _ => false).foldl (· + ·) 0
    if u then
      match (s.placedOf id a).bind fun p => mapFind c.toNat p.chans with
      | some ch => decide (ch.elems.length + pend < ch.depth)
      | none => false
    else
      match mapFind c.toNat a.chans with
      | some ch => decide (ch.elems.length + pend < ch.depth)
      | none => false

/-- The data that a store takes from its register or channel (R190, R192), one number for each
thread, and what taking it leaves: the channel's element is gone only when the store is done. -/
def storeData (s : State) (id : AgentId) (a : Agent) (u : Bool) (z : Nat) (d : Opd) :
    Option ((Nat → Nat) × (State → State)) :=
  let n := szBytes z
  if u then
    (readU s id d).map fun p =>
      (fun _ => (p.1.toNat + (if z = 4 then (a.getX (d.code + 1)).toNat * 2 ^ 64 else 0)) % 2 ^ (8 * n),
        if d.isReg then fun s => s else fun s => ((readU s id d).map Prod.snd).getD s)
  else
    (readV s id d).map fun p =>
      (fun t =>
        let w := fun (j : Nat) => (laneOf (a.getV (d.code + j)) t).toNat * 2 ^ (32 * j)
        ((laneOf p.1 t).toNat + (if z = 3 then w 1 else if z = 4 then w 1 + w 2 + w 3 else 0)) % 2 ^ (8 * n),
        if d.isReg then fun s => s else fun s => ((readV s id d).map Prod.snd).getD s)

/-- The rules of a memory instruction (R68, R71, R188). -/
def memRules (u : Bool) (cls : CtrClass) : Rules :=
  { form := .vu, u := u, cls := some cls, okM := true, okX := true, late := true }

/-- A vector register number is a multiple of `k` (R43, R190). -/
def regMult (o : Opd) (k : Nat) : Bool := o.isReg && o.code % k == 0

/-! ## Loads and stores -/

/-- LD (R192). A storage window takes it when it is plain (R187; log entry 12). -/
def execLd (sb u : Bool) (z : BitVec 3) (o c : BitVec 2) (d : Opd) (b x : BitVec 5) (s : State) :
    Host.Outcome State Fault Refusal :=
  issue (.ld sb u z o c d b x) sb { memRules u .ld with dst := some d }
    (fun s id a p =>
      if !roomFor s id a u d then .wait
      else MemOp.run
        { cls := .ld, md := { plain := o == 0, win := o == 0 }, n := szBytes z.toNat, kind := 0
          ls := memLanes u a p, addr := eaOf a u b x p, acc := fun _ => .load, writes := loadWrites u z.toNat d
          zeros := loadZeros u z.toNat d (zeroLanes a p), whole := !d.isReg } .done s id) s

/-- ST (R192). -/
def execSt (sb u : Bool) (z : BitVec 3) (o c : BitVec 2) (d : Opd) (b x : BitVec 5) (s : State) :
    Host.Outcome State Fault Refusal :=
  issue (.st sb u z o c d b x) sb
    { memRules u .st with src := [d], legal := match d with
        | .chan peek _ => !peek
        | .reg _ => true }
    (fun s id a p => match storeData s id a u z.toNat d with
      | none => .wait
      | some (f, pop) =>
        MemOp.run
          { cls := .st, md := { plain := o == 0, win := o == 0, posted := true }, n := szBytes z.toNat, kind := 1
            ls := memLanes u a p, addr := eaOf a u b x p, acc := fun t => .store (f t), pop := pop } .done s id) s

/-- The element index of a thread (R193), signed. -/
def elemIdx (a : Agent) (u : Bool) (x : BitVec 5) (t : Nat) : Int := (idxOf a u x t).toInt

/-- The address of an element (R193). -/
def elemAddr (a : Agent) (b : BitVec 5) (p : Pfx) (n : Nat) (e : Int) : Word64 :=
  a.getX b.toNat + BitVec.ofInt 64 (e * n) + p.off

/-- An element index clamped to the bound (R193). -/
def clampIdx (i : Int) (nb : Nat) : Int := min (max i 0) (nb - 1)

/-- LDC (R193): a bound of 0 reads nothing and gives 0. -/
def execLdc (sb u : Bool) (z : BitVec 3) (o c : BitVec 2) (d : Opd) (b x : BitVec 5) (s : State) :
    Host.Outcome State Fault Refusal :=
  issue (.ldc sb u z o c d b x) sb { memRules u .ld with dst := some d }
    (fun s id a p =>
      let nb := (a.getX (b.toNat + 1)).toNat
      let n := szBytes z.toNat
      let ls := memLanes u a p
      let zs := loadZeros u z.toNat d (zeroLanes a p)
      if !roomFor s id a u d then .wait
      else if nb = 0 then
        .done (s.post id .ld (loadWrites u z.toNat d (ls.map fun t => (t, 0)) ++ zs) 0 0)
      else
        MemOp.run
          { cls := .ld, md := { plain := o == 0 }, n := n, kind := 0, ls := ls
            addr := fun t => elemAddr a b p n (clampIdx (elemIdx a u x t) nb), acc := fun _ => .load
            writes := loadWrites u z.toNat d, zeros := zs, whole := !d.isReg } .done s id) s

/-- STC (R193): a thread whose index is out of bounds stores nothing. -/
def execStc (sb u : Bool) (z : BitVec 3) (o c : BitVec 2) (d : Opd) (b x : BitVec 5) (s : State) :
    Host.Outcome State Fault Refusal :=
  issue (.stc sb u z o c d b x) sb
    { memRules u .st with src := [d], legal := match d with
        | .chan peek _ => !peek
        | .reg _ => true }
    (fun s id a p => match storeData s id a u z.toNat d with
      | none => .wait
      | some (f, pop) =>
        let nb := (a.getX (b.toNat + 1)).toNat
        let n := szBytes z.toNat
        let ls := (memLanes u a p).filter fun t => decide (0 ≤ elemIdx a u x t ∧ elemIdx a u x t < nb)
        MemOp.run
          { cls := .st, md := { plain := o == 0, posted := true }, n := n, kind := 1, ls := ls
            addr := fun t => elemAddr a b p n (elemIdx a u x t), acc := fun t => .store (f t), pop := pop } .done
          s id) s

/-- The page of an address of PREF where the extent that holds it is stale: it is translated again first (R185, R194). -/
def staleFor (s : State) (id : AgentId) (a : Agent) (va : Word64) : Bool :=
  match (s.translate (reqOf id a) va.toNat .load).2 with
  | .stale => true
  | _ => false

/-- The translation that PREF makes for one address (R194): a page that is not there has its fault
requested, and nothing else happens. -/
def prefetch (s : State) (id : AgentId) (a : Agent) (va : Word64) : State :=
  match s.translate (reqOf id a) va.toNat .load with
  | (s, .missing h m) => s.requestFault a.ctx va.toNat 0 h m []
  | (s, .fatal _) => s.ctxFatal a.ctx (errOf s id a 7 0 va.toNat)
  | (s, _) => s

/-- PREF (R194). It waits while a stale extent is translated again. The encoding admits any SCOPE: the manual fixes SZ,
ORD and D alone, and leaves open whether another SCOPE than 0 is an error (log entry 97). -/
def execPref (sb u : Bool) (c : BitVec 2) (b x : BitVec 5) (s : State) : Host.Outcome State Fault Refusal :=
  issue (.pref sb u c b x) sb { form := .vu, u := u, okM := true, okX := true, regs := true }
    (fun s id a p =>
      let vas := (memLanes u a p).map (eaOf a u b x p)
      let old := vas.filter (staleFor s id a)
      if old.isEmpty then .done (vas.foldl (fun s va => prefetch s id a va) s)
      else .hold (old.foldl (fun s va => s.retranslate id a.lctx (va.toNat / 65536)) s)) s

/-- CNTW (R195): the issue is held until the counters named are zero. -/
def execCntw (sb : Bool) (f : BitVec 4) (s : State) : Host.Outcome State Fault Refusal :=
  issue (.cntw sb f) sb { form := .u, u := true, regs := true } (fun s _ a _ => if a.clear f then .done s else .wait) s

/-! ## Atomics -/

/-- The 64-bit value of a pair of vector registers in one thread (R43). -/
def pairOf (a : Agent) (n t : Nat) : Nat := (laneOf (a.getV n) t).toNat + (laneOf (a.getV (n + 1)) t).toNat * 2 ^ 32

/-- The compare operand of `.cas`, or the data of a no-return form (R196): the register or
channel of the prefix, one number for each thread. The manual gives a no-return form whose prefix names a channel no
fate; here it takes an element (log entry 96). -/
def fourthData (s : State) (id : AgentId) (a : Agent) (u : Bool) (n : Nat) (c : Opd) :
    Option ((Nat → Nat) × (State → State)) :=
  if u then
    (readU s id c).map fun p => (fun _ => p.1.toNat % 2 ^ (8 * n),
      if c.isReg then fun s => s else fun s => ((readU s id c).map Prod.snd).getD s)
  else if n = 8 then some (fun t => pairOf a c.code t, fun s => s)
  else
    (readV s id c).map fun p => (fun t => (laneOf p.1 t).toNat,
      if c.isReg then fun s => s else fun s => ((readV s id c).map Prod.snd).getD s)

/-- The register writes of an atomic that returns the old value (R196). -/
def atomWrites (u : Bool) (n : Nat) (d : Opd) (got : List (Nat × Nat)) : List RegWrite :=
  loadWrites u (if n = 8 then 3 else 2) d got

/-- The shared body of ATOM, ATOM64 and ATOMF (R196 to R198). `op` counts the float operations
from 8, and one with ORD 00 is a plain access (R249). -/
def atomBody (u : Bool) (n op : Nat) (o : BitVec 2) (d : Opd) (b x : BitVec 5) (s : State) (id : AgentId)
    (a : Agent) (p : Pfx) : Res :=
  let noret := u && d == .reg 0
  match fourthData s id a u n (if noret || op == 7 then p.c else .reg 0) with
  | none => .wait
  | some (f, pop) =>
    let x0 := fun (t : Nat) =>
      if noret then f t
      else if u then (a.getX d.code).toNat % 2 ^ (8 * n)
      else if n = 8 then pairOf a d.code t
      else (laneOf (a.getV d.code) t).toNat
    let acc := fun (t : Nat) => Acc.rmw op p.rnd.toNat (x0 t) (if op = 7 then f t else 0)
    let m : MemOp :=
      { cls := if noret then .st else .ld, md := { plain := o == 0, counts := noret }, n := n, kind := 2
        ls := memLanes u a p, addr := eaOf a u b x p, acc := acc, pop := pop }
    if noret then m.run .switched s id
    else { m with writes := atomWrites u n d
                  zeros := loadZeros u (if n = 8 then 3 else 2) d (zeroLanes a p) }.run .switched s id

/-- The rules of the atomics: the counter they raise (R71) and the prefix operand (R196, R208). -/
def atomRules (u cas : Bool) (n rnd : Nat) (d : Opd) (p : Opd) : Rules :=
  let noret := u && d == .reg 0
  { memRules u (if noret then .st else .ld) with
    rnd := rnd, okC := noret || cas, sw := true
    legal := u || n != 8 || (regMult d 2 && (!cas || regMult p 2)) }

/-- The prefix operand of the agent that issues. -/
def State.pfxC (s : State) : Opd :=
  match s.current with
  | some (_, a) => a.prefixOf.c
  | none => .reg 0

/-- ATOM (R196). -/
def execAtom (sb u : Bool) (p : BitVec 3) (o c : BitVec 2) (d : Opd) (b x : BitVec 5) (s : State) :
    Host.Outcome State Fault Refusal :=
  issue (.atom sb u p o c d b x) sb (atomRules u (p == 7) 4 0 d s.pfxC) (atomBody u 4 p.toNat o d b x) s

/-- ATOM64 (R196). -/
def execAtom64 (sb u : Bool) (p : BitVec 3) (o c : BitVec 2) (d : Opd) (b x : BitVec 5) (s : State) :
    Host.Outcome State Fault Refusal :=
  issue (.atom64 sb u p o c d b x) sb (atomRules u (p == 7) 8 0 d s.pfxC) (atomBody u 8 p.toNat o d b x) s

/-- ATOMF (R197). -/
def execAtomf (sb u : Bool) (p : BitVec 3) (o c : BitVec 2) (d : Opd) (b x : BitVec 5) (s : State) :
    Host.Outcome State Fault Refusal :=
  issue (.atomf sb u p o c d b x) sb (atomRules u false 4 (if p.toNat < 2 then 4 else 0) d s.pfxC)
    (atomBody u 4 (8 + p.toNat) o d b x) s

/-! ## Reservations -/

/-- LR (R199): 4 bytes in vector form, 8 in uniform and lead form. -/
def execLr (sb u : Bool) (o c : BitVec 2) (d : Opd) (b x : BitVec 5) (s : State) :
    Host.Outcome State Fault Refusal :=
  let z := if u then 3 else 2
  issue (.lr sb u o c d b x) sb { memRules u .ld with dst := some d, sw := true }
    (fun s id a p =>
      MemOp.run
        { cls := .ld, md := { plain := o == 0, near := true }, n := szBytes z, kind := 0, ls := memLanes u a p
          addr := eaOf a u b x p, acc := fun _ => .lr, writes := loadWrites u z d
          zeros := loadZeros u z d (zeroLanes a p) } .switched s id) s

/-- SC (R200): success goes to a mask register, or to `D` in uniform form. -/
def execSc (sb u : Bool) (m : BitVec 3) (o c : BitVec 2) (d : Opd) (b x : BitVec 5) (s : State) :
    Host.Outcome State Fault Refusal :=
  issue (.sc sb u m o c d b x) sb { memRules u .ld with sw := true }
    (fun s id a p =>
      let n := if u then 8 else 4
      let data := fun (t : Nat) => if u then (a.getX d.code).toNat else (laneOf (a.getV d.code) t).toNat
      let writes := fun (got : List (Nat × Nat)) => got.map fun g =>
        if u then RegWrite.uni d.code (BitVec.ofNat 64 g.2) else RegWrite.mask m.toNat g.1 (g.2 == 1)
      let zeros := if u then [] else (zeroLanes a p).map fun t => RegWrite.mask m.toNat t false
      MemOp.run
        { cls := .ld, md := { plain := o == 0, near := true }, n := n, kind := 1, ls := memLanes u a p
          addr := eaOf a u b x p, acc := fun t => .sc (data t), writes := writes, zeros := zeros } .switched s id) s

/-! ## FENCE -/

/-- FENCE (R202): a full fence orders the agent's writes to UO pages for those who share its scope (R245,
R262), and with `.acq` it is an acquire (R249). What it waits behind before it is performed, without holding the issue, is said by `ordersDrains` and
`ordersRemote`; everything else is ordered already. -/
def execFence (sb : Bool) (o c : BitVec 2) (s : State) : Host.Outcome State Fault Refusal :=
  issue (.fence sb o c) sb { form := .u, u := true, okX := true, late := true }
    (fun s id _ _ => .done (if o = 0 then s.fenceUo id (c.toNat + 1) else if o = 1 then s.acquired id else s)) s

/-! ## Replies -/

/-- The agent with an outstanding instruction finished: its count falls. -/
def Agent.finishTag (a : Agent) (o : Outst) : Agent :=
  { a.setCounter o.cls (a.counter o.cls - 1) with outst := a.outst.filter fun p => p.tag != o.tag }

/-- The agent with an outstanding instruction changed. -/
def Agent.keepTag (a : Agent) (o : Outst) : Agent := { a with outst := a.outst.map fun p => if p.tag = o.tag then o else p }

/-- The answer to a request of a module unit, which then goes on: the dispatcher for a task, or the
completion of a snapshot. The answer of a home to a fault request acknowledges it (R182). -/
def State.moduleReply (s : State) (tag : Nat) (ans : Answer) : Option State :=
  let mine := fun (u : UnitRem) => u.tag == tag && u.ans.isNone
  let got : UnitRem := { tag := tag, ans := some ans }
  match s.tasks.find? fun t => t.2.want.any fun w => mine w.2 with
  | some (tcb, t) =>
    let next : Instr := if t.ending then .taskRetirement tcb else .dispatching tcb
    some { s with tasks := mapPut tcb { t with want := t.want.map fun w => (w.1, got) } s.tasks, agenda := s.agenda ++ [next] }
  | none =>
    if s.snapEnds.any fun e => e.rem.any mine then
      let l := s.snapEnds.map fun e => if e.rem.any mine then { e with rem := some got } else e
      some { s with snapEnds := l, agenda := s.agenda ++ [.drainStart] }
    else if s.faults.any fun f => f.tag == tag then
      some { s with faults := s.faults.map fun f => if f.tag = tag then { f with acked := true } else f }
    else none

/-- The answer to a request of an engine queue or of a TST or DRAIN of a core, which then goes on, or the transport's
acknowledgement of a flit that a collective has sent (R447); core 512 stands for the units of the module. -/
def State.unitReply (s : State) (c tag : Nat) (ans : Answer) : Option State :=
  if c = 512 then s.moduleReply tag ans else
  let k := s.core c
  let mine := fun (r : Option UnitRem) => match r with
    | some u => u.tag == tag && u.ans.isNone
    | none => false
  let got : Option UnitRem := some { tag := tag, ans := some ans }
  match k.jobs.find? fun j => mine j.rem with
  | some j =>
    let jobs := k.jobs.map fun x => if x.tag = j.tag then { x with rem := got } else x
    some { s.setCore c { k with jobs := jobs } with agenda := s.agenda ++ [.tileDrainDone c j.tag] }
  | none => match k.queues.find? fun p => p.2.any fun e => mine e.rem with
    | none =>
      let sent := fun (e : QEntry) => e.coll.any fun co => co.sent.any fun x => x.2 == tag
      let acked := fun (e : QEntry) => { e with coll := e.coll.map fun co => { co with sent := co.sent.filter fun x => x.2 != tag } }
      (k.queues.find? fun p => p.2.any sent).map fun p =>
        { s.setCore c { k with queues := mapPut p.1 (p.2.map acked) k.queues } with
          agenda := s.agenda ++ [.engineElement c p.1] }
    | some p =>
      let l := p.2.map fun e => if mine e.rem then { e with rem := got } else e
      let ended : Bool := match p.2 with
        | e :: _ => e.st == .done
        | [] => false
      some { s.setCore c { k with queues := mapPut p.1 l k.queues } with
        agenda := s.agenda ++ [if ended then .completionWrite c p.1 else .engineElement c p.1] }

/-- The answer of another module put with the access that waits for it. -/
def Rem.answer (r : Rem) (tag : Nat) (ans : Answer) : Rem :=
  if r.tag = tag ∧ r.ans = none then { r with ans := some ans } else r

/-- Whether an agent waits for the answer to an access, in the word that issues or in one that has issued. -/
def Agent.awaits (a : Agent) (tag : Nat) : Bool :=
  let mine := fun (r : Rem) => r.tag == tag && r.ans.isNone
  a.rem.any mine || a.late.any fun l => l.rem.any mine

/-- The agent with the answer put with the access that waits for it. -/
def Agent.answer (a : Agent) (tag : Nat) (ans : Answer) : Agent :=
  { a with rem := a.rem.map fun r => r.answer tag ans
           late := a.late.map fun l => { l with rem := l.rem.map fun r => r.answer tag ans } }

/-- A write of a reply is what later words that wait find as well (R38). -/
def State.landed (s : State) (id : AgentId) (a : Agent) (tag : Nat) (f : Agent → Agent) : State :=
  match s.agent id with
  | some b => s.setAgent id (f (b.passOn tag a))
  | none => s

/-- ACCESS_REPLY (R207): the data goes to its destination and the count falls; the answer of
another module is what the word that waits for it takes next (R183). -/
def execAccessReply (id : AgentId) (tag : Nat) (ans : Answer) (s : State) : Host.Outcome State Fault Refusal :=
  match s.unitReply id.core tag ans with
  | some s => .next s
  | none => match s.agent id with
  | none => .next s
  | some a =>
    if a.awaits tag then
      .next (s.setAgent id (a.answer tag ans))
    else finishReply a s
where
  finishReply (a : Agent) (s : State) : Host.Outcome State Fault Refusal :=
    match a.outst.find? fun o => o.tag == tag && (o.cls != .st || o.more) with
    | none => .next s
    | some o =>
      if o.more then
        .next (if o.left = 0 then (s.setAgent id (a.finishTag o)).joinFlags id a o.flags
          else s.setAgent id (a.keepTag { o with more := false }))
      else match s.applyWrites id o.writes with
      | (s, []) => .next ((s.landed id a tag fun b => b.finishTag o).joinFlags id a o.flags)
      | (s, ws) =>
        let s : State := s.landed id a tag fun b => b.keepTag { o with writes := ws }
        .next { s with agenda := s.agenda ++ [.accessReply id tag (.value 0 0)] }

/-- STORE_ACK (R14, R311): the counts fall, a signal is acknowledged (R268), and a refused access marks the task FAILED, or the
snapshot whose write to storage it is (R427). -/
def execStoreAck (id : AgentId) (lctx tcb tag n : Nat) (ok : Bool) (s : State) :
    Host.Outcome State Fault Refusal :=
  let s : State := if id.core = 512 ∧ ok = false then s.drainFails tag 1 else s
  let s : State := match s.agent id with
    | none => s
    | some a =>
      match a.outst.find? fun o => o.tag == tag && o.cls == .st with
      | none => if a.sigs.contains tag then s.setAgent id { a with sigs := a.sigs.filter (· != tag) } else s
      | some o =>
        if o.left ≤ n ∧ !o.more then (s.setAgent id (a.finishTag o)).joinFlags id a o.flags
        else s.setAgent id (a.keepTag { o with left := o.left - n })
  let s : State := match mapFind lctx (s.core id.core).placed with
    | none => s
    | some p => if p.tcb = tcb then s.setPlaced id.core lctx { p with outst := p.outst - n } else s
  let s : State := if ok then s else s.policy tcb 0x10
  .next (s.settleTask tcb)

end Sys2Proof.Machine
end

