-- ==== Sys2Proof/Machine/Alphabet.lean ====
section
/-! DEFINITION. The instructions on alphabets and packed symbols (R271 to R285). -/

namespace Sys2Proof.Machine

/-- ALD (R274): in lead code the descriptor is checked and nothing is written. -/
def execAld (sb : Bool) (l : BitVec 2) (a : Opd) (s : State) : Host.Outcome State Fault Refusal :=
  issue (.ald sb l a) sb { form := .u, u := true, src := [a], regs := true, traps := true, late := true }
    (fun s id ag _ => match readU s id a with
      | none => .wait
      | some (x, s1) =>
        if !alValid x then .trap s trIllegalInstr 0
        else if ag.lead then .done s1
        else match s1.agent id with
          | some b => .done (s1.setAgent id (b.setAl l.toNat x))
          | none => .done s1) s

/-- A word instruction (R273, R275): the threads whose function answers none are marked, and then
the instruction raises INVALID_CODE and writes nothing. -/
def symBody (d : Opd) (srcs : List Opd) (f : List Word → Option (Out 32)) (s : State) (id : AgentId)
    (a : Agent) (p : Pfx) : Res :=
  match readVs s id srcs with
  | none => .wait
  | some (vs, s1) =>
    let act := a.active p
    let out := (List.range 32).map fun t =>
      if act.getLsbD t then f (vs.map fun v => laneOf v t) else some (0, 0)
    let bad : Word := BitVec.ofBoolListLE (out.map Option.isNone) |>.setWidth 32
    if bad ≠ 0 then .trap s trInvalidCode (bad.setWidth 64)
    else
      let get := fun (t : Nat) => ((out.getD t none).getD (0, 0))
      match writeV s1 id act p.z d fun t => (get t).1 with
      | none => .wait
      | some s2 => .done (s2.raiseFlags id a (((List.range 32).map fun t => (get t).2).foldl (· ||| ·) 0))

/-- An instruction on symbols of an empty alphabet is illegal (R113). -/
def emptyFirst (ls : List (BitVec 2)) (a : Agent) : Option (Nat × Word64) :=
  if ls.any fun l => a.getAl l.toNat == 0 then some (trIllegalInstr, 0) else none

/-- The rules of a word instruction on one alphabet register. -/
def alRules (l : BitVec 2) (d : Opd) (src : List Opd) : Rules :=
  { vecRules d src 0 with traps := true, first := emptyFirst [l] }

/-- The body of a word instruction on one alphabet register. -/
def alBody (l : BitVec 2) (d : Opd) (srcs : List Opd) (f : Word64 → List Word → Option (Out 32))
    (s : State) (id : AgentId) (a : Agent) (p : Pfx) : Res :=
  symBody d srcs (f (a.getAl l.toNat)) s id a p

/-- RGET on one thread (R276). -/
def rgetOf (al : Word64) (xs : List Word) : Option (Out 32) :=
  let i := (arg xs 1).toNat
  if alN al ≤ i then some (0, 0)
  else match alRead al (arg xs 0).toNat with
    | (none, _) => none
    | (some x, f) => some (BitVec.ofInt 32 (alVal al (alCode al x i) i), f)

/-- RGET (R276). -/
def execRget (sb : Bool) (l : BitVec 2) (d a b : Opd) (s : State) : Host.Outcome State Fault Refusal :=
  issue (.rget sb l d a b) sb (alRules l d [a, b]) (alBody l d [a, b] rgetOf) s

/-- RSET on one thread: the value, the digit index and the old word (R276). -/
def rsetOf (al : Word64) (xs : List Word) : Option (Out 32) :=
  let i := (arg xs 1).toNat
  if alN al ≤ i then some (arg xs 2, 0)
  else match alRead al (arg xs 2).toNat with
    | (none, _) => none
    | (some x, f) =>
      let c := alCodeOf al (arg xs 0).toInt i
      some (BitVec.ofNat 32 (alPut al x i c.1), f ||| c.2)

/-- RSET (R276). -/
def execRset (sb : Bool) (l : BitVec 2) (d a b : Opd) (s : State) : Host.Outcome State Fault Refusal :=
  issue (.rset sb l d a b) sb { alRules l d [a, b] with legal := d.isReg } (alBody l d [a, b, d] rsetOf) s

/-- RUNPK on one thread (R277). -/
def runpkOf (al : Word64) (xs : List Word) : Option (Out 32) :=
  let j := (arg xs 1).toNat % 8
  if alN al ≤ 4 * j then some (0, 0)
  else match alRead al (arg xs 0).toNat with
    | (none, _) => none
    | (some x, f) =>
      some ((packElems 32 8 ((List.range 4).map fun k =>
        let i := 4 * j + k
        if i < alN al then alVal al (alCode al x i) i else 0)), f)

/-- RUNPK (R277). -/
def execRunpk (sb : Bool) (l : BitVec 2) (d a b : Opd) (s : State) : Host.Outcome State Fault Refusal :=
  issue (.runpk sb l d a b) sb (alRules l d [a, b]) (alBody l d [a, b] runpkOf) s

/-- RPACK on one thread: the symbol bytes, the quad index and the old word (R277). -/
def rpackOf (al : Word64) (xs : List Word) : Option (Out 32) :=
  let j := (arg xs 1).toNat % 8
  if alN al ≤ 4 * j then some (arg xs 2, 0)
  else match alRead al (arg xs 2).toNat with
    | (none, _) => none
    | (some x, f) =>
      let r := (List.range 4).foldl (fun (w : Nat × BitVec 9) k =>
        let i := 4 * j + k
        if i < alN al then
          let c := alCodeOf al (symByte al i ((arg xs 0).toNat / 2 ^ (8 * k) % 256)) i
          (alPut al w.1 i c.1, w.2 ||| c.2)
        else w) (x, f)
      some (BitVec.ofNat 32 r.1, r.2)

/-- RPACK (R277). -/
def execRpack (sb : Bool) (l : BitVec 2) (d a b : Opd) (s : State) : Host.Outcome State Fault Refusal :=
  issue (.rpack sb l d a b) sb { alRules l d [a, b] with legal := d.isReg } (alBody l d [a, b, d] rpackOf) s

/-- The value of digit `i` of a word (R114). -/
def alDigit (al : Word64) (x i : Nat) : Int := alVal al (alCode al x i) i

/-- RDOT on one thread: the two words and the addend (R278). -/
def rdotOf (sat : Bool) (la lb : Word64) (xs : List Word) : Option (Out 32) :=
  match alRead la (arg xs 0).toNat, alRead lb (arg xs 1).toNat with
  | (some x, f), (some y, g) =>
    let sum := ((List.range (alN la)).map fun i => alDigit la x i * alDigit lb y i).foldl (· + ·) (arg xs 2).toInt
    let r := if sat then saturate true true 32 sum else (sum, 0)
    some (BitVec.ofInt 32 r.1, f ||| g ||| r.2)
  | _, _ => none

/-- RDOT takes two alphabets of one length, and an addend as MAD does (R113, R278). -/
def rdotFirst (y x : BitVec 2) (d : Opd) (a : Agent) : Option (Nat × Word64) :=
  if alN (a.getAl x.toNat) ≠ alN (a.getAl y.toNat) then some (trIllegalInstr, 0)
  else (emptyFirst [x, y] a).or (addendFirst d a)

/-- RDOT (R278): `y` names the alphabet of A and `x` that of B (`FN`[1:0] and [3:2]). -/
def execRdot (sb q : Bool) (y x : BitVec 2) (d a b : Opd) (s : State) : Host.Outcome State Fault Refusal :=
  issue (.rdot sb q y x d a b) sb { vecRules d [a, b] 0 with okC := true, traps := true, first := rdotFirst y x d }
    (fun s id ag p => symBody d [a, b, fourth ag p d] (rdotOf q (ag.getAl x.toNat) (ag.getAl y.toNat)) s id ag p) s

/-- RSUM on one thread (R279). -/
def rsumOf (al : Word64) (xs : List Word) : Option (Out 32) :=
  match alRead al (arg xs 0).toNat with
  | (none, _) => none
  | (some x, f) =>
    some (BitVec.ofInt 32 (((List.range (alN al)).map fun i => alDigit al x i).foldl (· + ·) (arg xs 1).toInt), f)

/-- RSUM (R279). -/
def execRsum (sb : Bool) (l : BitVec 2) (d a b : Opd) (s : State) : Host.Outcome State Fault Refusal :=
  issue (.rsum sb l d a b) sb (alRules l d [a, b]) (alBody l d [a, b] rsumOf) s

/-- RCNT on one thread (R279). -/
def rcntOf (al : Word64) (xs : List Word) : Option (Out 32) :=
  match alRead al (arg xs 0).toNat with
  | (none, _) => none
  | (some x, f) =>
    some (BitVec.ofNat 32 ((List.range (alN al)).countP fun i => alDigit al x i == (arg xs 1).toInt), f)

/-- RCNT (R279). -/
def execRcnt (sb : Bool) (l : BitVec 2) (d a b : Opd) (s : State) : Host.Outcome State Fault Refusal :=
  issue (.rcnt sb l d a b) sb (alRules l d [a, b]) (alBody l d [a, b] rcntOf) s

/-- RCHK (R280). -/
def execRchk (sb : Bool) (l : BitVec 2) (d a : Opd) (s : State) : Host.Outcome State Fault Refusal :=
  issue (.rchk sb l d a) sb (alRules l d [a])
    (alBody l d [a] fun al xs => some (if alP al ≤ (arg xs 0).toNat then 1 else 0, 0)) s

/-- RMAP on one thread (R281). -/
def rmapOf (ls lt : Word64) (xs : List Word) : Option (Out 32) :=
  match alRead ls (arg xs 0).toNat with
  | (none, _) => none
  | (some x, f) =>
    let r := (List.range (alN ls)).foldl (fun (w : Nat × BitVec 9) i =>
      let v := alDigit ls x i
      if i < alN lt then
        let c := alCodeOf lt v i
        (alPut lt w.1 i c.1, w.2 ||| c.2)
      else (w.1, w.2 ||| flagIf (v != 0) flRANGE)) (alZero lt, f)
    some (BitVec.ofNat 32 r.1, r.2)

/-- RMAP (R281). -/
def execRmap (sb : Bool) (l : BitVec 2) (d a : Opd) (k : BitVec 2) (s : State) :
    Host.Outcome State Fault Refusal :=
  issue (.rmap sb l d a k) sb { alRules l d [a] with first := emptyFirst [l, k] }
    (fun s id ag p => symBody d [a] (rmapOf (ag.getAl l.toNat) (ag.getAl k.toNat)) s id ag p) s

/-! ## SYMLD and SYMST (R282 to R285) -/

/-- The element number of a thread. -/
def symElem (a : Agent) (x : BitVec 5) (t : Nat) : Nat := (laneOf (a.getV x.toNat) t).toNat

/-- The word that holds a symbol (R282). -/
def symAddr (a : Agent) (al : Word64) (b x : BitVec 5) (p : Pfx) (t : Nat) : Word64 :=
  a.getX b.toNat + BitVec.ofNat 64 (4 * (symElem a x t / alN al)) + p.off

/-- The threads whose loaded word is invalid under an alphabet that traps (R273). -/
def symMarks (al : Word64) (got : List (Nat × Nat)) : Word :=
  got.foldl (fun m g => if alTrap al && decide (alP al ≤ g.2) then m ||| BitVec.twoPow 32 g.1 else m) 0

/-- The rules of SYMLD and SYMST: under an alphabet that traps they hold the issue until every word has returned or
is acknowledged (R283, R284). -/
def symRules (s : State) (l : BitVec 2) (cls : CtrClass) : Rules :=
  { form := .v, u := false, cls := some cls, okM := true, okX := true, first := emptyFirst [l]
    late := match s.current with
      | some (_, a) => !alTrap (a.getAl l.toNat)
      | none => false }

/-- SYMLD (R283). -/
def execSymld (sb : Bool) (l o c : BitVec 2) (d : Opd) (b x : BitVec 5) (s : State) :
    Host.Outcome State Fault Refusal :=
  issue (.symld sb l o c d b x) sb
    { symRules s l .ld with dst := some d }
    (fun s id a p =>
      let al := a.getAl l.toNat
      if !roomFor s id a false d then .wait
      else
        let value := fun (g : Nat × Nat) =>
          let i := symElem a x g.1 % alN al
          let w := ((alRead al g.2).1).getD 0
          (g.1, (BitVec.ofInt 32 (alDigit al w i)).toNat)
        MemOp.run
          { cls := .ld, md := { plain := o == 0 }, n := 4, kind := 0, ls := memLanes false a p
            addr := symAddr a al b x p, acc := fun _ => .load
            writes := fun got => loadWrites false 2 d (got.map value), flag := fun g => (alRead al g.2).2
            zeros := loadZeros false 2 d (zeroLanes a p), whole := !d.isReg || alTrap al
            marks := symMarks al, sync := alTrap al } .done s id) s

/-- SYMST (R284). A refused one raises ACCESS in its agent and is no posted store that fails its task (log
entry 78). -/
def execSymst (sb : Bool) (l o c : BitVec 2) (d : Opd) (b x : BitVec 5) (s : State) :
    Host.Outcome State Fault Refusal :=
  issue (.symst sb l o c d b x) sb
    { symRules s l .st with legal := d.isReg }
    (fun s id a p =>
      let al := a.getAl l.toNat
      MemOp.run
        { cls := .st, md := { plain := o == 0, near := true }, n := 4, kind := 1, ls := memLanes false a p
          addr := symAddr a al b x p
          acc := fun t => .sym al (symElem a x t % alN al) (laneOf (a.getV d.code) t).toInt
          marks := fun got => got.foldl (fun m g => if g.2 = 1 then m ||| BitVec.twoPow 32 g.1 else m) 0
          whole := alTrap al, sync := alTrap al } .done s id) s

end Sys2Proof.Machine
end

