-- ==== Sys2Proof/Machine/Barrier.lean ====
section
/-! DEFINITION. Barriers and signals (R289 to R299, R441). -/

namespace Sys2Proof.Machine

/-! ## Words that one access completes -/

/-- One access of a uniform word; what follows when it is performed. -/
def oneAccess (s : State) (id : AgentId) (va : Word64) (n : Nat) (md : Mode) (acc : Acc)
    (k : State → Nat → Res) : Res :=
  match s.agent id with
  | none => .hold s
  | some a =>
    match s.access id a 0 va n md acc with
    | (s, .val x _) => k s x
    | (s, .failed) => k s 0
    | (s, .wait) => .hold s
    | (s, .trap c i) => .trap s c i
    | (s, .fault va h m) => .fault s va acc.kind.code a.perf h m
    | (s, .poison pa va) => .poison s pa va
    | (s, .fatal va) => .fatal s 7 0 va

/-- The uniform sources of a word that may wait, and what takes their channel elements once the
word is done. -/
def withU (s : State) (id : AgentId) (l : List Opd) (k : List Word64 → (State → State) → Res) : Res :=
  match readUs s id l with
  | none => .wait
  | some (xs, _) => k xs fun s => ((readUs s id l).map Prod.snd).getD s

/-- A word done with a result for a uniform register. -/
def doneU (s : State) (id : AgentId) (pop : State → State) (d : Opd) (x : Word64) : Res :=
  .done ((writeU (pop s) id d x).getD (pop s))

/-! ## Barriers (R292 to R296) -/

/-- The status word of a barrier instruction (R293). -/
def barWord (st arr ph : Nat) : Word64 := BitVec.ofNat 64 (st * 2 ^ 56 + arr * 2 ^ 32 + ph)

/-- What an object operation of a barrier allows of its access (R289, R294): never weakened, and
never through a storage window. -/
def barMode : Mode := { plain := false }

/-- The same for BARW and BARS, which do not time out (R294). -/
def waitMode : Mode := { plain := false, patient := true }

/-- The rules of the barrier instructions (R292). They hold the issue for their access, whose status the next word
may read (R38); one that waits for a channel element, and not for a phase, counts under CHN instead. -/
def barRules (pops : Bool) (d : Opd) (src : List Opd) : Rules :=
  { form := .u, u := true, src := src, legal := d.isReg, late := pops && !src.all Opd.isReg }

/-- A barrier instruction once its address is known to be aligned (R294). -/
def withBarrier (s : State) (id : AgentId) (l : List Opd)
    (k : List Word64 → (State → State) → Res) : Res :=
  withU s id l fun xs pop => if (arg xs 0).toNat % 32 ≠ 0 then .trap s trMisaligned 1 else k xs pop

/-- BARI (R291, R293, R294). -/
def execBari (sb : Bool) (d a b : Opd) (s : State) : Host.Outcome State Fault Refusal :=
  issue (.bari sb d a b) sb (barRules true d [a, b])
    (fun s id _ _ => withBarrier s id [a, b] fun xs pop =>
      let cfg := arg xs 1
      let bad := getF cfg 26 38 ≠ 0 ∨ getF cfg 0 24 = 0 ∨ getF cfg 24 2 = 0
      oneAccess s id (arg xs 0) 32 barMode (.obj (if bad then .probe else .bari cfg)) fun s o =>
        doneU s id pop d (if bad ∨ barBad o then barWord 3 0 0 else barWord 0 0 (barPhase o))) s

/-- Whether an arrival would add a ninth barrier to the join list (R295). -/
def Agent.joinsFull (a : Agent) (va : Word64) : Bool := decide (8 ≤ a.joins.length) && !a.joins.contains va

/-- The barrier recorded in the join list (R295). -/
def Agent.join (a : Agent) (va : Word64) : Agent :=
  if a.joins.contains va then a else { a with joins := a.joins ++ [va] }

/-- An arrival (R294, R295): what follows an arrival in a phase, and what follows a status
other than OK. -/
def arrive (md : Mode) (s : State) (id : AgentId) (va : Word64) (arrived : State → Nat → Res) (other : State → Nat → Res) : Res :=
  match s.agent id with
  | none => .hold s
  | some a =>
    if a.joinsFull va then
      oneAccess s id va 32 md (.obj .probe) fun s o =>
        if barSt o = 0 then .trap s trResource 0 else other s (barSt o)
    else
      oneAccess s id va 32 md (.obj .bara) fun s o =>
        if barSt o ≠ 0 then other s (barSt o)
        else
          let s : State := match s.agent id with
            | some b => s.setAgent id (b.join va)
            | none => s
          arrived s (barPhase o)

/-- BARA (R294). -/
def execBara (sb : Bool) (d a : Opd) (s : State) : Host.Outcome State Fault Refusal :=
  issue (.bara sb d a) sb (barRules true d [a])
    (fun s id _ _ => withBarrier s id [a] fun xs pop =>
      arrive barMode s id (arg xs 0) (fun s ph => doneU s id pop d (barWord 0 0 ph))
        (fun s st => doneU s id pop d (barWord st 0 0))) s

/-- The number under which a word keeps that it waits for a phase. -/
def waitKey : Nat := 700

/-- The agent waits for a phase: what ends that phase before a mark counts (R296). -/
def State.waits (s : State) (id : AgentId) : State :=
  match s.agent id with
  | some a => s.setAgent id { a with got := mapPut waitKey 1 a.got }
  | none => s

/-- The wait for the end of a phase (R294). A phase that was released while the agent waited stays released where an
agent has abandoned the barrier since (R296). A word that issues again after a pre-emption or a park has not waited:
what it finds then the manual leaves open, and here it finds the barrier abandoned (log entry 95). -/
def awaitPhase (s : State) (id : AgentId) (va : Word64) (ph : Nat) (k : State → Word64 → Res) : Res :=
  oneAccess s id va 32 waitMode (.obj .probe) fun s o =>
    let waited := match s.agent id with
      | some a => (mapFind waitKey a.got).isSome
      | none => false
    let st := if waited && barPhase o != ph && barSt o == 1 && bitsOf o 120 120 == 1 then 0 else barSt o
    if st ≠ 0 then k s (barWord st 0 0)
    else if barPhase o = ph then .hold (s.waits id)
    else k s (barWord 0 0 (barPhase o))

/-- BARW (R294). -/
def execBarw (sb : Bool) (d a b : Opd) (s : State) : Host.Outcome State Fault Refusal :=
  issue (.barw sb d a b) sb (barRules false d [a, b])
    (fun s id _ _ => withBarrier s id [a, b] fun xs pop =>
      awaitPhase s id (arg xs 0) ((arg xs 1).toNat % 2 ^ 32) fun s x => doneU s id pop d x) s

/-- BARS (R294): the arrival, and then the wait, which alone is done again after a pre-emption
or a fault. -/
def execBars (sb : Bool) (d a : Opd) (s : State) : Host.Outcome State Fault Refusal :=
  issue (.bars sb d a) sb (barRules false d [a])
    (fun s id ag _ => withBarrier s id [a] fun xs pop =>
      let setWait := fun (s : State) (w : Option Word) => match s.agent id with
        | some b => s.setAgent id { b with bwait := w }
        | none => s
      let rest := fun (s : State) (ph : Nat) => awaitPhase s id (arg xs 0) ph fun s x => doneU (setWait s none) id pop d x
      match ag.bwait with
      | some ph => rest s ph.toNat
      | none =>
        arrive waitMode s id (arg xs 0) (fun s ph => rest ((setWait s (some (BitVec.ofNat 32 ph))).waits id) ph)
          (fun s st => doneU s id pop d (barWord st 0 0))) s

/-- BARQ (R294). -/
def execBarq (sb : Bool) (d a : Opd) (s : State) : Host.Outcome State Fault Refusal :=
  issue (.barq sb d a) sb (barRules true d [a])
    (fun s id _ _ => withBarrier s id [a] fun xs pop =>
      oneAccess s id (arg xs 0) 32 barMode (.obj .probe) fun s o =>
        doneU s id pop d (barWord (barSt o) (bitsOf o 23 0) (barPhase o))) s

/-! ## Signals (R298, R299, R441) -/

/-- A signal as it is sent (R441). -/
def signalMsg (k tcb : Nat) (x : Word64) : BitVec 256 :=
  BitVec.ofNat 256 (x.toNat + tcb % 2 ^ 40 * 2 ^ 64 + k * 2 ^ 128)

/-- SIGR (R298): the target's address translates as a load, and the signal is on its way; it
counts as outstanding until the target has accepted or refused it. As a release of system scope it is sent
when the agent's earlier stores to other modules are acknowledged (`ordersRemote`, R440), without holding the
issue, and one to another module is a remote access that later releases wait for (R268). A forward entry names a home
and no physical address: the manual does not say how the target module is found there, and here the signal fails
(log entry 98). -/
def execSigr (sb : Bool) (a b : Opd) (s : State) : Host.Outcome State Fault Refusal :=
  issue (.sigr sb a b) sb { form := .u, u := true, okC := true, src := [a, b], late := true }
    (fun s id ag p => withU s id [a, b, if ag.pfx.isSome then p.c else .reg 0] fun xs pop =>
      let va := arg xs 0
      let k := (arg xs 2).toNat % 2 ^ 9
      let count := fun (s : State) => match s.placedOf id ag with
        | some q => s.setPlaced id.core ag.lctx { q with outst := q.outst + 1 }
        | none => s
      let after := fun (s : State) (i : Instr) =>
        let s := count (pop s)
        Res.done { s with agenda := s.agenda ++ [i] }
      let fail : Instr := .storeAck id ag.lctx ag.tcb 0 1 false
      match s.translate (reqOf id ag) va.toNat .load with
      | (s, .ok t) =>
        let m := t.pa / 2 ^ 40
        let msg := signalMsg k t.pa (arg xs 1)
        if t.win.isSome then .trap s trAccess va
        else if m = s.modid then
          after s (.signalReceive (.here id ag.lctx ag.tcb) msg)
        else if s.routed m then
          let s := count (pop s)
          let t := s.ntag
          let s : State := match s.agent id with
            | some b => s.setAgent id { b with sigs := b.sigs ++ [t] }
            | none => s
          .done { s with ntag := t + 1, outbox := s.outbox ++
            [{ kind := .signal, dst := m, fields := [t, ag.ctx, ag.lctx, id.core, id.idx, msg.toNat] }] }
        else after s fail
      | (s, .fwd _) => after s fail
      | (s, .access) => .trap s trAccess va
      | (s, .stale) => .hold (s.retranslate id ag.lctx (va.toNat / 65536))
      | (s, .missing h m) => .fault s va 0 ag.perf h m
      | (s, .fatal _) => .fatal s 7 0 va) s

/-- SIGW (R299). -/
def execSigw (sb : Bool) (d : Opd) (s : State) : Host.Outcome State Fault Refusal :=
  issue (.sigw sb d) sb { form := .u, u := true, src := [.chan false 14], legal := d.isReg, regs := true }
    (fun s id ag _ => match readTask s id ag false 14 with
      | none => .wait
      | some (x, s) => doneU s id (fun s => s) d x) s

/-- The core and lead context whose inbox a signal of ordinal `k` enters (R298). -/
def Task.inboxOf (t : Task) (k : Nat) : Option (Nat × Nat) := t.cores[k % t.cores.length]?

/-- SIGNAL_RECEIVE (R298, R441): the element enters the inbox, waits for room there, or is
refused. -/
def execSignalReceive (w : SigFrom) (msg : BitVec 256) (s : State) : Host.Outcome State Fault Refusal :=
  let tcb := getF msg 64 40
  let bad := getF msg 104 24 ≠ 0 ∨ getF msg 137 119 ≠ 0 ∨ !s.isTcb tcb
  let dropped := match w with
    | .here _ _ _ => false
    | .endpt e _ => !(mapGet 0 s.endpts e).getLsbD 128
  if dropped then .next s
  else
    match mapFind tcb s.tasks with
    | none => .next (s.ackSignal w false)
    | some t =>
      if bad ∨ t.st ≠ .running then .next (s.ackSignal w false)
      else match t.inboxOf (getF msg 128 9) with
        | none => .next (s.ackSignal w false)
        | some (c, l) => match mapFind l (s.core c).placed with
          | none => .next (s.ackSignal w false)
          | some p =>
            let x := BitVec.ofNat 64 (getF msg 0 64)
            if p.inbox.isEmpty then
              match pushTask s c l false 14 x with
              | some s => .next (s.ackSignal w true)
              | none => .next (s.setPlaced c l { p with inbox := [{ value := x, sender := w }] })
            else .next (s.setPlaced c l { p with inbox := p.inbox ++ [{ value := x, sender := w }] })

end Sys2Proof.Machine
end

