-- ==== Sys2Proof/Machine/Extent.lean ====
section
/-! DEFINITION. The extents that the dispatcher makes of the declared ranges of a task (R176), and
their second translation (R185). -/

namespace Sys2Proof.Machine

/-- The flags that the ranges of a task declare for a page: R in bit 0 and W in bit 1, the union
over the ranges that cover it. A range is its base, its length and its flags. -/
def pageFlags (ranges : List (Nat × Nat × Nat)) (vpn : Nat) : Nat :=
  (ranges.filter fun r => decide (r.1 / 65536 ≤ vpn ∧ vpn ≤ (r.1 + r.2.1 - 1) / 65536)).foldl (fun f r => f ||| r.2.2 % 4) 0

/-- The pages of ranges, ascending, each once. -/
def rangePages (ranges : List (Nat × Nat × Nat)) : List Nat :=
  let ps := ranges.flatMap fun r =>
    (List.range ((r.1 + r.2.1 - 1) / 65536 - r.1 / 65536 + 1)).map fun i => r.1 / 65536 + i
  (ps.foldl (fun (m : SMap Unit) v => mapPut v () m) []).map Prod.fst

/-- The extent of one page: the permissions of its leaf that its range declares (R176), with the leaf (R174)
and the window entries that cover the page (R186). -/
def pageExtent (e vpn flags : Nat) (win : List Nat) : Extent :=
  { vbase := vpn, pbase := leafPa e (vpn * 65536) / 65536, npg := 1, d := leafD e, sup := leafS e, x := leafX e
    w := leafW e && flags.testBit 1, r := leafR e && flags.testBit 0, ord := leafOrd e, stale := false
    leaves := [BitVec.ofNat 64 e], decl := flags, win := win }

/-- Whether a page continues an extent. -/
def Extent.joins (a b : Extent) : Bool :=
  a.vbase + a.npg == b.vbase && a.pbase + a.npg == b.pbase &&
    { a with vbase := 0, pbase := 0, npg := 0, leaves := [] } == { b with vbase := 0, pbase := 0, npg := 0, leaves := [] }

/-- Extents in order with one page more. -/
def addPage (l : List Extent) (b : Extent) : List Extent :=
  match l with
  | [] => [b]
  | [a] => if a.joins b then [{ a with npg := a.npg + b.npg, leaves := a.leaves ++ b.leaves }] else [a, b]
  | a :: t => a :: addPage t b

/-- What the translation of pages comes to: their extents, or the first page that is not there. -/
inductive Pages where
  | all (s : State) (l : List Extent)
  | missing (s : State) (vpn : Nat) (home : Option Nat) (malformed : Bool)
  | fatal (s : State) (va : Nat)

/-- One page translated for an extent, with its `A` bit set (R174): its extent, none for a page
that another module is the home of, or an error where a table cannot be read (R180). -/
def State.extentPage (s : State) (ctx vpn flags : Nat) : Walk → State × Except Unit (Option Extent)
  | .leaf e pte =>
    let e' := if leafA e then e else e + 2 ^ 13
    match s.windowsOf ctx vpn 1 with
    | .ok win => (if leafA e then s else s.hwPut pte 8 e', .ok (some (pageExtent e' vpn flags win)))
    | .error _ => (s, .error ())
  | .fatal _ => (s, .error ())
  | _ => (s, .ok none)

/-- Extents with that of one page more, as long as there is room. -/
def addWithin (room : Nat) (l : List Extent) : Option Extent → List Extent
  | some x => if (addPage l x).length ≤ room then addPage l x else l
  | none => l

/-- Pages with their declared flags translated into at most `room` extents (R176). -/
def State.translatePages (s : State) (ctx room : Nat) : List (Nat × Nat) → List Extent → Pages
  | [], l => .all s l
  | (vpn, flags) :: t, l =>
    let w := s.walk ctx (vpn * 65536)
    match w with
    | .missing h m => .missing s vpn h m
    | w => match s.extentPage ctx vpn flags w with
      | (s, .error _) => .fatal s (vpn * 65536)
      | (s, .ok x) => s.translatePages ctx room t (addWithin room l x)

/-- The pages of a stale extent translated again (R185): those that are there make extents, and the
others are left to the walk. A walk that fails ends it at its address (R180). -/
def State.translateAgain (s : State) (ctx room : Nat) : List (Nat × Nat) → List Extent → State × List Extent × Option Nat
  | [], l => (s, l, none)
  | (vpn, flags) :: t, l =>
    match s.extentPage ctx vpn flags (s.walk ctx (vpn * 65536)) with
    | (s, .error _) => (s, l, some (vpn * 65536))
    | (s, .ok x) => s.translateAgain ctx room t (addWithin room l x)

/-- A walk for a unit whose reads fail is fatal for its context (R180, R421). -/
def State.walkFatal (s : State) (ctx core va task : Nat) : State :=
  s.ctxFatal ctx { level := 3, cause := 7, core := core, slot := 0, lead := false, pa := 0, va := va, pc := 0, task := task }

/-- EXTENT_RETRANSLATE (R185): the extent that holds a page is translated again. -/
def execExtentRetranslate (core lctx vpn : Nat) (s : State) : Host.Outcome State Fault Refusal :=
  match mapFind lctx (s.core core).placed with
  | none => .next s
  | some p => match findExtent p vpn with
    | none => .next s
    | some x =>
      if !x.stale then .next s
      else
        let keep := p.exts.filter fun y => y.vbase != x.vbase
        let declared := fun (v : Nat) => match (mapFind p.tcb s.tasks).bind Task.prep with
          | some q => pageFlags q.ranges v
          | none => x.decl
        let pages := (List.range x.npg).map fun i => (x.vbase + i, declared (x.vbase + i))
        let q := s.translateAgain p.ctx (64 - keep.length) pages []
        let exts := ((keep ++ q.2.1).foldl (fun (m : SMap Extent) x => mapPut x.vbase x m) []).map Prod.snd
        .next (match q.2.2 with
          | some va => q.1.walkFatal p.ctx core va (q.1.vaOf p.tcb)
          | none => q.1.setPlaced core lctx { p with exts := exts })

end Sys2Proof.Machine
end

