-- ==== Sys2Proof/Machine/Integer.lean ====
section
/-! DEFINITION. The register instructions with an integer or no type: arithmetic, logic,
comparison, moves and constants (R56, R128 to R147), with the float types of the shared
operations (R148 to R152). -/

namespace Sys2Proof.Machine

/-- The rounding codes that a word of type `t` accepts from its prefix (R128, R148). -/
def rndOf (t : BitVec 3) : Nat := if tyFloat t then 4 else 0

/-- NOP (R56): nothing but the switch marker. -/
def execNop (sb u : Bool) (s : State) : Host.Outcome State Fault Refusal :=
  issue (.nop sb u) sb { form := .any, u := u, regs := true } (fun s _ _ _ => .done s) s

/-- ADD (R130, R150). -/
def execAdd (sb u q : Bool) (t : BitVec 3) (d a b : Opd) (s : State) : Host.Outcome State Fault Refusal :=
  issue (.add sb u q t d a b) sb (regRules u d [a, b] (rndOf t))
    (fun s id ag p => alu2 u d a b (aluAdd q t p.rnd.toNat) (aluAdd q t p.rnd.toNat) s id ag p) s

/-- SUB (R130, R150). -/
def execSub (sb u q : Bool) (t : BitVec 3) (d a b : Opd) (s : State) : Host.Outcome State Fault Refusal :=
  issue (.sub sb u q t d a b) sb (regRules u d [a, b] (rndOf t))
    (fun s id ag p => alu2 u d a b (aluSub q t p.rnd.toNat) (aluSub q t p.rnd.toNat) s id ag p) s

/-- MUL (R130, R150). -/
def execMul (sb u q : Bool) (t : BitVec 3) (d a b : Opd) (s : State) : Host.Outcome State Fault Refusal :=
  issue (.mul sb u q t d a b) sb (regRules u d [a, b] (rndOf t))
    (fun s id ag p => alu2 u d a b (aluMul q t p.rnd.toNat) (aluMul q t p.rnd.toNat) s id ag p) s

/-- MULH (R132). -/
def execMulh (sb u : Bool) (t : BitVec 3) (d a b : Opd) (s : State) : Host.Outcome State Fault Refusal :=
  issue (.mulh sb u t d a b) sb (regRules u d [a, b] 0) (alu2 u d a b (aluMulh t) (aluMulh t)) s

/-- MAD (R130, R131, R150). -/
def execMad (sb u q : Bool) (t : BitVec 3) (d a b : Opd) (s : State) : Host.Outcome State Fault Refusal :=
  issue (.mad sb u q t d a b) sb { regRules u d [a, b] (rndOf t) with okC := true, first := addendFirst d }
    (alu3 u d a b (fun x y z r => aluMad q t r x y z) (fun x y z r => aluMad q t r x y z)) s

/-- MIN (R133, R151). -/
def execMin (sb u : Bool) (t : BitVec 3) (d a b : Opd) (s : State) : Host.Outcome State Fault Refusal :=
  issue (.min sb u t d a b) sb (regRules u d [a, b] 0) (alu2 u d a b (aluMinMax false t) (aluMinMax false t)) s

/-- MAX (R133, R151). -/
def execMax (sb u : Bool) (t : BitVec 3) (d a b : Opd) (s : State) : Host.Outcome State Fault Refusal :=
  issue (.max sb u t d a b) sb (regRules u d [a, b] 0) (alu2 u d a b (aluMinMax true t) (aluMinMax true t)) s

/-- ABSD (R133, R150). -/
def execAbsd (sb u : Bool) (t : BitVec 3) (d a b : Opd) (s : State) : Host.Outcome State Fault Refusal :=
  issue (.absd sb u t d a b) sb (regRules u d [a, b] (rndOf t))
    (fun s id ag p => alu2 u d a b (aluAbsd t p.rnd.toNat) (aluAbsd t p.rnd.toNat) s id ag p) s

/-- DIV (R134, R150). -/
def execDiv (sb u : Bool) (t : BitVec 3) (d a b : Opd) (s : State) : Host.Outcome State Fault Refusal :=
  issue (.div sb u t d a b) sb (regRules u d [a, b] (rndOf t))
    (fun s id ag p => alu2 u d a b (aluDiv t p.rnd.toNat) (aluDiv t p.rnd.toNat) s id ag p) s

/-- REM (R134). -/
def execRem (sb u : Bool) (t : BitVec 3) (d a b : Opd) (s : State) : Host.Outcome State Fault Refusal :=
  issue (.rem sb u t d a b) sb (regRules u d [a, b] 0) (alu2 u d a b (intRem t) (intRem t)) s

/-- LOGIC (R135). -/
def execLogic (sb u : Bool) (f : BitVec 5) (d a b : Opd) (s : State) : Host.Outcome State Fault Refusal :=
  issue (.logic sb u f d a b) sb (regRules u d [a, b] 0)
    (alu2 u d a b (fun x y => (aluLogic f x y, 0)) (fun x y => (aluLogic f x y, 0))) s

/-- SHIFT (R136). -/
def execShift (sb u : Bool) (e : BitVec 3) (p : BitVec 2) (d a b : Opd) (s : State) :
    Host.Outcome State Fault Refusal :=
  issue (.shift sb u e p d a b) sb (regRules u d [a, b] 0)
    (alu2 u d a b (fun x y => (aluShift e p x y, 0)) (fun x y => (aluShift e p x y, 0))) s

/-- BITS (R137). -/
def execBits (sb u : Bool) (f : BitVec 5) (d a : Opd) (s : State) : Host.Outcome State Fault Refusal :=
  issue (.bits sb u f d a) sb (regRules u d [a] 0)
    (alu1 u d a (fun x => (aluBits f x, 0)) (fun x => (aluBits f x, 0))) s

/-- BFX (R138). -/
def execBfx (sb u e : Bool) (d a b : Opd) (s : State) : Host.Outcome State Fault Refusal :=
  issue (.bfx sb u e d a b) sb (regRules u d [a, b] 0)
    (alu2 u d a b (fun x y => (aluBfx e x y, 0)) (fun x y => (aluBfx e x y, 0))) s

/-- BFI (R138): it reads its old destination, which may not be a channel. -/
def execBfi (sb u : Bool) (d a b : Opd) (s : State) : Host.Outcome State Fault Refusal :=
  issue (.bfi sb u d a b) sb { regRules u d [a, b] 0 with legal := d.isReg }
    (if u then uniBody d [a, b, d] fun xs => (aluBfi (arg xs 0) (arg xs 1) (arg xs 2), 0)
     else vecBody d [a, b, d] fun xs _ => (aluBfi (arg xs 0) (arg xs 1) (arg xs 2), 0)) s

/-- PERM (R139): the selector is the fourth operand, or the identity without a prefix. -/
def execPerm (sb u : Bool) (d a b : Opd) (s : State) : Host.Outcome State Fault Refusal :=
  issue (.perm sb u d a b) sb { regRules u d [a, b] 0 with okC := true }
    (fun s id ag p =>
      if ag.pfx.isSome then
        if u then uniBody d [a, b, p.c] (fun xs => (permUni (arg xs 0) (arg xs 1) (arg xs 2), 0)) s id ag p
        else vecBody d [a, b, p.c] (fun xs _ => (permVec (arg xs 0) (arg xs 1) (arg xs 2), 0)) s id ag p
      else alu2 u d a b (fun x y => (permVec x y 0x3210, 0)) (fun x y => (permUni x y 0x76543210, 0)) s id ag p) s

/-- SEL (R141). -/
def execSel (sb : Bool) (m : BitVec 3) (d a b : Opd) (s : State) : Host.Outcome State Fault Refusal :=
  issue (.sel sb m d a b) sb (vecRules d [a, b] 0)
    (fun s id ag p =>
      vecBody d [a, b] (fun xs t => (if (ag.getM m.toNat).getLsbD t then arg xs 0 else arg xs 1, 0)) s id ag p) s

/-- CMP (R140, R152): a mask in vector form, 1 or 0 in uniform form. -/
def execCmp (sb u : Bool) (c : BitVec 3) (y : BitVec 2) (d a b : Opd) (s : State) :
    Host.Outcome State Fault Refusal :=
  issue (.cmp sb u c y d a b) sb
    { regRules u d [a, b] 0 with dst := if u then some d else none }
    (if u then
      uniBody d [a, b] fun xs =>
        let r := aluCmp c y (arg xs 0) (arg xs 1)
        (if r.1 then 1 else 0, r.2)
     else fun s id ag p =>
      match readVs s id [a, b] with
      | none => .wait
      | some (vs, s1) =>
        let act := ag.active p
        let out := (List.range 32).map fun t =>
          if act.getLsbD t then aluCmp c y (laneOf (vs.getD 0 zeroV) t) (laneOf (vs.getD 1 zeroV) t)
          else (false, 0)
        .done ((writeM s1 id act p.z (d.code % 8) fun t => (out.getD t (false, 0)).1).raiseFlags id ag
          ((out.map Prod.snd).foldl (· ||| ·) 0))) s

/-- MOV (R142). -/
def execMov (sb u : Bool) (d a : Opd) (s : State) : Host.Outcome State Fault Refusal :=
  issue (.mov sb u d a) sb (regRules u d [a] 0) (alu1 u d a (fun x => (x, 0)) (fun x => (x, 0))) s

/-- MOV.bcast (R143): the low half of a uniform register in every active thread. -/
def execBcast (sb : Bool) (d : Opd) (g : BitVec 5) (s : State) : Host.Outcome State Fault Refusal :=
  issue (.bcast sb d g) sb (vecRules d [] 0)
    (fun s id ag p => vecBody d [] (fun _ _ => ((ag.getX g.toNat).setWidth 32, 0)) s id ag p) s

/-- The immediate of a word of `n` bits under a prefix: `X10` above the field (R46). -/
def extended (n : Nat) (i : BitVec n) (a : Agent) (p : Pfx) : Int :=
  if a.pfx.isSome then (p.x ++ i).toInt else i.toInt

/-- The same immediate read as unsigned (R144). -/
def extendedNat (n : Nat) (i : BitVec n) (a : Agent) (p : Pfx) : Nat :=
  if a.pfx.isSome then (p.x ++ i).toNat else i.toNat

/-- MOVI (R144). -/
def execMovi (sb u : Bool) (d : Opd) (i : BitVec 17) (s : State) : Host.Outcome State Fault Refusal :=
  issue (.movi sb u d i) sb { regRules u d [] 0 with okX := true }
    (fun s id ag p =>
      let x := extended 17 i ag p
      if u then uniBody d [] (fun _ => (BitVec.ofInt 64 x, 0)) s id ag p
      else vecBody d [] (fun _ _ => (BitVec.ofInt 32 x, 0)) s id ag p) s

/-- MOVH (R144): bits from 15 upward replaced, in a register alone. -/
def execMovh (sb u : Bool) (d : Opd) (i : BitVec 17) (s : State) : Host.Outcome State Fault Refusal :=
  issue (.movh sb u d i) sb { regRules u d [] 0 with okX := u, legal := d.isReg }
    (fun s id ag p =>
      let x := extendedNat 17 i ag p
      let n := if u && ag.pfx.isSome then 27 else 17
      if u then uniBody d [d] (fun xs => (setF (arg xs 0) 15 n x, 0)) s id ag p
      else vecBody d [d] (fun xs _ => (setF (arg xs 0) 15 17 x, 0)) s id ag p) s

/-- ADDI (R145). -/
def execAddi (sb u : Bool) (d a : Opd) (i : BitVec 11) (s : State) : Host.Outcome State Fault Refusal :=
  issue (.addi sb u d a i) sb { regRules u d [a] 0 with okX := true }
    (fun s id ag p =>
      let x := extended 11 i ag p
      alu1 u d a (fun y => (y + BitVec.ofInt 32 x, 0)) (fun y => (y + BitVec.ofInt 64 x, 0)) s id ag p) s

/-- LEA (R146). -/
def execLea (sb u : Bool) (h : BitVec 3) (d a b : Opd) (s : State) : Host.Outcome State Fault Refusal :=
  issue (.lea sb u h d a b) sb (regRules u d [a, b] 0)
    (alu2 u d a b (fun x y => (aluLea h x y, 0)) (fun x y => (aluLea h x y, 0))) s

end Sys2Proof.Machine
end

