-- ==== Sys2Proof/Machine/Float.lean ====
section
/-! DEFINITION. The instructions of float operands alone, conversions, and the block-scale
instructions (R148 to R165). -/

namespace Sys2Proof.Machine

/-- FCLASS (R154). -/
def execFclass (sb u : Bool) (t : BitVec 3) (d a : Opd) (s : State) : Host.Outcome State Fault Refusal :=
  issue (.fclass sb u t d a) sb (regRules u d [a] 0)
    (alu1 u d a (fun x => (aluFclass t x, 0)) (fun x => (aluFclass t x, 0))) s

/-- FSGN (R153). -/
def execFsgn (sb u : Bool) (o : BitVec 2) (t : BitVec 3) (d a b : Opd) (s : State) :
    Host.Outcome State Fault Refusal :=
  issue (.fsgn sb u o t d a b) sb (regRules u d [a, b] 0)
    (alu2 u d a b (fun x y => (aluFsgn o t x y, 0)) (fun x y => (aluFsgn o t x y, 0))) s

/-- SFU (R155). -/
def execSfu (sb h : Bool) (f : BitVec 3) (d a : Opd) (s : State) : Host.Outcome State Fault Refusal :=
  issue (.sfu sb h f d a) sb (vecRules d [a] (if f = 2 then 4 else 0))
    (fun s id ag p => vecBody d [a] (fun xs _ => aluSfu h f p.rnd.toNat (arg xs 0)) s id ag p) s

/-- DOT (R156). -/
def execDot (sb : Bool) (f : BitVec 5) (d a b : Opd) (s : State) : Host.Outcome State Fault Refusal :=
  issue (.dot sb f d a b) sb { vecRules d [a, b] (if f = 3 then 0 else 4) with okC := true, first := addendFirst d }
    (alu3 false d a b (fun x y z r => aluDot f r x y z) (fun x _ _ _ => (x, 0))) s

/-- The two destination registers of an unpacked pair written (R158). -/
def writePair (s : State) (id : AgentId) (act : Word) (z : Bool) (n : Nat) (f : Nat → Nat → Word) :
    Option State :=
  (writeV s id act z (.reg (BitVec.ofNat 5 n)) (f 0)).bind fun s =>
    writeV s id act z (.reg (BitVec.ofNat 5 (n + 1))) (f 1)

/-- CVT in vector form on two elements: unpacking writes a pair of registers (R158, R159). -/
def cvtUnpack (n : BitVec 3) (d a : Opd) (sty : Nat) (s : State) (id : AgentId) (ag : Agent) (p : Pfx) :
    Res :=
  match readVs s id [a, if n = 5 then p.c else .reg 0] with
  | none => .wait
  | some (vs, s1) =>
    let act := ag.active p
    let el := fun (j t : Nat) =>
      cvtElem 32 sty 2 n.toNat (if n = 5 then rbitsOf (laneOf (vs.getD 1 zeroV) t) j else 0)
        ((laneOf (vs.getD 0 zeroV) t).toNat / 2 ^ (16 * j) % 65536)
    let fl := ((lanes act).map fun t => (el 0 t).2 ||| (el 1 t).2).foldl (· ||| ·) 0
    match writePair s1 id act p.z d.code fun j t => (el j t).1 with
    | none => .wait
    | some s2 => .done (s2.raiseFlags id ag fl)

/-- Stochastic rounding takes its bits from the operand of a prefix, which a pack or an unpack may not have as
a channel (R158, R159). -/
def cvtFirst (n : BitVec 3) (u : Bool) (t y : BitVec 4) (a : Agent) : Option (Nat × Word64) :=
  let pair := !u && ((t == 2 && (y == 13 || y == 14)) || (y == 2 && (t == 13 || t == 14)))
  if n = 5 ∧ (a.pfx.isNone ∨ (pair = true ∧ a.prefixOf.c.isReg = false)) then some (trIllegalInstr, 0) else none

/-- CVT (R157 to R159). -/
def execCvt (sb u : Bool) (n : BitVec 3) (d a : Opd) (t y : BitVec 4) (s : State) :
    Host.Outcome State Fault Refusal :=
  issue (.cvt sb u n d a t y) sb { regRules u d [a] 0 with okC := n == 5, first := cvtFirst n u t y }
    (fun s id ag p =>
      let c := if n = 5 then p.c else .reg 0
      let rb := fun (x : Word) (j : Nat) => if n = 5 then rbitsOf x j else 0
      if u then
        uniBody d [a, c] (fun xs =>
          cvtElem 64 t.toNat y.toNat n.toNat (rb ((arg xs 1).setWidth 32) 0)
            (if t = 2 then (arg xs 0).toNat % 2 ^ 32 else (arg xs 0).toNat)) s id ag p
      else if y = 2 && (t = 13 || t = 14) then cvtUnpack n d a t.toNat s id ag p
      else if y = 13 || y = 14 then
        -- pack from an even pair, or repack element by element
        let hi : Opd := if t = 2 then .reg (BitVec.ofNat 5 (a.code + 1)) else .reg 0
        let srcs := if t = 2 then [a, hi, c] else [a, .reg 0, c]
        vecBody d srcs (fun xs _ =>
          let el := fun (j : Nat) =>
            cvtElem 32 t.toNat y.toNat n.toNat (rb (arg xs 2) j)
              (if t = 2 then (arg xs j).toNat else (arg xs 0).toNat / 2 ^ (16 * j) % 65536)
          ((el 0).1 ||| ((el 1).1 <<< 16), (el 0).2 ||| (el 1).2)) s id ag p
      else
        vecBody d [a, c] (fun xs _ => cvtElem 32 t.toNat y.toNat n.toNat (rb (arg xs 1) 0) (arg xs 0).toNat)
          s id ag p) s

/-- QSCL (R161). -/
def execQscl (sb : Bool) (e : BitVec 4) (d a : Opd) (s : State) : Host.Outcome State Fault Refusal :=
  issue (.qscl sb e d a) sb { vecRules d [a] 0 with first := convergedFirst }
    (fun s id ag p =>
      match readVs s id [a] with
      | none => .wait
      | some (vs, s1) =>
        let act := ag.active p
        let r := aluQscl e.toNat ((lanes act).map fun t => laneOf (vs.getD 0 zeroV) t)
        match writeV s1 id act p.z d fun _ => BitVec.ofNat 32 r.1 with
        | none => .wait
        | some s2 => .done (s2.raiseFlags id ag r.2)) s

/-- QENC on the threads of the group (R162, R163). -/
def qencBody (e : BitVec 4) (d a b : Opd) (s : State) (id : AgentId) (ag : Agent) (p : Pfx) : Res :=
  match readVs s id [a, b, if p.rnd = 5 then p.c else .reg 0] with
  | none => .wait
  | some (vs, s1) =>
    let act := ag.active p
    let x := fun (t : Nat) => laneOf (vs.getD 0 zeroV) t
    let sc := fun (t : Nat) => laneOf (vs.getD 1 zeroV) t
    let esc := (lanes act).filter fun t => qEscaped (x t) (sc t)
    let out := (List.range 32).map fun t =>
      if act.getLsbD t then
        aluQenc e.toNat p.rnd.toNat (if p.rnd = 5 then (laneOf (vs.getD 2 zeroV) t).toNat else 0)
          (esc.filter (· < t)).length (x t) (sc t)
      else (0, 0)
    match writeV s1 id act p.z d fun t => (out.getD t (0, 0)).1 with
    | none => .wait
    | some s2 => .done (s2.raiseFlags id ag ((out.map Prod.snd).foldl (· ||| ·) 0))

/-- QENC takes random bits under code 5 alone, and its e2m1 form needs a converged group (R162, R163). -/
def qencFirst (e : BitVec 4) (a : Agent) : Option (Nat × Word64) :=
  if a.prefixOf.rnd ≠ 5 ∧ a.prefixOf.c ≠ .reg 0 then some (trIllegalInstr, 0)
  else if e = 11 then convergedFirst a else none

/-- QENC (R162, R163). -/
def execQenc (sb : Bool) (e : BitVec 4) (d a b : Opd) (s : State) : Host.Outcome State Fault Refusal :=
  issue (.qenc sb e d a b) sb { vecRules d [a, b] 5 with okC := true, first := qencFirst e }
    (qencBody e d a b) s

/-- QDEC (R164). -/
def execQdec (sb : Bool) (e : BitVec 4) (d a b : Opd) (s : State) : Host.Outcome State Fault Refusal :=
  issue (.qdec sb e d a b) sb (vecRules d [a, b] 4)
    (fun s id ag p => vecBody d [a, b] (fun xs _ => aluQdec e.toNat p.rnd.toNat (arg xs 0) (arg xs 1)) s id ag p) s

end Sys2Proof.Machine
end

