-- ==== Sys2Proof/Machine/CrossLane.lean ====
section
/-! DEFINITION. The cross-lane instructions (R232 to R242). -/

namespace Sys2Proof.Machine

/-- The source lane that SHFL selects for thread `t` (R235). -/
def shflLane (fn : Nat) (t : Nat) (b : Word) : Nat :=
  let n := b.toNat
  match fn with
  | 0 => n % 32
  | 1 => t ^^^ (n % 32)
  | 2 => if n ≤ t then t - n else t
  | _ => if t + n < 32 then t + n else t

/-- The rules of the cross-lane instructions: a fully converged group (R232). -/
def laneRules (d : Opd) (src : List Opd) (rnd : Nat) : Rules := { vecRules d src rnd with first := convergedFirst }

/-- A cross-lane result. With every present thread masked the use is legal and writes nothing, a channel
included (R237, R243). -/
def crossWrite (s : State) (id : AgentId) (ag : Agent) (p : Pfx) (d : Opd) (f : Nat → Word) : Option State :=
  if ag.active p = 0 then some s else writeV s id (ag.active p) p.z d f

/-- SHFL (R235). -/
def execShfl (sb : Bool) (f : BitVec 5) (d a b : Opd) (s : State) : Host.Outcome State Fault Refusal :=
  issue (.shfl sb f d a b) sb (laneRules d [a, b] 0)
    (fun s id ag p => match readVs s id [a, b] with
      | none => .wait
      | some (vs, s1) =>
        let src := vs.getD 0 zeroV
        let sel := vs.getD 1 zeroV
        match crossWrite s1 id ag p d fun t => laneOf src (shflLane f.toNat t (laneOf sel t)) with
        | none => .wait
        | some s2 => .done s2) s

/-! ## BFLY (R236) -/

/-- The number of registers of a fragment of `w`-byte elements. -/
def bflyRun (w : Nat) : Nat := 8 * w

/-- Element `c` of a fragment row that starts at register `a`. -/
def fragElem (ag : Agent) (w a r c : Nat) : Nat :=
  let per := 4 / w
  (laneOf (ag.getV (a + c / per)) r).toNat / 2 ^ (8 * w * (c % per)) % 2 ^ (8 * w)

/-- The element that stage `k` puts at row `t`, column `c`. -/
def bflyElem (ag : Agent) (w k a t c : Nat) : Nat :=
  if t.testBit k != c.testBit k then fragElem ag w a (t ^^^ 2 ^ k) (c ^^^ 2 ^ k) else fragElem ag w a t c

/-- Register `j` of the destination run in thread `t`. -/
def bflyWord (ag : Agent) (w k a t j : Nat) : Word :=
  let per := 4 / w
  BitVec.ofNat 32 (((List.range per).map fun e => bflyElem ag w k a t (j * per + e) * 2 ^ (8 * w * e)).foldl (· + ·) 0)

/-- Whether two runs are aligned, and equal or disjoint. -/
def bflyLegal (w : Nat) (d a : Opd) : Bool :=
  let n := bflyRun w
  d.isReg && a.isReg && d.code % n == 0 && a.code % n == 0

/-- BFLY (R236, R243). With every present thread masked nothing is written, with `Z` as well (log entry 100). -/
def execBfly (sb : Bool) (w : BitVec 2) (k : BitVec 3) (d a : Opd) (s : State) :
    Host.Outcome State Fault Refusal :=
  let wb := 2 ^ w.toNat
  issue (.bfly sb w k d a) sb { laneRules d [a] 0 with legal := bflyLegal wb d a }
    (fun s id ag p =>
      let act := ag.active p
      let out := (List.range (bflyRun wb)).foldl (fun (b : Agent) j =>
        b.setV (d.code + j) (blend act ag.live (p.z && act != 0) (ag.getV (d.code + j)) fun t => bflyWord ag wb k.toNat a.code t j)) ag
      .done (s.setAgent id out)) s

/-! ## VOTE, REDG and SCANG (R237 to R240) -/

/-- VOTE (R237). -/
def execVote (sb : Bool) (f : BitVec 5) (d a : Opd) (s : State) : Host.Outcome State Fault Refusal :=
  issue (.vote sb f d a) sb (laneRules d [a] 0)
    (fun s id ag p => match readVs s id [a] with
      | none => .wait
      | some (vs, s1) =>
        let act := ag.active p
        let ballot : Word := BitVec.ofBoolListLE ((List.range 32).map fun t =>
          act.getLsbD t && laneOf (vs.getD 0 zeroV) t != 0) |>.setWidth 32
        let x : Word := match f.toNat with
          | 0 => if ballot = act then 1 else 0
          | 1 => if ballot = 0 then 0 else 1
          | _ => ballot
        match crossWrite s1 id ag p d fun _ => x with
        | none => .wait
        | some s2 => .done s2) s

/-- The identity of an operation (R238). -/
def redIdent (o : Nat) : Word :=
  match o with
  | 0 => 0
  | 1 => 0x80000000
  | 2 => 0x7FFFFFFF
  | 3 => 0x80000000
  | 4 => 0x7F800000
  | 5 => 0xFF800000
  | 6 => 0xFFFFFFFF
  | _ => 0

/-- An operation of REDG and SCANG (R238). -/
def redOp (o rnd : Nat) (x y : Word) : Out 32 :=
  let fl := fun (r : Nat × BitVec 9) => (BitVec.ofNat 32 r.1, r.2)
  match o with
  | 0 => (x + y, 0)
  | 1 => fl (fop .add .f32 rnd x.toNat y.toNat 0)
  | 2 => (if y.toInt < x.toInt then y else x, 0)
  | 3 => (if x.toInt < y.toInt then y else x, 0)
  | 4 => fl (fminmax false .f32 x.toNat y.toNat)
  | 5 => fl (fminmax true .f32 x.toNat y.toNat)
  | 6 => (x &&& y, 0)
  | _ => (x ||| y, 0)

/-- An operand of the trees: whether it is an identity, and its value. -/
abbrev Term := Bool × Word

/-- The flags that an operand raises beside an identity, which raises none: those of reading it (R118, R148, R233,
R238). -/
def redOwn (o : Nat) (x : Word) : BitVec 9 := if o = 1 ∨ o = 4 ∨ o = 5 then operandFlags [Fmt.f32.dec x.toNat] else 0

/-- Two operands combined, with their flags. -/
def redPair (o rnd : Nat) (x y : Term) : Term × BitVec 9 :=
  let r := redOp o rnd x.2 y.2
  ((x.1 && y.1, r.1),
    if x.1 && y.1 then 0 else if x.1 then redOwn o y.2 else if y.1 then redOwn o x.2 else r.2)

/-- One level of the pairwise tree: neighbours combine (R239). -/
def redLevel (o rnd : Nat) : List Term → List Term × BitVec 9
  | x :: y :: t =>
    let r := redPair o rnd x y
    let q := redLevel o rnd t
    (r.1 :: q.1, r.2 ||| q.2)
  | l => (l, 0)

/-- `n` levels of the tree. -/
def redTree (o rnd : Nat) : Nat → List Term → List Term × BitVec 9
  | 0, l => (l, 0)
  | n + 1, l =>
    let r := redLevel o rnd l
    let q := redTree o rnd n r.1
    (q.1, r.2 ||| q.2)

/-- The term of a lane that is not there. -/
def noTerm : Term := (true, 0)

/-- One level of the prefix combination: lane `t` takes lane `t - 2^k` on its left (R240). What the lane of a
masked thread combines raises no flag (R126; log entry 79). -/
def scanLevel (o rnd k : Nat) (act : Word) (l : List Term) : List Term × BitVec 9 :=
  let r := (List.range 32).map fun t =>
    if 2 ^ k ≤ t then
      let q := redPair o rnd (l.getD (t - 2 ^ k) noTerm) (l.getD t noTerm)
      (q.1, if act.getLsbD t then q.2 else 0)
    else (l.getD t noTerm, 0)
  (r.map Prod.fst, (r.map Prod.snd).foldl (· ||| ·) 0)

/-- The operands of the active threads, and the identity elsewhere. -/
def redInput (o : Nat) (act : Word) (v : VReg) : List Term :=
  (List.range 32).map fun t => if act.getLsbD t then (false, laneOf v t) else (true, redIdent o)

/-- The rounding codes that the operation accepts (R234). -/
def redRnd (o : BitVec 3) : Nat := if o = 1 then 4 else 0

/-- REDG (R239). -/
def execRedg (sb : Bool) (o : BitVec 3) (d a : Opd) (s : State) : Host.Outcome State Fault Refusal :=
  issue (.redg sb o d a) sb (laneRules d [a] (redRnd o))
    (fun s id ag p => match readVs s id [a] with
      | none => .wait
      | some (vs, s1) =>
        let act := ag.active p
        let r := redTree o.toNat p.rnd.toNat 5 (redInput o.toNat act (vs.getD 0 zeroV))
        match crossWrite s1 id ag p d fun _ => (r.1.getD 0 noTerm).2 with
        | none => .wait
        | some s2 => .done (s2.raiseFlags id ag r.2)) s

/-- SCANG (R240). -/
def execScang (sb e : Bool) (o : BitVec 3) (d a : Opd) (s : State) : Host.Outcome State Fault Refusal :=
  issue (.scang sb e o d a) sb (laneRules d [a] (redRnd o))
    (fun s id ag p => match readVs s id [a] with
      | none => .wait
      | some (vs, s1) =>
        let act := ag.active p
        let r := (List.range 5).foldl (fun (y : List Term × BitVec 9) k =>
          let q := scanLevel o.toNat p.rnd.toNat k act y.1
          (q.1, y.2 ||| q.2)) (redInput o.toNat act (vs.getD 0 zeroV), 0)
        let at_ := fun (t : Nat) => (r.1.getD t noTerm).2
        let res := fun (t : Nat) => if e then (if t = 0 then redIdent o.toNat else at_ (t - 1)) else at_ t
        match crossWrite s1 id ag p d res with
        | none => .wait
        | some s2 => .done (s2.raiseFlags id ag r.2)) s

/-! ## LANE and LMAP (R241, R242) -/

/-- LANE (R241). A prefix with `Z` and without `M` is an error here: `Z` is one of the fields that a mask goes with, and
the manual gives it no meaning on LANE (log entry 99). -/
def execLane (sb : Bool) (d : BitVec 5) (a : Opd) (b : BitVec 5) (s : State) :
    Host.Outcome State Fault Refusal :=
  issue (.lane sb d a b) sb { form := .v, u := false, src := [a], regs := true, late := true, first := convergedFirst }
    (fun s id ag _ => match readVs s id [a] with
      | none => .wait
      | some (vs, s1) =>
        let l := (ag.getX b.toNat).toNat % 32
        match writeU s1 id (.reg d) ((laneOf (vs.getD 0 zeroV) l).setWidth 64) with
        | none => .wait
        | some s2 => .done s2) s

/-- LMAP (R242). -/
def execLmap (sb : Bool) (f : BitVec 5) (d a b : Opd) (s : State) : Host.Outcome State Fault Refusal :=
  issue (.lmap sb f d a b) sb (if f = 2 then { vecRules (.reg 0) [a] 0 with okM := true } else vecRules d [] 0)
    (fun s id ag p =>
      let act := ag.active p
      if f = 2 then
        match readVs s id [a] with
        | none => .wait
        | some (vs, s1) => match s1.agent id with
          | none => .done s1
          | some b =>
            let tids := (lanes act).foldl (fun m t => mapSet 0 m t (laneOf (vs.getD 0 zeroV) t)) b.tids
            .done (s1.setAgent id { b with tids := tids })
      else
        let val := fun (t : Nat) => if f = 0 then BitVec.ofNat 32 t else mapGet 0 ag.tids t
        match writeV s id act p.z d val with
        | none => .wait
        | some s2 => .done s2) s

end Sys2Proof.Machine
end

