-- ==== Sys2Proof/Machine/Unit.lean ====
section
/-! DEFINITION. The accesses of the units that work beside the agents: engine queues, tile jobs,
the dispatcher (R173, R182, R183, R312). -/

namespace Sys2Proof.Machine

/-- What one access of a unit comes to. -/
inductive UGot where
  | val (x : Nat) (fl : BitVec 9)
  | refused
  | timeout
  | poisoned (pa : Nat)
  | fault (home : Option Nat) (malformed : Bool)
  | fatal
  | wait
  deriving DecidableEq, Repr

/-- One access of a unit. An access that another module performs is sent with a tag, and the
unit waits for its answer. -/
def State.unitAccess (s : State) (r : Req) (rem : Option UnitRem) (va : Word64) (n : Nat)
    (plain win : Bool) (acc : Acc) : State × UGot × Option UnitRem :=
  match rem with
  | some u => match u.ans with
    | none => (s, .wait, rem)
    | some (.value x fl) => (s, .val x fl, none)
    | some .nak => match s.homeOf r.ctx va.toNat with
      | .ok h => (s, .fault h false, none)
      | .error _ => (s, .fatal, none)
    | some .timeout => (s, .timeout, none)
    | some .poisoned => (s, .poisoned 0, none)
    | some _ => (s, .refused, none)
  | none =>
    match s.perform r 0 va n plain win acc with
    | (s, .val x f) => (s, .val x f, none)
    | (s, .access _) => (s, .refused, none)
    | (s, .refused _) => (s, .refused, none)
    | (s, .poisoned pa) => (s, .poisoned pa, none)
    | (s, .busy) => (s, .wait, none)
    | (s, .stale) => (s.retranslate r.id r.lctx (va.toNat / 65536), .wait, none)
    | (s, .fault h m) => (s, .fault h m, none)
    | (s, .fatal _) => (s, .fatal, none)
    | (s, .remote k dst addr key _) =>
      let t := s.ntag
      let p : Packet := { kind := k, dst := dst, fields := [t, r.ctx, addr, n] ++ accFields acc ++
        [r.priv.toNat, plain.toNat] ++ key.toList }
      ({ s with ntag := t + 1, outbox := s.outbox ++ [p] }, .wait, some { tag := t, ans := none })

end Sys2Proof.Machine
end

