-- ==== Sys2Proof/Machine/Tile.lean ====
section
/-! DEFINITION. Tiles: what keeps their memory from being read or written, images, layout
descriptors (R314 to R322), and the arithmetic of the matrix array (R331 to R333). -/

namespace Sys2Proof.Machine

/-! ## Tile memory (R315) -/

/-- What keeps a tile from being read or written: poison, or a place outside every allocation of
the context. -/
inductive TBad where
  | poison (pa : Nat)
  | refused (pa : Nat)
  deriving DecidableEq, Repr

/-- The local address of a scratchpad byte with the module's id. -/
def State.spadPa (s : State) (c off : Nat) : Nat := s.winPa c (0x200000 + off)

/-- Where the 4 bytes with element (i, j) of a tile of kind ACC or REGW lie in the window of its core. -/
def Entry.winPlace (e : Entry) (i j : Nat) : Nat :=
  if e.kind = kACC then 0x100000 + e.base * 0x1000 + i * 0x80 + j * 4 else (e.base + (e.place i j).1) / 4 * 4

/-- The places of all its elements. -/
def Entry.winPlaces (e : Entry) : List Nat :=
  (List.range e.wrows).flatMap fun i => (List.range e.cols).map fun j => e.winPlace i j

/-- What stands against reading a tile: poison or a refused byte on one of its elements. -/
def State.tileReadBad (s : State) (c : Nat) (e : Entry) : Option TBad :=
  if e.kind = kACC ∨ e.kind = kREGW then
    if (s.core c).lost.isEmpty then none else ((s.core c).hurt e.winPlaces).map fun o => .poison (s.winPa c o)
  else
    ((List.range e.wrows).flatMap fun i => (List.range e.cols).map fun j => (e.place i j).1).findSome? fun b =>
      let p := e.spadAt c b
      let n := fmtBytes e.fmt
      if !(s.spadOwned p.1 e.ctx p.2 && s.spadOwned p.1 e.ctx (p.2 + n - 1)) then some (.refused (s.spadPa p.1 p.2))
      else if (s.core p.1).spoison.any fun w => decide (p.2 / 8 ≤ w ∧ w ≤ (p.2 + n - 1) / 8) then
        some (.poison (s.spadPa p.1 p.2))
      else none

/-- Elements of a tile written together; the poison of a scratchpad word that they cover whole is
cleared, and that of a word that they cover in part is consumed (R421). -/
def State.tileWrite (s : State) (c : Nat) (e : Entry) (xs : List (Nat × Nat × Nat)) : State × Option TBad :=
  let out := xs.foldl (fun s x => s.setTileCode c e x.1 x.2.1 x.2.2) s
  if e.kind = kACC ∨ e.kind = kREGW then
    if (s.core c).lost.isEmpty then (out, none)
    else
      let offs := xs.map fun x => e.winPlace x.1 x.2.1
      match (s.core c).hurt (if fmtBytes e.fmt = 4 then partPlaces offs else offs) with
      | some o => (s, some (.poison (s.winPa c o)))
      | none => (out.setCore c ((out.core c).mended offs), none)
  else
    let bytes := xs.flatMap fun x => (List.range (fmtBytes e.fmt)).map fun d => e.spadAt c ((e.place x.1 x.2.1).1 + d)
    match bytes.find? fun p => !s.spadOwned p.1 e.ctx p.2 with
    | some p => (s, some (.refused (s.spadPa p.1 p.2)))
    | none =>
      let hit := fun (p : Nat × Nat) => (s.core p.1).spoison.contains (p.2 / 8)
      let part := fun (p : Nat × Nat) => (List.range 8).any fun d => !bytes.contains (p.1, p.2 / 8 * 8 + d)
      match bytes.find? fun p => hit p && part p with
      | some p => (s, some (.poison (s.spadPa p.1 p.2)))
      | none =>
        (bytes.foldl (fun s p =>
          let k := s.core p.1
          s.setCore p.1 { k with spoison := k.spoison.filter (· != p.2 / 8) }) out, none)

/-! ## Images (R315, R324) -/

/-- Whether an entry image breaks R314 to R316. -/
def imageBad (x : BitVec 512) : Bool :=
  let e : Entry := x
  x &&& ~~~ Entry.fields != 0 || e.layout == 3
    || e.rows == 0 || decide (32 < e.rows) || e.cols == 0 || decide (32 < e.cols) || fmtBits e.fmt == 0
    || (if e.fmt = 16 then e.alph == 0 || !alValid e.alph else e.alph != 0)
    || e.scpl % 4 != 0 || e.outl % 8 != 0
    || (e.layout == 2 && (e.base % 256 != 0 || e.pitch % 256 != 0))
    || (if e.kind = kACC then
          e.fmt != 2 || decide (32 ≤ e.base) || e.pitch != 0 || e.layout != 0 || e.scpl != 0 || e.outl != 0
        else if e.kind = kSP then decide (0x80000 ≤ e.base)
        else if e.kind = kREGW then decide (0x46800 ≤ e.base)
        else decide (2 ^ 24 ≤ e.base))

/-- Whether a tile of kind SP lies whole in the allocation of a placed task (R315, R473). -/
def tileInside (x : BitVec 512) (p : Placed) : Bool :=
  let e : Entry := x
  e.kind != kSP ||
    ((List.range e.wrows).all fun i => (List.range e.cols).all fun j =>
      let b := e.base + (e.place i j).1
      decide (p.off ≤ b ∧ b + fmtBytes e.fmt ≤ p.off + p.spt + p.parts * p.spg))

/-- Whether an accumulator image names one that another owned entry names (R324). -/
def Core.accTaken (k : Core) (t : Nat) (x : BitVec 512) : Bool :=
  let e : Entry := x
  e.kind == kACC && k.tiles.any fun p => p.1 != t && Entry.own p.2 && Entry.kind p.2 == kACC && Entry.base p.2 == e.base

/-- The entry that TDEF and the dispatcher make of an image (R324). -/
def defEntry (x : BitVec 512) (ctx lc : Nat) : Entry :=
  BitVec.ofNat 512 (x.toNat / 2 ^ 64 * 2 ^ 64 + 8 + lc * 2 ^ 8 + ctx * 2 ^ 10)

/-- A tile defined: the entry written, and the record of its accumulator zeroed (R324, R344). -/
def State.defTile (s : State) (c t : Nat) (x : BitVec 512) (ctx lc : Nat) : State :=
  let e := defEntry x ctx lc
  let s := s.setTile c t e
  if e.kind = kACC then s.setVar c e.base 0 else s

/-! ## Layout descriptors (R321, R322) -/

/-- A tensor layout descriptor. -/
structure Tensor where
  base : Word64
  rows : Nat
  cols : Nat
  rstr : Word64
  deriving DecidableEq, Repr

def tensorOf (x : Nat) : Tensor :=
  { base := BitVec.ofNat 64 x, rows := x / 2 ^ 64 % 2 ^ 32, cols := x / 2 ^ 96 % 2 ^ 32,
    rstr := BitVec.ofNat 64 (x / 2 ^ 128) }

/-- Whether a descriptor has a reserved bit set. -/
def tensorBad (x : Nat) : Bool := x / 2 ^ 192 != 0

/-- An origin register: row 0 and column 0 (R323). -/
def origin (x : Word64) : Int × Int :=
  ((x.setWidth 32).toInt, ((x >>> 32).setWidth 32).toInt)

/-- A coordinate clamped to an extent. -/
def clampTo (x : Int) (n : Nat) : Nat := (max 0 (min x ((n : Int) - 1))).toNat

/-- The address of element (r, c) in a format, with the nibble for e2m1. `n` is the number of
digits of a radix word, or 1. -/
def Tensor.place (t : Tensor) (fmt n r c : Nat) : Word64 × Option Bool :=
  let z := fmtBits fmt
  (t.base + BitVec.ofNat 64 (r / n) * t.rstr + BitVec.ofNat 64 (c * z / 8), if z = 4 then some (c % 2 == 1) else none)

/-- Whether nothing is read: a tensor without rows or columns. -/
def Tensor.none (t : Tensor) : Bool := t.rows == 0 || t.cols == 0

/-- The place that a read of (r, c) comes to after clamping (R322). -/
def Tensor.at (t : Tensor) (fmt n : Nat) (r c : Int) : Word64 × Option Bool :=
  t.place fmt n (clampTo r t.rows) (clampTo c t.cols)

/-- Whether (r, c) lies in the tensor, for a write (R322). -/
def Tensor.inside (t : Tensor) (r c : Int) : Bool := decide (0 ≤ r ∧ r < t.rows ∧ 0 ≤ c ∧ c < t.cols)

/-- Whether every element address among the coordinates is a multiple of the element's size. -/
def Tensor.aligned (t : Tensor) (fmt n : Nat) (rs : List Nat) : Bool :=
  rs.all fun r => ((t.base + BitVec.ofNat 64 (r / n) * t.rstr).toNat % fmtBytes fmt) == 0

/-- The code that the bytes at a place hold. -/
def pickCode (fmt : Nat) (nib : Option Bool) (x : Nat) : Nat :=
  match nib with
  | some h => if h then x / 16 % 16 else x % 16
  | none => if fmt = 10 then x % 64 else x

/-- Elements read through a descriptor, numbered from `i`: their codes (R322). -/
def State.tensorRead (s : State) (id : AgentId) (i : Nat) (t : Tensor) (fmt n : Nat) (rc : List (Int × Int)) :
    State × Except Got (List Nat) :=
  if t.none then (s, .ok (rc.map fun _ => 0))
  else
    match s.reads id { plain := true } i (rc.map fun p => ((t.at fmt n p.1 p.2).1, fmtBytes fmt)) with
    | (s, .ok xs) => (s, .ok ((rc.zip xs).map fun q => pickCode fmt (t.at fmt n q.1.1 q.1.2).2 q.2))
    | (s, .error g) => (s, .error g)

/-! ## The arithmetic of the array (R331 to R333) -/

/-- A decoded element with the flags that it raises. -/
abbrev Elem := Val × BitVec 9

/-- An element under its scale (R110). A signalling NaN sets NV as in every arithmetic instruction (R102; log
entry 77). -/
def scaled (v : Val) (fl : BitVec 9) (sc : Option Val) : Elem :=
  match sc with
  | none => (v, fl)
  | some z =>
    if z.isNan then (.nan false, fl ||| flNANSC ||| flNF)
    else if z.isZero && v.nonFinite && !v.isNan then (.nan false, fl ||| flNV ||| flNF)
    else let p := v.mul z; (p.1, fl ||| p.2)

/-- The element that a code of a format stands for; `esc` is what an e2m1 escape stands for
(R333). -/
def elemOf (fmt code : Nat) (sc : Option Val) (esc : Option Val) : Elem :=
  if fmt = 11 ∧ code % 16 = 8 then
    if (match sc with
      | some z => z.isNan
      | none => false) then (.nan false, flNANSC ||| flNF)
    else match esc with
      | some v => scaled v (operandFlags [v]) sc
      | none => (.nan false, flNV)
  else
    let v := match codeFmt fmt with
      | some f => f.dec code
      | none => .ofInt (BitVec.ofNat 8 code).toInt
    scaled v (operandFlags [v]) sc

/-- The element that a digit of a radix word stands for; an invalid word reads as zeros (R286). -/
def digitOf (al : Word64) (x i : Nat) : Elem :=
  if x < alP al then (.ofInt (alVal al (alCode al x i) i), 0)
  else (.ofInt (alVal al (alCode al (alZero al) i) i), flINVAL)

/-- The product of two elements (R333). -/
def termOf (a b : Elem) : Elem :=
  let p := a.1.mul b.1
  (p.1, a.2 ||| b.2 ||| p.2 ||| flagIf (p.2 != 0) flNF)

/-- An accumulator element after the K elements of a row and a column, eight terms to a sum
(R121, R332). -/
def macElem (acc : Nat) (xs ys : List Elem) : Nat → Nat × BitVec 9
  | 0 => (acc, 0)
  | g + 1 =>
    let p := macElem acc xs ys g
    let ts := ((xs.drop (8 * g)).take 8).zip ((ys.drop (8 * g)).take 8) |>.map fun q => termOf q.1 q.2
    let t := sumExact false (Fmt.f32.dec p.1 :: ts.map Prod.fst)
    let r := Fmt.f32.enc t.1 1 0
    (r.1, (ts.map Prod.snd).foldl (· ||| ·) (p.2 ||| t.2 ||| r.2 ||| operandFlags [Fmt.f32.dec p.1]))

/-- An accumulator element after K elements. -/
def mac (acc : Nat) (xs ys : List Elem) : Nat × BitVec 9 := macElem acc xs ys ((xs.length + 7) / 8)

/-- The formats of the two operands of a format pair (R331): A's format with elements per
register and their width, and B's. Radix words have no packed format. -/
def pairA (f : Nat) : Nat × Nat × Nat :=
  match f with
  | 0 => (9, 4, 8)
  | 1 => (10, 5, 6)
  | 2 => (11, 8, 4)
  | 3 => (7, 4, 8)
  | 6 => (3, 2, 16)
  | 7 => (4, 2, 16)
  | _ => (16, 1, 32)

def pairB (f : Nat) : Nat :=
  match f with
  | 0 => 9
  | 1 => 10
  | 2 => 11
  | 3 => 7
  | 4 => 9
  | 5 => 16
  | 6 => 3
  | _ => 4

/-- Accumulator elements of an accumulator. -/
def State.accElem (s : State) (c a i j : Nat) : Nat := (mapGet 0 (s.core c).acc (a * 0x400 + i * 32 + j)).toNat

def State.setAcc (s : State) (c a : Nat) (xs : List (Nat × Nat × Nat)) : State :=
  let k := s.core c
  let k : Core := { k with acc := xs.foldl (fun m x => mapSet 0 m (a * 0x400 + x.1 * 32 + x.2.1) (BitVec.ofNat 32 x.2.2)) k.acc }
  s.setCore c (if k.lost.isEmpty then k else k.mended (xs.map fun x => 0x100000 + a * 0x1000 + x.1 * 0x80 + x.2.1 * 4))

/-- Rows and columns of operand elements accumulated into a window of an accumulator: the new
elements and the flags. -/
def State.macRows (s : State) (c a : Nat) (rows : List (Nat × List Elem)) (cols : List (List Elem)) :
    List (Nat × Nat × Nat) × BitVec 9 :=
  let out := rows.flatMap fun r => cols.zipIdx.map fun q =>
    let m := mac (s.accElem c a r.1 q.2) r.2 q.1
    ((r.1, q.2, m.1), m.2)
  (out.map Prod.fst, (out.map Prod.snd).foldl (· ||| ·) 0)

end Sys2Proof.Machine
end

