-- ==== Sys2Proof/Machine/TileOps.lean ====
section
/-! DEFINITION. The tile instructions (R323 to R340) and what their fills, writes and updates do
when they finish (R318, R332). -/

namespace Sys2Proof.Machine

/-! ## Steps that the tile instructions share -/

/-- The rules of a uniform tile instruction: no prefix field is accepted (R323). -/
def tileRules : Rules := { form := .u, u := true }

/-- A tile number as `cr.tinfo` holds it. -/
def tileInfo (t : Nat) : Word64 := BitVec.ofNat 64 t

/-- A structure of `8 * n` bytes that a word reads as plain loads of its agent. -/
def withStruct (s : State) (id : AgentId) (i : Nat) (va : Word64) (n align : Nat) (k : State → Nat → Res) : Res :=
  if va.toNat % align ≠ 0 then .trap s trMisaligned 1
  else match s.readStruct id i va n with
    | (s, .ok x) => k s x
    | (s, .error g) => g.res s false 0

/-- The turn of a word on one tile (R319). -/
def atTurn (s : State) (id : AgentId) (t op : Nat) (fill reader : Bool) (k : State → Agent → Res) : Res :=
  match s.agent id with
  | none => .hold s
  | some a =>
    let s := s.joinTurn id.core t a op fill reader
    if turnNow (s.turns id.core t) a.key then k s a else .hold s

/-- A word that names a tile which its agent does not own raises ACCESS before it parks on a page that it reads first
(R58, R317). -/
def unparked (bad : Option Word64) (r : Res) : Res :=
  match r, bad with
  | .fault s _ _ _ _ _, some info => .trap s trAccess info
  | r, _ => r

/-- The number of the first of some tiles that does not belong to the task of an agent. -/
def State.foreign (s : State) (id : AgentId) (a : Agent) (ts : List Nat) : Option Word64 :=
  (ts.find? fun t => !(s.tile id.core t).ownedBy a).map tileInfo

/-- A consumer at its turn (R319): it proceeds on a READY tile, or raises TILE_EMPTY. -/
def consume (s : State) (c t : Nat) (k : Res) : Res :=
  let e := s.tile c t
  if e.state = tReady then k else if e.state = tEmpty then .trap s trTileEmpty (tileInfo t) else .hold s

/-- What stands against a word that reads or writes the memory of a tile. -/
def TBad.res (b : TBad) (s : State) : Res :=
  match b with
  | .poison pa => .fatal s 1 pa 0
  | .refused pa => .trap s trAccess (BitVec.ofNat 64 (pa / 65536 * 65536))

/-! ## TDEF and TSET -/

/-- TDEF (R324). -/
def execTdef (sb : Bool) (d : BitVec 6) (a : BitVec 5) (s : State) : Host.Outcome State Fault Refusal :=
  issue (.tdef sb d a) sb { form := .l, u := true }
    (fun s id ag _ =>
      let t := d.toNat
      let e := s.tile id.core t
      unparked (if e.own && !e.ownedBy ag then some (tileInfo t) else none) <| withStruct s id 0 (ag.getX a.toNat) 8 64 fun s x =>
      let img : BitVec 512 := BitVec.ofNat 512 x
      if imageBad img then .trap s trIllegalInstr 0
      else if e.own && !e.ownedBy ag then .trap s trAccess (tileInfo t)
      else if !(match s.placedOf id ag with
        | some p => tileInside img p
        | none => false) then .trap s trAccess (tileInfo t)
      else atTurn s id t 0x60 false false fun s ag =>
        if (s.core id.core).accTaken t img then .trap s trResource 0
        else .done ((s.defTile id.core t img ag.ctx ag.lctx).markTurn id.core t ag none)) s

/-- TSET at its turn (R325, R344). -/
def setTileState (s : State) (c t st : Nat) : State :=
  let e := (((s.tile c t).setState st).setHeld false |>.setProg 0).setArrv 0
  let s := s.setTile c t e
  if e.kind = kACC then s.stopVar c t else s

/-- The body of TSET. TSET.ready is a release (R320): the writes to UO pages that a full fence of cluster scope has
ordered before it are in the memory of the tiles. -/
def tsetBody (d : BitVec 6) (st : Nat) (s : State) (id : AgentId) (ag : Agent) (_ : Pfx) : Res :=
  let t := d.toNat
  if !(s.tile id.core t).ownedBy ag then .trap s trAccess (tileInfo t)
  else atTurn s id t 0x61 false false fun s ag =>
    let s := if st = tReady then s.land fun w => w.fenced.getD 1 0 != 0 else s
    .done ((setTileState s id.core t st).markTurn id.core t ag none)

/-- TSET.empty (R325). -/
def execTsetEmpty (sb : Bool) (d : BitVec 6) (s : State) : Host.Outcome State Fault Refusal :=
  issue (.tsetEmpty sb d) sb tileRules (tsetBody d tEmpty) s

/-- TSET.ready (R325). -/
def execTsetReady (sb : Bool) (d : BitVec 6) (s : State) : Host.Outcome State Fault Refusal :=
  issue (.tsetReady sb d) sb tileRules (tsetBody d tReady) s

/-! ## TLD (R326, R327) -/

/-- The source rows that a fill reads: word-rows, or columns for the transposing form. -/
def fillRows (e : Entry) (tr : Bool) : Nat := if tr then e.cols else e.wrows

/-- Digits to a word of the tile's format, or 1. -/
def Entry.pack (e : Entry) : Nat := if e.fmt = 16 then e.n else 1

/-- The coordinates of source row `p`. -/
def rowPlaces (e : Entry) (tr : Bool) (o : Int × Int) (p : Nat) : List (Int × Int) :=
  (List.range (if tr then e.rows else e.cols)).map fun (j : Nat) => (o.1 + ((p * e.pack : Nat) : Int), o.2 + (j : Int))

/-- The tile filling afresh, or again from its progress. -/
def beginFill (s : State) (c t : Nat) (ag : Agent) : State :=
  match myTurn (s.turns c t) ag.key with
  | some x =>
    if x.st = .waiting then
      let e := (((s.tile c t).setState tFilling).setProg 0 |>.setArrv 0).setHeld false
      let s := ((s.setTile c t e).loseTile c e).markTurn c t ag (some .running)
      let k := s.core c
      s.setCore c { k with spoilt := k.spoilt.filter fun x => x.1 != t }
    else s.setTile c t ((s.tile c t).setHeld false)
  | none => s

/-- Codes where those that a store has left undefined are free values (R320). -/
def spoil (bits : Nat) (bad : Nat → Bool) : List Nat → Nat → State → List Nat × State
  | [], _, s => ([], s)
  | x :: t, j, s =>
    let f := if bad j then s.free bits else (x, s)
    let q := spoil bits bad t (j + 1) f.2
    (f.1 :: q.1, q.2)

/-- The source row at `PROG` requested, with its arrival on the way. -/
def fillRow (id : AgentId) (t : Nat) (tr : Bool) (x : Tensor) (o : Int × Int) (s : State) : State × Option Got :=
  let e := s.tile id.core t
  let p := e.prog
  match s.tensorRead id (16 + 64 * p) x e.fmt e.pack (rowPlaces e tr o p) with
  | (s, .error g) => (s, some g)
  | (s, .ok xs) =>
    let s := s.setTile id.core t (e.setProg (p + 1))
    let bad := fun (j : Nat) => (s.core id.core).spoilt.contains (if tr then (t, j, p) else (t, p, j))
    let q := spoil (fmtBits e.fmt) bad xs 0 s
    let xs := q.1
    let s := q.2
    let k := s.core id.core
    let s : State := s.setCore id.core { k with fills := k.fills ++ [{ tile := t, row := p, trans := tr, vals := xs }] }
    ({ s with agenda := s.agenda ++ [.tileRowArrival id.core t] }, none)

/-- A fill that has requested every source row: its word ends. -/
def State.fillEnds (s : State) (c t : Nat) (ag : Agent) : State :=
  let s := s.turnEnded c t ag s.ntag
  { s with ntag := s.ntag + 1 }

/-- TLD (R326): one source row in each step, so that a pre-emption comes between rows (R327). -/
def execTld (sb tr : Bool) (d : BitVec 6) (a b : BitVec 5) (s : State) : Host.Outcome State Fault Refusal :=
  issue (.tld sb tr d a b) sb tileRules
    (fun s id ag _ =>
      let t := d.toNat
      let e := s.tile id.core t
      let o := origin (ag.getX b.toNat)
      if e.fmt = 16 ∧ (tr ∨ o.1 % e.pack ≠ 0) then .trap s trIllegalInstr 0
      else unparked (s.foreign id ag [t]) <| withStruct s id 0 (ag.getX a.toNat) 4 32 fun s x =>
        let x' := tensorOf x
        if tensorBad x then .trap s trIllegalInstr 0
        else if !(x'.none || x'.aligned e.fmt e.pack
            ((List.range (fillRows e tr)).map fun (p : Nat) => clampTo (o.1 + ((p * e.pack : Nat) : Int)) x'.rows)) then
          .trap s trMisaligned 1
        else if !e.ownedBy ag then .trap s trAccess (tileInfo t)
        else atTurn s id t 0x62 true false fun s ag =>
          let s := beginFill s id.core t ag
          match fillRow id t tr x' o s with
          | (s, none) =>
            if fillRows e tr ≤ (s.tile id.core t).prog then .done (s.fillEnds id.core t ag) else .hold s
          | (s, some g) => match g with
            | .trap c i => .trap (match myTurn (s.turns id.core t) ag.key with
                | some y => s.giveUp id.core t y
                | none => s) c i
            | g => g.res s true 0) s

/-- The places of a row that arrives at a tile. -/
def arrivals (x : TileFill) : List (Nat × Nat × Nat) :=
  x.vals.zipIdx.map fun v => if x.trans then (v.2, x.row, v.1) else (x.row, v.2, v.1)

/-- The first instruction in the order of a tile has finished. -/
def State.endFirst (s : State) (c t : Nat) : State := s.setTurns c t ((s.turns c t).drop 1)

/-- TILE_ROW_ARRIVAL (R318, R320): a row of a fill is in the tile, which becomes READY with the
last of them. -/
def execTileRowArrival (c t : Nat) (s : State) : Host.Outcome State Fault Refusal :=
  let k := s.core c
  match k.fills.find? fun x => x.tile == t with
  | none => .next s
  | some x =>
    let s := s.setCore c { k with fills := k.fills.erase x }
    let e := s.tile c t
    match s.tileWrite c e (arrivals x) with
    | (s, some (.poison pa)) =>
      .next (s.ctxFatal e.ctx { level := 3, cause := 1, core := c, slot := 0, lead := false, pa := pa, va := 0, pc := 0, task := 0 })
    | (s, some (.refused _)) => .next (match (s.turns c t).head? with
        | some y => s.giveUp c t { y with st := .running }
        | none => s)
    | (s, none) =>
      let e := e.setArrv (e.arrv ||| 2 ^ x.row)
      if e.arrv = 2 ^ fillRows e x.trans - 1 then
        .next (((s.setTile c t (e.setState tReady)).lessPend c t).endFirst c t)
      else .next (s.setTile c t e)

/-! ## TST and DRAIN (R329, R338, R339) -/

/-- The value that DRAIN writes for an accumulator element, with the flags of its steps (R102, R339). -/
def drainElem (d : BitVec 512) (rnd acc : Nat) (res : Option Nat) (r c : Nat) : Nat × BitVec 9 :=
  let dec := Fmt.f32.dec
  let mul := fun (x y : Nat) =>
    let p := (dec x).mul (dec y)
    let q := Fmt.f32.enc p.1 1 0
    (q.1, p.2 ||| q.2 ||| operandFlags [dec x, dec y])
  let a := mul acc (getF d 128 32)
  let b := match res with
    | some x =>
      let v := match codeFmt (getF d 220 4) with
        | some f => f.dec x
        | none => dec x
      let t := sumExact false [dec a.1, v]
      let q := Fmt.f32.enc t.1 1 0
      (q.1, a.2 ||| t.2 ||| q.2 ||| operandFlags [v])
    | none => a
  let w := fun (n : Nat) => BitVec.ofNat 64 n
  let k := if getF d 192 24 = 0 then b
    else if getF d 192 24 ≤ (kmg (w (getF d 256 64)) (w r) (w c) (w (getF d 224 32))).toNat % 2 ^ 24 then
      let m := mul b.1 (getF d 160 32)
      (m.1, b.2 ||| m.2)
    else (0, b.2)
  let rb := if rnd = 5 then (kmg (w (getF d 320 64)) (w r) (w c) 0).toNat % 2 ^ 32 else 0
  let o := match codeFmt (getF d 216 4) with
    | some f => f.enc (dec k.1) rnd rb
    | none => let q := encInt (-128) 127 (dec k.1) rnd rb; ((BitVec.ofInt 8 q.1).toNat, q.2)
  (o.1, k.2 ||| o.2)

/-- The work on a tile changed, or finished with `none`. -/
def State.setJob (s : State) (c tag : Nat) (j : Option TileJob) : State :=
  let k := s.core c
  s.setCore c { k with jobs := match j with
    | some j => k.jobs.map fun x => if x.tag = tag then j else x
    | none => k.jobs.filter fun x => x.tag != tag }

/-- The work on a tile has ended (R318): the tile is EMPTY, the flags are raised, and what is
left to write is written no more. -/
def State.endJob (s : State) (c : Nat) (j : TileJob) : State :=
  let s := s.setJob c j.tag none
  let s := s.setTile c j.tile ((s.tile c j.tile).setState tEmpty)
  let s := (s.endTurn c j.tile j.tag).taskFlags c j.lctx j.tcb j.flags
  s.lowerOutst c j.lctx j.tcb j.todo.length

/-- The maker of the accesses of a TST or DRAIN: its agent. What the agent has done before is acknowledged and its
earlier tiles are written, for a page that is SO (R254, R261). -/
def State.jobReq (s : State) (j : TileJob) : Req :=
  let first := s.cores.all fun c => c.2.jobs.all fun x => x.frame != j.frame || decide (j.tag ≤ x.tag) || x.todo.isEmpty
  { ctx := j.ctx, priv := j.priv, lctx := j.lctx, id := j.id
    quiet := first && match s.agent j.id with
      | some a => a.key != j.frame || a.acked
      | none => true }

/-- The access that the next element of a TST or DRAIN makes: the read of its residual, or its
write. -/
def TileJob.next (j : TileJob) (r c code : Nat) : Word64 × Nat × Acc × Option Bool :=
  if j.ready then
    let x := tensorOf j.out.toNat
    let n := if j.fmt = 16 then alN j.al else 1
    let p := x.place j.fmt n r c
    (p.1, fmtBytes j.fmt, match p.2 with
      | some h => .obj (.nib h code)
      | none => .store code, p.2)
  else
    let x := tensorOf j.res.toNat
    let f := getF (j.drain.getD 0) 220 4
    let p := x.at f 1 r c
    (p.1, fmtBytes f, .load, none)

/-- The elements of a TST or DRAIN in order (R320, R329, R339), until one must wait. -/
def runJob (c : Nat) : Nat → State → TileJob → State
  | 0, s, j => s.setJob c j.tag (some j)
  | f + 1, s, j =>
    match j.todo with
    | [] => s.setJob c j.tag (some j)
    | (r, q, code) :: t =>
      let form := fun (s : State) (j : TileJob) (res : Option Nat) =>
        let o := match j.drain with
          | some d => drainElem d j.rnd code res r q
          | none => (code, 0)
        runJob c f s { j with ready := true, todo := (r, q, o.1) :: t, flags := j.flags ||| o.2 }
      let rt := tensorOf j.res.toNat
      if !j.ready && (j.res = 0 || rt.none) then form s j (if j.res = 0 then none else some 0)
      else
        let p := j.next r q code
        match s.unitAccess (s.jobReq j) j.rem p.1 p.2.1 true false p.2.2.1 with
        | (s, .val x _, _) =>
          let j := { j with rem := none }
          if j.ready then
            runJob c f (s.lowerOutst c j.lctx j.tcb 1) { j with todo := t, cells := j.cells.drop 1, spans := j.spans.drop 1, ready := j.drain.isNone }
          else form s j (some x)
        | (s, .wait, rem) =>
          let s := s.setJob c j.tag (some { j with rem := rem })
          if rem.isSome then s else s.due (.tileDrainDone c j.tag)
        | (s, .fault h m, _) =>
          (s.setJob c j.tag (some { j with rem := none, held := true })).requestFault j.ctx p.1.toNat
            (if j.ready then 1 else 0) h m [.tile c j.tag]
        | (s, .poisoned pa, _) =>
          s.ctxFatal j.ctx { level := 3, cause := 1, core := c, slot := j.id.idx % 64, lead := decide (64 ≤ j.id.idx),
                             pa := pa, va := p.1.toNat, pc := 0, task := s.vaOf j.tcb }
        | (s, .fatal, _) =>
          s.ctxFatal j.ctx { level := 3, cause := 7, core := c, slot := j.id.idx % 64, lead := decide (64 ≤ j.id.idx),
                             pa := 0, va := p.1.toNat, pc := 0, task := s.vaOf j.tcb }
        | (s, _, _) => (s.endJob c j).policy j.tcb 0x10

/-- A TST or DRAIN begun at its turn (R318): the tile DRAINING, its writes counted as outstanding
work, and performed as far as they can be. -/
def startJob (s : State) (ag : Agent) (id : AgentId) (j : TileJob) : State :=
  let c := id.core
  let s := s.setTile c j.tile ((s.tile c j.tile).setState tDraining)
  let tag := s.ntag
  let s : State := { s.turnEnded c j.tile ag tag with ntag := tag + 1 }
  let span := fun (e : Nat × Nat × Nat) =>
    let p := { j with ready := true }.next e.1 e.2.1 e.2.2
    (p.1.toNat, p.2.1)
  let j := { j with tag := tag, spans := j.todo.map span }
  let k := s.core c
  let s : State := (s.setCore c { k with jobs := k.jobs ++ [j] }).raiseOutst c ag.lctx j.todo.length
  let s := runJob c (2 * j.todo.length + 1) s j
  s.due (.tileDrainDone c tag)

/-- TILE_DRAIN_DONE (R318): with every write performed the tile becomes EMPTY; else the writes go
on from where they stopped. -/
def execTileDrainDone (c tag : Nat) (s : State) : Host.Outcome State Fault Refusal :=
  match (s.core c).jobs.find? fun j => j.tag == tag with
  | none => .next s
  | some j =>
    if j.todo.isEmpty then .next ((s.endJob c j).settleTask j.tcb)
    else if j.held then .next s
    else match j.rem with
      | some { ans := none, .. } => .next s
      | _ => .next ((runJob c (2 * j.todo.length + 1) s j).due (.tileDrainDone c tag))

/-- The job of a word, before it has a tag. -/
def newJob (id : AgentId) (ag : Agent) (t fmt : Nat) (al : Word64) (out res : Nat) : TileJob :=
  { tile := t, tag := 0, id := id, ctx := ag.ctx, tcb := ag.tcb, lctx := ag.lctx, priv := ag.priv, frame := ag.key
    out := BitVec.ofNat 256 out, res := BitVec.ofNat 256 res, fmt := fmt, al := al, drain := none, rnd := 0
    ready := true, todo := [], cells := [], spans := [], flags := 0, rem := none, held := false }

/-- The elements of a tile that fall inside an output tensor (R322): their coordinates there and in
the tile. -/
def outPlaces (e : Entry) (rows pack : Nat) (o : Int × Int) (x : Tensor) : List ((Nat × Nat) × Nat × Nat) :=
  (List.range rows).flatMap fun (i : Nat) => (List.range e.cols).filterMap fun (j : Nat) =>
    let r := o.1 + ((i * pack : Nat) : Int)
    let c := o.2 + (j : Int)
    if x.inside r c then some ((r.toNat, c.toNat), i, j) else none

/-- TST (R329). -/
def execTst (sb : Bool) (d : BitVec 6) (a b : BitVec 5) (s : State) : Host.Outcome State Fault Refusal :=
  issue (.tst sb d a b) sb tileRules
    (fun s id ag _ =>
      let t := d.toNat
      let e := s.tile id.core t
      let o := origin (ag.getX b.toNat)
      if e.fmt = 16 ∧ o.1 % e.pack ≠ 0 then .trap s trIllegalInstr 0
      else unparked (s.foreign id ag [t]) <| withStruct s id 0 (ag.getX a.toNat) 4 32 fun s x =>
        let ps := outPlaces e e.wrows e.pack o (tensorOf x)
        if tensorBad x then .trap s trIllegalInstr 0
        else if !(tensorOf x).aligned e.fmt e.pack (ps.map fun p => p.1.1) then .trap s trMisaligned 1
        else if !e.ownedBy ag then .trap s trAccess (tileInfo t)
        else atTurn s id t 0x63 false false fun s ag => consume s id.core t (
          match s.tileReadBad id.core e with
          | some b => b.res s
          | none =>
            .done (startJob s ag id { newJob id ag t e.fmt e.alph x 0 with
              cells := ps.map Prod.snd, todo := ps.map fun p => (p.1.1, p.1.2, s.tileCode id.core e p.2.1 p.2.2) }))) s

/-- Whether a DRAIN descriptor is malformed (R338). -/
def drainBad (x : Nat) : Bool :=
  let d : BitVec 512 := BitVec.ofNat 512 x
  let rf := getF d 220 4
  getF d 384 128 != 0 || !([2, 3, 4, 7, 9, 10, 11].contains (getF d 216 4))
    || (if getF d 64 64 = 0 then rf != 0 else !([2, 3, 4].contains rf))

/-- A layout descriptor that another descriptor names; 0 names none. -/
def withTensor (s : State) (id : AgentId) (i : Nat) (va : Nat) (opt : Bool) (k : State → Nat → Res) : Res :=
  if opt ∧ va = 0 then k s 0
  else withStruct s id i (BitVec.ofNat 64 va) 4 32 fun s x => if tensorBad x then .trap s trIllegalInstr 0 else k s x

/-- MISALIGNED comes before an ACCESS or a park that a later read of the word meets, and behind its ILLEGAL_INSTR
(R58). -/
def unevenFirst (bad : Bool) (r : Res) : Res :=
  if !bad then r
  else match r with
    | .fault s _ _ _ _ _ => .trap s trMisaligned 1
    | .trap s c i => if c = trIllegalInstr then .trap s c i else .trap s trMisaligned 1
    | r => r

/-- Two layout descriptors of a word, read under the numbers from `i` on: the reserved bits of both, then every
misalignment, of which `bad` says that the word has met one already and `odd` what the first descriptor adds (R58,
R321). -/
def withTensors (s : State) (id : AgentId) (i : Nat) (bad : Bool) (va vb : Nat) (opt : Bool) (odd : Nat → Bool)
    (k : State → Nat → Nat → Res) : Res :=
  let bad := bad || va % 32 != 0 || vb % 32 != 0
  let read := fun (s : State) (i v : Nat) (opt : Bool) (k : State → Nat → Res) =>
    if v % 32 ≠ 0 then k s 0 else withTensor s id i v opt k
  unevenFirst bad <| read s i va false fun s xa =>
    let bad := bad || odd xa
    unevenFirst bad <| read s (i + 4) vb opt fun s xb => if bad then .trap s trMisaligned 1 else k s xa xb

/-- DRAIN (R338, R339). -/
def execDrain (sb : Bool) (r : BitVec 3) (d : BitVec 6) (a b : BitVec 5) (s : State) :
    Host.Outcome State Fault Refusal :=
  issue (.drain sb r d a b) sb tileRules
    (fun s id ag _ =>
      let t := d.toNat
      let e := s.tile id.core t
      if e.kind ≠ kACC then .trap s trIllegalInstr (tileInfo t)
      else unparked (s.foreign id ag [t]) <| withStruct s id 0 (ag.getX a.toNat) 8 64 fun s x =>
        let ds : BitVec 512 := BitVec.ofNat 512 x
        let of := getF ds 216 4
        let rf := getF ds 220 4
        if drainBad x then .trap s trIllegalInstr 0
        else withTensors s id 8 false (getF ds 0 64) (getF ds 64 64) true
            (fun out => !(tensorOf out).aligned of 1 ((outPlaces e e.rows 1 (origin (ag.getX b.toNat)) (tensorOf out)).map fun p => p.1.1))
            fun s out res =>
          let ps := outPlaces e e.rows 1 (origin (ag.getX b.toNat)) (tensorOf out)
          let rt := tensorOf res
          if !(tensorOf out).aligned of 1 (ps.map fun p => p.1.1) ||
              !(rf = 0 || rt.none || rt.aligned rf 1 (ps.map fun p => clampTo p.1.1 rt.rows)) then .trap s trMisaligned 1
          else if !e.ownedBy ag then .trap s trAccess (tileInfo t)
          else atTurn s id t 0x6B false false fun s ag => consume s id.core t (
            .done (startJob s ag id { newJob id ag t of 0 out res with
              drain := some ds, rnd := r.toNat, ready := false, cells := ps.map Prod.snd
              todo := ps.map fun p => (p.1.1, p.1.2, s.tileCode id.core e p.2.1 p.2.2) }))) s

end Sys2Proof.Machine
end

