-- ==== Sys2Proof/Machine/Matrix.lean ====
section
/-! DEFINITION. The matrix array: MMQ and MMT (R331 to R335), the accumulator instructions
(R336, R337), TXP (R330), and the end of what they have begun. -/

namespace Sys2Proof.Machine

/-! ## Scales and outliers (R107, R111) -/

/-- Scales of a plane, by number, read from `i` upward as the bytes that hold them. -/
def State.scaleReads (s : State) (id : AgentId) (i : Nat) (plane : Nat) (nums : List Nat) :
    State × Except Got (List Val) :=
  let place := fun (n k : Nat) => BitVec.ofNat 64 (plane + n / 8 * 12 + n % 8 * 12 / 8 + k)
  match s.reads id { plain := true } i (nums.flatMap fun n => [(place n 0, 1), (place n 1, 1)]) with
  | (s, .error g) => (s, .error g)
  | (s, .ok xs) =>
    (s, .ok (nums.zipIdx.map fun p =>
      decS12 ((xs.getD (2 * p.2) 0 + 256 * xs.getD (2 * p.2 + 1) 0) / 2 ^ (p.1 % 8 * 12 % 8) % 2 ^ 12)))

/-- The values of an outlier side list that `n` escapes take (R107): NaN is signalled for those
past its count. -/
def State.outlierReads (s : State) (id : AgentId) (i : Nat) (list n : Nat) : State × Except Got (List Val) :=
  match s.reads id { plain := true } i [(BitVec.ofNat 64 list, 2)] with
  | (s, .error g) => (s, .error g)
  | (s, .ok c) =>
    let m := min n (min (c.getD 0 0) 1024)
    match s.reads id { plain := true } (i + 1) ((List.range m).map fun j => (BitVec.ofNat 64 (list + 8 + 2 * j), 2)) with
    | (s, .error g) => (s, .error g)
    | (s, .ok xs) => (s, .ok (xs.map Fmt.f16.dec))

/-! ## The operands of MMQ (R331, R286) -/

/-- The registers that A takes in a format pair. -/
def mmqRun (f : Nat) (al : Word64) : Nat :=
  match f with
  | 0 => 8
  | 1 => 7
  | 2 => 5
  | 3 => 8
  | 4 => (31 + alN al) / alN al
  | 5 => (31 + alN al) / alN al
  | _ => 16

/-- K-element `k` of the row of thread `t`. -/
def aElem (a : Agent) (f r : Nat) (al : Word64) (t k : Nat) : Elem :=
  let reg := fun (n : Nat) => (laneOf (a.getV (r + n)) t).toNat
  if f = 4 ∨ f = 5 then digitOf al (reg (k / alN al)) (k % alN al)
  else
    let p := pairA f
    elemOf p.1 (reg (k / p.2.1) / 2 ^ (k % p.2.1 * p.2.2) % 2 ^ p.2.2)
      (if f = 2 then some (decS12 (reg 4 % 2 ^ 12)) else none) none

/-- The number of an e2m1 escape of a tile, in row-major order (R107). -/
def escapeNo (s : State) (c : Nat) (e : Entry) (i j : Nat) : Nat :=
  ((List.range (i * e.cols + j)).filter fun p => s.tileCode c e (p / e.cols) (p % e.cols) == 8).length

/-- Element (k, j) of the B tile. `list` holds the values of its escapes. -/
def bElem (s : State) (c : Nat) (e : Entry) (scales list : List Val) (k j : Nat) : Elem :=
  if e.fmt = 16 then digitOf e.alph (s.tileCode c e (k / e.n) j) (k % e.n)
  else
    let x := s.tileCode c e k j
    elemOf e.fmt x (if e.scpl = 0 then none else scales[j]?)
      (if e.fmt = 11 ∧ x = 8 ∧ e.outl ≠ 0 then list[escapeNo s c e k j]? else none)

/-- The B tile that the threads of quarter `q` name: none for a quarter without active threads, and
an error where they differ (R332). -/
def quarterTile (ag : Agent) (act : Word) (b q : Nat) : Except Unit (Option Nat) :=
  let ts := (lanes act).filter fun t => t / 8 == q
  match ts.map fun t => (laneOf (ag.getV b) t).toNat % 64 with
  | [] => .ok none
  | x :: xs => if xs.all (· == x) then .ok (some x) else .error ()

/-- Whether a tile may be the B operand of a format pair. -/
def bTileBad (f : Nat) (e : Entry) : Bool :=
  e.kind == kACC || e.fmt != pairB f || (e.scpl != 0 && decide (5 ≤ f))

/-- The scales and outliers of the B tiles, tile by tile. -/
def sideReads (id : AgentId) : List Nat → Nat → State → State × Except Got (List (Nat × List Val × List Val))
  | [], _, s => (s, .ok [])
  | b :: t, i, s =>
    let e := s.tile id.core b
    match if e.scpl = 0 then (s, .ok []) else s.scaleReads id i e.scpl (List.range e.cols) with
    | (s, .error g) => (s, .error g)
    | (s, .ok sc) =>
      match if e.fmt = 11 ∧ e.outl ≠ 0 then s.outlierReads id (i + 100) e.outl (escapeNo s id.core e e.rows 0) else (s, .ok []) with
      | (s, .error g) => (s, .error g)
      | (s, .ok ol) => match sideReads id t (i + 2000) s with
        | (s, .error g) => (s, .error g)
        | (s, .ok l) => (s, .ok ((b, sc, ol) :: l))

/-- The places of an agent's word in the order of several tiles taken. -/
def joinTurns (s : State) (c : Nat) (ag : Agent) (op : Nat) (ts : List (Nat × Bool × Bool)) : State :=
  ts.foldl (fun s t => s.joinTurn c t.1 ag op t.2.1 t.2.2) s

/-- The first consumed tile whose turn has come and that is EMPTY. -/
def emptyTurn (s : State) (c : Nat) (ag : Agent) (ts : List Nat) : Option Nat :=
  ts.find? fun t => turnNow (s.turns c t) ag.key && (s.tile c t).state == tEmpty

/-- Whether it is the turn of a word on every tile, and every one is READY. -/
def allTurns (s : State) (c : Nat) (ag : Agent) (ts : List Nat) : Bool :=
  ts.all fun t => turnNow (s.turns c t) ag.key && (s.tile c t).state == tReady

/-- A word has issued under MAT (R71): its results are written later. -/
def State.postMat (s : State) (id : AgentId) (tiles : List Nat) (writes : List RegWrite) (fl : BitVec 9) : State :=
  match s.agent id with
  | none => s
  | some a =>
    let t := s.ntag
    let o : Outst := { tag := t, cls := .mat, writes := writes, flags := fl, left := 0, sent := 0, more := false }
    let s : State := s.setAgent id { a.setCounter .mat (a.cmat + 1) with outst := a.outst ++ [o] }
    let s : State := tiles.foldl (fun s x => s.turnEnded id.core x a t) s
    { s with ntag := t + 1, agenda := s.agenda ++ [.matUpdateWritten id t] }

/-- MMQ once its tiles are at hand (R332): the accumulator updated quarter by quarter, masked rows
zeroed with `Z`, and the flags. -/
def mmqUpdate (s : State) (id : AgentId) (ag : Agent) (p : Pfx) (f r d : Nat) (al : Word64) (qs : List (Nat × Nat))
    (side : List (Nat × List Val × List Val)) : State × BitVec 9 :=
  let c := id.core
  let e := s.tile c d
  let act := ag.active p
  let mine := fun (w : Word) (q : Nat) => (lanes w).filter fun t => t / 8 == q && decide (t < e.rows)
  let out := qs.map fun q =>
    let b := s.tile c q.2
    let sd := ((side.find? fun x => x.1 == q.2).map Prod.snd).getD ([], [])
    let ks := List.range b.rows
    let cols := (List.range (min b.cols e.cols)).map fun j => ks.map fun k => bElem s c b sd.1 sd.2 k j
    s.macRows c e.base ((mine act q.1).map fun t => (t, ks.map fun k => aElem ag f r al t k)) cols
  let zeros := if p.z then
      qs.flatMap fun q => (mine (ag.live &&& ~~~ act) q.1).flatMap fun t => (List.range e.cols).map fun j => (t, j, 0)
    else []
  (s.setAcc c e.base (out.flatMap Prod.fst ++ zeros), (out.map Prod.snd).foldl (· ||| ·) 0)

/-- MMQ (R331 to R333). -/
def execMmq (sb : Bool) (l : BitVec 2) (f : BitVec 3) (d : BitVec 6) (a b : BitVec 5) (s : State) :
    Host.Outcome State Fault Refusal :=
  issue (.mmq sb l f d a b) sb { form := .v, u := false, cls := some .mat, okM := true }
    (fun s id ag p =>
      let c := id.core
      let t := d.toNat
      let e := s.tile c t
      let fn := f.toNat
      let al := ag.getAl l.toNat
      let act := ag.active p
      let qt := (List.range 4).map fun q => (q, quarterTile ag act b.toNat q)
      let qs := qt.filterMap fun q => match q.2 with
        | .ok (some x) => some (q.1, x)
        | _ => none
      let bs := (qs.map Prod.snd).dedup
      if e.kind ≠ kACC then .trap s trIllegalInstr (tileInfo t)
      else if ((fn = 4 ∨ fn = 5) ∧ al = 0) ∨ 32 < a.toNat + mmqRun fn al then .trap s trIllegalInstr 0
      else if bs.any fun x => bTileBad fn (s.tile c x) then .trap s trIllegalInstr 0
      else if !ag.converged || qt.any (fun q => match q.2 with
        | .error _ => true
        | .ok _ => false) then .trap s trIllegalState (ag.live.setWidth 64)
      else match (t :: bs).find? fun x => !(s.tile c x).ownedBy ag with
        | some x => .trap s trAccess (tileInfo x)
        | none => if qs.isEmpty then .done s else
          let s := joinTurns s c ag 0x64 ((t, false, false) :: bs.map fun x => (x, false, true))
          match emptyTurn s c ag (t :: bs) with
          | some x => .trap s trTileEmpty (tileInfo x)
          | none =>
            if !allTurns s c ag (t :: bs) then .hold s
            else match (t :: bs).findSome? fun x => s.tileReadBad c (s.tile c x) with
              | some y => y.res s
              | none => match sideReads id bs 100 s with
                | (s, .error g) => g.res s true 0
                | (s, .ok side) =>
                  let r := mmqUpdate s id ag p fn a.toNat t al qs side
                  .done (r.1.postMat id (t :: bs) [] r.2)) s

/-- MAT_UPDATE_WRITTEN (R332): the registers and flags are written, the MAT count falls, and the
tiles are free for the next instruction on them. -/
def execMatUpdateWritten (id : AgentId) (tag : Nat) (s : State) : Host.Outcome State Fault Refusal :=
  let s : State := (s.core id.core).turns.foldl (fun s p => s.endTurn id.core p.1 tag) s
  match s.agent id with
  | none => .next s
  | some a => match a.outst.find? fun o => o.tag == tag && o.cls == .mat with
    | none => .next s
    | some o =>
      .next ((((s.applyWrites id o.writes).1).landed id a tag fun b => b.finishTag o).joinFlags id a o.flags)

/-! ## Accumulators (R336, R337) -/

/-- ACCZ (R336, R344). -/
def execAccz (sb : Bool) (d : BitVec 6) (s : State) : Host.Outcome State Fault Refusal :=
  issue (.accz sb d) sb tileRules
    (fun s id ag _ =>
      let t := d.toNat
      let e := s.tile id.core t
      if e.kind ≠ kACC then .trap s trIllegalInstr (tileInfo t)
      else if !e.ownedBy ag then .trap s trAccess (tileInfo t)
      else atTurn s id t 0x69 false false fun s ag =>
        let s := s.setAcc id.core e.base ((List.range 1024).map fun i => (i / 32, i % 32, 0))
        let s := s.setTile id.core t ((((s.tile id.core t).setState tReady).setHeld false).setArrv 0)
        .done ((s.stopVar id.core t).markTurn id.core t ag none)) s

/-- ACCR (R337). -/
def execAccr (sb : Bool) (d : BitVec 5) (a : BitVec 6) (b : BitVec 2) (s : State) : Host.Outcome State Fault Refusal :=
  issue (.accr sb d a b) sb { form := .v, u := false, cls := some .mat }
    (fun s id ag p =>
      let t := a.toNat
      let e := s.tile id.core t
      if e.kind ≠ kACC then .trap s trIllegalInstr (tileInfo t)
      else if !e.ownedBy ag then .trap s trAccess (tileInfo t)
      else atTurn s id t 0x6A false true fun s ag => consume s id.core t (
        match (s.core id.core).hurt e.winPlaces with
        | some o => .poison s (s.winPa id.core o) 0
        | none => .done (s.postMat id [t] ((lanes (ag.active p)).flatMap fun i => (List.range 8).map fun m =>
          RegWrite.lane (d.toNat + m) i (BitVec.ofNat 32 (s.accElem id.core e.base i (8 * b.toNat + m)))) 0))) s

/-! ## TXP (R330) -/

/-- Whether two tiles may be the destination and source of TXP. -/
def txpOk (d e : Entry) : Bool :=
  d.kind == kSP && e.kind == kSP && d.fmt == e.fmt && [2, 3, 4, 7, 9, 10].contains d.fmt
    && d.rows == e.cols && d.cols == e.rows

/-- TXP (R330). -/
def execTxp (sb : Bool) (d a : BitVec 6) (s : State) : Host.Outcome State Fault Refusal :=
  issue (.txp sb d a) sb tileRules
    (fun s id ag _ =>
      let c := id.core
      let t := d.toNat
      let u := a.toNat
      let e := s.tile c t
      let f := s.tile c u
      if !txpOk e f then .trap s trIllegalInstr 0
      else if !f.ownedBy ag then .trap s trAccess (tileInfo u)
      else if !e.ownedBy ag then .trap s trAccess (tileInfo t)
      else
        let s := joinTurns s c ag 0x6C (if t = u then [(t, true, false)] else [(u, false, true), (t, true, false)])
        match emptyTurn s c ag [u] with
        | some x => .trap s trTileEmpty (tileInfo x)
        | none =>
          if !(allTurns s c ag [u] && turnNow (s.turns c t) ag.key) then .hold s
          else match s.tileReadBad c f with
            | some y => y.res s
            | none =>
              let xs := (List.range e.rows).flatMap fun i => (List.range e.cols).map fun j => (i, j, s.tileCode c f j i)
              match s.tileWrite c e xs with
              | (s, some y) => y.res s
              | (s, none) =>
                let n := (((s.tile c t).setState tReady).setArrv (2 ^ e.rows - 1)).setProg 0
                .done ((((s.setTile c t n).lessPend c t).markTurn c t ag none).markTurn c u ag none)) s

/-! ## MMT (R334, R335) -/

/-- The descriptor of MMT. -/
abbrev MmtDesc := BitVec 1024

/-- Whether the descriptor of MMT is rejected (R334). -/
def mmtBad (x : MmtDesc) : Bool :=
  let f := getF x 288 3
  let al := fun (lo : Nat) => BitVec.ofNat 64 (getF x lo 64)
  let alBad := fun (lo : Nat) (used : Bool) => if used then al lo == 0 || !alValid (al lo) else al lo != 0
  getF x 576 448 != 0 || getF x 291 29 != 0
    || alBad 448 (f == 4 || f == 5) || alBad 512 (f == 5)
    || (decide (6 ≤ f) && (getF x 320 64 != 0 || getF x 384 64 != 0))
    || getF x 0 64 % 32 != 0 || getF x 64 64 % 32 != 0 || getF x 320 64 % 4 != 0 || getF x 384 64 % 4 != 0

/-- A signed 32-bit field. -/
def intF (x : BitVec w) (lo : Nat) : Int := (BitVec.ofNat 32 (getF x lo 32)).toInt

/-- One operand of a matrix product as it is read: its tensor, format, alphabet, scale plane, and
whether K runs along its columns. -/
structure Operand where
  t : Tensor
  fmt : Nat
  al : Word64
  plane : Nat
  kcols : Bool
  deriving DecidableEq, Repr

/-- Digits to a word of the operand, or 1. -/
def Operand.pack (o : Operand) : Nat := if o.fmt = 16 then alN o.al else 1

/-- Rows that stand for the `n` rows from `lo` after clamping: the addresses of further rows differ from theirs by
multiples of 4 strides. -/
def Operand.span (o : Operand) (lo : Int) (n : Nat) : List Nat :=
  let a := clampTo lo o.t.rows
  let b := clampTo (lo + n - 1) o.t.rows
  if n = 0 then [] else (List.range (min (b - a + 1) (5 * o.pack))).map (a + ·)

/-- The number of the scale of a coordinate (R111). -/
def Operand.scaleNo (o : Operand) (r c : Int) : Nat :=
  let r := clampTo r o.t.rows
  let c := clampTo c o.t.cols
  if o.kcols then r * ((o.t.cols + 31) / 32) + c / 32 else c * ((o.t.rows + 31) / 32) + r / 32

/-- Elements of an operand read through its descriptor, with their scales (R110, R322). -/
def Operand.read (o : Operand) (s : State) (id : AgentId) (i : Nat) (rc : List (Int × Int)) :
    State × Except Got (List Elem) :=
  match s.tensorRead id i o.t o.fmt o.pack rc with
  | (s, .error g) => (s, .error g)
  | (s, .ok xs) =>
    let nums := if o.plane = 0 || o.t.none then [] else (rc.map fun p => o.scaleNo p.1 p.2).dedup
    match s.scaleReads id (i + 1024) o.plane nums with
    | (s, .error g) => (s, .error g)
    | (s, .ok sc) =>
      (s, .ok ((rc.zip xs).map fun q =>
        let z := if nums.isEmpty then none else sc[nums.idxOf (o.scaleNo q.1.1 q.1.2)]?
        if o.fmt = 16 then
          let e := digitOf o.al q.2 (clampTo q.1.1 o.t.rows % o.pack)
          scaled e.1 e.2 z
        else elemOf o.fmt q.2 z none))

/-- K-step `k` of MMT (R335): its operands read, and the accumulator updated. -/
def mmtStep (s : State) (id : AgentId) (e : Entry) (x : MmtDesc) (a b : Operand) (k : Nat) :
    State × Except Got (BitVec 9) :=
  let n := min 32 (getF x 256 32 - 32 * k)
  let off := fun (lo d : Nat) => intF x lo + (d : Int)
  let ra := (List.range e.rows).flatMap fun i => (List.range n).map fun j => (off 128 i, off 160 (32 * k + j))
  let rb := (List.range e.cols).flatMap fun j => (List.range n).map fun i => (off 192 (32 * k + i), off 224 j)
  match a.read s id 1000 ra with
  | (s, .error g) => (s, .error g)
  | (s, .ok xs) => match b.read s id 5000 rb with
    | (s, .error g) => (s, .error g)
    | (s, .ok ys) =>
      let row := fun (l : List Elem) (i : Nat) => (l.drop (n * i)).take n
      let r := s.macRows id.core e.base ((List.range e.rows).map fun i => (i, row xs i)) ((List.range e.cols).map (row ys))
      (s.setAcc id.core e.base r.1, .ok r.2)

/-- A macro product begun afresh at its turn, or again where it was interrupted. -/
def beginMacro (s : State) (c t : Nat) (ag : Agent) : State :=
  match myTurn (s.turns c t) ag.key with
  | some x =>
    if x.st = .waiting then (s.setTile c t (((s.tile c t).setHeld false).setArrv 0)).markTurn c t ag (some .running)
    else s.setTile c t ((s.tile c t).setHeld false)
  | none => s

/-- Whether the turn of an agent's word on a tile has begun. -/
def begun (s : State) (c t : Nat) (ag : Agent) : Bool :=
  match myTurn (s.turns c t) ag.key with
  | some x => x.st == .running
  | none => false

/-- A word whose reads are refused leaves its tile READY, with what it has accumulated. -/
def endMacro (s : State) (c t : Nat) (ag : Agent) : State :=
  (s.setTile c t ((s.tile c t).setHeld false)).markTurn c t ag none

/-- MMT (R334, R335): one K-step in each turn, and the issue held until the last; the flags of the steps are
raised as it ends (R126). -/
def execMmt (sb : Bool) (d : BitVec 6) (a : BitVec 5) (s : State) : Host.Outcome State Fault Refusal :=
  issue (.mmt sb d a) sb tileRules
    (fun s id ag _ =>
      let c := id.core
      let t := d.toNat
      let e := s.tile c t
      if e.kind ≠ kACC then .trap s trIllegalInstr (tileInfo t)
      else unparked (s.foreign id ag [t]) <| withStruct s id 0 (ag.getX a.toNat) 16 128 fun s x =>
        let ds : MmtDesc := BitVec.ofNat 1024 x
        let f := getF ds 288 3
        let odd := fun (xa : Nat) =>
          let o : Operand := { t := tensorOf xa, fmt := (pairA f).1, al := BitVec.ofNat 64 (getF ds 448 64), plane := 0, kcols := true }
          getF ds 256 32 != 0 && !(o.t.none || o.t.aligned o.fmt o.pack (o.span (intF ds 128) e.rows))
        if mmtBad ds then .trap s trIllegalInstr 0
        else withTensors s id 16 false (getF ds 0 64) (getF ds 64 64) false odd fun s xa xb =>
          let oa : Operand := { t := tensorOf xa, fmt := (pairA f).1, al := BitVec.ofNat 64 (getF ds 448 64)
                                plane := getF ds 320 64, kcols := true }
          let ob : Operand := { t := tensorOf xb, fmt := pairB f, al := BitVec.ofNat 64 (getF ds 512 64)
                                plane := getF ds 384 64, kcols := false }
          let len := getF ds 256 32
          let rows := fun (o : Operand) (lo n : Nat) => o.t.none || o.t.aligned o.fmt o.pack (o.span (intF ds lo) n)
          if len ≠ 0 ∧ !(rows oa 128 e.rows && rows ob 192 len) then .trap s trMisaligned 1
          else if !e.ownedBy ag then .trap s trAccess (tileInfo t)
          else atTurn s id t 0x65 false false fun s ag =>
            let go := fun (s : State) =>
              let s := beginMacro s c t ag
              let e := s.tile c t
              let ended := fun (s : State) => ((s.raiseFlags id ag (s.turnFlags c t ag)).markTurn c t ag none)
              if len ≤ 32 * e.arrv then .done (ended s)
              else match mmtStep s id e ds oa ob e.arrv with
                | (s, .error g) => (match g with
                  | .trap k i => .trap (endMacro s c t ag) k i
                  | g => g.res s true 0)
                | (s, .ok fl) =>
                  let s := ((s.setTile c t (e.setArrv (e.arrv + 1))).addTurnFlags c t ag fl).dropReads id 1000
                  if len ≤ 32 * (e.arrv + 1) then .done (ended s) else .hold s
            if begun s c t ag then go s else consume s c t (go s)) s

end Sys2Proof.Machine
end

