-- ==== Sys2Proof/Machine/Sampling.lean ====
section
/-! DEFINITION. Sampled products (R341 to R355): MNORM, ALIAS, MMS and VARR, and the window
writes of variance records. -/

namespace Sys2Proof.Machine

/-! ## The sampling descriptor (R341, R342) -/

/-- The sampling descriptor. -/
abbrev SampDesc := BitVec 1024

/-- The element format of a format pair. -/
def sampFmt (f : Nat) : Nat := (pairA f).1

/-- A number format's value of an f32 code. -/
def f32v (x : Nat) : Val := Fmt.f32.dec x

/-- A value rounded to f32, without its flags. -/
def f32r (v : Val) : Nat := (Fmt.f32.enc v 1 0).1

/-- Whether a value is finite and below zero. -/
def Val.below (v : Val) : Bool := v.sign && !v.isZero && !v.isNan

/-- Whether the descriptor raises ILLEGAL_INSTR. -/
def sampBad (x : SampDesc) : Bool :=
  let f := getF x 288 3
  let tau := f32v (getF x 608 32)
  getF x 896 128 != 0 || getF x 291 269 != 0 || f == 2 || f == 4 || f == 5
    || getF x 256 32 == 0 || decide (4096 < getF x 256 32) || getF x 576 16 == 0 || getF x 592 16 == 0
    || tau.nonFinite || Val.below tau

/-- Whether one of its addresses is misaligned. -/
def sampUneven (x : SampDesc) : Bool :=
  getF x 0 64 % 32 != 0 || getF x 64 64 % 32 != 0 || getF x 704 64 % 4 != 0 || getF x 768 64 % 4 != 0
    || getF x 832 64 % 8 != 0

/-- The two operands of a sampled product. -/
def sampA (x : SampDesc) (t : Nat) : Operand :=
  { t := tensorOf t, fmt := sampFmt (getF x 288 3), al := 0, plane := 0, kcols := true }
def sampB (x : SampDesc) (t : Nat) : Operand :=
  { t := tensorOf t, fmt := sampFmt (getF x 288 3), al := 0, plane := 0, kcols := false }

/-- What MNORM, ALIAS and MMS check before they have any effect (R342, R345): the kind of the tile, and the
whole descriptor but for the alignment of its addresses, which ranks behind the reserved bits of what they name (R58). The
tile belongs to another task where the word parks, which ranks behind that (R58, R317). -/
def withSamp (s : State) (id : AgentId) (t : Nat) (va : Word64) (k : State → SampDesc → Res) : Res :=
  if (s.tile id.core t).kind ≠ kACC then .trap s trIllegalInstr (tileInfo t)
  else unparked (match s.agent id with
      | some a => s.foreign id a [t]
      | none => none) <| withStruct s id 0 va 16 128 fun s x =>
    let ds : SampDesc := BitVec.ofNat 1024 x
    if sampBad ds then .trap s trIllegalInstr 0 else k s ds

/-- The owner of the tile, whose check ranks behind those of the descriptors (R58, R317). -/
def withOwned (s : State) (id : AgentId) (t : Nat) (k : State → Agent → Res) : Res :=
  match s.agent id with
  | none => .hold s
  | some a => if (s.tile id.core t).ownedBy a then k s a else .trap s trAccess (tileInfo t)

/-- The tensor descriptors of the product, and the alignment of the elements that it reads. -/
def withPair (s : State) (id : AgentId) (e : Entry) (x : SampDesc) (k : State → Operand → Operand → Res) : Res :=
  let ok := fun (o : Operand) (lo : Int) (n : Nat) => o.t.none || o.t.aligned o.fmt 1 (o.span lo n)
  withTensors s id 16 (sampUneven x) (getF x 0 64) (getF x 64 64) false
    (fun xa => !ok (sampA x xa) (intF x 128) e.rows) fun s xa xb =>
    let a := sampA x xa
    let b := sampB x xb
    if ok a (intF x 128) e.rows && ok b (intF x 192) (getF x 256 32) then k s a b else .trap s trMisaligned 1

/-- Column `k` of A and row `k` of B over the extent of the tile. -/
def sampCol (x : SampDesc) (e : Entry) (k : Nat) : List (Int × Int) :=
  (List.range e.rows).map fun (i : Nat) => (intF x 128 + (i : Int), intF x 160 + (k : Int))
def sampRow (x : SampDesc) (e : Entry) (k : Nat) : List (Int × Int) :=
  (List.range e.cols).map fun (j : Nat) => (intF x 192 + (k : Int), intF x 224 + (j : Int))

/-! ### Arrays that overlap (R342) -/

/-- Whether a row of a tensor meets `n` bytes from `lo` on; rows that a negative stride lays downward are
counted from the lowest. -/
def Tensor.touches (t : Tensor) (fmt lo n : Nat) : Bool :=
  let w := (t.cols * fmtBits fmt + 7) / 8
  let up := decide (t.rstr.toNat < 2 ^ 63)
  let str := if up then t.rstr.toNat else (-t.rstr).toNat
  let b := if up then t.base.toNat else (t.base + BitVec.ofNat 64 (t.rows - 1) * t.rstr).toNat
  let r := if str = 0 then 0 else min (t.rows - 1) ((lo + n - 1 - b) / str)
  !t.none && decide (b < lo + n) && decide (lo < b + r * str + w)

/-- Whether the arrays of a descriptor overlap each other or its tensors, which leaves the arrays and the
product undefined. -/
def SampDesc.overlaps (x : SampDesc) (ts : List Tensor) : Bool :=
  let k := getF x 256 32
  let arr := [(getF x 704 64, 4 * k), (getF x 768 64, 4 * k), (getF x 832 64, 8 * k)]
  let pair := fun (i j : Nat) =>
    let p := arr.getD i (0, 0)
    let q := arr.getD j (0, 0)
    meets p.1 p.2 q.1 q.2
  pair 0 1 || pair 0 2 || pair 1 2 || arr.any fun p => ts.any fun t => t.touches (sampFmt (getF x 288 3)) p.1 p.2

/-- A value, or a free one of `n` bits where it is undefined (R7). -/
def State.orFree (s : State) (undef : Bool) (n x : Nat) : Nat × State := if undef then s.free n else (x, s)

/-- The same for each of several values. -/
def State.orFrees (s : State) (undef : Bool) (n : Nat) : List Nat → List Nat × State
  | [] => ([], s)
  | x :: t =>
    let f := s.orFree undef n x
    let r := f.2.orFrees undef n t
    (f.1 :: r.1, r.2)

/-- A tensor that a descriptor names, as far as its descriptor stands in the HBM of this module; ALIAS, which
makes no access to it, looks at it only to tell whether the table overlaps it. -/
def State.seenTensor (s : State) (id : AgentId) (a : Agent) (va : Nat) : List Tensor :=
  match s.paOf (reqOf id a) va with
  | some pa => match s.locOf (pa % 2 ^ 40) with
    | .hbm b => [tensorOf (readN s.mem b 32)]
    | _ => []
  | none => []

/-! ### Arrays that two agents work on at once (R354) -/

/-- The norm arrays and the table that a descriptor names. -/
def SampDesc.norms (x : SampDesc) : List (Nat × Nat) :=
  [(getF x 704 64, 4 * getF x 256 32), (getF x 768 64, 4 * getF x 256 32)]
def SampDesc.table (x : SampDesc) : Nat × Nat := (getF x 832 64, 8 * getF x 256 32)

/-- An agent at work on arrays: it and any other that is at work on them too race. -/
def State.atArrays (s : State) (id : AgentId) (a : Agent) (spans : List (Nat × Nat)) : State × Bool :=
  let hit := fun (w : ArrayWork) => w.who != id && w.ctx == a.ctx && w.spans.any fun p => spans.any fun q => meets p.1 p.2 q.1 q.2
  let old := s.arrays.any fun w => w.who == id && w.raced
  let raced := old || s.arrays.any hit
  ({ s with arrays := ((s.arrays.filter fun w => w.who != id).map fun w => if hit w then { w with raced := true } else w) ++
      [{ who := id, ctx := a.ctx, spans := spans, raced := raced }] }, raced)

/-- An agent has ended its work on arrays, which are undefined where it has raced. -/
def State.leaveArrays (s : State) (id : AgentId) : State :=
  let t : State := { s with arrays := s.arrays.filter fun w => w.who != id }
  match s.arrays.find? fun w => w.who == id && w.raced with
  | some w => w.spans.foldl (fun s p => s.blurVa w.ctx p.1 p.2) t
  | none => t

/-! ## Stores that a word waits for -/

/-- How far a word that writes an array has come; the number stands among its reads. -/
def progKey : Nat := 2 ^ 40

def Agent.progress (a : Agent) : Nat := (mapFind progKey a.got).getD 0

/-- The word has come to `n`, with flags that it will raise: what it has read for the steps before is dropped,
and its descriptors are kept. -/
def State.setProgress (s : State) (id : AgentId) (n : Nat) (fl : BitVec 9) : State :=
  match s.agent id with
  | some a => s.setAgent id { a with got := mapPut progKey n (a.got.filter fun g => decide (g.1 < 100)), gotFl := a.gotFl ||| fl }
  | none => s

/-- The flags that the word has gathered, raised as it ends (R126). -/
def State.raiseGot (s : State) (id : AgentId) : State :=
  match s.agent id with
  | some a => s.raiseFlags id a a.gotFl
  | none => s

/-- A store that the word has performed stands among its reads, so that it is not performed again. -/
def State.stored (s : State) (id : AgentId) (i : Nat) : State :=
  match s.agent id with
  | some a => s.setAgent id { a with got := mapPut i 0 a.got }
  | none => s

/-- Stores that are performed in order, numbered from `i`, each of them once (R346). -/
def storeAll (id : AgentId) : Nat → List (Word64 × Nat × Nat) → State → State × Option Got
  | _, [], s => (s, none)
  | i, (va, n, x) :: t, s =>
    match s.agent id with
    | none => (s, some .wait)
    | some a =>
      if (mapFind i a.got).isSome then storeAll id (i + 1) t s
      else match s.access id a i va n { plain := true, posted := true, sync := true } (.store x) with
      | (s, .val _ _) => storeAll id (i + 1) t (s.stored id i)
      | (s, .failed) =>
        let s : State := { s with agenda := s.agenda ++ [.storeAck id a.lctx a.tcb 0 0 false] }
        storeAll id (i + 1) t (s.stored id i)
      | (s, g) => (s, some g)

/-! ## MNORM (R346) -/

/-- The Euclidean norm of elements, with its flags. -/
def normOf (xs : List Elem) : Nat × BitVec 9 :=
  let sq := (sumExact false (xs.map fun x => (x.1.mul x.1).1)).1
  let nv := operandFlags (xs.map Prod.fst)
  let r : Val := match sq with
    | .num _ m e _ => if m = 0 then .num false 0 0 false else let q := sqrtMag m e; .num false q.1 q.2.1 q.2.2
    | v => v
  let q := Fmt.f32.enc r 1 0
  (q.1, nv ||| q.2 ||| flagIf sq.nonFinite flNF)

/-- The norms from `k` upward, each pair stored before the next is formed. -/
def normsFrom (id : AgentId) (undef : Bool) (e : Entry) (x : SampDesc) (a b : Operand) : Nat → State → State × Option Got
  | 0, s => (s, none)
  | f + 1, s =>
    let k := getF x 256 32 - (f + 1)
    match (s.agent id).map Agent.progress with
    | none => (s, some .wait)
    | some p =>
      if k < p then normsFrom id undef e x a b f s
      else match a.read s id 1000 (sampCol x e k) with
        | (s, .error g) => (s, some g)
        | (s, .ok xs) => match b.read s id 5000 (sampRow x e k) with
          | (s, .error g) => (s, some g)
          | (s, .ok ys) =>
            let na := normOf xs
            let nb := normOf ys
            let at_ := fun (lo : Nat) => BitVec.ofNat 64 (getF x lo 64 + 4 * k)
            let va := s.orFree undef 32 na.1
            let vb := va.2.orFree undef 32 nb.1
            match storeAll id 9000 [(at_ 704, 4, va.1), (at_ 768, 4, vb.1)] vb.2 with
            | (s, some g) => (s, some g)
            | (s, none) =>
              normsFrom id undef e x a b f (s.setProgress id (k + 1) (na.2 ||| nb.2))

/-- What a unit's word makes of an access that is not performed; `kind` is that of its stores. -/
def arrayStop (g : Got) (s : State) (id : AgentId) : Res :=
  match g with
  | .trap c i => .trap (s.leaveArrays id) c i
  | g => g.res s true 1

/-- MNORM (R346). -/
def execMnorm (sb : Bool) (d : BitVec 6) (a : BitVec 5) (s : State) : Host.Outcome State Fault Refusal :=
  issue (.mnorm sb d a) sb tileRules
    (fun s id ag _ => withSamp s id d.toNat (ag.getX a.toNat) fun s x =>
      let e := s.tile id.core d.toNat
      withPair s id e x fun s oa ob => withOwned s id d.toNat fun s ag =>
        let w := s.atArrays id ag x.norms
        match normsFrom id (x.overlaps [oa.t, ob.t] || w.2) e x oa ob (getF x 256 32) w.1 with
        | (s, none) => .done ((s.raiseGot id).leaveArrays id)
        | (s, some g) => arrayStop g s id) s

/-! ## ALIAS (R347, R348) -/

/-- The weight of an index, and its flags: an invalid weight counts as zero. -/
def weightOf (na nb : Nat) : Val × BitVec 9 :=
  let w := f32v (f32r ((f32v na).mul (f32v nb)).1)
  if w.nonFinite then (.num false 0 0 false, flNV ||| flNF)
  else if Val.below w then (.num false 0 0 false, flNV)
  else (w, 0)

/-- An entry of an alias table. -/
def aliasEntry (prob alt : Nat) (full : Bool) : Nat := prob + alt * 2 ^ 32 + full.toNat * 2 ^ 48

/-- Vose's loop: the masses, the two worklists, and the entries so far. -/
def voseLoop : Nat → List (Nat × Nat) → List (Nat × Nat) → List (Nat × Nat) → List (Nat × Nat)
  | 0, _, _, out => out
  | f + 1, small, large, out =>
    match small, large with
    | (l, ml) :: ss, (g, mg) :: ls =>
      let m := mg + ml - 2 ^ 32
      let out := (l, aliasEntry ml g false) :: out
      if m < 2 ^ 32 then voseLoop f (ss ++ [(g, m)]) ls out else voseLoop f ss (ls ++ [(g, m)]) out
    | _, _ => large.map (fun p => (p.1, aliasEntry 0 p.1 true)) ++ out

/-- The alias table of weights that do not all vanish: an index with its entry, in any order. -/
def voseTable (ws : List Nat) : List (Nat × Nat) :=
  let k := ws.length
  let sum := ws.foldl (· + ·) 0
  let ms := ws.map fun w => w * k * 2 ^ 32 / sum
  let top := ws.foldl max 0
  let g := ws.findIdx (· == top)
  let rest := k * 2 ^ 32 - ms.foldl (· + ·) 0
  let ms := (ms.zipIdx).map fun p => (p.2, if p.2 = g then p.1 + rest else p.1)
  voseLoop (k + 1) (ms.filter fun p => decide (p.2 < 2 ^ 32)) (ms.filter fun p => !decide (p.2 < 2 ^ 32)) []

/-- The table, `Z` and the flags that ALIAS makes of the norms. -/
def aliasOf (na nb : List Nat) : List (Nat × Nat) × Nat × BitVec 9 :=
  let ws := (na.zip nb).map fun p => weightOf p.1 p.2
  let fl := (ws.map Prod.snd).foldl (· ||| ·) 0
  let ints := ws.map fun w => (w.1.intAt (-149)).toNat
  if ints.all (· == 0) then ((List.range ints.length).map fun k => (k, aliasEntry 0 k true), 0, fl)
  else
    let z := Fmt.f32.enc (sumExact false (ws.map Prod.fst)).1 1 0
    (voseTable ints, z.1, fl ||| z.2 ||| flagIf (f32v z.1).nonFinite flNF)

/-- The norm arrays read whole. -/
def normArrays (s : State) (id : AgentId) (x : SampDesc) : State × Except Got (List Nat × List Nat) :=
  let k := getF x 256 32
  let place := fun (lo j : Nat) => (BitVec.ofNat 64 (getF x lo 64 + 4 * j), 4)
  match s.reads id { plain := true } 1000 ((List.range k).map (place 704)) with
  | (s, .error g) => (s, .error g)
  | (s, .ok na) => match s.reads id { plain := true } 6000 ((List.range k).map (place 768)) with
    | (s, .error g) => (s, .error g)
    | (s, .ok nb) => (s, .ok (na, nb))

/-- The entries of the table stored in the order of their indices, from where the word has come to. -/
def tableFrom (id : AgentId) (undef : Bool) (x : SampDesc) (tab : List (Nat × Nat)) : Nat → State → State × Option Got
  | 0, s => (s, none)
  | f + 1, s =>
    let k := getF x 256 32 - (f + 1)
    let v := s.orFree undef 64 ((mapFind k tab).getD 0)
    match storeAll id (12000 + k) [(BitVec.ofNat 64 (getF x 832 64 + 8 * k), 8, v.1)] v.2 with
    | (s, some g) => (s, some g)
    | (s, none) => tableFrom id undef x tab f s

/-- ALIAS (R348). -/
def execAliasTab (sb : Bool) (d : BitVec 6) (a : BitVec 5) (s : State) : Host.Outcome State Fault Refusal :=
  issue (.aliasTab sb d a) sb tileRules
    (fun s id ag _ => withSamp s id d.toNat (ag.getX a.toNat) fun s x =>
      if sampUneven x then .trap s trMisaligned 1 else withOwned s id d.toNat fun s _ =>
      let t := d.toNat
      atTurn s id t 0x68 false false fun s ag =>
        let w := s.atArrays id ag (x.table :: x.norms)
        match normArrays w.1 id x with
        | (s, .error g) => arrayStop g s id
        | (s, .ok n) =>
          let undef := w.2 || x.overlaps (s.seenTensor id ag (getF x 0 64) ++ s.seenTensor id ag (getF x 64 64))
          let na := s.orFrees undef 32 n.1
          let nb := na.2.orFrees undef 32 n.2
          let s := nb.2
          let r := aliasOf na.1 nb.1
          match tableFrom id undef x r.1 (getF x 256 32) s with
          | (s, some g) => arrayStop g s id
          | (s, none) =>
            let s := (s.leaveArrays id).setVar id.core (s.tile id.core t).base (BitVec.ofNat 256 (r.2.1 + 2 ^ 115))
            .done ((s.markTurn id.core t ag none).raiseFlags id ag r.2.2)) s

/-! ## MMS (R349 to R351) -/

/-- A variance record with the fields that MMS writes. -/
def varWith (r : BitVec 256) (t v f reason : Nat) (run : Bool) : BitVec 256 :=
  let r := setF r 96 16 t
  let r := setF r 32 32 v
  let r := setF r 64 32 f
  let r := setF r 112 2 reason
  setF r 114 1 run.toNat

/-- The index that a draw takes from its entry (R349). -/
def drawIndex (u i e : Nat) : Nat :=
  if u % 2 ^ 32 < e % 2 ^ 32 ∨ e / 2 ^ 48 % 2 = 1 then i else e / 2 ^ 32 % 2 ^ 16

/-- The weight of a draw, or none for a void sample. -/
def drawWeight (na nb : Nat) : Option Val :=
  let w := f32v (f32r ((f32v na).mul (f32v nb)).1)
  if w.nonFinite || w.isZero || Val.below w then none else some w

/-- The accumulator after one sample. -/
def sampUpdate (s : State) (c : Nat) (e : Entry) (q : Val) (xs ys : List Elem) : List (Nat × Nat × Nat) × BitVec 9 :=
  let out := xs.zipIdx.flatMap fun x => ys.zipIdx.map fun y =>
    let t := termOf x.1 y.1
    let p := t.1.mul q
    let acc := f32v (s.accElem c e.base x.2 y.2)
    let a := sumExact false [acc, p.1]
    let r := Fmt.f32.enc a.1 1 0
    ((x.2, y.2, r.1), t.2 ||| p.2 ||| flagIf (p.2 != 0) flNF ||| operandFlags [acc] ||| a.2 ||| r.2)
  (out.map Prod.fst, (out.map Prod.snd).foldl (· ||| ·) 0)

/-- `F` after `t` samples. -/
def sampF (s : State) (c : Nat) (e : Entry) (t : Nat) : Nat :=
  let sq := (List.range e.rows).flatMap fun i => (List.range e.cols).map fun j =>
    let v := f32v (s.accElem c e.base i j)
    (v.mul v).1
  f32r ((sumExact false sq).1.div (.ofInt ((t * t : Nat) : Int))).1

/-- `V` from `Z` and `F` after `t` samples. -/
def sampV (z f t : Nat) : Nat :=
  let d := (sumExact false [((f32v z).mul (f32v z)).1, (f32v f).neg]).1
  let m : Val := if !d.isNan && d.sign then .num false 0 0 false else d
  f32r (m.div (.ofInt (t : Int))).1

/-- Whether the variance test stops the product. -/
def sampStops (v f tau : Nat) : Bool :=
  let p := ((f32v tau).mul (f32v f)).1
  let v := f32v v
  !v.isNan && !p.isNan && cmpVal false v p != .gt

/-- Sample `t` of a product (R349): the accumulator updated and the flags, or a void sample. The manual does not say how
the 32-bit coordinates become arguments of the draw; they are signed in the descriptor and are extended by sign here
(log entry 94). -/
def drawSample (s : State) (id : AgentId) (e : Entry) (x : SampDesc) (a b : Operand) (z t : Nat) :
    State × Except Got (BitVec 9) :=
  let sx := fun (lo : Nat) => BitVec.ofInt 64 (intF x lo)
  let u := (kmg (BitVec.ofNat 64 (getF x 640 64)) (sx 128) (sx 224) (BitVec.ofNat 64 t)).toNat
  let n := getF x 256 32
  let i := u / 2 ^ 32 * n / 2 ^ 32
  let undef := x.overlaps [a.t, b.t]
  match s.reads id { plain := true } 100 [(BitVec.ofNat 64 (getF x 832 64 + 8 * i), 8)] with
  | (s, .error g) => (s, .error g)
  | (s, .ok es) =>
    let f := s.orFree undef 64 (es.getD 0 0)
    let en := f.1
    let s := f.2
    let k := drawIndex u i en
    if n ≤ k ∨ en / 2 ^ 49 ≠ 0 then (s, .ok flNV)
    else
      let at_ := fun (lo : Nat) => (BitVec.ofNat 64 (getF x lo 64 + 4 * k), 4)
      match s.reads id { plain := true } 101 [at_ 704, at_ 768] with
      | (s, .error g) => (s, .error g)
      | (s, .ok ns) =>
        let f := s.orFrees undef 32 ns
        let s := f.2
        match drawWeight (f.1.getD 0 0) (f.1.getD 1 0) with
        | none => (s, .ok flNV)
        | some w => match a.read s id 1000 (sampCol x e k) with
          | (s, .error g) => (s, .error g)
          | (s, .ok xs) => match b.read s id 5000 (sampRow x e k) with
            | (s, .error g) => (s, .error g)
            | (s, .ok ys) =>
              let q := f32v (f32r ((f32v z).div w).1)
              let r := sampUpdate s id.core e q xs ys
              let f := s.orFrees undef 32 (r.1.map fun p => p.2.2)
              (f.2.setAcc id.core e.base ((r.1.zip f.1).map fun p => (p.1.1, p.1.2.1, p.2)), .ok r.2)

/-- The reason to stop after sample `t`, 0 for none, with `V` and `F`. -/
def sampCheck (s : State) (c : Nat) (e : Entry) (x : SampDesc) (r : BitVec 256) (t : Nat) : Nat × Nat × Nat :=
  let out := fun (v f : Nat) => if t = getF x 576 16 then (1, v, f) else (0, v, f)
  if getF x 560 16 ≤ t ∧ t % getF x 592 16 = 0 then
    let f := sampF s c e t
    let v := sampV (getF r 0 32) f t
    if sampStops v f (getF x 608 32) then (2, v, f) else out v f
  else out (getF r 32 32) (getF r 64 32)

/-- A product at its turn (R349, R351): begun afresh, or gone on with where it was. -/
def beginMms (s : State) (c t : Nat) (ag : Agent) : State :=
  let e := s.tile c t
  let r := s.varOf c e.base
  let goes := begun s c t ag && r.getLsbD 114
  let s := if goes then s else s.setVar c e.base (varWith r 0 0 0 0 true)
  (s.setTile c t (e.setHeld false)).markTurn c t ag (some .running)

/-- One sample in each turn, and the issue held until the product stops. -/
def mmsTurn (s : State) (id : AgentId) (ag : Agent) (t : Nat) (x : SampDesc) (a b : Operand) : Res :=
  let c := id.core
  let s := beginMms s c t ag
  let e := s.tile c t
  let r := s.varOf c e.base
  let z := getF r 0 32
  let n := getF r 96 16
  let stop := fun (s : State) (r : BitVec 256) =>
    Res.done (endMacro ((s.raiseFlags id ag (s.turnFlags c t ag)).setVar c e.base r) c t ag)
  if z = 0 ∨ z = 0x7F800000 then stop s (varWith r n (getF r 32 32) (getF r 64 32) 3 false)
  else match drawSample s id e x a b z n with
    | (s, .error g) => (match g with
      | .trap k i => .trap ((endMacro s c t ag).stopVar c t) k i
      | g => g.res s true 0)
    | (s, .ok fl) =>
      let s := (s.addTurnFlags c t ag fl).dropReads id 100
      let q := sampCheck s c e x r (n + 1)
      if q.1 = 0 then .hold (s.setVar c e.base (varWith r (n + 1) q.2.1 q.2.2 0 true))
      else stop s (varWith r (n + 1) q.2.1 q.2.2 q.1 false)

/-- MMS (R349). -/
def execMms (sb : Bool) (d : BitVec 6) (a : BitVec 5) (s : State) : Host.Outcome State Fault Refusal :=
  issue (.mms sb d a) sb tileRules
    (fun s id ag _ => withSamp s id d.toNat (ag.getX a.toNat) fun s x =>
      let t := d.toNat
      let e := s.tile id.core t
      withPair s id e x fun s oa ob => withOwned s id t fun s _ => atTurn s id t 0x66 false false fun s ag =>
        if !(s.varOf id.core e.base).getLsbD 115 then .trap s trIllegalInstr (tileInfo t)
        else if begun s id.core t ag then mmsTurn s id ag t x oa ob
        else consume s id.core t (mmsTurn s id ag t x oa ob)) s

/-! ## VARR and the window (R344, R352) -/

/-- What VARR reports of a record. -/
def varWord (r : BitVec 256) : Word64 :=
  BitVec.ofNat 64 (getF r 32 32 + getF r 96 16 * 2 ^ 32 + getF r 112 2 * 2 ^ 48 + getF r 114 1 * 2 ^ 50)

/-- VARR (R352). -/
def execVarr (sb : Bool) (d : BitVec 5) (a : BitVec 6) (s : State) : Host.Outcome State Fault Refusal :=
  issue (.varr sb d a) sb tileRules
    (fun s id ag _ =>
      let t := a.toNat
      let e := s.tile id.core t
      if e.kind ≠ kACC then .trap s trIllegalInstr (tileInfo t)
      else if !e.ownedBy ag then .trap s trAccess (tileInfo t)
      else atTurn s id t 0x6D false false fun s ag =>
        let s := s.markTurn id.core t ag none
        match s.agent id with
        | some b => .done (s.setAgent id (b.setX d.toNat (varWord (s.varOf id.core e.base))))
        | none => .done s) s

/-- VARIANCE_RECORD_WRITE (R344): a supervisor write of a record, while no MMS holds its tile. -/
def execVarianceRecordWrite (core acc : Nat) (x : BitVec 256) (s : State) : Host.Outcome State Fault Refusal :=
  .next (if (s.core core).sampling acc then s else s.setVar core acc x)

end Sys2Proof.Machine
end

