-- ==== Sys2Proof/Machine/Iterator.lean ====
section
/-! DEFINITION. Iterators (R356 to R375): slots, objects, the pull of an element, and the iterator
instructions. -/

namespace Sys2Proof.Machine

/-! ## Slots (R356 to R359) -/

def itOpen : Nat := 1
def itActive : Nat := 2
def itInpull : Nat := 3
def itDone : Nat := 4
def itEnded : Nat := 5

/-- The slots that a slot feeds on, in the order of its ZIP and CHAIN objects. -/
def ItSlot.feeders (s : ItSlot) : List Nat :=
  s.objs.filterMap fun o => if getF o 0 8 = 0x14 ∨ getF o 0 8 = 0x15 then some (getF o 64 6) else none

/-- A slot and every slot that feeds it, depth first. -/
def itTree (m : SMap ItSlot) : Nat → Nat → List Nat
  | 0, n => [n]
  | f + 1, n => n :: (match mapFind n m with
    | some s => s.feeders.flatMap (itTree m f)
    | none => [])

/-! ### The pull buffer (R357) -/

/-- The 32 elements of a pull buffer, as 8-byte words. -/
def bufOf (words : Nat → Nat) : SMap (Word × Word) :=
  (List.range 32).foldl (fun m k => mapSet (0, 0) m k (BitVec.ofNat 32 (words k), BitVec.ofNat 32 (words k / 2 ^ 32))) []

/-- The element at a place of the buffer. -/
def ItSlot.elem (s : ItSlot) (k : Nat) : Word × Word := mapGet (0, 0) s.buf k

/-- One element more. -/
def ItSlot.add (s : ItSlot) (e : Word × Word) : ItSlot :=
  { s with bcnt := s.bcnt + 1, buf := mapSet (0, 0) s.buf s.bcnt e }

/-- The first element taken out. -/
def ItSlot.rest (s : ItSlot) : ItSlot :=
  { s with bcnt := s.bcnt - 1, buf := s.buf.filterMap fun p => if p.1 = 0 then none else some (p.1 - 1, p.2) }

/-- The slots of a group on its core (R356). -/
def Core.slotsOf (k : Core) (key : Word64) : List Nat := (k.slots.filter fun p => p.2.frame == key).map Prod.fst

/-- The slots released, and the names of the group that are bound to them (R359). -/
def releaseSlots (s : State) (id : AgentId) (ns : List Nat) : State :=
  let k := s.core id.core
  let s : State := s.setCore id.core { k with slots := k.slots.filter fun p => !ns.contains p.1 }
  match s.agent id with
  | some a => s.setAgent id { a with its := a.its.filter fun p => !ns.contains p.2 }
  | none => s

/-- The slot bound to a name of a group. -/
def boundSlot (s : State) (id : AgentId) (a : Agent) (name : Nat) : Option (Nat × ItSlot) :=
  (mapFind name a.its).bind fun n => (mapFind n (s.core id.core).slots).map fun x => (n, x)

/-- The first free slots of a core. -/
def Core.freeSlots (k : Core) : List Nat := (List.range 64).filter fun n => (mapFind n k.slots).isNone

/-! ## Objects (R360, R361) -/

/-- An object's kind, and its 64-bit words. -/
def objKind (o : BitVec 512) : Nat := getF o 0 8
def objW (o : BitVec 512) (i : Nat) : Nat := getF o (64 * i) 64

/-- The cursor of an object. -/
def objCur (o : BitVec 512) : Nat := getF o 32 32
def setCur (o : BitVec 512) (x : Nat) : BitVec 512 := setF o 32 32 x

/-- The bits of word 1 to word 4 that a kind uses, and the alignment of its address. -/
def objMasks (k : Nat) : Option (List Nat × Nat) :=
  let w := 2 ^ 64 - 1
  let h := 2 ^ 32 - 1
  match k with
  | 0x01 => some ([w, 0, 0, 0], 1)
  | 0x02 => some ([w, h, 0, 0], 1)
  | 0x03 => some ([w, h, 0, 0], 4)
  | 0x04 => some ([w, w, 0, 0], 4)
  | 0x05 => some ([w, 2 ^ 48 - 1, w, w], 8)
  | 0x06 => some ([w, h, 0, 0], 8)
  | 0x10 => some ([w, 0, 0, 0], 1)
  | 0x11 => some ([w, h, 0, 0], 4)
  | 0x12 => some ([w, h, 0, 0], 8)
  | 0x13 => some ([w, w, 0, 0], 4)
  | 0x14 => some ([63, 0, 0, 0], 1)
  | 0x15 => some ([63, 0, 0, 0], 1)
  | 0x16 => some ([w, h, 0, 0], 4)
  | 0x17 => some ([h, 0, 0, 0], 1)
  | _ => none

/-- Whether an object breaks R360 in a part that both images and saved blocks must keep (R365,
R371). -/
def objBad (o : BitVec 512) : Bool :=
  let k := objKind o
  match objMasks k with
  | none => true
  | some (ms, _) =>
    getF o 12 20 != 0 || (ms.zipIdx.any fun m => objW o (m.2 + 1) &&& m.1 != objW o (m.2 + 1))
      || (getF o 9 3 != 0 && k != 0x13) || decide (5 < getF o 9 3)
      || (o.getLsbD 8 && !(decide (0x10 ≤ k) && decide (k ≤ 0x13)))
      || (k == 5 && (getF o 160 16 == 0 || decide (4096 < getF o 160 16)))

/-- Whether an image holds working state (R365). -/
def objWorked (o : BitVec 512) : Bool := objCur o != 0 || getF o 320 192 != 0

/-- Whether the address of an object is misaligned. -/
def objUneven (o : BitVec 512) : Bool :=
  match objMasks (objKind o) with
  | some (_, al) => objW o 1 % al != 0
  | none => false

/-! ## Pulling an element (R362) -/

/-- What a pull returns; a read that was not performed stops it at its address. -/
inductive Pulled where
  | elem (f g : Word)
  | endd
  | row
  | stop (g : Got) (va : Word64)
  deriving DecidableEq, Repr

/-- A read of an object: at an address, with a width. -/
abbrev ItRead := State → Word64 → Nat → State × Except Got Nat

/-- A read of an object as a plain load of the group, which waits for other modules; its number tells its
address and its width. -/
def itLoad (id : AgentId) : ItRead := fun s va n =>
  match s.read1 id (2 ^ 66 + 16 * va.toNat + n) va n { plain := true } with
  | (s, .val x _) => (s, .ok x)
  | (s, g) => (s, .error g)

/-- The slot with an object replaced. -/
def ItSlot.setObj (s : ItSlot) (l : Nat) (o : BitVec 512) : ItSlot := { s with objs := s.objs.set l o }

/-- What an entry of an array read through `clamp` holds (R361). -/
def clampRead (rd : ItRead) (s : State) (base bound : Nat) (x : Int) : State × Except (Got × Word64) Nat :=
  if bound = 0 then (s, .ok 0)
  else
    let va := BitVec.ofNat 64 (base + 4 * clampTo x bound)
    match rd s va 4 with
    | (s, .ok v) => (s, .ok v)
    | (s, .error g) => (s, .error (g, va))

/-- A number as i32. -/
def asI32 (x : Nat) : Int := (BitVec.ofNat 32 x).toInt

/-- The condition of a FILT.CMP. -/
def filtCond (c : Nat) (x k : Int) : Bool :=
  match c with
  | 0 => x == k
  | 1 => x != k
  | 2 => decide (x < k)
  | 3 => decide (x ≤ k)
  | 4 => decide (k < x)
  | _ => decide (k ≤ x)

/-- The next element of a source (R360) and its object after it, END, or `none` where a BITMAP
looks on in its next word. The coordinates of an ALIASSAMP are unsigned here, and the manual does not say how a draw takes
them (R123, log entry 94). -/
def pullSource (rd : ItRead) (s : State) (o : BitVec 512) : State × BitVec 512 × Option Pulled :=
  let n := objCur o
  let w1 := objW o 1
  let w2 := objW o 2
  let lo := fun (x : Nat) => x % 2 ^ 32
  let hi := fun (x : Nat) => x / 2 ^ 32
  let yields := fun (s : State) (f g : Nat) =>
    (s, setCur o (n + 1), some (Pulled.elem (BitVec.ofNat 32 f) (BitVec.ofNat 32 g)))
  let read := fun (va len : Nat) (k : State → Nat → State × BitVec 512 × Option Pulled) =>
    match rd s (BitVec.ofNat 64 va) len with
    | (s, .ok x) => k s x
    | (s, .error g) => (s, o, some (Pulled.stop g (BitVec.ofNat 64 va)))
  match objKind o with
  | 0x01 => if lo w1 + n < hi w1 then yields s (lo w1 + n) n else (s, o, some .endd)
  | 0x02 => if n < lo w2 then yields s (lo w1 + n * hi w1) n else (s, o, some .endd)
  | 0x03 => if n < lo w2 then read (w1 + 4 * n) 4 fun s x => yields s x n else (s, o, some .endd)
  | 0x04 =>
    let r := lo w2 + n
    if r < hi w2 then
      read (w1 + 4 * r) 4 fun s x => match rd s (BitVec.ofNat 64 (w1 + 4 * (r + 1))) 4 with
        | (s, .ok y) => yields s r (y + 2 ^ 32 - x)
        | (s, .error g) => (s, o, some (.stop g (BitVec.ofNat 64 (w1 + 4 * (r + 1)))))
    else (s, o, some .endd)
  | 0x05 =>
    if n < lo w2 then
      let u := (kmg (BitVec.ofNat 64 (objW o 3)) (BitVec.ofNat 64 (lo (objW o 4))) (BitVec.ofNat 64 (hi (objW o 4)))
        (BitVec.ofNat 64 n)).toNat
      let i := hi u * (hi w2 % 2 ^ 16) / 2 ^ 32
      read (w1 + 8 * i) 8 fun s e => yields s (drawIndex u i e) n
    else (s, o, some .endd)
  | _ =>
    let p := getF o 320 32
    if lo w2 ≤ p then (s, o, some .endd)
    else read (w1 + 8 * (p / 64)) 8 fun s x =>
      let q := (List.range (64 - p % 64)).find? fun d => x.testBit (p % 64 + d)
      match q with
      | some d =>
        if p + d < lo w2 then
          (s, setF (setCur o (n + 1)) 320 32 (p + d + 1),
            some (.elem (BitVec.ofNat 32 (p + d)) (BitVec.ofNat 32 n)))
        else (s, setF o 320 32 (min (p / 64 * 64 + 64) (lo w2)), some .endd)
      | none => (s, setF o 320 32 (min (p / 64 * 64 + 64) (lo w2)), none)

/-- What FLAT keeps in words 5 and 6: j and its end, r, and whether the row is new. -/
def flatJ (o : BitVec 512) : Nat := getF o 320 32
def flatEnd (o : BitVec 512) : Nat := getF o 352 32
def flatR (o : BitVec 512) : Nat := getF o 384 32
def flatNew (o : BitVec 512) : Bool := o.getLsbD 416
def setFlat (o : BitVec 512) (j e r : Nat) (new : Bool) : BitVec 512 :=
  setF (setF (setF (setF o 320 32 j) 352 32 e) 384 32 r) 416 1 new.toNat

/-- A slot's object replaced in a table of slots. -/
def putObj (m : SMap ItSlot) (n l : Nat) (o : BitVec 512) : SMap ItSlot :=
  match mapFind n m with
  | some s => mapPut n (s.setObj l o) m
  | none => m

/-- `Pull` of object `l` of slot `n` (R362). `rows` is the level of the row FLAT when the caller
stops at rows. The slots change in a copy, which counts only once an element is formed. A feeder is INPULL while
a fill pulls on it, and DONE at its END (R358); what it holds in its own buffer comes first (R368; log
entry 80). -/
def pull (rd : ItRead) : Nat → Nat → Nat → Option Nat → SMap ItSlot → State → State × SMap ItSlot × Pulled
  | 0, _, _, _, m, s => (s, m, .stop .wait 0)
  | f + 1, n, l, rows, m, s =>
    match (mapFind n m).bind fun x => x.objs[l]? with
    | none => (s, m, .endd)
    | some o =>
      let w1 := objW o 1
      let w2 := objW o 2
      let below := fun (m : SMap ItSlot) (s : State) => pull rd f n (l - 1) rows m s
      let again := fun (m : SMap ItSlot) (s : State) => pull rd f n l rows m s
      let slot := fun (m : SMap ItSlot) (s : State) =>
        let b := w1 % 64
        match mapFind b m with
        | none => (s, m, Pulled.endd)
        | some x =>
          if x.st = itEnded then (s, m, .endd)
          else if x.bcnt ≠ 0 then (s, mapPut b x.rest m, .elem (x.elem 0).1 (x.elem 0).2)
          else
            let x := if x.st = itOpen ∨ x.st = itActive then { x with st := itInpull } else x
            match pull rd f b (x.objs.length - 1) none (mapPut b x m) s with
            | (s, m, .endd) => (s, match mapFind b m with
              | some y => mapPut b { y with st := itDone } m
              | none => m, .endd)
            | r => r
      if objKind o < 0x10 then
        match pullSource rd s o with
        | (s, o, some p) => (s, putObj m n l o, p)
        | (s, o, none) => again (putObj m n l o) s
      else
        let fld := fun (a b : Word) => if o.getLsbD 8 then b else a
        let put := fun (a b x : Word) => if o.getLsbD 8 then Pulled.elem a x else .elem x b
        match objKind o with
        | 0x10 => match below m s with
          | (s, m, .elem a b) =>
            (s, m, put a b (BitVec.ofNat 32 w1 * fld a b + BitVec.ofNat 32 (w1 / 2 ^ 32)))
          | r => r
        | 0x11 => match below m s with
          | (s, m, .elem a b) => match clampRead rd s w1 (w2 % 2 ^ 32) (fld a b).toInt with
            | (s, .ok x) => (s, m, put a b (BitVec.ofNat 32 x))
            | (s, .error g) => (s, m, .stop g.1 g.2)
          | r => r
        | 0x12 => match below m s with
          | (s, m, .elem a b) =>
            let i := (fld a b).toNat
            if w2 % 2 ^ 32 ≤ i then again m s
            else
              let va := BitVec.ofNat 64 (w1 + 8 * (i / 64))
              match rd s va 8 with
              | (s, .ok x) => if x.testBit (i % 64) then (s, m, .elem a b) else again m s
              | (s, .error g) => (s, m, .stop g va)
          | r => r
        | 0x13 => match below m s with
          | (s, m, .elem a b) => match clampRead rd s w1 (w2 % 2 ^ 32) (fld a b).toInt with
            | (s, .ok x) =>
              if filtCond (getF o 9 3) (asI32 x) (asI32 (w2 / 2 ^ 32)) then (s, m, .elem a b) else again m s
            | (s, .error g) => (s, m, .stop g.1 g.2)
          | r => r
        | 0x14 =>
          if objCur o = 1 then (s, m, .endd)
          else match below m s with
            | (s, m, .elem a _) => match slot m s with
              | (s, m, .elem c _) => (s, m, .elem a c)
              | (s, m, .endd) => (s, putObj m n l (setCur o 1), .endd)
              | r => r
            | (s, m, .endd) => (s, putObj m n l (setCur o 1), .endd)
            | r => r
        | 0x15 =>
          if objCur o = 0 then
            match below m s with
            | (s, m, .endd) => slot (putObj m n l (setCur o 1)) s
            | r => r
          else slot m s
        | 0x16 =>
          if flatJ o < flatEnd o then
            if flatNew o && rows == some l then
              (s, putObj m n l (setFlat o (flatJ o) (flatEnd o) (flatR o) false), .row)
            else
              (s, putObj m n l (setFlat o (flatJ o + 1) (flatEnd o) (flatR o) false),
                .elem (BitVec.ofNat 32 (flatJ o)) (BitVec.ofNat 32 (flatR o)))
          else match below m s with
            | (s, m, .elem a _) =>
              match clampRead rd s w1 (w2 % 2 ^ 32) a.toInt with
              | (s, .error g) => (s, m, .stop g.1 g.2)
              | (s, .ok j) => match clampRead rd s w1 (w2 % 2 ^ 32) (a.toInt + 1) with
                | (s, .error g) => (s, m, .stop g.1 g.2)
                | (s, .ok e) => again (putObj m n l (setFlat o j e a.toNat true)) s
            | r => r
        | _ =>
          if objCur o = w1 % 2 ^ 32 then (s, m, .endd)
          else match below m s with
            | (s, m, .elem a b) => (s, putObj m n l (setCur o (objCur o + 1)), .elem a b)
            | r => r

/-- More requests than any stack of objects can make for one element. -/
def pullFuel : Nat := 2 ^ 80

/-- The topmost FLAT of a slot. -/
def ItSlot.rowFlat (x : ItSlot) : Option Nat :=
  ((List.range x.objs.length).reverse).find? fun l => objKind (x.objs.getD l 0) == 0x16

/-- The slots of a core. -/
def State.slots (s : State) (c : Nat) : SMap ItSlot := (s.core c).slots

def State.setSlots (s : State) (c : Nat) (m : SMap ItSlot) : State :=
  let k := s.core c
  s.setCore c { k with slots := m }

/-- A slot replaced by a function of it. -/
def State.onSlot (s : State) (c n : Nat) (f : ItSlot → ItSlot) : State :=
  match mapFind n (s.slots c) with
  | some x => s.setSlots c (mapPut n (f x) (s.slots c))
  | none => s

/-- Elements formed into the pull buffer (R366): `none` when the fill is complete, else what stopped
it. -/
def fillSlot (id : AgentId) (n : Nat) (align : Bool) : Nat → State → State × Option (Got × Word64)
  | 0, s => (s, none)
  | f + 1, s =>
    let c := id.core
    match mapFind n (s.slots c) with
    | none => (s, none)
    | some x =>
      if x.st ≠ itInpull ∨ 32 ≤ x.bcnt then (s, none)
      else match pull (itLoad id) pullFuel n (x.objs.length - 1) (if align then x.rowFlat else none) (s.slots c) s with
        | (s, _, .stop g va) => (s, some (g, va))
        | (s, m, p) =>
          let s := (s.setSlots c m).dropReads id 0
          match p with
          | .elem a b => fillSlot id n align f (s.onSlot c n fun y => y.add (a, b))
          | .endd => (s.onSlot c n fun y => { y with st := itDone }, none)
          | _ => if x.bcnt = 0 then fillSlot id n align f s else (s, none)

/-! ## ITNEW and ITADD (R363, R365) -/

/-- The rules of the iterator instructions (R364). -/
def itRules : Rules := { form := .ug, u := true }

/-- An object image read and checked (R365). -/
def withImage (s : State) (id : AgentId) (va : Word64) (kind : Nat) (k : State → BitVec 512 → Res) : Res :=
  withStruct s id 0 va 8 64 fun s x =>
    let o : BitVec 512 := BitVec.ofNat 512 x
    if objKind o ≠ kind ∨ objBad o ∨ objWorked o then .trap s trIllegalInstr 0 else k s o

/-- Whether a name is bound to a linked slot (R363). -/
def nameLinked (s : State) (id : AgentId) (a : Agent) (name : Nat) : Bool :=
  match boundSlot s id a name with
  | some (_, x) => x.linked
  | none => false

/-- The slots that an allocation for a name releases (R359). -/
def oldSlots (s : State) (id : AgentId) (a : Agent) (name : Nat) : List Nat :=
  match boundSlot s id a name with
  | some (n, _) => itTree (s.slots id.core) 4 n
  | none => []

/-- Whether the core has `n` free slots and the group may hold them, once `old` are released
(R356). -/
def slotsFit (s : State) (id : AgentId) (a : Agent) (old : List Nat) (n : Nat) : Bool :=
  decide (n ≤ (s.core id.core).freeSlots.length + old.length) &&
    decide (((s.core id.core).slotsOf a.key).length - old.length + n ≤ 4)

/-- ITNEW (R365). -/
def execItnew (sb : Bool) (f : BitVec 5) (d : BitVec 2) (a : BitVec 5) (s : State) :
    Host.Outcome State Fault Refusal :=
  issue (.itnew sb f d a) sb itRules
    (fun s id ag _ =>
      if nameLinked s id ag d.toNat then .trap s trIllegalInstr 0
      else withImage s id (ag.getX a.toNat) (f.toNat + 1) fun s o =>
        let old := oldSlots s id ag d.toNat
        if objUneven o then .trap s trMisaligned 1
        else if !slotsFit s id ag old 1 then .trap s trResource 1
        else
          let s := releaseSlots s id old
          let n := (s.core id.core).freeSlots.headD 0
          let x : ItSlot := { st := itOpen, linked := false, rdy := false, pulls := 0, ctx := ag.ctx, otag := ag.otag
                              feed := 0, objs := [o], bcnt := 0, buf := [], frame := ag.key }
          let s := s.setSlots id.core (mapPut n x (s.slots id.core))
          match s.agent id with
          | some b => .done (s.setAgent id { b with its := mapPut d.toNat n b.its })
          | none => .done s) s

/-- The feeder that a ZIP or CHAIN names, where it may feed slot `n` (R363). -/
def feederOf (s : State) (id : AgentId) (a : Agent) (n name : Nat) : Option Nat :=
  match boundSlot s id a name with
  | some (m, x) =>
    if m = n ∨ x.linked ∨ (itTree (s.slots id.core) 4 m).contains n then none else some m
  | none => none

/-- ITADD (R363, R365). -/
def execItadd (sb : Bool) (f : BitVec 5) (d : BitVec 2) (a : BitVec 5) (b : BitVec 2) (s : State) :
    Host.Outcome State Fault Refusal :=
  let feeds := f = 4 ∨ f = 5
  issue (.itadd sb f d a b) sb { itRules with legal := decide feeds || b == 0 }
    (fun s id ag _ => match boundSlot s id ag d.toNat with
      | none => .trap s trIllegalInstr 0
      | some (n, x) =>
        let g := feederOf s id ag n b.toNat
        if x.linked ∨ x.st ≠ itOpen ∨ (feeds ∧ g.isNone) then .trap s trIllegalInstr 0
        else withImage s id (ag.getX a.toNat) (f.toNat + 0x10) fun s o =>
          if objUneven o then .trap s trMisaligned 1
          else if 8 ≤ x.objs.length then .trap s trResource 8
          else
            let c := id.core
            match g with
            | some m =>
              if feeds then
                let s := s.onSlot c m fun y => { y with linked := true }
                .done (s.onSlot c n fun y => { y with objs := y.objs ++ [setF o 64 6 m]
                                                      feed := y.feed ||| BitVec.twoPow 64 m })
              else .done (s.onSlot c n fun y => { y with objs := y.objs ++ [o] })
            | none => .done (s.onSlot c n fun y => { y with objs := y.objs ++ [o] })) s

/-! ## NEXT (R366) -/

/-- The elements of a fill as a channel element of one field. -/
def fillLanes (x : ItSlot) (g : Bool) : VReg :=
  mkV fun t => if t < x.bcnt then (if g then (x.elem t).2 else (x.elem t).1) else 0

/-- A complete fill delivered once both channels have room: the pushes and the mask are written under
CHN, and prefetch may begin (R366, R368). -/
def deliver (s : State) (id : AgentId) (n c m : Nat) (x : ItSlot) : State :=
  let k := x.bcnt
  let writes := [RegWrite.push c (fillLanes x false), .push (c + 1) (fillLanes x true)] ++
    (List.range 32).map fun t => RegWrite.mask m t (decide (t < k))
  let rests := fun (y : ItSlot) => if y.st = itInpull then { y with st := itActive } else y
  let s := (itTree (s.slots id.core) 4 n).foldl (fun s i => s.onSlot id.core i rests) s
  let s := s.onSlot id.core n fun y => { y with pulls := y.pulls + BitVec.ofNat 32 k, bcnt := 0, rdy := false }
  let s := s.post id .chn writes 0 0
  { s with agenda := s.agenda ++ [.iteratorPrefetch id.core n] }

/-- NEXT (R366, R369). -/
def execNext (sb f : Bool) (c : BitVec 3) (a : BitVec 2) (m : BitVec 3) (s : State) :
    Host.Outcome State Fault Refusal :=
  issue (.next sb f c a m) sb { itRules with cls := some .chn, legal := c != 7 && m != 0 }
    (fun s id ag _ => match boundSlot s id ag a.toNat with
      | none => .trap s trIllegalInstr 0
      | some (n, x) =>
        if x.linked ∨ (f ∧ x.rowFlat.isNone) then .trap s trIllegalInstr 0
        else if !ag.converged then .trap s trIllegalState (ag.live.setWidth 64)
        else
          let k := id.core
          let s := if x.rdy ∨ ¬ (x.st = itOpen ∨ x.st = itActive) then s
            else s.onSlot k n fun y => { y with st := itInpull }
          if ag.late.any fun l => match l.dst.bind opdChan with
            | some j => j == c.toNat || j == c.toNat + 1
            | none => false then .wait
          else match if x.rdy then (s, none) else fillSlot id n f pullFuel s with
          | (s, some (g, va)) => (match g with
            | .trap code i => .trap s code (if code = trAccess then va else i)
            | g => g.res s false 0)
          | (s, none) =>
            let s := s.onSlot k n fun y => { y with rdy := true }
            match s.agent id, mapFind n (s.slots k) with
            | some b, some y =>
              let room := fun (ch : Nat) => roomFor s id b false (.chan false (BitVec.ofNat 4 ch))
              if room c.toNat && room (c.toNat + 1) then .done (deliver s id n c.toNat m.toNat y) else .hold s
            | _, _ => .hold s) s

/-- A read that neither waits nor leaves a trace: what is not at hand stops it (R368). -/
def itPeek (id : AgentId) (a : Agent) : ItRead := fun s va n =>
  match s.perform (reqOf id a) 0 va n true false .load with
  | (s', .val x _) => (s', .ok x)
  | _ => (s, .error .wait)

/-- Elements pulled ahead, at most `f`: the states of the slots do not change. -/
def prefetchSlot (id : AgentId) (a : Agent) (n : Nat) : Nat → State → State
  | 0, s => s
  | f + 1, s =>
    let c := id.core
    match mapFind n (s.slots c) with
    | none => s
    | some x =>
      if 32 ≤ x.bcnt then s
      else match pull (itPeek id a) pullFuel n (x.objs.length - 1) x.rowFlat (s.slots c) s with
        | (t, m, .elem p q) =>
          let m := m.map fun y => (y.1, match mapFind y.1 (s.slots c) with
            | some z => { y.2 with st := z.st }
            | none => y.2)
          prefetchSlot id a n f ((t.setSlots c m).onSlot c n fun y => y.add (p, q))
        | _ => s

/-- ITERATOR_PREFETCH (R368): elements pulled ahead, as many as the engine gets to, while the slot's
group is resident and makes no reads of its own. -/
def execIteratorPrefetch (core n : Nat) (s : State) : Host.Outcome State Fault Refusal :=
  match mapFind n (s.slots core) with
  | none => .next s
  | some x =>
    if x.rdy ∨ x.linked ∨ ¬ (x.st = itActive) then .next s
    else match (s.core core).groups.find? fun g => g.2.key == x.frame with
      | none => .next s
      | some g =>
        if !g.2.got.isEmpty || g.2.rem.isSome then .next s else
        let p := s.choose 33
        .next (prefetchSlot { core := core, idx := g.1 } g.2 n p.1 p.2)

/-! ## ENOUGH, ITQ, ITSAVE and ITLOAD (R367, R370 to R372) -/

/-- ENOUGH (R367). -/
def execEnough (sb : Bool) (d : BitVec 2) (s : State) : Host.Outcome State Fault Refusal :=
  issue (.enough sb d) sb itRules
    (fun s id ag _ => match boundSlot s id ag d.toNat with
      | none => .trap s trIllegalInstr 0
      | some (n, x) =>
        if x.linked then .trap s trIllegalInstr 0
        else .done ((itTree (s.slots id.core) 4 n).foldl (fun s m =>
          s.onSlot id.core m fun y => { y with st := itEnded, bcnt := 0, rdy := false }) s)) s

/-- ITQ (R372). -/
def execItq (sb : Bool) (d : BitVec 5) (a : BitVec 2) (s : State) : Host.Outcome State Fault Refusal :=
  issue (.itq sb d a) sb itRules
    (fun s id ag _ =>
      let x := match boundSlot s id ag a.toNat with
        | some (_, x) => BitVec.ofNat 64 x.word0
        | none => 0
      .done (s.setAgent id (ag.setX d.toNat x))) s

/-- A slot as a block of a saved image (R370): slots are named by block numbers. -/
def savedBlock (order : List Nat) (x : ItSlot) : Nat :=
  let block := fun (n : Nat) => order.idxOf n
  ItSlot.image { x with
    ctx := 0, otag := 0
    feed := x.feeders.foldl (fun f n => f ||| BitVec.twoPow 64 (block n)) 0
    objs := x.objs.map fun o =>
      if objKind o = 0x14 ∨ objKind o = 0x15 then setF o 64 6 (block (getF o 64 6)) else o }

/-- ITSAVE (R370). -/
def execItsave (sb : Bool) (d : BitVec 5) (a : BitVec 2) (b : BitVec 5) (s : State) :
    Host.Outcome State Fault Refusal :=
  issue (.itsave sb d a b) sb itRules
    (fun s id ag _ => match boundSlot s id ag a.toNat with
      | none => .trap s trIllegalInstr 0
      | some (n, x) =>
        let va := ag.getX b.toNat
        if x.linked then .trap s trIllegalInstr 0
        else if va.toNat % 64 ≠ 0 then .trap s trMisaligned 1
        else
          let order := itTree (s.slots id.core) 4 n
          let words := order.zipIdx.flatMap fun p =>
            let img := match mapFind p.1 (s.slots id.core) with
              | some y => savedBlock order y
              | none => 0
            (List.range 128).map fun i => (va + BitVec.ofNat 64 (0x400 * p.2 + 8 * i), 8, img / 2 ^ (64 * i) % 2 ^ 64)
          match storeAll id 100 words s with
          | (s, some g) => g.res s false 1
          | (s, none) =>
            let s := releaseSlots s id order
            match s.agent id with
            | some c => .done (s.setAgent id (c.setX d.toNat (BitVec.ofNat 64 order.length)))
            | none => .done s) s

/-- The slot that a saved block holds, before it is placed (R371); none for a block that fails the
checks. -/
def loadedBlock (first : Bool) (x : Nat) : Option ItSlot :=
  let b := fun (lo n : Nat) => x / 2 ^ lo % 2 ^ n
  let objs := (List.range (b 4 4)).map fun l => BitVec.ofNat 512 (b (512 * (l + 1)) 512)
  let st := b 0 3
  let src := match objs with
    | o :: t => decide (objKind o < 0x10) && t.all fun o => decide (0x10 ≤ objKind o)
    | [] => false
  let slot : ItSlot :=
    { st := st, linked := b 3 1 == 1, rdy := b 14 1 == 1, pulls := BitVec.ofNat 32 (b 32 32), ctx := 0, otag := 0
      feed := BitVec.ofNat 64 (b 128 64), objs := objs, bcnt := b 8 6
      buf := bufOf fun k => b (8 * (0x240 + 8 * k)) 64
      frame := 0 }
  let feed := slot.feeders.foldl (fun f n => f ||| BitVec.twoPow 64 n) (0 : Word64)
  if st = 0 ∨ 5 < st ∨ b 15 17 ≠ 0 ∨ b 100 28 ≠ 0 ∨ b 192 320 ≠ 0 ∨ 8 < b 4 4 ∨ !src
      ∨ objs.any (fun o => objBad o || objUneven o) ∨ slot.linked = first ∨ slot.feed ≠ feed then none
  else some slot

/-- The blocks of a saved image that are reachable from block 0, each read once: their numbers and
contents, in the order in which they are found. -/
def loadBlocks (id : AgentId) (va : Word64) : Nat → List Nat → List (Nat × Nat) → State →
    State × Except Got (List (Nat × Nat))
  | 0, _, out, s => (s, .ok out)
  | _, [], out, s => (s, .ok out)
  | f + 1, b :: t, out, s =>
    if out.any fun p => p.1 == b then loadBlocks id va f t out s
    else match s.readStruct id (200 * b) (va + BitVec.ofNat 64 (0x400 * b)) 104 with
      | (s, .error g) => (s, .error g)
      | (s, .ok x) =>
        let feed := (List.range 64).filter fun i => (x / 2 ^ 128).testBit i
        loadBlocks id va f (t ++ feed) (out ++ [(b, x)]) s

/-- Whether the slots of an image make one tree over blocks 0 to n - 1, each block but the first
feeding one slot. -/
def blocksFit (l : List (Nat × ItSlot)) : Bool :=
  let n := l.length
  let feeds := l.flatMap fun p => p.2.feeders
  (List.range n).all (fun b => (l.filter fun p => p.1 == b).length == 1 && (feeds.filter (· == b)).length == (if b = 0 then 0 else 1))
    && feeds.length + 1 == n

/-- ITLOAD (R371). -/
def execItload (sb : Bool) (d : BitVec 2) (a : BitVec 5) (s : State) : Host.Outcome State Fault Refusal :=
  issue (.itload sb d a) sb itRules
    (fun s id ag _ =>
      let va := ag.getX a.toNat
      if nameLinked s id ag d.toNat then .trap s trIllegalInstr 0
      else if va.toNat % 64 ≠ 0 then .trap s trMisaligned 1
      else match loadBlocks id va 4096 [0] [] s with
        | (s, .error g) => g.res s false 0
        | (s, .ok bs) =>
          let l := bs.filterMap fun p => (loadedBlock (p.1 == 0) p.2).map fun x => (p.1, x)
          let old := oldSlots s id ag d.toNat
          let n := bs.length
          if l.length ≠ n ∨ !blocksFit l then .trap s trIllegalInstr 0
          else if !slotsFit s id ag old n then .trap s trResource (BitVec.ofNat 64 n)
          else
            let s := releaseSlots s id old
            let free := (s.core id.core).freeSlots
            let place := fun (b : Nat) => free.getD b 0
            let s := l.foldl (fun (s : State) p =>
              let x : ItSlot := { p.2 with
                ctx := ag.ctx, otag := ag.otag, frame := ag.key
                feed := p.2.feeders.foldl (fun f b => f ||| BitVec.twoPow 64 (place b)) 0
                objs := p.2.objs.map fun o =>
                  if objKind o = 0x14 ∨ objKind o = 0x15 then setF o 64 6 (place (getF o 64 6)) else o }
              s.setSlots id.core (mapPut (place p.1) x (s.slots id.core))) s
            match s.agent id with
            | some b => .done (s.setAgent id { b with its := mapPut d.toNat (place 0) b.its })
            | none => .done s) s

end Sys2Proof.Machine
end

