-- ==== Sys2Proof/Machine/Queue.lean ====
section
/-! DEFINITION. Engine queues and the copy engine (R301 to R313), TQ (R328), and QWAIT (R309). -/

namespace Sys2Proof.Machine

/-! ## Queues (R301, R302) -/

def State.queue (s : State) (c q : Nat) : List QEntry := mapGet [] (s.core c).queues q

def State.setQueue (s : State) (c q : Nat) (l : List QEntry) : State :=
  let k := s.core c
  s.setCore c { k with queues := mapSet [] k.queues q l }

/-- The oldest entry of a queue changed. -/
def State.setHead (s : State) (c q : Nat) (e : QEntry) : State := s.setQueue c q (e :: (s.queue c q).drop 1)

/-- Whether a queue has a free entry. -/
def State.queueRoom (s : State) (c q : Nat) : Bool := decide ((s.queue c q).length < 32)

/-- An entry posted by an agent: the task's outstanding count rises (R302, R311). -/
def State.postEntry (s : State) (id : AgentId) (a : Agent) (q : Nat) (kind : QKind) (desc : BitVec 512) : State :=
  let e : QEntry := { kind := kind, tag := s.ntag, poster := id, ctx := a.ctx, tcb := a.tcb, lctx := a.lctx, priv := a.priv
                      desc := desc, st := .posted, prog := 0, vals := [], rem := none, code := 0, coll := none }
  let s : State := (s.setQueue id.core q (s.queue id.core q ++ [e])).raiseOutst id.core a.lctx 1
  { s with ntag := s.ntag + 1, agenda := s.agenda ++ [.queueEntryActivate id.core q] }

/-- The maker of an entry's accesses: the engine, with the context and rights of the entry. -/
def QEntry.req (e : QEntry) (c q : Nat) : Req :=
  { ctx := e.ctx, priv := e.priv, lctx := e.lctx, id := { core := c, idx := 128 + q } }

/-- Whether an entry is a collective. -/
def QEntry.isColl (e : QEntry) : Bool :=
  match e.kind with
  | .coll _ => true
  | _ => false

/-- The queues whose oldest entry is a collective of a context that is still POSTED (R442). -/
def State.collsPosted (s : State) (ctx : Nat) : List (Nat × Nat) :=
  s.cores.flatMap fun c => c.2.queues.filterMap fun q => match q.2 with
    | e :: _ => if e.isColl && e.st == .posted && e.ctx == ctx then some (c.1, q.1) else none
    | [] => none

/-- An entry that has retired leaves its queue: the outstanding count falls, its failure counts
for the next TQ marker (R328), and the next entry may become ACTIVE, or with a collective gone one of
another queue (R442). -/
def State.freeEntry (s : State) (c q : Nat) : State :=
  match s.queue c q with
  | [] => s
  | e :: t =>
    let k := s.core c
    let n := q * 4 + e.lctx
    let s : State := if e.code ≠ 0 ∧ ¬ k.tqBad.contains n then s.setCore c { k with tqBad := k.tqBad ++ [n] } else s
    let s : State := (s.setQueue c q t).lowerOutst c e.lctx e.tcb 1
    let more := if e.isColl then (s.collsPosted e.ctx).map fun p => Instr.queueEntryActivate p.1 p.2 else []
    let s : State := { s with agenda := s.agenda ++ .queueEntryActivate c q :: more }
    (s.settleTask e.tcb).wake

/-- The oldest entry retires with a code (R302); its completion is written next. -/
def State.retireEntry (s : State) (c q code : Nat) : State :=
  match s.queue c q with
  | [] => s
  | e :: t =>
    { s.setQueue c q ({ e with st := .done, code := code, rem := none } :: t) with
      agenda := s.agenda ++ [.completionWrite c q] }

/-! ## Copy descriptors (R304) -/

/-- Whether a copy descriptor is malformed for a kind. -/
def copyBad (k : Nat) (d : CopyDesc) : Bool :=
  let z := cpSize d
  let indexed := k == 2 || k == 3
  getF d 416 96 != 0 || getF d 181 11 != 0 || (if k = 1 then cpRows d == 0 else cpRows d != 0)
    || (d.getLsbD 178 && !indexed) || (k != 4 && cpSrc d % z != 0) || cpDst d % z != 0
    || (k == 1 && (cpB d % z != 0 || cpC d % z != 0)) || (indexed && cpB d % cpIdx d != 0)
    || cpCpl d % 16 != 0 || ((k == 0 || k == 4) && (cpB d != 0 || cpC d != 0))

/-- What an element does next: an access of its own, or nothing more. -/
inductive ElemStep where
  | read (va : Nat) (n : Nat)
  | write (va : Nat) (n : Nat) (x : Nat)
  | skip
  deriving DecidableEq, Repr

/-- An index read as a signed number. -/
def cpIndex (d : CopyDesc) (x : Nat) : Int := if cpIdx d = 8 then (BitVec.ofNat 64 x).toInt else (BitVec.ofNat 32 x).toInt

/-- Element `e` of a command with what it has read so far (R305). A gather keeps the index and the
value of the element before it in front (R306). -/
def copyStep (k : Nat) (d : CopyDesc) (e : Nat) (vals : List Nat) : ElemStep :=
  let z := cpSize d
  let dst := cpDst d + e * z
  match k with
  | 0 => match vals with
    | [] => .read (cpSrc d + e * z) z
    | x :: _ => .write dst z x
  | 1 =>
    let r := e / cpElems d
    let c := e % cpElems d
    match vals with
    | [] => .read (cpSrc d + r * cpB d + c * z) z
    | x :: _ => .write (cpDst d + r * cpC d + c * z) z x
  | 2 =>
    let prev := if e = 0 then [] else vals.take 2
    if cpC d = 0 then .write dst z 0
    else match vals.drop prev.length with
    | [] => .read (cpB d + e * cpIdx d) (cpIdx d)
    | [i] =>
      if prev.head? = some i then .write dst z (prev.getD 1 0)
      else .read (cpSrc d + (max 0 (min (cpIndex d i) ((cpC d : Int) - 1))).toNat * z) z
    | _ :: x :: _ => .write dst z x
  | 3 => match vals with
    | [] => .read (cpB d + e * cpIdx d) (cpIdx d)
    | [i] =>
      let j := cpIndex d i
      if 0 ≤ j ∧ j < cpC d then .read (cpSrc d + e * z) z else .skip
    | i :: x :: _ => .write (cpDst d + (cpIndex d i).toNat * z) z x
  | _ => .write dst z (cpSrc d % 2 ^ (8 * z))

/-- What an element leaves for the next one: a gather's index and value. -/
def copyKeep (k e : Nat) (vals : List Nat) (x : Nat) : List Nat :=
  if k = 2 then [(if e = 0 then vals else vals.drop 2).getD 0 0, x] else []

/-- Poison or a refused walk met by an engine (R421, R422). -/
def State.engineFatal (s : State) (c : Nat) (e : QEntry) (cause pa va : Nat) : State :=
  s.ctxFatal e.ctx { level := 3, cause := cause, core := c, slot := 0, lead := false, pa := pa, va := va, pc := 0
                     task := s.vaOf e.tcb }

/-- The oldest entry of a queue is HELD on a page (R302). -/
def State.holdEntry (s : State) (c q : Nat) (e : QEntry) (va kind : Nat) (h : Option Nat) (m : Bool) : State :=
  let e := { e with st := if e.st = .done then .done else .held, rem := none }
  (s.setHead c q e).requestFault e.ctx va kind h m [.engine c q]

/-- One element of a copy, access by access, until it is performed or must wait (R305, R306). A storage window takes
those of LINEAR and 2D commands (R187). -/
def copyElement (c q k : Nat) : Nat → State → QEntry → State
  | 0, s, e => s.setHead c q e
  | f + 1, s, e =>
    let next : Instr := .engineElement c q
    let after := fun (s : State) (x : Nat) =>
      let e := { e with prog := e.prog + 1, vals := copyKeep k e.prog e.vals x, rem := none }
      { s.setHead c q e with agenda := s.agenda ++ [next] }
    if copyCount k e.desc ≤ e.prog then s.retireEntry c q 0
    else
      let go := fun (va n kind : Nat) (acc : Acc) (done : State → QEntry → Nat → State) =>
        match s.unitAccess (e.req c q) e.rem (BitVec.ofNat 64 va) n true (k == 0 || k == 1) acc with
        | (s, .val x _, _) => done s { e with rem := none } x
        | (s, .wait, rem) =>
          let s := s.setHead c q { e with rem := rem }
          if rem.isSome then s else { s with agenda := s.agenda ++ [next] }
        | (s, .fault h m, _) => s.holdEntry c q e (va % 2 ^ 64) kind h m
        | (s, .timeout, _) => s.retireEntry c q 2
        | (s, .refused, _) => s.retireEntry c q 1
        | (s, .poisoned pa, _) => s.engineFatal c e 1 pa va
        | (s, .fatal, _) => s.engineFatal c e 7 0 va
      match copyStep k e.desc e.prog e.vals with
      | .read va n => go va n 0 .load fun s e x => copyElement c q k f s { e with vals := e.vals ++ [x] }
      | .write va n x => go va n 1 (.store x) fun s _ _ => after s x
      | .skip => after s 0

/-! ## Retirement -/

/-- `CPL` and `INC` of an entry: a collective counts 1 (R449). -/
def QEntry.cpl (e : QEntry) : Nat := if e.isColl then getF e.desc 192 64 else cpCpl e.desc
def QEntry.inc (e : QEntry) : Nat := if e.isColl then 1 else cpInc e.desc

/-- The completion of the oldest entry (R308): one indivisible access, or none. -/
def completeEntry (c q : Nat) (s : State) (e : QEntry) : State :=
  let cpl := e.cpl
  let fail := fun (s : State) =>
    let s := s.freeEntry c q
    if e.code = 0 then s else s.policy e.tcb 0x10
  if cpl = 0 ∨ cpl % 16 ≠ 0 then fail s
  else match s.unitAccess (e.req c q) e.rem (BitVec.ofNat 64 cpl) 16 false false (.obj (.cpl e.inc e.code)) with
    | (s, .val _ _, _) => s.freeEntry c q
    | (s, .wait, rem) =>
      let s := s.setHead c q { e with rem := rem }
      if rem.isSome then s else { s with agenda := s.agenda ++ [.completionWrite c q] }
    | (s, .fault h m, _) => s.holdEntry c q e cpl 2 h m
    | (s, .poisoned pa, _) => s.engineFatal c e 1 pa cpl
    | (s, .fatal, _) => s.engineFatal c e 7 0 cpl
    | (s, _, _) => fail s

/-- COMPLETION_WRITE (R308). -/
def execCompletionWrite (c q : Nat) (s : State) : Host.Outcome State Fault Refusal :=
  match s.queue c q with
  | e :: _ => if e.st = .done then .next (completeEntry c q s e) else .next s
  | [] => .next s

/-- The engine of a queue goes on with what it has been answered. -/
def State.resumeEngine (s : State) (c q : Nat) : State :=
  match s.queue c q with
  | e :: _ =>
    { s with agenda := s.agenda ++ [if e.st = .done then .completionWrite c q else .engineElement c q] }
  | [] => s

/-- ENGINE_TIMEOUT (R312): the request under way is given up. -/
def execEngineTimeout (c q : Nat) (s : State) : Host.Outcome State Fault Refusal :=
  match s.queue c q with
  | e :: _ => match e.rem with
    | some r =>
      if r.ans.isNone then .next ((s.setHead c q { e with rem := some { r with ans := some .timeout } }).resumeEngine c q)
      else .next s
    | none => .next s
  | [] => .next s

/-! ## The instructions -/

/-- An entry posted once its queue has room (R303). -/
def postWhenFree (s : State) (id : AgentId) (q : Nat) (kind : QKind) (d : Nat) : Res :=
  match s.agent id with
  | none => .hold s
  | some a => if s.queueRoom id.core q then .done (s.postEntry id a q kind (BitVec.ofNat 512 d)) else .hold s

/-- CPY (R303). -/
def execCpy (sb : Bool) (k q : BitVec 3) (g : BitVec 5) (s : State) : Host.Outcome State Fault Refusal :=
  issue (.cpy sb k q g) sb tileRules
    (fun s id ag _ => withStruct s id 0 (ag.getX g.toNat) 8 64 fun s x =>
      postWhenFree s id q.toNat (.cpy k.toNat) x) s

/-- QFENCE (R307): a marker in every queue that is named, once each has room. -/
def execQfence (sb : Bool) (m : BitVec 8) (s : State) : Host.Outcome State Fault Refusal :=
  issue (.qfence sb m) sb tileRules
    (fun s id ag _ =>
      let qs := (List.range 8).filter fun q => m.getLsbD q
      if qs.all fun q => s.queueRoom id.core q then
        let fid := s.ntag
        .done (qs.foldl (fun s q => s.postEntry id ag q (.fence fid m.toNat) 0) s)
      else .wait) s

/-- QWAIT (R309). -/
def execQwait (sb : Bool) (d a b : Opd) (s : State) : Host.Outcome State Fault Refusal :=
  issue (.qwait sb d a b) sb { tileRules with src := [a, b], legal := d.isReg }
    (fun s id _ _ => withU s id [a, b] fun xs pop =>
      if (arg xs 0).toNat % 16 ≠ 0 then .trap s trMisaligned 1
      else oneAccess s id (arg xs 0) 16 { plain := true, patient := true } .load fun s o =>
        let st := bitsOf o 95 64
        if st = 0 ∧ bitsOf o 63 0 < (arg xs 1).toNat then .hold s
        else doneU (s.acquired id) id pop d (BitVec.ofNat 64 st)) s

/-- TQ (R328): `PEND` is raised at its turn. -/
def execTq (sb : Bool) (d : BitVec 6) (q : BitVec 3) (s : State) : Host.Outcome State Fault Refusal :=
  issue (.tq sb d q) sb tileRules
    (fun s id ag _ =>
      let t := d.toNat
      let c := id.core
      if !(s.tile c t).ownedBy ag then .trap s trAccess (tileInfo t)
      else atTurn s id t 0x6E false false fun s ag =>
        let s := if begun s c t ag then s
          else
            let e := s.tile c t
            let e := (((e.setPend (e.pend + 1)).setState tFilling).setProg 0).setArrv 0
            ((s.setTile c t e).turnFills c t ag).markTurn c t ag (some .running)
        if s.queueRoom c q.toNat then
          let turn := s.ntag
          let s : State := { s.turnEnded c t ag turn with ntag := turn + 1 }
          .done (s.postEntry id ag q.toNat (.marker t turn) 0)
        else .hold s) s

end Sys2Proof.Machine
end

