-- ==== Sys2Proof/Machine/Fault.lean ====
section
/-! DEFINITION. Faults: the fault processor as home and as requester (R166, R167, R181, R182), NAKs
and time-outs (R182, R183), and the accesses that other modules forward (R183). -/

namespace Sys2Proof.Machine

/-! ## Waiters (R166, R181, R182) -/

/-- The answer that a unit finds in place of the one it waits for. -/
def givenRem (ans : Option Answer) : Option UnitRem := ans.map fun x => { tag := 0, ans := some x }

/-- A waiter of a fault request released: with no answer it goes on with its access, and with one
its access ends so. A fired copy whose task cannot be read is discarded (R405). -/
def State.release (s : State) (ans : Option Answer) : Waiter → State
  | .group r => match r.kind, ans with
    | .join task, some _ => s.errRecord r.ctx
        { level := 4, cause := 11, core := 0x1FF, slot := 0, lead := false, pa := 0, va := 0, pc := 0, task := task.toNat }
    | .join _, none => s.enqueue (r.home / 32) r
    | _, _ => s.enqueue (r.home / 32) { r with kind := .resume false ans }
  | .lead id va =>
    match s.agent id with
    | none => s
    | some a =>
      { s.setAgent id { a with told := ans.map fun x => (va, x) } with runq := s.runq.filter (· != id) ++ [id] }
  | .engine c q =>
    match s.queue c q with
    | [] => s
    | e :: _ =>
      (s.setHead c q { e with st := if e.st = .done then .done else .active, rem := givenRem ans }).resumeEngine c q
  | .tile c tag =>
    let k := s.core c
    let free := fun (j : TileJob) => if j.tag = tag then { j with held := false, rem := givenRem ans } else j
    { s.setCore c { k with jobs := k.jobs.map free } with agenda := s.agenda ++ [.tileDrainDone c tag] }
  | .task tcb =>
    match mapFind tcb s.tasks with
    | none => s
    | some t =>
      let want := match t.want with
        | some w => (givenRem ans).map fun x => (w.1, x)
        | none => none
      { s with tasks := mapPut tcb { t with want := want } s.tasks
               agenda := s.agenda ++ [if t.ending then .taskRetirement tcb else .dispatching tcb] }
  | .snap ctx =>
    let free := fun (e : SnapEnd) => if e.ctx = ctx then { e with rem := givenRem ans } else e
    { s with snapEnds := s.snapEnds.map free, agenda := s.agenda ++ [.drainStart] }

/-- Every waiter on a granule released. -/
def State.releaseAll (s : State) (ctx gran : Nat) (ans : Option Answer) : State :=
  let here := fun (f : FaultReq) => f.ctx == ctx && f.gran == gran
  let ws := (s.faults.filter here).flatMap FaultReq.waiters
  ws.foldl (fun s w => s.release ans w) { s with faults := s.faults.filter fun f => !here f }

/-! ## The home (R166) -/

/-- A reply of the home to the other modules that have asked for a granule. -/
def State.replyHome (s : State) (ctx gran code leaf : Nat) : State :=
  let here := fun (r : Nat × Nat × Nat) => r.1 == ctx && r.2.1 == gran
  { s with
    homeReqs := s.homeReqs.filter fun r => !here r
    outbox := s.outbox ++ (s.homeReqs.filter here).map fun r =>
      { kind := .faultReply, dst := r.2.2, fields := [ctx, gran, code, leaf] } }

/-- The reply that the home gives at once: REFUSED for a context that is not resident (R411) and
for a page that is RETIRED, RESOLVED with the leaf for a page that is there. -/
def State.homeAnswer (s : State) (ctx va : Nat) : Option (Option Nat) :=
  if !(s.ctx ctx).resident || s.withdrawn.any (fun w => w.1 == ctx && w.2.1 == va / 65536) then some none
  else match s.walk ctx va with
    | .leaf e _ => some (some e)
    | _ => none

/-- FAULT_REQUEST (R166, R172, R182): the home acknowledges the request by its tag, and answers it at once where
it can; else its firmware does. An entry that is MALFORMED is not there for it: firmware repairs it. -/
def execFaultRequest (ctx va _kind : Nat) (from_ : FaultFrom) (s : State) : Host.Outcome State Fault Refusal :=
  let g := va / 65536
  if from_.mod = s.modid then
    let s : State := { s with faults := s.faults.map fun f =>
      if f.ctx == ctx && f.gran == g then { f with acked := true } else f }
    .next (match s.homeAnswer ctx va with
      | some none => { s with agenda := s.agenda ++ [.faultReplyRefused ctx g] }
      | some (some e) => { s with agenda := s.agenda ++ [.faultReplyResolved ctx g (BitVec.ofNat 64 e)] }
      | none => s)
  else if !s.routed from_.mod ∨ s.boot = .bootfail then .next s
  else
    let s : State := { s with homeReqs := s.homeReqs ++ [(ctx, g, from_.mod)]
                              outbox := s.outbox ++ [{ kind := .reply, dst := from_.mod, fields := [from_.tag] }] }
    .next (match s.homeAnswer ctx va with
      | some none => s.replyHome ctx g 0 0
      | some (some e) => s.replyHome ctx g 1 e
      | none => s)

/-- The place of a leaf of a given span for an address, as far as the tables above it are there. -/
def State.leafSlot (s : State) (va span : Nat) : Nat → Nat → Nat → Option Nat
  | 0, _, _ => none
  | k + 1, lvl, tab =>
    let a := tab % 2 ^ 40 + va / 2 ^ (49 - 11 * lvl) % 2 ^ 11 * 8
    if lvl = 3 ∨ (lvl = 2 ∧ 11 ≤ span) then some a
    else
      let e := s.hwGet a 8
      if leafV e then s.leafSlot va span k (lvl + 1) (e / 2 ^ 14 % 2 ^ 44 * 2 ^ 14) else none

/-- A leaf written into every entry of the block that its page covers (R171), given the address of one. -/
def State.writeLeaf (s : State) (a e : Nat) : State :=
  let n := 2 ^ (leafSpan e % 11)
  let n := if leafSpan e < 11 then n else 2 ^ (leafSpan e - 11)
  (List.range n).foldl (fun s i => s.hwPut ((a / 8 - a / 8 % n + i) * 8) 8 e) s

/-- FAULT_REPLY_RESOLVED (R166, R181): the local leaf is written, a page with a new frame is no longer RETIRED, and
every waiter goes on, here and on the modules that asked this one. -/
def execFaultReplyResolved (ctx gran : Nat) (leaf : Word64) (s : State) : Host.Outcome State Fault Refusal :=
  let e := leaf.toNat
  let s : State :=
    if !leafV e then s
    else match s.leafSlot (gran * 65536) (leafSpan e) 4 0 (s.ctx ctx).ptroot with
      | some a => (s.writeLeaf a e).remapped
      | none => s
  .next ((s.replyHome ctx gran 1 e).releaseAll ctx gran none)

/-- FAULT_REPLY_REFUSED (R166): every waiter finds its access refused. -/
def execFaultReplyRefused (ctx gran : Nat) (s : State) : Host.Outcome State Fault Refusal :=
  .next ((s.replyHome ctx gran 0 0).releaseAll ctx gran (some .refused))

/-- The granules of the page that holds one, each with its frame; a granule without a leaf stands alone. -/
def State.pageFrames (s : State) (ctx gran : Nat) : List (Nat × Nat) :=
  match s.walk ctx (gran * 65536) with
  | .leaf e _ =>
    let n := 2 ^ leafSpan e
    (List.range n).map fun i => (gran / n * n + i, leafPa e ((gran / n * n + i) * 65536) / 65536)
  | _ => [(gran, 2 ^ 42)]

/-- RETIRED (R166): the frame of a page is withdrawn, and its later faults are refused until a new
frame is mapped. -/
def execRetired (ctx gran : Nat) (s : State) : Host.Outcome State Fault Refusal :=
  let l := s.pageFrames ctx gran
  .next { s with withdrawn := (s.withdrawn.filter fun w => !(w.1 == ctx && l.any fun p => p.1 == w.2.1)) ++
      (l.map fun p => (ctx, p.1, p.2)) }

/-! ## NAKs and time-outs (R182, R183) -/

/-- The answer to the access of an agent that waits for it. -/
def State.answerAgent (s : State) (id : AgentId) (tag : Nat) (ans : Answer) : State :=
  match s.agent id with
  | none => s
  | some a => s.setAgent id (a.answer tag ans)

/-- The answer to whatever waits under a tag. -/
def State.answerTo (s : State) (w : Asker) (ans : Answer) : State :=
  match w with
  | .agent id tag => s.answerAgent id tag ans
  | .unit c tag => (s.unitReply c tag ans).getD s
  | _ => s

/-- The home of an address, or this module where the tables name none. -/
def State.homeId (s : State) (ctx va : Nat) : Nat := match s.homeOf ctx va with
  | .ok (some h) => h
  | _ => s.modid

/-- FAULT_NAK (R183): the NAK counts as the acknowledgement of a fault request, and the access that
met it faults here. -/
def execFaultNak (w : Asker) (ctx va : Nat) (s : State) : Host.Outcome State Fault Refusal :=
  let g := va / 65536
  let here := fun (f : FaultReq) => f.ctx == ctx && f.gran == g
  let f : FaultReq := { tag := s.ntag, ctx := ctx, gran := g, home := s.homeId ctx va, kind := 0
                        malformed := false, acked := true, waiters := [] }
  let s : State :=
    if s.faults.any here then { s with faults := s.faults.map fun f => if here f then { f with acked := true } else f }
    else { s with faults := s.faults ++ [f], ntag := s.ntag + 1 }
  .next (s.answerTo w .nak)

/-- Whether no time-out ends the access of an agent that waits under a tag (R294). -/
def Agent.patient (a : Agent) (tag : Nat) : Bool :=
  let mine := fun (r : Rem) => r.tag == tag && r.patient
  a.rem.any mine || a.late.any fun l => l.rem.any mine

/-- The first signal of a sender that an inbox holds taken away (R298). -/
def State.dropHeld (s : State) (w : SigFrom) : State :=
  let mine := fun (h : HeldSignal) => h.sender == w
  match s.cores.findSome? fun c => c.2.placed.findSome? fun p => if p.2.inbox.any mine then some (c.1, p.1, p.2) else none with
  | some (c, l, p) => s.setPlaced c l { p with inbox := p.inbox.eraseP mine }
  | none => s

/-- REMOTE_ACCESS_TIMEOUT (R182, R298): what has waited too long without an acknowledgement ends
with a time-out. -/
def execRemoteAccessTimeout (w : Asker) (s : State) : Host.Outcome State Fault Refusal :=
  .next (match w with
    | .agent id tag =>
      match s.agent id with
      | none => s
      | some a => match a.outst.find? fun o => o.tag == tag && o.cls == .st with
        | some o => { s with agenda := s.agenda ++ [.storeAck id a.lctx a.tcb tag (min o.left o.sent) false] }
        | none => if a.patient tag then s else s.answerAgent id tag .timeout
    | .unit _ tag => (s.answerTo w .timeout).drainFails tag 2
    | .request ctx gran =>
      if s.faults.any fun f => f.ctx == ctx && f.gran == gran && !f.acked then s.releaseAll ctx gran (some .timeout)
      else s
    | .signal id lctx tcb tag =>
      { s.dropHeld (.here id lctx tcb) with agenda := s.agenda ++ [.storeAck id lctx tcb tag 1 false] })

/-! ## Inbound accesses -/

/-- The access that a packet carries. -/
def accOf (code x c rnd : Nat) : Acc :=
  if code = 0 then .load
  else if code = 1 then .store x
  else if code < 14 then .rmw (code - 2) rnd x c
  else match code with
    | 16 => .obj .probe
    | 17 => .obj (.bari (BitVec.ofNat 64 x))
    | 18 => .obj .bara
    | 19 => .obj .cdec
    | 20 => .obj (.mark x)
    | 21 => .obj (.cpl x c)
    | 23 => .fetch
    | _ => .obj (.nib (x % 2 == 1) c)

/-- FORWARDED_ACCESS (R183, R437): the home translates the address in its own tables and performs the
access under the order of its own leaf; a fault is answered with a NAK and served, and the sender of an access that waits
is told so once (R429). The core 513 stands for the agent outside the module. Where the leaf leads to a core window or, with privilege, to a control
window, the access is performed there as one of this module is, and where it leads to a third module or into a
storage window it is refused (log entry 81). -/
def execForwardedAccess (src tag ctx va n : Nat) (h : Rights) (code x c r : Nat) (s : State) :
    Host.Outcome State Fault Refusal :=
  let reply := fun (s : State) (fields : List Nat) =>
    ({ s with outbox := s.outbox ++ [{ kind := .reply, dst := src, fields := tag :: fields }] } : State)
  if !s.routed src ∨ s.boot = .bootfail then .next s
  else if !(s.ctx ctx).resident then .next (reply s [0])
  else
    let q : Req := { ctx := ctx, priv := h.priv, lctx := 0, id := { core := 513, idx := 0 } }
    let acc := accOf code x c r
    .next (match s.perform q 0 (BitVec.ofNat 64 va) n h.plain false acc with
      | (s, .val y f) => reply s [1, y, f.toNat]
      | (s, .fault home m) =>
        let s : State := { s with outbox := s.outbox ++ [{ kind := .faultNak, dst := src, fields := [tag, ctx, va] }] }
        let s : State := { s with homeReqs := s.homeReqs ++ [(ctx, va / 65536, src)] }
        s.requestFault ctx va acc.kind.code home m []
      | (s, .poisoned _) => reply s [2]
      | (s, .busy) =>
        let s : State := if h.held then s else reply s [3]
        { s with agenda := s.agenda ++ [.forwardedAccess src tag ctx va n { h with held := true } code x c r] }
      | (s, .fatal _) => (reply s [0]).walkFatal ctx 0x1FF va 0
      | (s, _) => reply s [0])

end Sys2Proof.Machine
end

