-- ==== Sys2Proof/Machine/Fetch.lean ====
section
/-! DEFINITION. The fetch of clauses, the prefix and the dictionary pair word (R28 to R35, R47
to R57), and how a program is laid before the machine. -/

namespace Sys2Proof.Machine

/-- The number of the first read of a clause among the reads of an agent; those of a word are below it. -/
def fetchNo : Nat := 1000000

/-- The words from `va` on, each read as an instruction fetch (R28, R173): accesses of the agent, numbered
from `i`. DESIGN CHOICE, unsafe (log entry 93): the spec gives a position that is no multiple of 4, which ERET can reach
through `cr.tpc` or a frame, no fate; its header and words are read where they stand. -/
def State.fetchWords (s : State) (id : AgentId) (i va n : Nat) : State × Except Got (List Nat) :=
  s.reads id { plain := false } i ((List.range n).map fun j => (BitVec.ofNat 64 (va + 4 * j), 4)) .fetch

/-- The agent once a clause has been fetched: the answers that its fetch has kept are gone. -/
def Agent.fetched (a : Agent) : Agent := { a with got := a.got.filter fun g => decide (g.1 < fetchNo) }

/-- Whether the header itself is malformed (R30, R32). -/
def headerBad (h : Header) : Bool := h.n == 0 || decide (2 ^ h.n.toNat ≤ h.pair.toNat)

/-- The words that word `i` of a clause stands for in the class check: itself, or the entries
of its two codes that lie within the dictionary (R31). -/
def checkedWords (h : Header) (ws : List Word) (dict : Nat → Option Nat) (i : Nat) : List Nat :=
  let w := (ws.getD i 0).toNat
  if h.pair.getLsbD i then
    [w % 65536, w / 65536].filterMap fun c => dict (c % 1024)
  else [w]

/-- The class of a word for the check, a prefix taking that of the word behind it (R31). -/
def wordClass (ws : List Word) (i w : Nat) : Option Nat :=
  if fld w 23 7 = 0x7F then opClass (fld (ws.getD (i + 1) 0).toNat 23 7) else opClass (fld w 23 7)

/-- Whether word `i` offends against R30: its class, a control transfer that is not last, or a
prefix that stands last, before a prefix or before a pair word (R31, R33, R48). -/
def wordBad (h : Header) (ws : List Word) (dict : Nat → Option Nat) (i : Nat) : Bool :=
  let n := h.n.toNat
  let cls := h.ecls != 7 && (checkedWords h ws dict i).any fun w =>
    match wordClass ws i w with
    | some c => c != h.ecls.toNat
    | none => false
  let w := (ws.getD i 0).toNat
  let plain := !h.pair.getLsbD i
  cls || (plain && isTransfer w && i + 1 != n) ||
    (plain && fld w 23 7 == 0x7F && (i + 1 == n || h.pair.getLsbD (i + 1) ||
      fld (ws.getD (i + 1) 0).toNat 23 7 == 0x7F))

/-- The first word that makes a clause malformed. -/
def clauseBad (h : Header) (ws : List Word) (dict : Nat → Option Nat) : Option Nat :=
  (List.range h.n.toNat).find? (wordBad h ws dict)

/-- An entry of the dictionary of an agent's task, below its loaded size (R55). -/
def State.dictEntry (s : State) (id : AgentId) (a : Agent) (i : Nat) : Option Nat :=
  match s.placedOf id a with
  | some p => if i < p.dictN then some (mapGet 0 (s.core id.core).dict (a.lctx * 0x400 + i)).toNat else none
  | none => none

/-- A fault, a refusal or poison met by a fetch, or its wait (R28, R35, R408, R421). -/
def fetchFail (s : State) (id : AgentId) (g : Got) : State :=
  match s.agent id with
  | none => s
  | some a => match g with
    | .fault va h m => s.pageFault id a va 3 a.perf h m
    | .poison pa va => s.halt id a 1 pa va
    | .fatal va => s.ctxFatal a.ctx (errOf s id a 7 0 va.toNat)
    | .trap c i => s.trap id a c i
    | _ => s.rotate

/-- CLAUSE_FETCH (R28, R30 to R33, R35): the clause at the current position is fetched whole and
checked, and its wait bits are put in force. The checks of the clause come first (R58); then an agent that a vector or a
record has sent here finds whether the header is a landing point (R405, R408). -/
def execClauseFetch (s : State) : Host.Outcome State Fault Refusal :=
  match s.current with
  | none => .fault .noAgent
  | some (id, a0) =>
    let va := a0.path.pc.toNat
    if a0.fetchChk = .spawned ∧ va % 4 ≠ 0 then .next (s.trap id a0 trBadTarget 0xFFFFFFFF)
    else match s.fetchWords id fetchNo va 1 with
    | (s, .error g) => .next (fetchFail s id g)
    | (s, .ok hw) =>
      let a := (s.agent id).getD a0
      match decodeHeader (hw.getD 0 0) with
        | none => .next (s.trap id { a.setPath { a.path with wix := 0, h := false } with perf := 0 } trIllegalClause 0)
        | some h =>
          if headerBad h then
            .next (s.trap id (a.setPath { a.path with wix := 0, h := false }) trIllegalClause 0)
          else
            match s.fetchWords id (fetchNo + 1) (va + 4) h.n.toNat with
            | (s, .error g) => .next (fetchFail s id g)
            | (s, .ok xs) =>
              let a := ((s.agent id).getD a).fetched
              let ws := xs.map (BitVec.ofNat 32)
              match clauseBad h ws (s.dictEntry id a) with
              | some i =>
                .next (s.trap id (a.setPath { a.path with wix := i, h := false }) trIllegalClause 0)
              | none =>
                if a.fetchChk = .vector ∧ !h.l then .next (s.trap id a trBadTarget (if a.lead then 1 else a.live.setWidth 64))
                else if a.fetchChk = .spawned ∧ !h.l then .next (s.trap id a trBadTarget 0xFFFFFFFF)
                else if a.path.wix < h.n.toNat then
                  .next (s.setAgent id { a with
                    clause := some { addr := a.path.pc, hdr := h, words := ws }
                    fetchChk := .plain, gate := a.gate ||| h.w })
                else
                  -- a position past the last word is the next header (R28)
                  .next (s.setAgent id (a.setPath { a.path with
                    pc := a.path.pc + BitVec.ofNat 64 (4 * (h.n.toNat + 1)), wix := 0, h := false }))

/-- PFX (R47, R49): the fields wait for the next word, with which they issue as one
instruction. -/
def execPfx (m : BitVec 3) (z : Bool) (r : BitVec 3) (c : Opd) (x : BitVec 10) (s : State) :
    Host.Outcome State Fault Refusal :=
  match s.current with
  | none => .fault .noAgent
  | some (id, a) =>
    if !a.clear a.gate then .next s.rotate
    else if !Instr.wf (.pfx m z r c x) then .next (s.trap id a trIllegalInstr 0)
    else .next (s.setAgent id { a with pfx := some { m := m, z := z, rnd := r, c := c, x := x } })

/-- DICT_PAIR_WORD (R53, R54): the code whose turn it is names an entry of the task's dictionary,
which issues next with `ROT` applied. -/
def execDictPairWord (w : Word) (s : State) : Host.Outcome State Fault Refusal :=
  match s.current with
  | none => .fault .noAgent
  | some (id, a) =>
    if !a.clear a.gate then .next s.rotate
    else
      let c := decodePair (if a.path.h then w.toNat / 65536 else w.toNat % 65536)
      match s.dictEntry id a c.idx.toNat with
      | none => .next (s.trap id a trIllegalInstr 0)
      | some e =>
        if let some o := (s.core id.core).hurt [0x320000 + a.lctx * 0x1000 + c.idx.toNat * 4] then
          .next (s.halt id a 1 (s.winPa id.core o) 0)
        else
        let i := (decodeWord e).toOption.map (Instr.rotate c.rot)
        .next (s.setAgent id { a with pairw := some { ins := i, s := c.s } })

/-- What an agent issues next: nothing it can decode, or an instruction. -/
inductive Turn where
  | event (i : Instr)
  | illegal
  deriving DecidableEq, Repr

/-- The next thing that an agent does in its turn. -/
def turnOf (id : AgentId) (a : Agent) : Turn :=
  match a.pend with
  | .trap _ _ => .event (.trapEntry id)
  | .halt _ _ _ => .event (.trapEntry id)
  | .park _ _ _ _ _ => .event (.park id)
  | .none =>
    let p := a.path
    if a.preq && !a.inHandler && p.wix == 0 && !p.h && a.pfx.isNone && a.pairw.isNone && a.rem.isNone &&
        a.got.isEmpty && a.perf == 0 && a.far.isNone && a.settled && a.sigs.isEmpty then
      .event (.preempt id)
    else match a.clause with
      | none => .event .clauseFetch
      | some c =>
        if c.addr ≠ p.pc then .event .clauseFetch
        else match a.pairw with
          | some l => match l.ins with
            | some i => .event i
            | none => .illegal
          | none =>
            let i := if a.pfx.isSome then p.wix + 1 else p.wix
            let w := c.words.getD i 0
            if c.hdr.pair.getLsbD i then .event (.dictPairWord w)
            else match decodeWord w.toNat with
              | .ok i => .event i
              | .error _ => .illegal

/-- A word that is no instruction raises ILLEGAL_INSTR when it issues (R61). -/
def illegalWord (s : State) (id : AgentId) (a : Agent) : State :=
  if !a.clear a.gate then s.rotate else s.trap id a trIllegalInstr 0

/-- The words that hold the issue and can be pre-empted while they wait (R35). -/
def waitWord : Instr → Bool
  | .barw _ _ _ _ => true
  | .bars _ _ _ => true
  | .sigw _ _ => true
  | .qwait _ _ _ _ => true
  | .cpy _ _ _ _ => true
  | .coll _ _ _ _ => true
  | .qfence _ _ => true
  | .brd _ _ _ _ => true
  | .jmpd _ _ _ _ => true
  | .tdef _ _ _ => true
  | .tsetEmpty _ _ => true
  | .tsetReady _ _ => true
  | .tld _ _ _ _ _ => true
  | .tst _ _ _ _ => true
  | .mmq _ _ _ _ _ _ => true
  | .mmt _ _ _ => true
  | .mms _ _ _ => true
  | .accz _ _ => true
  | .accr _ _ _ _ => true
  | .drain _ _ _ _ _ => true
  | .txp _ _ _ => true
  | .varr _ _ _ => true
  | .tq _ _ _ => true
  | .next _ _ _ _ _ => true
  | _ => false

/-- Whether an agent that issued a word still stands at it, outside a handler: it waits. A TQ whose
turn has come waits for its queue and is not interrupted (R35, R328), nor is a word while another
module answers it. -/
def stillAt (s : State) (id : AgentId) (a : Agent) : Bool :=
  match s.agent id with
  | some b => b.path == a.path && !b.inHandler && b.pend == .none && b.settled && b.sigs.isEmpty && b.far.isNone && b.rem.isNone &&
      !((s.core id.core).turns.any fun p => p.2.any fun x => x.frame == a.key && x.st == .running && x.op == 0x6E)
  | none => false

/-! ## A program laid before the machine -/

/-- A clause of `N` words whose first is `w`, the rest NOP. -/
def clauseOf (n : Nat) (w : Nat) : Clause :=
  { addr := 0x10000, hdr := { n := BitVec.ofNat 4 n, ecls := 7, w := 0, pair := 0, l := true },
    words := BitVec.ofNat 32 w :: List.replicate (n - 1) 0 }

/-- An agent right after its launch (R97, R412): 32 present threads on one path at `pc`, or a
lead thread; every register 0 but those that the launch sets. -/
def freshAgent (lead : Bool) (ctx tcb lctx : Nat) (pc : Word64) (feat : Word64) : Agent :=
  { lead := lead, ctx := ctx, tcb := tcb, lctx := lctx, origin := .launch, part := none, x := [], v := []
    m := [], al := [], chans := (List.range 8).map fun c => (c, { depth := 2, elems := [] }), its := []
    cld := 0, cst := 0, cmat := 0, cchn := 0, gate := 0
    present := if lead then 1 else 0xFFFFFFFF, tids := []
    paths := [{ pc := pc, wix := 0, h := false, mask := if lead then 1 else 0xFFFFFFFF, waiting := false
                joinp := 0 }]
    cur := 0, joins := [], outst := [], clause := none, fetchChk := .plain, pfx := none
    pairw := none, pend := .none, preq := false, perf := 0, got := [], gotFl := 0, rem := none, far := none, late := [], now := none, sigs := []
    told := none, bwait := none, cursor := none, otag := 0
    inHandler := false, tcause := 0, tpc := 0, tclause := 0, tmask := 0, tinfo := 0, frame := 0, own := 0
    tsave0 := 0, tsave1 := 0, ppriv := false, priv := false, feat := feat, born := 0, seen := 0, fences := [], floors := [] }

/-- A task placed on a core with nothing in it. -/
def freshPlaced (ctx tcb : Nat) : Placed :=
  { ctx := ctx, tcb := tcb, off := 0, spt := 0, spg := 0, parts := 1, partUse := [], fstat := 0, defer := [], lscale := 0
    lgrow := 0, step := 0, seed := 0, coreix := 0, ngrp := 0, outst := 0
    chans := (List.range 8).map fun c => (c + 8, { depth := 2, elems := [] }), inbox := []
    decBase := 0, decReads := [], decGone := 0, exts := [], dictN := 0, savedTurns := [], savedSlots := [] }

/-- Whether the word needs lead code (R62). -/
def needsLead (w : Nat) : Bool := fld w 23 7 == 0x60

/-- The first MiB of memory in one extent, open to every access that needs no privilege. -/
def lowExtent : Extent :=
  { vbase := 0, pbase := 0, npg := 16, d := true, sup := false, x := true, w := true, r := true, ord := 0
    stale := false, leaves := [], decl := 3, win := [] }

/-- The machine with the instruction word `w` as the next one that it issues: an agent of
core 0, alone in the run queue, that has fetched from memory a clause whose first word is `w` (log
entry 1). -/
def placeWord (s : State) (w : Nat) : State :=
  let lead := needsLead w
  let id : AgentId := { core := 0, idx := if lead then 64 else 0 }
  let a := { freshAgent lead 0 0 0 0x10000 0xFF with clause := some (clauseOf 2 w) }
  let s := s.setPlaced 0 0 { freshPlaced 0 0 with exts := [lowExtent] }
  { s.setAgent id a with
    runq := [id], agenda := []
    mem := writeN (writeN s.mem 0x10000 4 (encodeHeader (clauseOf 2 w).hdr)) 0x10004 8 (w % 2 ^ 32) }

end Sys2Proof.Machine
end

