-- ==== Sys2Proof/Machine/Group.lean ====
section
/-! DEFINITION. The control instructions of groups and leads (R57, R218 to R226), paths, and the
curd former (R227 to R230). -/

namespace Sys2Proof.Machine

/-! ## Positions and paths -/

/-- The address of the word that issues (R220). -/
def Agent.wordAddr (a : Agent) : Word64 :=
  a.path.pc + BitVec.ofNat 64 (4 * (a.path.wix + (if a.pfx.isSome then 2 else 1)))

/-- The header of the next clause. -/
def Agent.fallThrough (a : Agent) : Word64 :=
  a.path.pc + BitVec.ofNat 64 (4 * ((match a.clause with
    | some c => c.hdr.n.toNat
    | none => 15) + 1))

/-- The target of a relative branch (R46, R220): 15 bits of offset, 25 with a prefix. -/
def Agent.target (a : Agent) (o : BitVec 15) : Word64 :=
  let off : Word64 := match a.pfx with
    | some p => (p.x ++ o : BitVec 25).signExtend 64
    | none => o.signExtend 64
  a.wordAddr + off * 4

/-- The first path from position `i` on, in table order, that is not waiting. -/
def runnable (ps : List Path) (i : Nat) : Option Nat :=
  ((List.range ps.length).map fun k => (i + k) % ps.length).find? fun j =>
    match ps[j]? with
    | some p => !p.waiting
    | none => false

/-- The rule of JOINP over a path table that has lost or stopped its current path (R219): when
every path waits, those at the lowest JOINP merge at the place of the earliest of them; the
next path that does not wait, from position `i` on, becomes current. -/
def joinPaths (ps : List Path) (i : Nat) : List Path × Nat :=
  match runnable ps i with
  | some j => (ps, j)
  | none =>
    match ps with
    | [] => ([], 0)
    | p :: t =>
      let low := t.foldl (fun m q => if q.joinp.toNat < m then q.joinp.toNat else m) p.joinp.toNat
      let here := fun (q : Path) => q.joinp.toNat == low
      let mask := (ps.filter here).foldl (fun m q => m ||| q.mask) 0
      let first := ps.findIdx here
      let kept := ps.zipIdx.filter fun q => !here q.1 || q.2 == first
      (kept.map fun q => if q.2 = first then { q.1 with mask := mask, waiting := false, joinp := 0 } else q.1,
        (kept.findIdx fun q => q.2 == first))

/-- The agent moved to an address as a whole path: a backward move is a switch point (R218). -/
def Agent.go (a : Agent) (t : Word64) : Agent :=
  let b := a.setPath { a.path with pc := t, wix := 0, h := false }
  if t.toNat ≤ a.wordAddr.toNat then b.switch else b

/-- The current path ends (R219, R226): the group retires with its last path, and a lead ends. -/
def endPath (s : State) (id : AgentId) (a : Agent) : Res :=
  let ps := a.paths.eraseIdx a.cur
  if ps.isEmpty then .left (s.retire id a)
  else
    let j := joinPaths ps a.cur
    .moved (s.setAgent id { a with paths := j.1, cur := j.2, present := pathMask ps })

/-! ## Targets (R57, R224) -/

/-- A place that threads move to: its address, the threads, and whether they are spawned. -/
structure Target where
  addr : Word64
  mask : Word
  spawned : Bool
  deriving DecidableEq, Repr

/-- How the reading of the target headers ends. -/
inductive Heads where
  | bad (s : State) (mask : Word)
  | stop (r : Res)

/-- The number of the first read of a target header among the reads of an agent. -/
def headNo : Nat := 2000000

/-- The headers of the targets read in order, numbered from `i`, and the threads whose target fails (R57). A read that is
refused has the header's address in its trap. -/
def readTargets (id : AgentId) (i : Nat) : List Target → State → Word → Heads
  | [], s, m => .bad s m
  | t :: ts, s, m =>
    if t.addr.toNat % 4 ≠ 0 then readTargets id (i + 1) ts s (m ||| t.mask)
    else match s.fetchWords id i t.addr.toNat 1 with
      | (s, .ok ws) =>
        let ok := match decodeHeader (ws.getD 0 0) with
          | some h => !t.spawned || h.l
          | none => false
        readTargets id (i + 1) ts s (if ok then m else m ||| t.mask)
      | (s, .error (.trap c _)) => .stop (.trap s c t.addr)
      | (s, .error g) => .stop (g.res s false 3)

/-- The check of a control transfer: headers, then BAD_TARGET, and then the rest of it. -/
def withTargets (ts : List Target) (s : State) (id : AgentId) (k : State → Res) : Res :=
  match readTargets id headNo ts s 0 with
  | .stop r => r
  | .bad s m => if m ≠ 0 then .trap s trBadTarget (m.setWidth 64) else k s

/-- A transfer of the whole path. -/
def goTo (t : Word64) (s : State) (id : AgentId) (a : Agent) (f : Agent → Agent) : Res :=
  withTargets [{ addr := t, mask := a.live, spawned := false }] s id fun s =>
    .moved (s.setAgent id ((f a).go t))

/-! ## Uniform transfers -/

/-- Whether BR of a `KIND` is taken (R220). -/
def brTaken (k : Nat) (x : Word64) : Bool :=
  match k with
  | 0 => true
  | 1 => x == 0
  | 2 => x != 0
  | 3 => x.msb
  | _ => !x.msb

/-- The rules of control words: no prefix field but `X10` where it is taken. -/
def ctlRules (x : Bool) : Rules := { form := .u, u := true, okX := x, regs := true }

/-- BR (R220). -/
def execBr (sb : Bool) (k : BitVec 3) (a : BitVec 5) (o : BitVec 15) (s : State) :
    Host.Outcome State Fault Refusal :=
  issue (.br sb k a o) sb (ctlRules true)
    (fun s id ag _ => if brTaken k.toNat (ag.getX a.toNat) then goTo (ag.target o) s id ag (fun b => b) else .done s) s

/-- JMP (R221). -/
def execJmp (sb : Bool) (a : Opd) (s : State) : Host.Outcome State Fault Refusal :=
  issue (.jmp sb a) sb (ctlRules false) (fun s id ag _ => goTo (ag.getX a.code) s id ag (fun b => b)) s

/-- CALL (R221): the link is the header that follows. -/
def execCall (sb : Bool) (d a : Opd) (s : State) : Host.Outcome State Fault Refusal :=
  issue (.call sb d a) sb (ctlRules false)
    (fun s id ag _ => goTo (ag.getX a.code) s id ag (fun b => b.setX d.code ag.fallThrough)) s

/-- LOOP (R221): the counter falls, and the branch is taken unless it has become 0. -/
def execLoop (sb : Bool) (d a : Opd) (s : State) : Host.Outcome State Fault Refusal :=
  issue (.loop sb d a) sb (ctlRules false)
    (fun s id ag _ =>
      let x := ag.getX d.code - 1
      if x = 0 then .done (s.setAgent id (ag.setX d.code x))
      else goTo (ag.getX a.code) s id ag (fun b => b.setX d.code x)) s

/-! ## Spawning (R225, R227) -/

/-- What a spawned thread carries (R227). -/
def Agent.thread (a : Agent) (t : Nat) : WheyThread :=
  { v := (List.range 32).foldl (fun m n => mapSet 0 m n (laneOf (a.getV n) t)) []
    m := BitVec.ofBoolListLE ((List.range 8).map fun n => n != 0 && (a.getM n).getLsbD t) |>.setWidth 8
    tid := mapGet 0 a.tids t }

/-- Whey-store slots of a cluster in use (R227, R230). -/
def Cluster.slots (k : Cluster) : Nat := ((k.bins ++ k.arrive).map fun b => b.threads.length).foldl (· + ·) 0

/-- The threads of a group sent to the whey store, in lane order, each with its landing address.
They leave the group, their path and their reservations (R225), and what they have written is ordered for all
of the device (R269). -/
def State.spawnThreads (s : State) (id : AgentId) (a : Agent) (ts : List Target) : State :=
  let c := id.core / 32
  let s : State := s.fenceUo id 3
  let k := s.cluster c
  let mask := ts.foldl (fun m t => m ||| t.mask) 0
  let out := (lanes mask).map fun t =>
    let land := match ts.find? fun g => g.mask.getLsbD t with
      | some g => g.addr
      | none => 0
    ({ ctx := a.ctx, tcb := a.tcb, land := land, threads := [a.thread t] } : Bin)
  { s.setCluster c { k with arrive := k.arrive ++ out } with
    resvs := s.resvs.filter fun v => !(v.id == id && mask.getLsbD v.lane)
    agenda := s.agenda ++ [.wheySpawn c] }

/-- A divergent branch once its targets are good (R222 to R225): the threads that spawn, the
moves of those that stay (the first is the current path), and nothing while it must wait: a spawn waits for
the counters, for the words and tile writes that the threads leave behind (R225, R269), and for room. -/
def diverge (s : State) (id : AgentId) (a : Agent) (out : List Target) (stay : List Target) : Res :=
  let n := (lanes (out.foldl (fun m t => m ||| t.mask) 0)).length
  if 4 < a.paths.length - 1 + stay.length then .trap s trResource (a.live.setWidth 64)
  else if n ≠ 0 ∧ (!a.clear 13 || !a.late.isEmpty || s.drains a || decide (8192 < (s.cluster (id.core / 32)).slots + n)) then
    .hold s
  else
    let s : State := if n = 0 then s else s.spawnThreads id a out
    match stay with
    | [] => endPath s id a
    | t :: ts =>
      let first : Path := { a.path with pc := t.addr, wix := 0, h := false, mask := t.mask }
      let more := ts.map fun g => { noPath with pc := g.addr, mask := g.mask }
      let ps := a.paths.take a.cur ++ first :: more ++ a.paths.drop (a.cur + 1)
      let b := { a with paths := ps, present := pathMask ps }
      .moved (s.setAgent id (if t.addr.toNat ≤ a.wordAddr.toNat then b.switch else b))

/-- Number of threads in a mask. -/
def count (w : Word) : Nat := (lanes w).length

/-- What BRD decides (R222). -/
inductive Split where
  | whole (taken : Bool)
  | hold
  | spawn (taken : Bool)
  deriving DecidableEq, Repr

/-- The decision of BRD from `TH` and the two sides (R222). -/
def brdSplit (th : Nat) (t n : Word) : Split :=
  if t = 0 ∨ n = 0 then
    if th = 6 ∧ n ≠ 0 then .spawn false
    else if th = 7 ∧ t ≠ 0 then .spawn true
    else .whole (n == 0)
  else
    match th with
    | 0 => .hold
    | 6 => .spawn false
    | 7 => .spawn true
    | k =>
      let taken := decide (count t ≤ count n)
      if count (if taken then t else n) ≤ 2 ^ (k - 1) then .spawn taken else .hold

/-- Targets in ascending order of their lowest thread (R57). -/
def byLane (ts : List Target) : List Target :=
  (List.range 32).filterMap fun t => ts.find? fun g =>
    g.mask.getLsbD t && decide ((lanes g.mask).headD 32 = t)

/-- BRD (R222). -/
def execBrd (sb : Bool) (t m : BitVec 3) (o : BitVec 15) (s : State) : Host.Outcome State Fault Refusal :=
  issue (.brd sb t m o) sb { form := .v, u := false, okX := true, regs := true, fixed := true }
    (fun s id a _ =>
      let tk := a.live &&& a.getM m.toNat
      let nt := a.live &&& ~~~ a.getM m.toNat
      let tgt := a.target o
      let ft := a.fallThrough
      match brdSplit t.toNat tk nt with
      | .whole true => goTo tgt s id a (fun b => b)
      | .whole false => .done s
      | .hold =>
        withTargets [{ addr := tgt, mask := tk, spawned := false }] s id fun s =>
          diverge s id a [] [{ addr := ft, mask := nt, spawned := false }, { addr := tgt, mask := tk, spawned := false }]
      | .spawn true =>
        let g : Target := { addr := tgt, mask := tk, spawned := true }
        withTargets [g] s id fun s =>
          diverge s id a [g] (if nt = 0 then [] else [{ addr := ft, mask := nt, spawned := false }])
      | .spawn false =>
        let g : Target := { addr := ft, mask := nt, spawned := true }
        let stay := if tk = 0 then [] else [{ addr := tgt, mask := tk, spawned := false }]
        withTargets (byLane (g :: stay)) s id fun s => diverge s id a [g] stay) s

/-- The distinct targets of JMPD in the order of their lowest threads (R223). -/
def jmpdTargets (a : Agent) (r : BitVec 5) (o : Opd) : List (Word64 × Word) :=
  (lanes a.live).foldl (fun l t =>
    let x := a.getX r.toNat + (laneOf (a.getV o.code) t).setWidth 64
    if l.any fun p => p.1 == x then l.map fun p => if p.1 = x then (p.1, p.2 ||| BitVec.twoPow 32 t) else p
    else l ++ [(x, BitVec.twoPow 32 t)]) []

/-- JMPD (R223). -/
def execJmpd (sb : Bool) (t : BitVec 3) (a : Opd) (b : BitVec 5) (s : State) :
    Host.Outcome State Fault Refusal :=
  issue (.jmpd sb t a b) sb { form := .v, u := false, regs := true, fixed := true }
    (fun s id ag _ =>
      let ts := jmpdTargets ag b a
      let mk := fun (sp : Bool) (p : Word64 × Word) => ({ addr := p.1, mask := p.2, spawned := sp } : Target)
      let others := (ts.drop 1).foldl (fun m p => m ||| p.2) 0
      let (out, stay) :=
        if t = 7 then (ts.map (mk true), [])
        else if others ≠ 0 ∧ (t = 6 ∨ (t ≠ 0 ∧ count others ≤ 2 ^ (t.toNat - 1))) then
          ((ts.drop 1).map (mk true), (ts.take 1).map (mk false))
        else ([], ts.map (mk false))
      withTargets (byLane (out ++ stay)) s id fun s => diverge s id ag out stay) s

/-! ## CTL (R226) -/

/-- CTL.YIELD: a switch point (R218). -/
def execCtlYield (sb : Bool) (s : State) : Host.Outcome State Fault Refusal :=
  issue (.ctlYield sb) sb (ctlRules false) (fun s _ _ _ => .switched s) s

/-- CTL.EXIT: the current path ends (R219, R226). -/
def execCtlExit (sb : Bool) (s : State) : Host.Outcome State Fault Refusal :=
  issue (.ctlExit sb) sb (ctlRules false) (fun s id a _ => endPath s id a) s

/-- CTL.JOINP (R219). -/
def execCtlJoinp (sb : Bool) (s : State) : Host.Outcome State Fault Refusal :=
  issue (.ctlJoinp sb) sb (ctlRules false)
    (fun s id a _ =>
      if a.lead || a.inHandler || a.paths.length ≤ 1 then .done s
      else
        let b := a.advance
        let b := b.setPath { b.path with waiting := true, joinp := a.wordAddr }
        let j := joinPaths b.paths (a.cur + 1)
        .moved (s.setAgent id { b with paths := j.1, cur := j.2 })) s

/-- CTL.TRAP (R226). -/
def execCtlTrap (sb : Bool) (a : Opd) (s : State) : Host.Outcome State Fault Refusal :=
  issue (.ctlTrap sb a) sb (ctlRules false) (fun s _ ag _ => .trap s trSwTrap (ag.getX a.code)) s

/-- CTL.BKPT (R226). -/
def execCtlBkpt (sb : Bool) (s : State) : Host.Outcome State Fault Refusal :=
  issue (.ctlBkpt sb) sb (ctlRules false) (fun s _ _ _ => .trap s trBkpt 0) s

/-! ## The curd former (R227 to R230) -/

/-- The key of a bin. -/
def Bin.sameKey (a b : Bin) : Bool := a.ctx == b.ctx && a.tcb == b.tcb && a.land == b.land

/-- One arriving thread put into its bin (R227): a full bin flushes, and a new key with 64 bins
open flushes the oldest first. -/
def State.arriveOne (s : State) (c : Nat) (b : Bin) : State :=
  let bins := (s.cluster c).bins
  let put := fun (s : State) =>
    let k := s.cluster c
    let join := fun (x : Bin) => if b.sameKey x then { x with threads := x.threads ++ b.threads } else x
    if k.bins.any fun x => b.sameKey x then s.setCluster c { k with bins := k.bins.map join }
    else s.setCluster c { k with bins := k.bins ++ [b] }
  let s : State :=
    if !(bins.any fun x => b.sameKey x) && decide (64 ≤ bins.length) then
      match bins with
      | o :: _ => s.flushBins c o.sameKey
      | [] => s
    else s
  (put s).flushBins c fun x => b.sameKey x && decide (32 ≤ x.threads.length)

/-- WHEY_SPAWN (R225, R227): the spawned threads reach their bins in the order of their
spawning. -/
def execWheySpawn (c : Nat) (s : State) : Host.Outcome State Fault Refusal :=
  let k := s.cluster c
  let s1 := k.arrive.foldl (fun s b => s.arriveOne c b) (s.setCluster c { k with arrive := [] })
  .next (k.arrive.foldl (fun s b => s.settleTask b.tcb) s1)

/-- IDLE (R228): a bin that no thread has reached for `IDLE` times 64 clocks flushes. -/
def execIdle (c i : Nat) (s : State) : Host.Outcome State Fault Refusal :=
  match (s.cluster c).bins[i]? with
  | some b => .next (s.flushBins c b.sameKey)
  | none => .next s

/-- FLUSH (R228, R230): every bin of the cluster flushes. -/
def execFlush (c : Nat) (s : State) : Host.Outcome State Fault Refusal :=
  .next (s.flushBins c fun _ => true)

end Sys2Proof.Machine
end

