-- ==== Sys2Proof/Machine/Frame.lean ====
section
/-! DEFINITION. Frames read back (R416, R417, R419), the entry into traps and save routines, parks,
and the return from a trap (R413, R416, R418). -/

namespace Sys2Proof.Machine

/-! ## Frames read back (R417) -/

/-- The path that an entry of a frame's path table holds: its clause address, its position word, its
mask and its JOINP address. -/
def pathAt (pc tcl mask joinp : Nat) : Path :=
  { pc := BitVec.ofNat 64 pc, wix := tcl % 16, h := tcl / 16 % 2 == 1, mask := BitVec.ofNat 32 mask
    waiting := tcl / 32 % 2 == 1, joinp := BitVec.ofNat 64 joinp }

/-- The path table of a frame, from the parts that `frameHead` writes. -/
def pathsAt (n : Nat) : List Nat → List Path
  | pc :: tcl :: mask :: joinp :: t =>
    match n with
    | 0 => []
    | k + 1 => pathAt pc tcl mask joinp :: pathsAt k t
  | _ => []

/-- The places and widths of the parts of a frame. -/
def headParts : List (Nat × Nat) :=
  ((List.range 8).map fun i => (8 * i, 8))
    ++ ((List.range 4).flatMap fun i => [(0x180 + 32 * i, 8), (0x188 + 32 * i, 4), (0x18C + 32 * i, 4), (0x190 + 32 * i, 8)])
    ++ (List.range 32).map fun i => (0x200 + 4 * i, 4)
def uniformParts : List (Nat × Nat) := (List.range 32).map fun n => (0x40 + 8 * n, 8)
def alphaParts : List (Nat × Nat) := (List.range 4).map fun n => (0x140 + 8 * n, 8)
def maskParts : List (Nat × Nat) := (List.range 8).map fun n => (0x160 + 4 * n, 4)
def vectorParts : List (Nat × Nat) := (List.range 1024).map fun i => (0x400 + 4 * i, 4)
def linkParts : List (Nat × Nat) :=
  ((List.range 8).map fun i => (0x280 + 8 * i, 8)) ++ ((List.range 4).map fun i => (0x2C0 + i, 1)) ++ [(0x2C8, 8)]

/-- The agent with its header, path table and lane map as a frame holds them: path table, current
path, lane map, tag, the wait of a BARS, and the performed threads. -/
def Agent.loadHead (a : Agent) (xs : List Nat) : Agent :=
  let h : BitVec 512 := BitVec.ofNat 512 (joinWords 8 (xs.take 8))
  { a with
    paths := pathsAt (getF h 84 3) (xs.drop 8 |>.take 16)
    cur := getF h 80 2
    present := BitVec.ofNat 32 (getF h 96 32)
    tids := (xs.drop 24).zipIdx.foldl (fun m x => mapSet 0 m x.2 (BitVec.ofNat 32 x.1)) []
    otag := BitVec.ofNat 32 (getF h 128 32)
    bwait := if h.getLsbD 69 then some (BitVec.ofNat 32 (getF h 160 32)) else none
    perf := BitVec.ofNat 32 (getF h 320 32) }

def Agent.loadUniform (a : Agent) (xs : List Nat) : Agent :=
  xs.zipIdx.foldl (fun a x => a.setX x.2 (BitVec.ofNat 64 x.1)) a
def Agent.loadAlpha (a : Agent) (xs : List Nat) : Agent :=
  xs.zipIdx.foldl (fun a x => a.setAl x.2 (BitVec.ofNat 64 x.1 &&& alFields)) a
def Agent.loadMasks (a : Agent) (xs : List Nat) : Agent :=
  xs.zipIdx.foldl (fun a x => a.setM x.2 (BitVec.ofNat 32 x.1)) a
def Agent.loadVectors (a : Agent) (xs : List Nat) : Agent :=
  (List.range 32).foldl (fun a n => a.setV n (mkV fun t => BitVec.ofNat 32 (xs.getD (32 * n + t) 0))) a

/-- Join list, iterator names and decision cursor; a group without a cursor gets none (R394). -/
def Agent.loadLinks (a : Agent) (xs : List Nat) : Agent :=
  { a with
    joins := ((xs.take 8).filter (· != 0)).map (BitVec.ofNat 64)
    its := ((xs.drop 8).take 4).zipIdx.foldl (fun m x => if x.1 < 64 then mapPut x.2 x.1 m else m) []
    cursor := a.cursor.map fun _ => xs.getD 12 0 }

/-- The slots that the names of a group are bound to, and those that feed them, belong to it again (R359). -/
def State.bindSlots (s : State) (id : AgentId) (a : Agent) : State :=
  let k := s.core id.core
  let mine := fun (n : Nat) => a.its.any fun p => (itTree k.slots 4 p.2).contains n
  s.setCore id.core { k with slots := k.slots.map fun p => if mine p.1 then (p.1, { p.2 with frame := a.key }) else p }

/-- The vector register whose 32 lanes are given. -/
def vregOf (xs : List Nat) : VReg := mkV fun t => BitVec.ofNat 32 (xs.getD t 0)

/-- The channels of a group read back, from channel `c` on. -/
def loadChans (r : Req) (frame : Nat) : Nat → Nat → State → SMap (Chan VReg) → Hw (SMap (Chan VReg))
  | 0, _, s, m => .ok m s
  | f + 1, c, s, m =>
    let o := frame + 0x1400 + 0x840 * c
    (s.hwReads r o [(0, 4), (4, 4)]).bind fun p s =>
      let n := min (p.getD 0 0) 16
      (s.hwReads r o ((List.range (32 * n)).map fun i => (0x40 + 4 * i, 4))).bind fun q s =>
        let ch : Chan VReg :=
          { depth := p.getD 1 0, elems := (List.range n).map fun i => vregOf ((q.drop (32 * i)).take 32) }
        loadChans r frame f (c + 1) s (mapPut c ch m)

/-- The maker of the hardware's accesses to the frame of an agent. -/
def frameReq (id : AgentId) (a : Agent) : Req := { reqOf id a with priv := true }

/-- Everything that a parked group has saved (R181). -/
def State.loadParked (s : State) (id : AgentId) (a : Agent) : Hw Agent :=
  let r := frameReq id a
  let f := a.frame.toNat
  (s.hwReads r f headParts).bind fun h s => (s.hwReads r f uniformParts).bind fun u s =>
  (s.hwReads r f alphaParts).bind fun l s => (s.hwReads r f maskParts).bind fun m s =>
  (s.hwReads r f vectorParts).bind fun v s => (s.hwReads r f linkParts).bind fun k s =>
  (loadChans r f 8 0 s []).bind fun c s =>
    let hdr : BitVec 512 := BitVec.ofNat 512 (joinWords 8 (h.take 8))
    let b := (((((a.loadHead h).loadUniform u).loadAlpha l).loadMasks m).loadVectors v).loadLinks k
    .ok { b with chans := c, priv := hdr.getLsbD 70 } s

/-- What an access to a frame makes of its context where it fails (R409, R421). -/
def State.frameFatal (s : State) (id : AgentId) (a : Agent) (cause pa va : Nat) : State :=
  s.ctxFatal a.ctx (errOf s id a cause pa va)

/-! ## Entry (R413, R416) -/

/-- The vector of the save routine of an agent (R416). -/
def State.saveVector (s : State) (a : Agent) : Word64 :=
  BitVec.ofNat 64 (if a.lead then (s.ctx a.ctx).lsvec else (s.ctx a.ctx).svec)

/-- The agent in its save or restore routine: one path of every present thread. -/
def Agent.enterSave (a : Agent) (info vec : Word64) : Agent :=
  let b := a.enter trPreempt info vec
  { b with paths := [{ b.path with mask := pathMask a.paths }], cur := 0, preq := false, bwait := none }

/-- TRAP_ENTRY (R413): the trap that waits for the outstanding results is taken as soon as they are written, and
a halt that waits for its barriers goes on (R296). -/
def execTrapEntry (id : AgentId) (s : State) : Host.Outcome State Fault Refusal :=
  match s.agent id with
  | none => .next s
  | some a =>
    match a.pend with
    | .trap code info => .next (if a.settled then s.setAgent id (a.enter code info (s.vector a)) else s).rotate
    | .halt cause pa va => .next (s.halt id a cause pa va)
    | _ => .next s.rotate

/-- PARK (R181, R269, R389): the fault that waits for the outstanding results, and for the writes of the agent's
tiles, is taken as soon as they are performed. -/
def execPark (id : AgentId) (s : State) : Host.Outcome State Fault Refusal :=
  match s.agent id with
  | none => .next s
  | some a => match a.pend with
    | .park va kind perf home m =>
      .next (s.pageFault id { a with pend := .none } va kind perf home m)
    | _ => .next s.rotate

/-- PREEMPT (R269, R416): once what the agent has issued is performed, header, path table and lane map are
written, the trap registers are set, and the save routine runs. In a handler the request waits for ERET (R415). -/
def execPreempt (id : AgentId) (s : State) : Host.Outcome State Fault Refusal :=
  match s.agent id with
  | none => .next s
  | some a =>
    if a.inHandler || !(a.settled && !s.drains a && a.sigs.isEmpty) then .next s.rotate
    else
      let s : State := ((s.fenceUo id 3).flushUo id).leaveTurns id.core a.key
      match s.saveParts id a (frameHead s id { a with ppriv := a.priv } 2 0 0 (s.pins a)) with
      | .wait s => .next s.rotate
      | .poison p v => .next (s.frameFatal id a 1 p v)
      | .bad c v => .next (s.frameFatal id a c 0 v)
      | .ok _ s =>
        let a := (s.agent id).getD a
        .next (s.setAgent id (a.enterSave 0 (s.saveVector a))).rotate

/-! ## Return (R226, R416, R418) -/

/-- The position after the word at `cr.tpc` and `cr.tclause` (R226): the high code of a pair word
after its low one, and past a prefix its word as well. It waits for the words that tell; where they cannot be fetched,
it is the next word, and its own fetch parks or traps there. -/
def State.nextPos (s : State) (id : AgentId) (a : Agent) : State × Except Got (Nat × Bool) :=
  let wix := a.tclause.toNat % 16
  let h := a.tclause.getLsbD 4
  match s.fetchWords id (2 * fetchNo) a.tpc.toNat (wix + 2) with
  | (s, .ok ws) =>
    let pair := match decodeHeader (ws.getD 0 0) with
      | some x => x.pair.getLsbD wix
      | none => false
    if pair then (s, .ok (if h then (wix + 1, false) else (wix, true)))
    else (s, .ok (if fld (ws.getD (wix + 1) 0) 23 7 = 0x7F then wix + 2 else wix + 1, false))
  | (s, .error (.trap _ _)) => (s, .ok (wix + 1, false))
  | (s, .error (.fault _ _ _)) => (s, .ok (wix + 1, false))
  | (s, .error g) => (s, .error g)

/-- RETURN FROM A TRAP (R418): privilege restored, the handler left, and the current path at the
position given. -/
def Agent.leaveHandler (a : Agent) (wix : Nat) (h : Bool) : Agent :=
  { a.setPath { a.path with pc := a.tpc, wix := wix, h := h } with
    priv := a.ppriv, inHandler := false, clause := none, fetchChk := .plain, pfx := none, pairw := none, gate := 0 }

/-- The end of a save routine (R416): the slot is free, the frame stays, and a RESUME record is
queued. The reservation is lost here (R201; log entry 82). -/
def State.saveDone (s : State) (id : AgentId) (a : Agent) : State :=
  let pin := s.pins a
  let s : State := (s.fenceUo id 3).flushUo id
  match (s.hwRead (frameReq id a) (a.frame.toNat + 40) 8).bind fun x s => s.saveParts id a [(40, 8, x % 2 ^ 48 + pin.toNat * 2 ^ 48)] with
  | .wait s => s.rotate
  | .poison p v => s.frameFatal id a 1 p v
  | .bad c v => s.frameFatal id a c 0 v
  | .ok _ s =>
    let r : Record := { kind := .resume a.lead none, ctx := a.ctx, tcb := a.tcb, frame := a.frame, own := a.own, code := a.tpc
                        pin := pin, home := id.core, part := a.part }
    let s : State := { s.dropAgent id with resvs := s.resvs.filter fun v => v.id != id }
    (s.enqueue (id.core / 32) r).wake

/-- The return from a restore routine: the path table and the wait of a BARS as the frame holds
them (R416). -/
def State.reinstate (s : State) (id : AgentId) (a : Agent) : Hw Agent :=
  if (s.ctx a.ctx).frameOk a.frame then
    (s.hwReads (frameReq id a) a.frame.toNat headParts).bind fun p s =>
      let b := ((s.agent id).getD a).loadHead p
      .ok { (s.agent id).getD a with paths := b.paths, cur := b.cur, bwait := b.bwait } s
  else .bad 5 a.frame.toNat

/-- What an access to a frame makes of the word that asks for it, which consumes its poison (R421). -/
def Hw.res (x : Hw α) (k : α → State → Res) (s : State) : Res :=
  match x with
  | .ok x s => k x s
  | .wait s => .hold s
  | .poison pa va => .poison s pa va
  | .bad c va => .fatal s c 0 (BitVec.ofNat 64 va)

/-- The rest of an ERET: the position, with the word skipped for SW_TRAP and BKPT. -/
def returnFrom (s : State) (id : AgentId) (a : Agent) : Res :=
  let code := a.tcause.toNat % 256
  if code = trSwTrap ∨ code = trBkpt then
    match s.nextPos id a with
    | (s, .error g) => g.res s false 3
    | (s, .ok p) => .moved (s.setAgent id (((s.agent id).getD a).leaveHandler p.1 p.2))
  else .moved (s.setAgent id (a.leaveHandler (a.tclause.toNat % 16) (a.tclause.getLsbD 4)))

/-- What SYS asks of every word of its own (R70, R418): privilege. -/
def sysBody (f : State → AgentId → Agent → Res) (s : State) (id : AgentId) (a : Agent) (_ : Pfx) : Res :=
  if a.priv then f s id a else .trap s trIllegalInstr 0

def sysRules : Rules := { form := .u, u := true }

/-- SYS.ERET (R416, R418). -/
def execSysEret (sb : Bool) (s : State) : Host.Outcome State Fault Refusal :=
  issue (.sysEret sb) sb sysRules
    (sysBody fun s id a =>
      if !a.inHandler then .trap s trIllegalInstr 0
      else if a.tcause.toNat % 256 = trPreempt then
        if !a.tinfo.getLsbD 0 then
          (if s.drains a || !a.settled || !a.sigs.isEmpty then .wait else .left (s.saveDone id a))
        else (s.reinstate id a).res (fun b s => returnFrom s id b) s
      else returnFrom s id a) s

end Sys2Proof.Machine
end

