-- ==== Sys2Proof/Machine/Record.lean ====
section
/-! DEFINITION. Task-on-core registers and continuation records as programs use them: CR (R390,
R391), SPAWN, JOINC and CDEC (R403 to R405). -/

namespace Sys2Proof.Machine

/-! ## Task-on-core registers -/

/-- The task-on-core register of a number (R70, R390). -/
def Placed.reg (p : Placed) (r : Nat) : Word64 :=
  match r with
  | 0 => p.fstat.setWidth 64
  | 1 => p.lscale.setWidth 64
  | 2 => p.lgrow
  | 3 => p.step
  | 4 => p.seed
  | 5 => p.coreix
  | _ => p.ngrp

/-- The task with a register written, its reserved fields ignored (R390). -/
def Placed.setReg (p : Placed) (r : Nat) (x : Word64) : Placed :=
  match r with
  | 0 => { p with fstat := x.setWidth 9 }
  | 1 => { p with lscale := x.setWidth 32 }
  | 2 => { p with lgrow := x }
  | 3 => { p with step := x }
  | _ => { p with seed := x }

/-- Whether a tag is that of a word before the one that an agent is at. -/
def Agent.earlier (a : Agent) (tag : Nat) : Bool :=
  match a.now with
  | some n => decide (tag < n.1.tag)
  | none => true

/-- Whether a word or a tile write of an agent has yet to raise its flags: what reads or writes `cr.fstat` follows it
(R127). Engine commands count as they complete (log entry 101). -/
def State.flagsDue (s : State) (id : AgentId) (a : Agent) (r : BitVec 3) : Bool :=
  r == 0 && ((a.late.any fun l => a.earlier l.tag) || (s.core id.core).jobs.any fun j => j.frame == a.key)

/-- The flags that an agent's own words in flight will raise as their replies return. -/
def Agent.flagsOut (a : Agent) : BitVec 9 := (a.outst.map Outst.flags).foldl (· ||| ·) 0

/-- The agent whose earlier words in flight raise no flags any longer: a write of `cr.fstat` has replaced them. -/
def Agent.noFlags (a : Agent) : Agent :=
  { a with outst := a.outst.map fun o => if a.earlier o.tag then { o with flags := 0 } else o }

/-- CR, the read (R391). A read of `cr.fstat` has the flags of everything that its agent has issued (R127). -/
def execCr (sb : Bool) (d : Opd) (r : BitVec 3) (s : State) : Host.Outcome State Fault Refusal :=
  issue (.cr sb d r) sb { form := .u, u := true, dst := some d, legal := decide (r.toNat ≤ 6), regs := true }
    (fun s id a _ => match s.placedOf id a with
      | none => .done s
      | some p =>
        if s.flagsDue id a r then .wait
        else match writeU s id d (if r = 0 then ((p.fstat ||| a.flagsOut).setWidth 64) else p.reg r.toNat) with
        | none => .wait
        | some s => .done s) s

/-- CR.w (R391): the lead alone writes. A write of `cr.fstat` replaces the flags of all that the lead has issued
(R127). -/
def execCrW (sb : Bool) (a : Opd) (r : BitVec 3) (s : State) : Host.Outcome State Fault Refusal :=
  issue (.crW sb a r) sb { form := .l, u := true, src := [a], legal := decide (r.toNat ≤ 4), regs := true, late := true, fixed := true }
    (fun s id ag _ =>
      if s.flagsDue id ag r then .wait
      else match readU s id a with
      | none => .wait
      | some (x, s1) => match s1.placedOf id ag with
        | none => .done s1
        | some p =>
          let s2 : State := if r = 0 then (match s1.agent id with
              | some b => s1.setAgent id b.noFlags
              | none => s1) else s1
          .done (s2.setPlaced id.core ag.lctx (p.setReg r.toNat x))) s

/-! ## Records (R403 to R405) -/

/-- A code address that a record may hold (R405). -/
def codeOk (x : Word64) : Bool := x.toNat % 4 == 0 && x.toNat / 2 ^ 60 == 0

/-- `PLACE` of the task of an agent. -/
def State.static (s : State) (tcb : Nat) : Bool :=
  match mapFind tcb s.tasks with
  | some t => t.image.getLsbD 825
  | none => false

/-- SPAWN (R405): a record of the task at the end of the cluster's queue, held while that is
full. -/
def execSpawn (sb : Bool) (a b : BitVec 5) (s : State) : Host.Outcome State Fault Refusal :=
  issue (.spawn sb a b) sb { form := .u, u := true }
    (fun s id ag _ =>
      let code := ag.getX a.toNat
      if !codeOk code then .trap s trIllegalInstr 0
      else if !(s.cluster (id.core / 32)).room then .wait
      else
        let r : Record := { kind := .spawn, ctx := ag.ctx, tcb := ag.tcb, frame := ag.getX b.toNat
                            code := code, pin := s.static ag.tcb, home := id.core, part := none }
        let s : State := match mapFind ag.tcb s.tasks with
          | some t => { s with tasks := mapPut ag.tcb { t with live := t.live + 1 } s.tasks }
          | none => s
        .done (s.enqueue (id.core / 32) r)) s

/-- The 32 bytes of an armed record (R403). -/
def joinImage (s : State) (id : AgentId) (a : Agent) (code frame : Word64) (n : Nat) : Nat :=
  n + 0x10 * 2 ^ 32 + id.core * 2 ^ 40 + (s.static a.tcb).toNat * 2 ^ 49 + code.toNat * 2 ^ 64
    + frame.toNat * 2 ^ 128 + s.vaOf a.tcb * 2 ^ 192

/-- JOINC (R405): the armed record in one write, and one armed record more for the task
(R404). -/
def execJoinc (sb : Bool) (d a b : BitVec 5) (s : State) : Host.Outcome State Fault Refusal :=
  issue (.joinc sb d a b) sb
    { form := .u, u := true, okC := true, legal := s.pfxC.isReg }
    (fun s id ag p =>
      let at_ := ag.getX d.toNat
      let code := ag.getX a.toNat
      let n := if ag.pfx.isSome then (ag.getX p.c.code).toNat else 0
      if !codeOk code ∨ 2 ^ 32 ≤ n ∨ n = 0 then .trap s trIllegalInstr 0
      else if at_.toNat % 32 ≠ 0 then .trap s trMisaligned 1
      else
        oneAccess s id at_ 32 { plain := true } (.store (joinImage s id ag code (ag.getX b.toNat) n)) fun s _ =>
          .done (match mapFind ag.tcb s.tasks with
            | some t => { s with tasks := mapPut ag.tcb { t with armed := t.armed + 1 } s.tasks }
            | none => s)) s

/-- CDEC (R405): the count falls by one indivisible access, which may launch a task or fire a
record. Without a destination it is posted (R311). -/
def execCdec (sb : Bool) (d a : BitVec 5) (s : State) : Host.Outcome State Fault Refusal :=
  issue (.cdec sb d a) sb { form := .u, u := true }
    (fun s id ag _ =>
      let at_ := ag.getX a.toNat
      if at_.toNat % 32 ≠ 0 then .trap s trMisaligned 1
      else
        oneAccess s id at_ 32 barMode (.obj .cdec) fun s o =>
          if d = 0 then
            .done (match s.placedOf id ag with
              | some p => { s.setPlaced id.core ag.lctx { p with outst := p.outst + 1 } with
                            agenda := s.agenda ++ [.storeAck id ag.lctx ag.tcb 0 1 true] }
              | none => s)
          else doneU s id (fun s => s) (.reg d) (BitVec.ofNat 64 (bitsOf o 31 0))) s

end Sys2Proof.Machine
end

