-- ==== Sys2Proof/Machine/System.lean ====
section
/-! DEFINITION. The SYS instructions (R185, R412, R418 to R420). -/

namespace Sys2Proof.Machine

/-! ## Supervisor registers (R412) -/

/-- `cr.id` of an agent. -/
def idWord (s : State) (id : AgentId) (a : Agent) : Word64 :=
  BitVec.ofNat 64 (s.modid + id.core * 2 ^ 32 + id.idx % 64 * 2 ^ 48 + a.lead.toNat * 2 ^ 54 + a.ctx * 2 ^ 56)

/-- The supervisor register of a number (R70). -/
def Agent.sysReg (a : Agent) (s : State) (id : AgentId) (r : Nat) : Word64 :=
  match r with
  | 0 => a.tcause
  | 1 => a.tpc
  | 2 => a.tclause
  | 3 => a.tmask
  | 4 => a.tinfo
  | 5 => a.frame
  | 6 => a.tsave0
  | 7 => a.tsave1
  | 8 => BitVec.ofNat 64 (a.priv.toNat + 2 * a.ppriv.toNat)
  | 9 => a.feat
  | _ => idWord s id a

/-- The agent with a supervisor register written: reserved fields are ignored, and `PRIV` is
kept. -/
def Agent.setSysReg (a : Agent) (r : Nat) (x : Word64) : Agent :=
  match r with
  | 0 => { a with tcause := x &&& 0xFF }
  | 1 => { a with tpc := x }
  | 2 => { a with tclause := x &&& 0x1F }
  | 3 => { a with tmask := x &&& 0xFFFFFFFF }
  | 4 => { a with tinfo := x }
  | 5 => { a with frame := x }
  | 6 => { a with tsave0 := x }
  | 7 => { a with tsave1 := x }
  | _ => { a with ppriv := x.getLsbD 1 }

/-- SYS.CSRR (R418). -/
def execSysCsrr (sb : Bool) (d : BitVec 5) (r : BitVec 4) (s : State) : Host.Outcome State Fault Refusal :=
  issue (.sysCsrr sb d r) sb sysRules
    (sysBody fun s id a => .done (s.setAgent id (a.setX d.toNat (a.sysReg s id r.toNat)))) s

/-- SYS.CSRW (R418). -/
def execSysCsrw (sb : Bool) (a : BitVec 5) (r : BitVec 4) (s : State) : Host.Outcome State Fault Refusal :=
  issue (.sysCsrw sb a r) sb sysRules
    (sysBody fun s id ag => .done (s.setAgent id (ag.setSysReg r.toNat (ag.getX a.toNat)))) s

/-! ## Invalidation (R185) -/

/-- The 64 KiB granules from `lo` up to `hi` that a start and a length name. -/
def invRange (a b : Word64) : Nat × Nat :=
  if b = 0 then (0, 2 ^ 44)
  else (a.toNat / 65536, min (2 ^ 44) ((a.toNat / 65536 * 65536 + b.toNat + 65535) / 65536))

/-- Whether a TLB entry of a context overlaps granules. -/
def TlbEntry.overlaps (e : TlbEntry) (ctx : Nat) (g : Nat × Nat) : Bool :=
  match e with
  | .leaf c v b _ =>
    let n := 2 ^ leafSpan b.toNat
    c == ctx && decide (g.1 < v / n * n + n ∧ v / n * n < g.2)
  | .fwd c v _ => c == ctx && decide (g.1 ≤ v ∧ v < g.2)

/-- The entries of a context that overlap granules removed from the TLB of every core, and the
reservations on them lost (R201). -/
def State.invalidate (s : State) (ctx : Nat) (g : Nat × Nat) : State :=
  { s with
    resvs := s.resvs.filter fun v => !(v.ctx == ctx && decide (g.1 ≤ v.vpn ∧ v.vpn < g.2))
    cores := s.cores.map fun p => (p.1, { p.2 with tlb := p.2.tlb.filter fun e => !e.overlaps ctx g }) }

/-- The extents of a context that overlap granules marked STALE; what a dispatch has prepared is
prepared again. -/
def State.markStale (s : State) (ctx : Nat) (g : Nat × Nat) : State :=
  let hit := fun (x : Extent) => decide (g.1 < x.vbase + x.npg ∧ x.vbase < g.2)
  let mark := fun (p : Placed) =>
    if p.ctx = ctx then { p with exts := p.exts.map fun x => if hit x then { x with stale := true } else x } else p
  let again := fun (t : Task) => if t.ctx = ctx ∧ t.st = .dispatching ∧ t.cores = [] then { t with prep := none } else t
  { s with
    cores := s.cores.map fun p => (p.1, { p.2 with placed := p.2.placed.map fun q => (q.1, mark q.2) })
    tasks := s.tasks.map fun t => (t.1, again t.2) }

/-- Whether an access of a context that has been sent before a tag was given out is still unanswered. -/
def State.inFlight (s : State) (ctx tag : Nat) : Bool :=
  let rem := fun (r : Rem) => r.ans.isNone && decide (r.tag < tag)
  let urem := fun (r : UnitRem) => r.ans.isNone && decide (r.tag < tag)
  let agent := fun (a : Agent) => a.ctx == ctx && (a.rem.any rem || a.late.any (fun l => l.rem.any rem)
    || a.outst.any fun o => o.sent != 0 && o.left != 0 && decide (o.tag < tag))
  (s.cores.any fun c => c.2.groups.any (fun g => agent g.2) || c.2.leads.any (fun g => agent g.2)
      || c.2.jobs.any (fun j => j.ctx == ctx && j.rem.any urem)
      || c.2.queues.any fun q => q.2.any fun e => e.ctx == ctx && e.rem.any urem)
    || (s.tasks.any fun t => t.2.ctx == ctx && t.2.want.any fun w => urem w.2)
    || s.snapEnds.any fun e => e.ctx == ctx && e.rem.any urem

/-- The writes of a context to UO pages performed. -/
def State.landCtx (s : State) (ctx : Nat) : State :=
  s.land fun w => match mapFind w.tcb s.tasks with
    | some t => t.ctx == ctx
    | none => false

/-- The number under which an invalidation keeps the tag that tells the accesses before it. -/
def invKey : Nat := 2 ^ 40

/-- The body of TLBINV and XTINV: the translations are removed as it first issues, and it holds the issue until
every access that may have used one is performed (R185). -/
def invBody (x : Bool) (a b : BitVec 5) : State → AgentId → Agent → Pfx → Res :=
  sysBody fun s id ag =>
    let va := ag.getX a.toNat
    if va.toNat / 2 ^ 60 ≠ 0 then .trap s trIllegalInstr 0
    else match mapFind invKey ag.got with
      | some t => if s.inFlight ag.ctx t then .hold s else .done (s.landCtx ag.ctx)
      | none =>
        let g := invRange va (ag.getX b.toNat)
        let s : State := s.invalidate ag.ctx g
        let s : State := if x then (s.markStale ag.ctx g).wake else s
        if s.inFlight ag.ctx s.ntag then
          .hold { s.setAgent id { ag with got := mapPut invKey s.ntag ag.got } with ntag := s.ntag + 1 }
        else .done (s.landCtx ag.ctx)

/-- SYS.TLBINV (R185). -/
def execSysTlbinv (sb : Bool) (a b : BitVec 5) (s : State) : Host.Outcome State Fault Refusal :=
  issue (.sysTlbinv sb a b) sb sysRules (invBody false a b) s

/-- SYS.XTINV (R185). -/
def execSysXtinv (sb : Bool) (a b : BitVec 5) (s : State) : Host.Outcome State Fault Refusal :=
  issue (.sysXtinv sb a b) sb sysRules (invBody true a b) s

/-! ## FRAME (R419) -/

/-- The task channels of a lead as a record for software. -/
def frameTaskChans (p : Placed) : List (Nat × Nat × Nat) :=
  (List.range 8).flatMap fun c =>
    let o := 0x1400 + 0x840 * c
    match mapFind (c + 8) p.chans with
    | none => [(o, 4, 0), (o + 4, 4, 0)]
    | some ch => [(o, 4, ch.elems.length), (o + 4, 4, ch.depth)] ++
        ch.elems.zipIdx.map fun e => (o + 0x40 + 8 * e.2, 8, e.1.toNat)

/-- The parts of the frame that a save of a control value writes. -/
def savedParts (s : State) (id : AgentId) (a : Agent) (ctl : Nat) : List (Nat × Nat × Nat) :=
  let bit := fun (i : Nat) (l : List (Nat × Nat × Nat)) => if ctl.testBit i then l else []
  bit 8 (frameUniform a) ++ bit 9 (frameAlpha a) ++ bit 10 (frameMasks a) ++ bit 11 (frameVectors a)
    ++ bit 12 (if a.lead then (match s.placedOf id a with
        | some p => frameTaskChans p
        | none => []) else frameChans a)
    ++ bit 13 (frameLinks a)

/-- What one part of a frame does to the agent, where the control value names it. -/
def loadPart (s : State) (id : AgentId) (a : Agent) (on : Bool) (ps : List (Nat × Nat))
    (f : Agent → List Nat → Agent) : Hw (Agent → Agent) :=
  if on then (s.hwReads (frameReq id a) a.frame.toNat ps).bind fun xs s => .ok (fun b => f b xs) s else .ok (fun b => b) s

/-- What the parts of the frame that a restore of a control value reads do to the agent. -/
def loadParts (s : State) (id : AgentId) (a : Agent) (ctl : Nat) : Hw (Agent → Agent) :=
  if !(s.ctx a.ctx).frameOk a.frame then .bad 5 a.frame.toNat
  else
    (loadPart s id a (ctl.testBit 8) uniformParts Agent.loadUniform).bind fun u s =>
    (loadPart s id a (ctl.testBit 9) alphaParts Agent.loadAlpha).bind fun l s =>
    (loadPart s id a (ctl.testBit 10) maskParts Agent.loadMasks).bind fun m s =>
    (loadPart s id a (ctl.testBit 11) vectorParts Agent.loadVectors).bind fun v s =>
    (loadPart s id a (ctl.testBit 13) linkParts Agent.loadLinks).bind fun k s =>
    let f := fun b => k (v (m (l (u b))))
    if ctl.testBit 12 && !a.lead then
      (loadChans (frameReq id a) a.frame.toNat 8 0 s []).bind fun c s => .ok (fun b => { f b with chans := c }) s
    else .ok f s

/-! ### The CORE part -/

/-- The tiles of a task on a core. -/
def Core.tilesOf (k : Core) (ctx l : Nat) : List (Nat × BitVec 512) :=
  k.tiles.filter fun p => Entry.own p.2 && Entry.ctx p.2 == ctx && Entry.lc p.2 == l

/-- The accumulators that the tiles name. -/
def accsOf (ts : List (Nat × BitVec 512)) : List Nat :=
  (ts.filter fun p => Entry.kind p.2 == kACC).map fun p => Entry.base p.2

/-- The iterator slots of a core that are bound to the saved groups of a task, those that are parked among them. -/
def State.savedSlots (s : State) (c : Nat) (a : Agent) : List (Nat × ItSlot) :=
  let parked := s.faults.flatMap fun f => f.waiters.filterMap fun w => match w with
    | .group r => some r
    | _ => none
  let keys := (((s.cluster (c / 32)).queue ++ parked).filter fun r => r.tcb == a.tcb && r.home == c).map
    fun r => r.own + BitVec.ofNat 64 (r.ctx * 2 ^ 60)
  (s.core c).slots.filter fun p => keys.contains p.2.frame

/-- `n` words of 8 bytes of a number, as parts from offset `o`. -/
def wordParts (o n x : Nat) : List (Nat × Nat × Nat) :=
  (List.range n).map fun i => (o + 8 * i, 8, x / 2 ^ (64 * i) % 2 ^ 64)

/-- Whether the accumulator of a number is named by a tile of another task (R317). -/
def Core.othersAcc (k : Core) (a : Agent) (n : Nat) : Bool :=
  k.tiles.any fun p => Entry.own p.2 && Entry.kind p.2 == kACC && Entry.base p.2 == n &&
    !(Entry.ctx p.2 == a.ctx && Entry.lc p.2 == a.lctx)

/-- The CORE area as a save writes it (R419): the variance records are those of all accumulators that no other task
names (R7). -/
def coreParts (s : State) (id : AgentId) (a : Agent) : List (Nat × Nat × Nat) :=
  let c := id.core
  let ts := (s.core c).tilesOf a.ctx a.lctx
  let accs := accsOf ts
  ((List.range 64).flatMap fun t => wordParts (64 * t) 8 (if ts.any fun p => p.1 == t then (s.tile c t).toNat else 0))
    ++ ((List.range 32).flatMap fun n => wordParts (0x1000 + 32 * n) 4 (if (s.core c).othersAcc a n then 0 else (s.varOf c n).toNat))
    ++ ((s.savedSlots c a).flatMap fun p => wordParts (0x2000 + 0x400 * p.1) 128 p.2.image)
    ++ (accs.flatMap fun n => (List.range 1024).map fun i =>
        (0x12000 + 0x1000 * n + 4 * i, 4, (mapGet 0 (s.core c).acc (n * 0x400 + i)).toNat))

/-- Whether rows or writes are still under way on the tiles of a task. -/
def Core.tilesBusy (k : Core) (ts : List (Nat × BitVec 512)) : Bool :=
  let mine := fun (t : Nat) => ts.any fun p => p.1 == t
  k.fills.any (fun f => mine f.tile) || k.jobs.any (fun j => mine j.tile)

/-- The tiles, slots and accumulators of a task free for other tasks. The records of the accumulators stay (R344). -/
def State.releaseCore (s : State) (id : AgentId) (a : Agent) : State :=
  let c := id.core
  let k := s.core c
  let ts := k.tilesOf a.ctx a.lctx
  let turns := k.turns.filter fun p => ts.any fun t => t.1 == p.1
  let slots := s.savedSlots c a
  let gone := slots.map Prod.fst
  let k' : Core := k.freeTiles fun e => e.ctx == a.ctx && e.lc == a.lctx
  let s := s.setCore c { k' with vars := k.vars, slots := k'.slots.filter fun p => !gone.contains p.1 }
  match mapFind a.lctx (s.core c).placed with
  | some p => s.setPlaced c a.lctx { p with savedTurns := turns, savedSlots := slots.map fun x => (x.1, x.2.frame) }
  | none => s

/-- The fields of an object that are not reserved (R360). -/
def objFields : BitVec 512 := BitVec.allOnes 512 - 0xFFFFF000

/-- An iterator slot of a group as its image in a CORE area holds it, without the reserved fields of its objects; a slot
that is FREE there is none. -/
def slotOf (x : Nat) (key : Word64) : Option ItSlot :=
  let h : BitVec 512 := BitVec.ofNat 512 x
  let n := getF h 4 4
  if getF h 0 3 = 0 then none
  else some
    { st := getF h 0 3, linked := h.getLsbD 3, rdy := h.getLsbD 14, pulls := BitVec.ofNat 32 (getF h 32 32)
      ctx := getF h 96 4, otag := BitVec.ofNat 32 (getF h 64 32), feed := BitVec.ofNat 64 (getF h 128 64)
      objs := (List.range n).map fun i => BitVec.ofNat 512 (x / 2 ^ (512 * (i + 1))) &&& objFields
      bcnt := getF h 8 6, buf := bufOf fun i => x / 2 ^ (8 * (0x240 + 8 * i)), frame := key }

/-- Areas of 8-byte words that the agent reads, by address and number of words: their values, or what stops it. -/
def State.readAreas (s : State) (id : AgentId) (i : Nat) (l : List (Nat × Nat)) : State × Except Got (List Nat) :=
  match s.reads id { plain := true } i (l.flatMap fun p => (List.range p.2).map fun j => (BitVec.ofNat 64 (p.1 + 8 * j), 8)) with
  | (s, .ok xs) => (s, .ok (joined (l.map Prod.snd) xs))
  | (s, .error g) => (s, .error g)
where
  /-- The numbers that runs of words make. -/
  joined : List Nat → List Nat → List Nat
    | [], _ => []
    | n :: t, xs => joinWords 8 (xs.take n) :: joined t (xs.drop n)

/-- Stores that the agent makes one after another, numbered from `k`; what has been stored is not stored again. -/
def State.storeParts (s : State) (id : AgentId) (k : Nat) : List (Nat × Nat × Nat) → State × Option Got
  | [] => (s, none)
  | (va, n, x) :: t =>
    match s.agent id with
    | none => (s, none)
    | some a =>
      if k < mapGet 0 a.got 0 then s.storeParts id (k + 1) t
      else match s.access id a k (BitVec.ofNat 64 va) n { plain := true } (.store x) with
        | (s, .val _ _) =>
          (match s.agent id with
            | some b => s.setAgent id { b with got := mapPut 0 (k + 1) b.got }
            | none => s).storeParts id (k + 1) t
        | (s, g) => (s, some g)

/-- The tiles, accumulators, records and slots of a CORE restore as they were, each slot with its group (R359, R419). -/
def State.reinstateCore (s : State) (id : AgentId) (a : Agent) (tiles : List (Nat × BitVec 512)) (accs : List Nat)
    (slots : List (Nat × ItSlot)) (vs zs : List Nat) : State :=
  let c := id.core
  let s := tiles.foldl (fun s p => s.setTile c p.1 (p.2 &&& Entry.fields)) s
  let s := accs.foldl (fun s n => s.setVar c n (BitVec.ofNat 256 (vs.getD n 0))) s
  let k := s.core c
  let acc := (accs.zip zs).foldl (fun m p =>
    (List.range 1024).foldl (fun m i => mapSet 0 m (p.1 * 0x400 + i) (BitVec.ofNat 32 (p.2 / 2 ^ (32 * i)))) m) k.acc
  let slots := slots.foldl (fun m p => mapPut p.1 p.2 m) k.slots
  let s := s.setCore c { k with acc := acc, slots := slots }
  match mapFind a.lctx (s.core c).placed with
  | none => s
  | some p =>
    let s := p.savedTurns.foldl (fun s t => s.setTurns c t.1 t.2) s
    s.setPlaced c a.lctx { p with savedTurns := [], savedSlots := [] }

/-- A CORE restore (R419): it reads the area at `b`, and waits until the same tiles, accumulators and slots are free. -/
def restoreCore (s : State) (id : AgentId) (a : Agent) (b : Nat) : Res :=
  let area := ((List.range 64).map fun t => (b + 64 * t, 8)) ++ ((List.range 32).map fun n => (b + 0x1000 + 32 * n, 4))
    ++ (List.range 64).map fun n => (b + 0x2000 + 0x400 * n, 104)
  match s.readAreas id 0 area with
  | (s, .error g) => g.res s false 0
  | (s, .ok xs) =>
    let tiles := ((xs.take 64).zipIdx.map fun p => (p.2, BitVec.ofNat 512 p.1)).filter fun p => Entry.own p.2
    let accs := accsOf tiles
    match s.readAreas id 10000 (accs.map fun n => (b + 0x12000 + 0x1000 * n, 512)) with
    | (s, .error g) => g.res s false 0
    | (s, .ok zs) =>
      let k := s.core id.core
      let keys : SMap Word64 := match mapFind a.lctx k.placed with
        | some p => p.savedSlots
        | none => []
      let slots := ((xs.drop 96).zipIdx.map fun p => (p.2, slotOf p.1 (mapGet 0 keys p.2))).filterMap
        fun p => p.2.map fun x => (p.1, x)
      let taken := (tiles.any fun p => Entry.own (s.tile id.core p.1))
        || (k.tiles.any fun p => Entry.own p.2 && Entry.kind p.2 == kACC && accs.contains (Entry.base p.2))
        || slots.any fun p => (mapFind p.1 k.slots).isSome
      if taken then .hold s else .done (s.reinstateCore id a tiles accs slots ((xs.drop 64).take 32) zs)

/-- The CORE part of a FRAME: plain accesses of the agent, whose faults are those of a handler (R415, R419). -/
def corePart (s : State) (id : AgentId) (a : Agent) (restore : Bool) (b : Nat) : Res :=
  if b % 4096 ≠ 0 then .trap s trMisaligned 1
  else if restore then restoreCore s id a b
  else if (s.core id.core).tilesBusy ((s.core id.core).tilesOf a.ctx a.lctx) then .hold s
  else match s.storeParts id 0 ((joinParts (coreParts s id a)).map fun p => (b + p.1, p.2)) with
    | (s, none) => .done (s.releaseCore id a)
    | (s, some g) => g.res s false 1

/-- Whether a control value breaks R419. -/
def frameCtlBad (lead : Bool) (ctl : Nat) : Bool :=
  ctl / 2 ^ 15 != 0 || ctl / 2 % 2 ^ 7 != 0 ||
    (if lead then ctl.testBit 9 || ctl.testBit 10 || ctl.testBit 11 else ctl.testBit 14)

/-- SYS.FRAME (R419). -/
def execSysFrame (sb : Bool) (a b : BitVec 5) (s : State) : Host.Outcome State Fault Refusal :=
  issue (.sysFrame sb a b) sb sysRules
    (sysBody fun s id ag =>
      let ctl := (ag.getX a.toNat).toNat
      if !(ag.inHandler && ag.tcause.toNat % 256 == trPreempt) then .trap s trIllegalInstr 0
      else if frameCtlBad ag.lead ctl ∨ (!ag.lead ∧ b ≠ 0) then .trap s trIllegalInstr 0
      else
        let core := fun (s : State) =>
          if ctl.testBit 14 then corePart s id ag (ctl % 2 == 1) (ag.getX b.toNat).toNat else .done s
        if ctl % 2 = 1 then
          (loadParts s id ag ctl).res (fun f s => match core s with
            | .done s => match s.agent id with
              | some b => .done ((s.setAgent id (f b)).bindSlots id (f b))
              | none => .done s
            | r => r) s
        else (s.saveParts id ag (savedParts s id ag ctl)).res (fun _ s => core s) s) s

/-! ## HALTG (R420) -/

/-- The agent that a target value names; `none` for a value that breaks R420. -/
def haltTarget (self : AgentId) (x : Nat) : Option AgentId :=
  if x = 2 ^ 64 - 1 then some self
  else if x / 2 ^ 25 ≠ 0 ∨ x / 2 ^ 22 % 4 ≠ 0 ∨ x / 2 ^ 9 % 2 ^ 7 ≠ 0 then none
  else
    let n := x / 2 ^ 16 % 64
    some { core := x % 512, idx := if x / 2 ^ 24 % 2 = 1 then 64 + n else n }

/-- SYS.HALTG (R420). -/
def execSysHaltg (sb : Bool) (d a : BitVec 5) (s : State) : Host.Outcome State Fault Refusal :=
  issue (.sysHaltg sb d a) sb sysRules
    (sysBody fun s id ag =>
      match haltTarget id (ag.getX a.toNat).toNat with
      | none => .trap s trIllegalInstr 0
      | some t =>
        if t = id then .left (s.halt id ag 2 0 0)
        else match s.agent t with
          | some b =>
            if b.ctx = ag.ctx then .done ((s.setAgent id (ag.setX d.toNat 1)).halt t b 2 0 0)
            else .done (s.setAgent id (ag.setX d.toNat 0))
          | none => .done (s.setAgent id (ag.setX d.toNat 0))) s

/-! ## DICTLD (R54, R420) -/

/-- A word that no dictionary may hold (R54): a prefix, a control transfer, or SYS. -/
def dictForbids (w : Nat) : Bool := fld w 23 7 == 0x7F || isTransfer w || fld w 23 7 == 0x7D

/-- The dictionary of a lead context loaded (R55). -/
def Core.loadDict (k : Core) (l : Nat) (ws : List Nat) : Core :=
  { k with dict := ws.zipIdx.foldl (fun m w => mapSet 0 m (l * 0x400 + w.2) (BitVec.ofNat 32 w.1)) k.dict
           placed := match mapFind l k.placed with
            | some p => mapPut l { p with dictN := ws.length } k.placed
            | none => k.placed }

/-- SYS.DICTLD (R420). -/
def execSysDictld (sb : Bool) (a : BitVec 5) (s : State) : Host.Outcome State Fault Refusal :=
  issue (.sysDictld sb a) sb sysRules
    (sysBody fun s id ag =>
      let va := ag.getX a.toNat
      let md : Mode := { plain := true }
      if va.toNat % 4 ≠ 0 then .trap s trMisaligned 1
      else match s.reads id md 0 [(va, 4)] with
        | (s, .error g) => g.res s false 0
        | (s, .ok ns) =>
          let n := ns.getD 0 0
          if 1024 < n then .trap s trIllegalInstr 0
          else match s.reads id md 1 ((List.range n).map fun i => (va + BitVec.ofNat 64 (4 + 4 * i), 4)) with
            | (s, .error g) => g.res s false 0
            | (s, .ok ws) =>
              if ws.any dictForbids then .trap s trIllegalInstr 0
              else .done (s.setCore id.core ((s.core id.core).loadDict ag.lctx ws))) s

end Sys2Proof.Machine
end

