-- ==== Sys2Proof/Machine/Region.lean ====
section
/-! DEFINITION. Regions (R396 to R399, R401): caps, the order of work, the chain of a task, and the
folding of issue slots; and the room that a core has for tasks and groups (R472, R473). -/

namespace Sys2Proof.Machine

/-! ## Effective values (R397) -/

def State.prioOf (s : State) (chain : List (Nat × Nat)) : Nat := s.rcbF (s.rcbEff 0 chain).2 64 3
def State.weightOf (s : State) (chain : List (Nat × Nat)) : Nat := s.rcbF (s.rcbEff 1 chain).2 72 8
def State.coreCap (s : State) (chain : List (Nat × Nat)) : Nat := s.rcbF (s.rcbEff 2 chain).2 128 10
def State.groupCap (s : State) (chain : List (Nat × Nat)) : Nat := s.rcbF (s.rcbEff 3 chain).2 160 16
def State.spadCap (s : State) (chain : List (Nat × Nat)) : Nat := s.rcbF (s.rcbEff 4 chain).2 192 19

/-- Every region of a chain with the chain from it to the root. -/
def tails : List (Nat × Nat) → List (List (Nat × Nat))
  | [] => []
  | r :: t => (r :: t) :: tails t

/-! ## Use and caps (R398) -/

/-- The chain of a task. -/
def State.chainOf (s : State) (tcb : Nat) : List (Nat × Nat) :=
  match mapFind tcb s.tasks with
  | some t => t.chain
  | none => []

/-- Whether a task lies below a region, given by the physical address of its RCB. -/
def State.below (s : State) (pa tcb : Nat) : Bool := (s.chainOf tcb).any fun r => r.2 == pa

/-- The scratchpad of a placed task in whole KiB. -/
def Placed.kib (p : Placed) : Nat := (p.spt + p.parts * p.spg + 1023) / 1024

/-- The cores on which some task of a region's subtree is placed. -/
def State.coresBelow (s : State) (pa : Nat) : List Nat :=
  (s.cores.filter fun c => c.2.placed.any fun p => s.below pa p.2.tcb).map Prod.fst

/-- The resident groups of a region's subtree. -/
def State.groupsBelow (s : State) (pa : Nat) : Nat :=
  (s.cores.map fun c => (c.2.groups.filter fun g => s.below pa g.2.tcb).length).foldl (· + ·) 0

/-- The scratchpad of a region's subtree in KiB. -/
def State.kibBelow (s : State) (pa : Nat) : Nat :=
  (s.cores.map fun c => ((c.2.placed.filter fun p => s.below pa p.2.tcb).map fun p => p.2.kib).foldl (· + ·) 0).foldl (· + ·) 0

/-- Whether a cap of 0, or one not exceeded, admits a use. -/
def capOk (cap use : Nat) : Bool := cap == 0 || decide (use ≤ cap)

/-- Whether one group more keeps within every cap of a chain. -/
def State.groupFits (s : State) (chain : List (Nat × Nat)) : Bool :=
  (tails chain).all fun l => match l with
    | r :: _ => capOk (s.groupCap l) (s.groupsBelow r.2 + 1)
    | [] => true

/-- What bounds a placement for one region of a chain: its core cap and the cores in use, its scratchpad
cap and the KiB in use. -/
structure CapUse where
  coreCap : Nat
  cores : List Nat
  spadCap : Nat
  kib : Nat
  deriving DecidableEq, Repr

/-- The bounds of every region of a chain. -/
def State.capUses (s : State) (chain : List (Nat × Nat)) : List CapUse :=
  (tails chain).filterMap fun l => l.head?.map fun r =>
    { coreCap := s.coreCap l, cores := s.coresBelow r.2, spadCap := s.spadCap l, kib := s.kibBelow r.2 }

/-- Whether a placement on a core with an allocation of so many KiB keeps within every cap. -/
def placeFits (us : List CapUse) (c kib : Nat) : Bool :=
  us.all fun u => capOk u.coreCap (if u.cores.contains c then u.cores.length else u.cores.length + 1)
    && capOk u.spadCap (u.kib + kib)

/-! ## The order of work (R401) -/

/-- What the place of a region's work in the tree is compared by, from the root down: `DEFICIT` of
each child, `ODEF` of the region's own tasks, ties to the child and to the lower address. -/
def State.workKey (s : State) (ctx : Nat) (chain : List (Nat × Nat)) : List Nat :=
  let down := match chain.reverse with
    | [] => [0, ctx, 0]
    | root :: t => [s.rcbF root.2 320 64, ctx, root.1] ++ t.flatMap fun r => [s.rcbF r.2 320 64, 0, r.1]
  let own := match chain with
    | [] => []
    | r :: _ => [s.rcbF r.2 448 64, 1, r.1]
  (7 - s.prioOf chain) :: down ++ own

/-- Lists of numbers compared entry by entry. -/
def keyLt : List Nat → List Nat → Bool
  | a :: s, b :: t => if a < b then true else if b < a then false else keyLt s t
  | [], _ :: _ => true
  | _, [] => false

/-- A piece of work put behind every piece that it does not come before. -/
def insertWork (x : List Nat × α) : List (List Nat × α) → List (List Nat × α)
  | [] => [x]
  | y :: t => if keyLt x.1 y.1 then x :: y :: t else y :: insertWork x t

/-- Work in the order of R401; equal keys keep their order. -/
def ranked (l : List (List Nat × α)) : List α := (l.foldl (fun m x => insertWork x m) []).map Prod.snd

/-! ## Issue slots (R399) -/

/-- An RCB of a chain that holds poison, by virtual and physical address. -/
def State.badRcb (s : State) (chain : List (Nat × Nat)) : Option (Nat × Nat) := chain.find? fun r => s.poisonAt r.2 128

/-- The poison of an RCB consumed by the dispatcher (R421). -/
def State.rcbFatal (s : State) (ctx tcb : Nat) (r : Nat × Nat) : State :=
  s.unitFatal ctx 1 (s.modid * 2 ^ 40 + r.2) r.1 (s.vaOf tcb)

/-- The counts of a task folded into its region and every ancestor. -/
def State.foldTask (s : State) (tcb : Nat) : State :=
  match mapFind tcb s.tasks with
  | none => s
  | some t =>
    if t.slots = 0 then s
    else match s.badRcb t.chain with
    | some r => s.rcbFatal t.ctx tcb r
    | none =>
      let add := fun (s : State) (pa off n : Nat) => s.hwPut (pa + off) 8 ((s.hwGet (pa + off) 8 + n) % 2 ^ 64)
      let per := fun (l : List (Nat × Nat)) => t.slots * (256 / max 1 (s.weightOf l))
      let up := (tails t.chain).foldl (fun s l => match l with
        | r :: _ => add (add s r.2 32 t.slots) r.2 40 (per l)
        | [] => s) s
      let own := match t.chain with
        | r :: _ => add up r.2 56 (per t.chain)
        | [] => up
      { own with tasks := mapPut tcb { t with slots := 0 } s.tasks }

/-- RCB_FOLD (R399). -/
def execRcbFold (s : State) : Host.Outcome State Fault Refusal :=
  .next (s.tasks.foldl (fun s t => s.foldTask t.1) s)

/-! ## Room on a core (R472, R473) -/

/-- The bytes of the channel pool in use. -/
def Core.pool (k : Core) : Nat :=
  (k.groups.map fun g => (g.2.chans.map fun c => c.2.depth * 128).foldl (· + ·) 0).foldl (· + ·) 0
    + (k.placed.map fun p => (p.2.chans.map fun c => c.2.depth * 8).foldl (· + ·) 0).foldl (· + ·) 0

/-- The free stretches of the scratchpad: start and length. -/
def Core.gaps (k : Core) : List (Nat × Nat) :=
  let used := k.placed.foldl (fun (m : SMap Nat) p =>
    let n := p.2.spt + p.2.parts * p.2.spg
    if n = 0 then m else mapPut p.2.off n m) []
  let r := used.foldl (fun (a : List (Nat × Nat) × Nat) u => (a.1 ++ [(a.2, u.1 - a.2)], u.1 + u.2)) ([], 0)
  r.1 ++ [(r.2, 0x80000 - r.2)]

/-- The lead contexts of a core that are free. -/
def Core.freeLeads (k : Core) : List Nat := (List.range 4).filter fun l => (mapFind l k.placed).isNone

/-- The group slots of a core that are free. -/
def Core.freeGroups (k : Core) : List Nat := (List.range 64).filter fun n => (mapFind n k.groups).isNone

/-- The `n`-th number that a rising list does not hold. -/
def nthFree (n : Nat) : List Nat → Nat
  | [] => n
  | u :: t => if u ≤ n then nthFree (n + 1) t else n

/-- A free frame of the pool of a context, whichever the dispatcher chooses (R409, R474). -/
def State.takeFrame (s : State) (ctx : Nat) : Option (Word64 × State) :=
  let c := s.ctx ctx
  if c.frames.length < c.nfr then
    let p := s.choose (c.nfr - c.frames.length)
    let i := nthFree p.1 c.frames
    let used := (mapPut i () (c.frames.map fun f => (f, ()))).map Prod.fst
    some (BitVec.ofNat 64 (c.frpool + i * 0x6000),
      { p.2 with ctxs := mapPut ctx { c with frames := used } p.2.ctxs })
  else none

end Sys2Proof.Machine
end

