-- ==== Sys2Proof/Machine/Dispatcher.lean ====
section
/-! DEFINITION. The dispatcher as tasks see it: the checks of a TCB and its images (R385), placement
(R388, R473, R474), the start of the leads and the queueing of launch records (R383), and retirement
(R381, R386). -/

namespace Sys2Proof.Machine

/-! ## The dispatcher's own accesses -/

/-- The maker of the dispatcher's accesses for a context. -/
def unitReq (ctx : Nat) (priv : Bool) : Req :=
  { ctx := ctx, priv := priv, lctx := 0, id := moduleUnit }

/-- The record of an error of a module unit. -/
def unitErr (s : State) (level cause pa va tcb : Nat) : ErrRec :=
  { level := level, cause := cause, core := 0x1FF, slot := 0, lead := false, pa := pa, va := va, pc := 0, task := s.vaOf tcb }

def State.updTask (s : State) (tcb : Nat) (f : Task → Task) : State :=
  match mapFind tcb s.tasks with
  | some t => { s with tasks := mapPut tcb (f t) s.tasks }
  | none => s

/-- One access of the dispatcher for a task. The answer of another module to a read is kept, so that
no read goes out twice. -/
def State.taskAccess (s : State) (tcb va n : Nat) (acc : Acc) : State × UGot :=
  match mapFind tcb s.tasks with
  | none => (s, .wait)
  | some t =>
    match (if acc = .load then mapFind (va * 16 + n) t.got else none) with
    | some x => (s, .val x 0)
    | none =>
      let rem := match t.want with
        | some w => if w.1 = va then some w.2 else none
        | none => none
      match s.unitAccess (unitReq t.ctx false) rem (BitVec.ofNat 64 va) n (acc == .load) false acc with
      | (s, .val x f, _) =>
        (if rem.isNone then s
          else s.updTask tcb fun t =>
            { t with want := none, got := if acc = .load then mapPut (va * 16 + n) x t.got else t.got }, .val x f)
      | (s, .wait, rem) => (s.updTask tcb fun t => { t with want := rem.map fun r => (va, r) }, .wait)
      | (s, g, _) => (s.updTask tcb fun t => { t with want := none }, g)

/-- A task that waits for a page. -/
def State.holdTask (s : State) (tcb ctx va kind : Nat) (h : Option Nat) (m : Bool) : State :=
  let s : State := s.updTask tcb fun t => { t with want := some (va, { tag := 0, ans := none }) }
  s.requestFault ctx va kind h m [.task tcb]

/-- An access that no other module performs and that had to wait for its place is made again as its own event. -/
def State.askAgain (s : State) (tcb : Nat) : State :=
  match mapFind tcb s.tasks with
  | some t =>
    if t.want.isSome then s
    else { s with agenda := s.agenda ++ [if t.ending then .taskRetirement tcb else .dispatching tcb] }
  | none => s

/-- What an access of the dispatcher leads to: its value, a refusal or time-out, or a wait (R385,
R421). -/
def withAccess (s : State) (tcb va n : Nat) (acc : Acc) (bad : State → State) (k : State → Nat → State) : State :=
  let ctx := match mapFind tcb s.tasks with
    | some t => t.ctx
    | none => 0
  match s.taskAccess tcb va n acc with
  | (s, .val x _) => k s x
  | (s, .wait) => s.askAgain tcb
  | (s, .fault h m) => s.holdTask tcb ctx va acc.kind.code h m
  | (s, .poisoned pa) => s.ctxFatal ctx (unitErr s 3 1 pa va tcb)
  | (s, .fatal) => s.ctxFatal ctx (unitErr s 3 7 0 va tcb)
  | (s, _) => bad s

/-- `count` values of `n` bytes in order from an address. -/
def withReads (tcb n : Nat) (bad : State → State) : Nat → Nat → State → List Nat → (State → List Nat → State) → State
  | 0, _, s, xs, k => k s xs
  | c + 1, va, s, xs, k => withAccess s tcb va n .load bad fun s x => withReads tcb n bad c (va + n) s (xs ++ [x]) k

/-! ## Fields of a TCB image (R379) -/

def imgF (x : BitVec 2048) (hi lo : Nat) : Nat := getF x lo (hi + 1 - lo)
def imgNgrp (x : BitVec 2048) : Nat := imgF x 799 768
def imgPlace (x : BitVec 2048) : Bool := x.getLsbD 825
def imgNcore (x : BitVec 2048) : Nat := imgF x 873 864
def imgFrame (x : BitVec 2048) : Nat := imgF x 767 704
def imgSpt (x : BitVec 2048) : Nat := imgF x 1279 1248
def imgSpg (x : BitVec 2048) : Nat := imgF x 1247 1216

/-- An address that is misaligned, or whose bits [63:60] are not 0. -/
def addrBad (a align : Nat) : Bool := a % align != 0 || a / 2 ^ 60 != 0

/-- Whether the image itself breaks R385. -/
def imageBadTcb (x : BitVec 2048) : Bool :=
  imgF x 1407 1280 != 0 || imgF x 1023 992 != 0 || imgF x 895 874 != 0 || imgF x 831 826 != 0 || imgF x 63 56 != 0
    || imgF x 47 44 != 0 || imgNgrp x == 0
    || decide (16 < imgF x 807 800) || decide (64 < imgF x 815 808) || decide (4 < imgF x 819 816)
    || decide (16 < imgF x 824 820) || decide (512 < imgNcore x)
    || addrBad (imgF x 1983 1920) 64 || addrBad (imgFrame x) 64
    || (imgF x 807 800 != 0 && addrBad (imgF x 511 448) 8) || (imgF x 815 808 != 0 && addrBad (imgF x 575 512) 8)
    || (imgF x 819 816 != 0 && addrBad (imgF x 639 576) 8) || (imgF x 824 820 != 0 && addrBad (imgF x 703 640) 8)
    || addrBad (imgF x 447 384) 4 || addrBad (imgF x 383 320) 4 || addrBad (imgF x 319 256) 4 || addrBad (imgF x 255 192) 4
    || addrBad (imgF x 191 128) 128 || addrBad (imgF x 127 64) 16 || (imgPlace x && addrBad (imgF x 959 896) 2)
    || imgSpt x % 8 != 0 || imgSpg x % 8 != 0 || decide (524288 < imgSpt x + imgSpg x)
    || (imgPlace x == (imgNcore x == 0))

/-- Whether a range entry breaks R385: its base, its length and its flags. -/
def rangeBad (base len flags : Nat) : Bool :=
  len == 0 || flags / 8 != 0 || flags % 4 == 0 || decide (2 ^ 60 < base + len)

/-- Whether a core list breaks R385. -/
def coresBad (l : List Nat) : Bool := l.any (fun c => decide (511 < c)) || decide (l.dedup ≠ l)

/-- Whether channel entries break R385: channel, reserved byte, depth, element bytes and reserved
bytes. -/
def chansBad (l : List Nat) : Bool :=
  let ch := fun (e : Nat) => e % 256
  (l.any fun e => decide (15 < ch e) || e / 2 ^ 8 % 256 != 0 || e / 2 ^ 16 % 65536 == 0 || decide (16 < e / 2 ^ 16 % 65536)
    || e / 2 ^ 32 % 256 != (if ch e < 8 then 4 else 8) || e / 2 ^ 40 != 0) || decide ((l.map ch).dedup ≠ l.map ch)

/-! ## Failing at DISPATCHING (R383) -/

/-- A check has failed: the code is set, and the task retires without any group having run. -/
def State.failTask (s : State) (tcb code : Nat) : State :=
  let s : State := (s.failCode tcb code).updTask tcb fun t => { t with ending := true, prog := 0, want := none, got := [] }
  { s with agenda := s.agenda ++ [.taskRetirement tcb] }

/-! ## The chain of regions (R397) -/

/-- The physical address of the root RCB of another context, as far as its tables lead there. -/
def State.rootPa (s : State) (c : Nat) : Option Nat :=
  let va := (s.ctx c).rootRcb
  if (s.ctx c).resident then
    match s.walk c va with
    | .leaf e _ => some (leafPa e va)
    | _ => none
  else none

/-- The chain of RCBs from a virtual address up to the root of the context. -/
def withChain (tcb ctx : Nat) : Nat → Nat → State → List (Nat × Nat) → (State → List (Nat × Nat) → State) → State
  | 0, _, s, _, _ => s.failTask tcb 0x11
  | f + 1, va, s, l, k =>
    let bad := fun (s : State) => s.failTask tcb 0x11
    let root := (s.ctx ctx).rootRcb
    match s.translate (unitReq ctx true) va .load with
    | (s, .ok t) =>
      match (if t.win.isSome then .none else s.locOf (t.pa % 2 ^ 40)) with
      | .hbm pa =>
        let others := ((List.range 16).filter fun c => c != ctx).filterMap s.rootPa
        if va % 128 ≠ 0 ∨ t.pa / 2 ^ 40 ≠ s.modid ∨ others.contains t.pa then bad s
        else if s.poisonAt pa 128 then
          s.ctxFatal ctx (unitErr s 3 1 t.pa va tcb)
        else
          let parent := s.rcbF pa 0 64
          let l := l ++ [(va, pa)]
          if s.rcbF pa 80 2 = 3 ∨ s.rcbF pa 72 8 = 0 then bad s
          else if va = root then k s l
          else if parent = 0 then bad s
          else withChain tcb ctx f parent s l k
      | _ => bad s
    | (s, .missing h m) =>
      match (mapFind tcb s.tasks).bind Task.want with
      | some (w, { ans := some _, .. }) => if w = va then bad s else s.holdTask tcb ctx va 0 h m
      | _ => s.holdTask tcb ctx va 0 h m
    | (s, .fatal _) => s.ctxFatal ctx (unitErr s 3 7 0 va tcb)
    | (s, _) => bad s

/-! ## Images (R54, R97, R324, R385) -/

/-- The bases of the ranges, each with its length and flags: a base that the frame holds is read there (R89), as
8 bytes at the sum of the two modulo 2⁶⁴ (log entry 86). -/
def withRanges (tcb frame : Nat) (bad : State → State) : List (Nat × Nat) → State → List (Nat × Nat × Nat) →
    (State → List (Nat × Nat × Nat) → State) → State
  | [], s, l, k => k s l
  | (base, w) :: t, s, l, k =>
    let len := w % 2 ^ 48
    let flags := w / 2 ^ 48
    let next := fun (s : State) (b : Nat) =>
      if rangeBad b len flags then bad s else withRanges tcb frame bad t s (l ++ [(b, len, flags)]) k
    if flags / 4 % 2 = 1 then withAccess s tcb ((frame + base) % 2 ^ 64) 8 .load bad next else next s base

/-- Numbers taken two by two. -/
def inPairs : List Nat → List (Nat × Nat)
  | a :: b :: t => (a, b) :: inPairs t
  | _ => []

/-- Tile entries: number and image, from words of 8 bytes. -/
def tileEntries (l : List Nat) : List (Nat × BitVec 512) :=
  (List.range (l.length / 9)).map fun i =>
    (l.getD (9 * i) 0 % 256, BitVec.ofNat 512 (joinWords 8 ((l.drop (9 * i + 1)).take 8)))

/-- The images of a task read and checked: dictionary, tiles, alphabets and channels. A tile or register number out
of range fails as a bad image does (log entry 84), and of two entries for one register the later stands (log entry
85). -/
def withImages (tcb : Nat) (x : BitVec 2048) (s : State)
    (k : State → List Nat → List (Nat × BitVec 512) → SMap Word64 → SMap Nat → State) : State :=
  let refused := fun (s : State) => s.failTask tcb 0x11
  let bad := fun (s : State) => s.failTask tcb 0x12
  let dict := imgF x 383 320
  let tiles := fun (s : State) (ws : List Nat) =>
    withReads tcb 8 refused (9 * imgF x 815 808) (imgF x 575 512) s [] fun s ts =>
    let ts := tileEntries ts
    if ts.any fun t => decide (63 < t.1) || imageBad t.2 then bad s
    else withReads tcb 8 refused (2 * imgF x 819 816) (imgF x 639 576) s [] fun s as =>
      let as := inPairs as
      if as.any fun a => decide (3 < a.1 % 256) || !alValid (BitVec.ofNat 64 a.2) then bad s
      else withReads tcb 8 refused (imgF x 824 820) (imgF x 703 640) s [] fun s cs =>
        if chansBad cs then bad s
        else k s ws ts (as.foldl (fun m a => mapSet 0 m (a.1 % 256) (BitVec.ofNat 64 a.2)) [])
          (cs.foldl (fun m c => mapPut (c % 256) (c / 2 ^ 16 % 65536) m) [])
  if dict = 0 then tiles s []
  else withAccess s tcb dict 4 .load refused fun s n =>
    if 1024 < n then bad s
    else withReads tcb 4 refused n (dict + 4) s [] fun s ws => if ws.any dictForbids then bad s else tiles s ws

/-- The checks of a task in DISPATCHING, and what they prepare (R176, R385). -/
def prepareTask (tcb : Nat) (t : Task) (s : State) : State :=
  let x := t.image
  let bad := fun (s : State) => s.failTask tcb 0x11
  let rcb := imgF x 191 128
  if imageBadTcb x then bad s
  else withReads tcb 2 bad (if imgPlace x then imgNcore x else 0) (imgF x 959 896) s [] fun s cores =>
    if coresBad cores then bad s
    else withReads tcb 8 bad (2 * imgF x 807 800) (imgF x 511 448) s [] fun s rs =>
    withRanges tcb (imgFrame x) bad (inPairs rs) s [] fun s ranges =>
    withChain tcb t.ctx 8 (if rcb = 0 then (s.ctx t.ctx).rootRcb else rcb) s [] fun s chain =>
    if chain.any fun r => s.rcbF r.2 384 1 == 1 then s.failTask tcb 0x14
    else withImages tcb x s fun s dict tiles al depths =>
      let ps := (rangePages ranges).map fun v => (v, pageFlags ranges v)
      match s.translatePages t.ctx 64 ps [] with
      | .missing s vpn h m =>
        match (mapFind tcb s.tasks).bind Task.want with
        | some (w, { ans := some _, .. }) => if w = vpn * 65536 then bad s else s.holdTask tcb t.ctx (vpn * 65536) 0 h m
        | _ => s.holdTask tcb t.ctx (vpn * 65536) 0 h m
      | .fatal s va => s.ctxFatal t.ctx (unitErr s 3 7 0 va tcb)
      | .all s exts =>
        let p : Prep := { dict := dict.map (BitVec.ofNat 32), tiles := tiles, ranges := ranges, al := al, depths := depths
                          exts := exts, list := cores }
        s.updTask tcb fun t => { t with prep := some p, chain := chain, got := [], want := none }

/-! ## Placement (R388, R472 to R474) -/

/-- The depth of a channel of a task. -/
def Prep.depth (p : Prep) (c : Nat) : Nat := mapGet 2 p.depths c

/-- The groups that a static task assigns to the core at place `j` of its list. -/
def groupsAt (ngrp ncore j : Nat) : Nat := if j < ngrp then (ngrp - j + ncore - 1) / ncore else 0

/-- How many group parts an allocation on a core may have in a gap: the numbers allowed. -/
def partChoices (us : List CapUse) (t : Task) (c limit : Nat) (gap : Nat × Nat) : List Nat :=
  let spt := imgSpt t.image
  let spg := imgSpg t.image
  (List.range 65).filter fun n =>
    decide (1 ≤ n ∧ n ≤ max 1 limit ∧ spt + n * spg ≤ gap.2) && placeFits us c ((spt + n * spg + 1023) / 1024)

/-- Whether a core has room for a task within its caps: its cluster in service, a lead context and scratchpad
(R388, R404, R474). -/
def State.coreRoom (s : State) (us : List CapUse) (t : Task) (c limit : Nat) : Bool :=
  let k := s.core c
  (s.cluster (c / 32)).cqbase.getLsbD 0 && !k.freeLeads.isEmpty && k.gaps.any fun g => !(partChoices us t c limit g).isEmpty

/-- Whether a core can take a task: room, the channel pool (R472), and every tile that the task names free of
other tasks (R96). -/
def State.coreTakes (s : State) (us : List CapUse) (t : Task) (p : Prep) (c limit : Nat) : Bool :=
  let k := s.core c
  s.coreRoom us t c limit && decide (k.pool + ((List.range 8).map fun i => p.depth (i + 8) * 8).foldl (· + ·) 0 ≤ 131072)
    && p.tiles.all fun x => !(s.tile c x.1).own

/-- The choice among the members of a list. -/
def State.pick (s : State) (l : List α) : Option (α × State) :=
  let p := s.choose l.length
  (l[p.1]?).map fun x => (x, p.2)

/-- The task placed on one core: lead context, allocation, task-on-core registers (R390), channels
(R393), dictionary (R55), extents (R176). -/
def State.placeOn (s : State) (tcb : Nat) (t : Task) (p : Prep) (c limit : Nat) : Option State :=
  let x := t.image
  let us := s.capUses t.chain
  (s.pick (s.core c).freeLeads).bind fun l =>
  (l.2.pick ((s.core c).gaps.filter fun g => !(partChoices us t c limit g).isEmpty)).bind fun g =>
  (g.2.pick (partChoices us t c limit g.1)).map fun n =>
    let size := imgSpt x + n.1 * imgSpg x
    let o := n.2.choose ((g.1.2 - size) / 8 + 1)
    let q : Placed :=
      { freshPlaced t.ctx tcb with
        off := g.1.1 + 8 * o.1, spt := imgSpt x, spg := imgSpg x, parts := n.1
        lscale := BitVec.ofNat 32 (imgF x 991 960), lgrow := BitVec.ofNat 64 (imgF x 1087 1024)
        step := BitVec.ofNat 64 (imgF x 1151 1088), seed := BitVec.ofNat 64 (imgF x 1215 1152)
        chans := (List.range 8).map fun i => (i + 8, { depth := p.depth (i + 8), elems := [] }), exts := p.exts }
    let s := o.2.setPlaced c l.1 q
    s.setCore c ((s.core c).loadDict l.1 (p.dict.map BitVec.toNat))

/-- The cores of a static task with the groups assigned to each (R388). -/
def staticCores (t : Task) (p : Prep) : List (Nat × Nat) :=
  p.list.zipIdx.map fun c => (c.1, groupsAt (imgNgrp t.image) (imgNcore t.image) c.2)

/-- The task placed on every core of a list, or nowhere. -/
def State.placeAll (s : State) (tcb : Nat) (t : Task) (p : Prep) : List (Nat × Nat) → Option State
  | [] => some s
  | (c, n) :: r =>
    if s.coreTakes (s.capUses t.chain) t p c n then (s.placeOn tcb t p c n).bind fun s => s.placeAll tcb t p r else none

/-- Cores of a task with `PLACE` = 0 taken or left by choice, as long as each can take it. -/
def State.placeSome (s : State) (tcb : Nat) (t : Task) (p : Prep) : List Nat → State
  | [] => s
  | c :: r =>
    let q := s.choose 2
    let s := if q.1 = 1 && q.2.coreTakes (q.2.capUses t.chain) t p c 64 then (q.2.placeOn tcb t p c 64).getD q.2 else q.2
    s.placeSome tcb t p r

/-- The lead context that a task holds on each core, by ascending core. -/
def State.placesOf (s : State) (tcb : Nat) : List (Nat × Nat) :=
  s.cores.flatMap fun c => (c.2.placed.filter fun p => p.2.tcb == tcb).map fun p => (c.1, p.1)

/-- The task of a context placed within the bounds of R388 and R474, where it can be. -/
def State.place (s : State) (tcb : Nat) (t : Task) (p : Prep) : Option State :=
  if imgPlace t.image then s.placeAll tcb t p (staticCores t p)
  else
    let us := s.capUses t.chain
    match (List.range 512).filter fun c => s.coreTakes us t p c 64 with
    | [] => none
    | cs =>
      let s := s.placeSome tcb t p cs
      if (s.placesOf tcb).isEmpty then (s.pick cs).bind fun c => c.2.placeOn tcb t p c.1 64 else some s

/-- Whether a task can be placed now, on some of the cores given. -/
def State.placeable (s : State) (cs : List Nat) (tcb : Nat) (t : Task) (p : Prep) : Bool :=
  if imgPlace t.image then p.list.any cs.contains && (s.placeAll tcb t p (staticCores t p)).isSome
  else
    let us := s.capUses t.chain
    cs.any fun c => s.coreTakes us t p c 64

/-- Everything that a task holds on its cores freed; the signals that wait for it there are refused (R298). -/
def State.unplaceTask (s : State) (tcb : Nat) : State :=
  (s.placesOf tcb).foldl (fun s c =>
    let s := s.refuseHeld c.1 c.2
    s.setCore c.1 ((s.core c.1).unplace c.2)) s

/-- The tiles of a task on one core (R324), or none when one of them is refused, an accumulator that another tile names
among the reasons; of two images for one tile the later stands (log entry 85). The record of an accumulator stays as it
is (R344). -/
def State.placeTiles (s : State) (c l : Nat) (p : Placed) : List (Nat × BitVec 512) → Option State
  | [] => some s
  | (n, x) :: t =>
    if !tileInside x p || (s.core c).accTaken n x then none else (s.setTile c n (defEntry x p.ctx l)).placeTiles c l p t

/-- Tiles, ordinals and group counts on every placed core (R390). -/
def State.finishPlaces (s : State) (t : Task) (p : Prep) (total : Nat) : List ((Nat × Nat) × Nat) → Option State
  | [] => some s
  | ((c, l), i) :: r =>
    let groups := match (staticCores t p).find? fun x => x.1 == c with
      | some x => x.2
      | none => 0
    match mapFind l (s.core c).placed with
    | none => s.finishPlaces t p total r
    | some q =>
      let q := { q with coreix := BitVec.ofNat 64 (i * 2 ^ 16 + c), ngrp := BitVec.ofNat 64 (total * 2 ^ 32 + groups) }
      ((s.setPlaced c l q).placeTiles c l q p.tiles).bind fun s => s.finishPlaces t p total r

/-! ## The start (R97, R383, R388) -/

/-- The address of byte `o` of the scratchpad of a core in a context's aperture (R203). -/
def State.spadVa (s : State) (ctx c o : Nat) : Word64 :=
  BitVec.ofNat 64 ((s.ctx ctx).aper + c * 0x1000000 + 0x200000 + o)

/-- The lead of a task on one of its cores, with a tag of its own (R357; log entry 83). -/
def State.startLead (s : State) (tcb : Nat) (t : Task) (c l : Nat) : State :=
  match s.takeFrame t.ctx, mapFind l (s.core c).placed with
  | some f, some p =>
    let x := t.image
    let s := f.2
    let a := freshAgent true t.ctx tcb l (BitVec.ofNat 64 (imgF x 319 256)) s.featacc
    let a := ((a.setX 1 (BitVec.ofNat 64 (imgFrame x))).setX 3 (BitVec.ofNat 64 (imgNgrp x))).setX 31 (s.spadVa t.ctx c p.off)
    let o := s.free 32
    let s := o.2
    let a := { a with frame := f.1, own := f.1, seen := s.clock, born := s.ntag, otag := BitVec.ofNat 32 o.1 }
    let id : AgentId := { core := c, idx := 64 + l }
    { s.setAgent id a with runq := s.runq ++ [id], ntag := s.ntag + 1 }
  | _, _ => s

/-- DISPATCH_COMPLETE (R383, R409): the task is RUNNING, and a lead starts on each of its cores as
soon as the context has a frame for it; the launch records follow the last one. -/
def execDispatchComplete (tcb : Nat) (s : State) : Host.Outcome State Fault Refusal :=
  match mapFind tcb s.tasks with
  | none => .next s
  | some t =>
    let c := s.ctx t.ctx
    let fresh : Bool := t.st == .dispatching
    let todo := if fresh then t.cores else t.starts
    if !(fresh || t.st == .running) ∨ t.ending ∨ todo = [] ∨ c.st ≠ .active then .next s
    else
      let s : State := if fresh then (s.setTask tcb .running).updTask tcb fun t => { t with leads := t.cores.length } else s
      let n := c.nfr - c.frames.length
      let s : State := (todo.take n).foldl (fun s p => s.startLead tcb t p.1 p.2) s
      let s : State := s.updTask tcb fun t => { t with starts := todo.drop n }
      .next (if todo.length ≤ n then { s with agenda := s.agenda ++ [.launchRecordQueue tcb] } else s)

/-- LAUNCH_RECORD_QUEUE (R383, R404): the next launch record enters a queue that has room. -/
def execLaunchRecordQueue (tcb : Nat) (s : State) : Host.Outcome State Fault Refusal :=
  match mapFind tcb s.tasks with
  | none => .next s
  | some t =>
    let i := t.nextGroup
    if t.st ≠ .running ∨ t.starts ≠ [] ∨ imgNgrp t.image ≤ i ∨ (s.ctx t.ctx).st ≠ .active then .next s
    else
      let static := imgPlace t.image
      let homes := match t.prep with
        | some p => if static then [p.list.getD (i % imgNcore t.image) 0] else t.cores.map Prod.fst
        | none => t.cores.map Prod.fst
      match s.pick (homes.filter fun c => (s.cluster (c / 32)).room) with
      | none => .next s
      | some (c, s) =>
        let r : Record := { kind := .group i, ctx := t.ctx, tcb := tcb, frame := BitVec.ofNat 64 (imgFrame t.image)
                            code := BitVec.ofNat 64 (imgF t.image 255 192), pin := static, home := c, part := none }
        let s : State := (s.updTask tcb fun t => { t with nextGroup := i + 1, live := t.live + 1 }).enqueue (c / 32) r
        .next (if i + 1 < imgNgrp t.image then { s with agenda := s.agenda ++ [.launchRecordQueue tcb] } else s)

/-! ## Retirement (R381, R386) -/

/-- The entries of a list in order, from `n` of them at an address: the list ends at an entry of
`KIND` 0, in the chain of overflow blocks, or malformed with a `KIND` above 3. -/
inductive SuccEnd where
  | open_ (l : List Nat)
  | ended (l : List Nat)
  | bad

/-- Entries taken one by one. -/
def takeSucc : List Nat → List Nat → SuccEnd
  | [], l => .open_ l
  | e :: t, l =>
    let k := e / 2 ^ 61
    if k = 0 then .ended l else if 3 < k then .bad else takeSucc t (l ++ [e])

/-- The overflow blocks of a list (R381, R386). -/
def withBlocks (tcb : Nat) (bad : State → State) : Nat → Nat → State → List Nat → (State → List Nat → State) → State
  | 0, _, s, _, _ => bad s
  | f + 1, b, s, l, k =>
    if b = 0 then k s l
    else if b % 64 ≠ 0 ∨ 512 ≤ l.length then bad s
    else withReads tcb 8 bad 8 b s [] fun s xs =>
      match takeSucc (xs.take 7) l with
      | .bad => bad s
      | .ended l => k s l
      | .open_ l => withBlocks tcb bad f (xs.getD 7 0) s l k

/-- The whole successor list, as it stands in the TCB now (R387), whose poison is consumed (R421). -/
def withSuccessors (s : State) (tcb : Nat) (bad : State → State) (k : State → List Nat → State) : State :=
  let at_ := fun (o : Nat) => s.hwGet (tcb + o) 8
  if s.poisonAt (tcb + 176) 72 then s.unitFatal (match mapFind tcb s.tasks with
    | some t => t.ctx
    | none => 0) 1 (s.modid * 2 ^ 40 + tcb) (s.vaOf tcb) (s.vaOf tcb)
  else match takeSucc ((List.range 8).map fun i => at_ (176 + 8 * i)) [] with
  | .bad => bad s
  | .ended l => k s l
  | .open_ l => withBlocks tcb bad 74 (at_ 240) s l k

/-- The last step (R386): `STATE` is written, and the task leaves its cores. -/
def endTask (s : State) (tcb : Nat) : State :=
  let code := s.hwGet (tcb + 6) 1
  let s := (s.setTask tcb (if code = 0 then .complete else .failed)).foldTask tcb
  let s := s.unplaceTask tcb
  ({ s with tasks := mapErase tcb s.tasks } : State).wake

/-- A successor that is not reached is skipped and reported (R386). -/
def skipSucc (s : State) (tcb ctx tgt : Nat) : State := s.errRecord ctx (unitErr s 4 9 0 tgt tcb)

/-- The entries of the list from the one that is due, until one must wait. -/
def actSucc (tcb ctx : Nat) : List Nat → State → State
  | [], s => endTask s tcb
  | e :: t, s =>
    let code := s.hwGet (tcb + 6) 1
    let tgt := e % 2 ^ 60
    let next := fun (s : State) => actSucc tcb ctx t (s.updTask tcb fun t => { t with prog := t.prog + 1 })
    let skip := fun (s : State) => next (skipSucc s tcb ctx tgt)
    if code ≠ 0 ∧ e / 2 ^ 60 % 2 = 0 then next s
    else match e / 2 ^ 61 with
      | 1 =>
        if tgt % 4 ≠ 0 then skip s
        else withAccess s tcb tgt 4 (.rmw 0 0 0xFFFFFFFF 0) skip fun s _ => next s
      | 2 =>
        if tgt % 32 ≠ 0 then skip s
        else withAccess s tcb tgt 32 (.obj .cdec) skip fun s _ => next s
      | _ =>
        let value := match mapFind tcb s.tasks with
          | some t => t.value
          | none => 0
        next (s.notify (tgt / 2 ^ 32 % 65536) ctx code (tgt % 2 ^ 32) (s.vaOf tcb) value)

/-- The retirement from the step that is due: the list, the completion object, the entries. What the task has
written to UO pages stands before any of them (R267). -/
def retireTask (s : State) (tcb : Nat) (t : Task) : State :=
  let s := s.land fun w => w.tcb == tcb
  let cpl := imgF t.image 127 64
  let act := fun (s : State) => match mapFind tcb s.tasks with
    | some t => actSucc tcb t.ctx (t.succ.drop (t.prog - 2)) s
    | none => s
  let complete := fun (s : State) =>
    let next := fun (s : State) (v : Nat) => act (s.updTask tcb fun t => { t with prog := 2, value := v })
    if cpl = 0 ∨ cpl % 16 ≠ 0 then next s 0
    else withAccess s tcb cpl 16 (.obj (.cpl 1 (s.hwGet (tcb + 6) 1))) (fun s => next s 0) fun s o =>
      next s ((o + 1) % 2 ^ 64)
  match t.prog with
  | 0 =>
    let known := fun (s : State) (l : List Nat) => complete (s.updTask tcb fun t => { t with prog := 1, succ := l, got := [], want := none })
    withSuccessors s tcb (fun s => known (s.failCode tcb 0x11) []) known
  | 1 => complete s
  | _ => act s

/-- TASK_RETIREMENT (R386). -/
def execTaskRetirement (tcb : Nat) (s : State) : Host.Outcome State Fault Refusal :=
  match mapFind tcb s.tasks with
  | none => .next s
  | some t =>
    let c := (s.ctx t.ctx).st
    if c ≠ .active ∧ c ≠ .quiescing then .next s
    else if t.ending ∨ (t.st = .draining ∧ s.outstOf t = 0) then
      let s : State := if t.ending then s
        else s.updTask tcb fun t => { t with ending := true, prog := 0, want := none, got := [] }
      .next (retireTask s tcb { t with prog := if t.ending then t.prog else 0 })
    else .next s

end Sys2Proof.Machine
end

