-- ==== Sys2Proof/Machine/Snapshot.lean ====
section
/-! DEFINITION. Snapshots (R424 to R432): the descriptor, SNAP, the freeze, the copy of granules that
are written, and the drain. -/

namespace Sys2Proof.Machine

/-! ## The descriptor (R425) -/

/-- A snapshot descriptor. -/
abbrev SnapDesc := BitVec 1024

def sdRnga (d : SnapDesc) : Nat := getF d 0 64
def sdNrng (d : SnapDesc) : Nat := getF d 64 8
def sdNtag (d : SnapDesc) : Nat := getF d 96 32
def sdNendpt (d : SnapDesc) : Nat := getF d 128 16
def sdWva (d : SnapDesc) : Nat := getF d 192 64
def sdMva (d : SnapDesc) : Nat := getF d 256 64
def sdCpl (d : SnapDesc) : Nat := getF d 320 64
def sdId (d : SnapDesc) : Nat := getF d 384 64

/-- The size of a granule. -/
def granSize : Nat := 2 ^ 21

/-- Whether the descriptor itself is malformed, its ranges apart. -/
def snapBad (d : SnapDesc) : Bool :=
  getF d 448 576 != 0 || getF d 144 48 != 0 || getF d 72 24 != 0 || sdNrng d == 0 || decide (64 < sdNrng d)
    || sdRnga d % 16 != 0 || sdCpl d % 16 != 0 || sdMva d % 64 != 0 || sdWva d % granSize != 0

/-- Whether a virtual address lies in a storage window that may be written (R186). -/
def State.writableAt (s : State) (ctx va : Nat) : Option Nat :=
  match s.windowOf ctx va with
  | some w => if w / 4 % 2 = 1 then some w else none
  | none => none

/-- Whether two address ranges share a byte. -/
def overlap (a b : Nat × Nat) : Bool := decide (a.1 < b.1 + b.2 ∧ b.1 < a.1 + a.2)

/-- Whether no two ranges of a list share a byte. -/
def apart : List (Nat × Nat) → Bool
  | [] => true
  | r :: t => !t.any (overlap r) && apart t

/-- The ranges of the storage windows of a context (R186). -/
def State.windowRanges (s : State) (ctx : Nat) : List (Nat × Nat) :=
  let w := (s.ctx ctx).wint
  if w = 0 then []
  else ((List.range 64).map fun i => readN s.mem (w % 2 ^ 40 + 32 * i) 32).filterMap fun e =>
    if e % 2 = 1 then some (e / 2 ^ 16 % 2 ^ 44 * 2 ^ 16, e / 2 ^ 64 % 2 ^ 64 * 2 ^ 16) else none

/-- The number of granules of ranges. -/
def granCount (l : List (Nat × Nat)) : Nat := (l.map fun r => r.2 / granSize).foldl (· + ·) 0

/-- Whether the ranges, or the places in storage windows, make a descriptor malformed. -/
def State.rangesBad (s : State) (ctx : Nat) (d : SnapDesc) (l : List (Nat × Nat)) : Bool :=
  l.any (fun r => r.2 == 0 || r.1 % granSize != 0 || r.2 % granSize != 0)
    || !apart l || decide (327680 < granCount l) || l.any (fun r => (s.windowRanges ctx).any (overlap r))
    || (s.writableAt ctx (sdWva d)).isNone || (s.writableAt ctx (sdMva d)).isNone

/-! ## SNAP (R426) -/

/-- The rules of SNAP: features gate it (R72), and it takes no prefix. -/
def snapRules : Rules := { form := .u, u := true }

/-- A word done with a number for a uniform register. -/
def doneX (s : State) (id : AgentId) (d : BitVec 5) (x : Nat) : Res :=
  .done (match s.agent id with
    | some a => s.setAgent id (a.setX d.toNat (BitVec.ofNat 64 x))
    | none => s)

/-- Whether a STEPMARK with a step of at least `n` has completed locally (R446). -/
def State.late (s : State) (ctx n : Nat) : Bool :=
  let c := mapGet 0 s.csteps ctx
  c.getLsbD 63 && decide (n ≤ getF c 0 63)

/-- SNAP.FREEZE with what it has read: the status, and the state. -/
def armSnap (s : State) (ag : Agent) (n : Nat) (d : SnapDesc) (l : List (Nat × Nat)) : Nat × State :=
  let st := (s.snap ag.ctx).st
  if st ≠ .none ∧ st ≠ .released then (1, s)
  else if !s.snpool.getLsbD 0 then (4, s)
  else if snapBad d || s.rangesBad ag.ctx d l then (3, s)
  else if s.late ag.ctx n then (2, s)
  else (0, s.setSnap ag.ctx { Snap.fresh with st := .armed, step := n, priv := ag.priv, desc := d, ranges := l })

/-- SNAP.FREEZE (R426). The range list is read before anything is checked, at its 16-byte aligned place (log entry
102). -/
def execSnapFreeze (sb : Bool) (d a b : BitVec 5) (s : State) : Host.Outcome State Fault Refusal :=
  issue (.snapFreeze sb d a b) sb snapRules
    (fun s id ag _ => withStruct s id 0 (ag.getX b.toNat) 16 128 fun s x =>
      let desc : SnapDesc := BitVec.ofNat 1024 x
      let n := sdNrng desc
      match s.readStruct id 16 (BitVec.ofNat 64 (sdRnga desc / 16 * 16)) (2 * n) with
      | (s, .error g) => g.res s false 0
      | (s, .ok y) =>
        let l := (List.range n).map fun i => (y / 2 ^ (128 * i) % 2 ^ 64, y / 2 ^ (128 * i + 64) % 2 ^ 64)
        let r := armSnap s ag (ag.getX a.toNat).toNat desc l
        doneX r.2 id d r.1) s

/-- SNAP.QUERY (R426). -/
def execSnapQuery (sb : Bool) (d : BitVec 5) (s : State) : Host.Outcome State Fault Refusal :=
  issue (.snapQuery sb d) sb snapRules (fun s id ag _ => doneX s id d (s.snap ag.ctx).word) s

/-- SNAP.RELEASE: the status, and the state (R426). -/
def releaseSnap (s : State) (ctx : Nat) : Nat × State :=
  let p := s.snap ctx
  match p.st with
  | .armed => (0, s.setSnap ctx Snap.fresh)
  | .complete => (0, s.setSnap ctx { p with st := .released })
  | .failed => (0, s.setSnap ctx { p with st := .released })
  | .frozen => (1, s)
  | .draining => (1, s)
  | .none => (2, s)
  | .released => (2, s)

/-- SNAP.RELEASE (R426). -/
def execSnapRelease (sb : Bool) (d : BitVec 5) (s : State) : Host.Outcome State Fault Refusal :=
  issue (.snapRelease sb d) sb snapRules
    (fun s id ag _ => let r := releaseSnap s ag.ctx; doneX r.2 id d r.1) s

/-! ## The freeze (R427, R428) -/

/-- What a 64 KiB part of a granule is at the freeze; none where a table cannot be read. An address that no table gives
(R175) has no page. -/
def State.partAt (s : State) (ctx va : Nat) : Option SnapPart :=
  if va / 2 ^ 60 ≠ 0 then some .absent
  else match s.walk ctx va with
  | .leaf e _ =>
    let pa := leafPa e va
    if pa / 2 ^ 40 ≠ s.modid then some .remote
    else match s.locOf (pa % 2 ^ 40) with
      | .hbm a => some (.data (a / 65536))
      | _ => some (.data (pa % 2 ^ 40 / 65536))
  | .fwd _ => some .remote
  | .missing _ _ => some .absent
  | .fatal _ => none

/-- A granule at the freeze, or the address whose table cannot be read. A granule that is not DATA has nothing to
drain; its kind is free where its parts are of both other kinds. -/
def State.granAt (s : State) (ctx va : Nat) : Except Nat Gran × State :=
  let at_ := (List.range 32).map fun i => va + i * 65536
  match at_.find? fun a => (s.partAt ctx a).isNone with
  | some a => (.error a, s)
  | none =>
    let ps := at_.filterMap fun a => s.partAt ctx a
    let isData := fun (p : SnapPart) => match p with
      | .data _ => true
      | _ => false
    let mk := fun (k : Nat) (free : Bool) =>
      .ok ({ va := va, parts := ps, kind := k, shadow := none, tag := none, crc := 0, free := free } : Gran)
    if ps.any isData then (mk 0 false, s)
    else if ps.all (· == .absent) then (mk 1 true, s)
    else if ps.all (· == .remote) then (mk 2 true, s)
    else let c := s.choose 2; (mk (1 + c.1) true, c.2)

/-- Every granule of a list of addresses, or the first address whose table cannot be read. -/
def State.gransAt (s : State) (ctx : Nat) : List Nat → Except Nat (List Gran) × State
  | [] => (.ok [], s)
  | va :: t =>
    match s.granAt ctx va with
    | (.error a, s) => (.error a, s)
    | (.ok g, s) => match s.gransAt ctx t with
      | (.ok l, s) => (.ok (g :: l), s)
      | (.error a, s) => (.error a, s)

/-- The addresses of the granules of ranges, in order (R425). -/
def granVas (l : List (Nat × Nat)) : List Nat :=
  l.flatMap fun r => (List.range (r.2 / granSize)).map fun i => r.1 + i * granSize

/-- FROZEN (R427, R428): every granule of every range is frozen at one instant, with the writes that were made
before it (R262). A table that cannot be read is fatal for the context (R180, R421). -/
def State.freeze (s : State) (ctx : Nat) : State :=
  let p := s.snap ctx
  match s.gransAt ctx (granVas p.ranges) with
  | (.error va, s) => s.ctxFatal ctx (unitErr s 3 7 0 va 0)
  | (.ok l, s) =>
    let s : State := s.setSnap ctx { p with st := .frozen, grans := l, drained := 0 }
    let s : State := s.land fun w => (s.frozenAt w.at_).isSome
    ({ s with frozen := s.frozen ++ [ctx] } : State).due .drainStart

/-- The local completion of a STEPMARK (R427, R446): the step counter rises, and an ARMED snapshot
of that step freezes, or has been missed by a step above its own. -/
def State.stepMark (s : State) (ctx step : Nat) : State :=
  let c := mapGet 0 s.csteps ctx
  let s : State := { s with csteps := mapPut ctx (BitVec.ofNat 64 (2 ^ 63 + max (getF c 0 63) step % 2 ^ 63)) s.csteps }
  let p := s.snap ctx
  if p.st ≠ .armed then s
  else if p.step = step then s.freeze ctx
  else if p.step < step then s.failSnap ctx 0x31
  else s

/-! ## Copies (R429) -/

/-- SHADOW_COPY (R429): a granule with held writes is copied into a free granule of the pool. While it
is being drained, or the pool is empty, the writers wait. -/
def execShadowCopy (ctx g : Nat) (s : State) : Host.Outcome State Fault Refusal :=
  .next (match s.shadowNow ctx g with
    | some s => s
    | none => s)

/-! ## The drain (R430, R431) -/

/-- CRC-64 over bytes in ascending order (R430). -/
def crc64 (bytes : List Byte) : Word64 :=
  let bit := fun (c : Word64) (_ : Nat) => if c.getLsbD 63 then (c <<< 1) ^^^ 0x42F0E1EBA9EA3693 else c <<< 1
  let byte := fun (c : Word64) (b : Byte) => (List.range 8).foldl bit (c ^^^ BitVec.ofNat 64 (b.toNat * 2 ^ 56))
  bytes.foldl byte 0

/-- The bytes of a granule as they are written: zero bytes for a part without a frame (R428). -/
def State.granBytes (s : State) (g : Gran) : List Byte :=
  g.parts.zipIdx.flatMap fun p => match p.1 with
    | .data f =>
      let base := match g.shadow with
        | some i => s.poolAt i + p.2 * 65536
        | none => f * 65536
      match s.locOf base with
      | .spad c off => (List.range 65536).map fun j => byteAt (s.core c).spad (off + j)
      | _ => (List.range 65536).map fun j => byteAt s.mem (base + j)
    | _ => List.replicate 65536 0

/-- Whether a part that the drain reads is poisoned, or its frame lies in a slice that has been mapped
out, or where no memory answers (R427, R457, R459). -/
def State.granPoisoned (s : State) (g : Gran) : Bool :=
  g.parts.zipIdx.any fun p => match p.1, g.shadow with
    | .data _, some i => s.poisonAt (s.poolAt i + p.2 * 65536) 65536
    | .data f, none => match s.locOf (f * 65536) with
      | .hbm b => let st := mapGet .service s.slices (b / 2 ^ 35); s.poisonAt b 65536 || st == .reforming || st == .reformed
      | .spad c off => (s.core c).spoison.any fun w => decide (off ≤ 8 * w ∧ 8 * w < off + 65536)
      | _ => true
    | _, _ => false

/-- The number that bytes make, the first lowest. -/
def bytesNat (l : List Byte) : Nat := l.foldr (fun b x => b.toNat + 256 * x) 0

/-- Bytes written through a storage window, with a tag that their acknowledgement names (R186, R187):
none where there is no writable window that holds all of them, or no endpoint. -/
def State.storageWrite (s : State) (ctx : Nat) (priv : Bool) (va : Nat) (bytes : List Byte) : Option (Nat × State) :=
  (s.writableAt ctx va).bind fun w =>
    let dst := w / 2 ^ 192 % 2 ^ 16
    if (w / 2 ^ 16 % 2 ^ 44 + w / 2 ^ 64 % 2 ^ 64) * 65536 < va + bytes.length || !(mapGet 0 s.endpts dst).getLsbD 128 then none
    else
      let addr := w / 2 ^ 128 % 2 ^ 64 + (va - w / 2 ^ 16 % 2 ^ 44 * 2 ^ 16)
      let p : Packet := { kind := .rdmaWrite, dst := dst
                          fields := [s.ntag, ctx, addr, bytes.length] ++ accFields (.store (bytesNat bytes)) ++ [priv.toNat, 0, w / 2 ^ 224] }
      some (s.ntag, { s with ntag := s.ntag + 1, outbox := s.outbox ++ [p] })

/-- The granule that is drained next: one on which writes wait, in the order of the first of them, or
the lowest (R430). -/
def Snap.nextGran (p : Snap) : Option Nat :=
  let open_ := fun (i : Nat) => (p.grans[i]?).any fun g => !g.free
  match p.waits.find? open_ with
  | some i => some i
  | none => (List.range p.grans.length).find? open_

/-- The manifest (R431). -/
def manifestOf (s : State) (ctx : Nat) (p : Snap) : List Byte :=
  let head := sdId p.desc + p.step * 2 ^ 64 + s.modid * 2 ^ 128 + ctx * 2 ^ 160 + p.grans.length * 2 ^ 192
  let bytes := fun (n x : Nat) => (List.range n).map fun i => BitVec.ofNat 8 (x / 256 ^ i)
  bytes 64 head ++ p.grans.flatMap fun g => bytes 16 (g.kind + g.va / granSize * granSize + g.crc * 2 ^ 64)

/-- The notification of a snapshot, with the `VALUE` of its completion, and its last state (R382,
R431). -/
def closeSnap (s : State) (e : SnapEnd) (value : Nat) : State :=
  let s : State := if sdNendpt e.desc = 0xFFFF then s else s.notify (sdNendpt e.desc) e.ctx e.code (sdNtag e.desc) 0 value
  let p := s.snap e.ctx
  let s : State := if e.code = 0 ∧ p.st = .draining then s.setSnap e.ctx { p with st := .complete } else s
  let s : State := { s with snapEnds := s.snapEnds.drop 1 }
  if s.snapEnds.isEmpty && s.frozen.isEmpty then s else s.due .drainStart

/-- The completion of a snapshot (R308, R431), as its drain performs it. -/
def completeSnap (s : State) (e : SnapEnd) : State :=
  let cpl := sdCpl e.desc
  let head := fun (s : State) (e : SnapEnd) => ({ s with snapEnds := e :: s.snapEnds.drop 1 } : State)
  if cpl = 0 then closeSnap s e 0
  else match s.unitAccess (unitReq e.ctx e.priv) e.rem (BitVec.ofNat 64 cpl) 16 false false (.obj (.cpl 1 e.code)) with
    | (s, .val o _, _) => closeSnap s e ((o + 1) % 2 ^ 64)
    | (s, .wait, rem) =>
      let s := head s { e with rem := rem }
      if rem.isSome then s else s.due .drainStart
    | (s, .fault h m, _) =>
      (head s { e with rem := some { tag := 0, ans := none } }).requestFault e.ctx cpl 2 h m [.snap e.ctx]
    | (s, .poisoned _, _) =>
      let e := { e with code := max e.code 0x30 }
      let s : State := if (s.snap e.ctx).st = .draining then s.setSnap e.ctx { s.snap e.ctx with st := .failed, code := e.code } else s
      closeSnap s e 0
    | (s, .fatal, _) => s.ctxFatal e.ctx (unitErr s 3 7 0 cpl 0)
    | (s, _, _) => closeSnap s e 0

/-- The drain of one granule: it is read and its writes go out. -/
def drainGran (s : State) (ctx i : Nat) (p : Snap) (g : Gran) : State :=
  if s.granPoisoned g then s.failSnap ctx 0x30
  else
    let b := s.granBytes g
    match s.storageWrite ctx p.priv (sdWva p.desc + i * granSize) b with
    | none => s.failSnap ctx 1
    | some (t, s) => s.setSnap ctx { p with grans := p.grans.set i { g with tag := some t, crc := (crc64 b).toNat } }

/-- The manifest goes out. -/
def drainManifest (s : State) (ctx : Nat) (p : Snap) : State :=
  match s.storageWrite ctx p.priv (sdMva p.desc) (manifestOf s ctx p) with
  | none => s.failSnap ctx 1
  | some (t, s) => s.setSnap ctx { p with manifest := some t }

/-- DRAIN_START (R427, R430): the drain engines take the snapshot that froze first, and go on with its
granules, its manifest and its completion, one after the other. -/
def execDrainStart (s : State) : Host.Outcome State Fault Refusal :=
  .next (match s.snapEnds with
    | e :: _ => if (match e.rem with
        | some r => r.ans.isNone
        | none => false) then s else completeSnap s e
    | [] => match s.frozen with
      | [] => s
      | ctx :: _ =>
        let p := { s.snap ctx with st := .draining }
        let s := s.setSnap ctx p
        if s.snshare = 0 ∨ p.manifest.isSome ∨ p.grans.any (fun g => g.tag.isSome) then s
        else match p.nextGran with
          | some i => match p.grans[i]? with
            | some g => drainGran s ctx i p g
            | none => s
          | none => drainManifest s ctx p)

/-- GRANULE_ACK (R430, R431): a granule whose writes are all acknowledged is unfrozen and its shadow is
free; once the manifest's are, the completion follows. -/
def execGranuleAck (tag : Nat) (s : State) : Host.Outcome State Fault Refusal :=
  .next (match s.drainOf tag with
    | none => s
    | some (ctx, p) =>
      if p.manifest = some tag then
        let e : SnapEnd := { ctx := ctx, priv := p.priv, code := 0, desc := p.desc, rem := none }
        let s : State := { s with frozen := s.frozen.filter (· != ctx), snapEnds := s.snapEnds ++ [e] }
        s.due .drainStart
      else
        let done := fun (g : Gran) => if g.tag = some tag then { g with tag := none, shadow := none, free := true } else g
        let gone := fun (i : Nat) => (p.grans[i]?).any fun g => g.tag == some tag
        let s : State := s.setSnap ctx { p with
          drained := p.drained + 1, grans := p.grans.map done, waits := p.waits.filter fun i => !gone i }
        s.due .drainStart)

/-- SNPOOL_WRITE (R424): ignored while a snapshot is FROZEN or DRAINING. -/
def execSnpoolWrite (x : Word64) (s : State) : Host.Outcome State Fault Refusal :=
  .next (if s.snaps.any fun p => p.2.freezes then s else { s with snpool := x &&& 0xFFFFFFFFE1 })

end Sys2Proof.Machine
end

