-- ==== Sys2Proof/Machine/Collective.lean ====
section
/-! DEFINITION. Collectives (R442 to R451): the descriptor, what a member does in its turn, flits, hop
time-outs and aborts; and the activation and the elements of the entries of engine queues (R302,
R305). -/

namespace Sys2Proof.Machine

/-! ## The descriptor (R443) -/

/-- What the members of a collective match on (R444). -/
def collKey (k : Nat) (d : CollDesc) : CollKey :=
  { job := getF d 416 32, step := cdStep d, kind := k, bucket := getF d 448 16, epoch := getF d 464 16 }

/-- Whether a descriptor is malformed, its membership table apart. -/
def collBad (k : Nat) (featacc : Word64) (d : CollDesc) : Bool :=
  let z := cdSize d
  getF d 502 10 != 0 || cdAlg d == 3 || decide (4 < cdOpc d) || (cdAlg d != 0 && !featacc.getLsbD 5)
    || cdNmem d == 0 || decide (200000 < cdNmem d) || decide (2 ^ 28 < cdCount d)
    || cdSbuf d % z != 0 || cdDbuf d % z != 0 || cdMemb d % 4 != 0 || getF d 192 64 % 16 != 0
    || (k == kStepmark && (cdSbuf d != 0 || cdDbuf d != 0 || cdCount d != 0 || cdOpc d != 0))
    || ((k == kAllgath || k == kBcast) && cdOpc d != 0)
    || (overlap (cdSbuf d, srcCount k d * z) (cdDbuf d, dstCount k d * z) && decide (0 < cdCount d)
        && !(cdSbuf d == cdDbuf d && (k == kAllred || k == kBcast)))

/-! ## What a member does (R445, R447) -/

/-- The first element and the length of a chunk of an ALLRED (R445). -/
def chunkAt (n m c : Nat) : Nat × Nat :=
  let l := (n + m - 1) / m
  (c * l, min l (n - c * l))

/-- An all-gather of marks or of chunks: `put` is what follows each reception. -/
def gatherOps (m p first : Nat) (put : Nat → List CollOp) : List CollOp :=
  (List.range (m - 1)).flatMap fun t =>
    [.send ((p + 1) % m) (first + t), .recv ((p + m - 1) % m) (first + t)] ++ put ((p + 2 * m - 1 - t) % m)

/-- The reduce-scatter phases over the chunks that `ch` gives. -/
def scatterOps (m p : Nat) (ch : Nat → Nat × Nat) : List CollOp :=
  let c0 := ch ((p + m - 1) % m)
  .read c0.1 c0.2 :: (List.range (m - 1)).flatMap fun t =>
    let c := ch ((p + 2 * m - 2 - t) % m)
    [.send ((p + 1) % m) t, .recv ((p + m - 1) % m) t, .fold c.1 c.2]

/-- The ring algorithm of a member at position `p` of `m`, with `n` elements (R447). Chunk c starts at
position c + 1 and ends at c, so that its fold takes the positions in the order of R445. -/
def ringOps (k n m p : Nat) : List CollOp :=
  if k = kStepmark ∨ (k = kBcast ∧ n = 0) then gatherOps m p 0 fun _ => []
  else if m = 1 then [.read 0 n, .write 0 n]
  else if k = kAllred then
    let own := chunkAt n m p
    scatterOps m p (chunkAt n m) ++ .write own.1 own.2 ::
      gatherOps m p (m - 1) fun c => [.write (chunkAt n m c).1 (chunkAt n m c).2]
  else if k = kRedscat then scatterOps m p (fun c => (c * n, n)) ++ [.write 0 n]
  else if k = kAllgath then .read 0 n :: .write (p * n) n :: gatherOps m p 0 fun c => [.write (c * n) n]
  else
    (if p = 0 then [.read 0 n, .write 0 n] else [.recv (p - 1) 0, .write 0 n])
      ++ (if p + 1 < m then [.send (p + 1) 0] else [])

/-- The tree and pairwise algorithms: every member exchanges its own data with every other one, and
folds in the order of R445. -/
def directOps (k n m p : Nat) : List CollOp :=
  let others := (List.range m).filter (· != p)
  let sends := others.map fun q => CollOp.send q 0
  let takes := fun (f : Nat → List CollOp) => others.flatMap fun q => CollOp.recv q 0 :: f q
  if k = kStepmark ∨ (k = kBcast ∧ n = 0) then sends ++ takes fun _ => []
  else if k = kAllred then
    [.read 0 n, .keep p] ++ sends ++ takes (fun q => [.keep q]) ++ [.foldAll none, .write 0 n]
  else if k = kRedscat then
    (others.flatMap fun q => [.read (q * n) n, .send q 0]) ++ [.read (p * n) n, .keep p]
      ++ takes (fun q => [.keep q]) ++ [.foldAll (some p), .write 0 n]
  else if k = kAllgath then [.read 0 n, .write (p * n) n] ++ sends ++ takes fun q => [.write (q * n) n]
  else if p = 0 then [.read 0 n, .write 0 n] ++ sends
  else [.recv 0 0, .write 0 n]

/-- One step of a fold (R445). -/
def collFold (opc x y : Nat) : Nat × BitVec 9 :=
  match opc with
  | 0 => fop .add .f32 1 x y 0
  | 1 => fop .add .bf16 1 x y 0
  | 2 => ((x + y) % 2 ^ 32, 0)
  | 3 => fminmax true .f32 x y
  | _ => (x ||| y, 0)

/-- The left fold over the positions from chunk `c` + 1 up to `c` (R445). -/
def foldOrder (opc m c : Nat) (y : Nat → Nat) : Nat × BitVec 9 :=
  (List.range (m - 1)).foldl (fun a i =>
    let r := collFold opc a.1 (y ((c + 2 + i) % m))
    (r.1, a.2 ||| r.2)) (y ((c + 1) % m), 0)

/-- The partners of a member (R447). -/
def Coll.partners (co : Coll) (d : CollDesc) : List Nat :=
  let m := co.members.length
  let l := if cdAlg d = 0 then [(co.pos + m - 1) % m, (co.pos + 1) % m] else List.range m
  (l.filter (· != co.pos)).dedup

/-! ## The end of a collective (R446, R447, R449) -/

/-- The destination buffer after a status other than OK is undefined (R449): each element that can be
written takes a free value. -/
def scrambleBuf (c q : Nat) (e : QEntry) : Nat → State → State
  | 0, s => s
  | k + 1, s =>
    let z := cdSize e.desc
    let v := s.free (8 * z)
    scrambleBuf c q e k (v.2.perform (e.req c q) 0 (BitVec.ofNat 64 (cdDbuf e.desc + k * z)) z true false (.store v.1)).1

/-- A packet of a collective: its key, its sender, and what it carries. -/
def State.sendColl (s : State) (kind : PktKind) (dst : Nat) (key : CollKey) (l : List Nat) : State :=
  { s with outbox := s.outbox ++ [{ kind := kind, dst := dst, fields := [key.job, key.step, key.kind, key.bucket, key.epoch, s.modid] ++ l }] }

/-- A collective retires with a status. -/
def endColl (s : State) (c q k : Nat) (e : QEntry) (status : Nat) : State :=
  let key := collKey k e.desc
  let s : State := if status = 0 then s else scrambleBuf c q e (dstCount k e.desc) s
  let d : DoneKey := { ctx := e.ctx, key := key, status := status, nendpt := cdNendpt e.desc }
  let s : State := { s with
    doneKeys := s.doneKeys.filter (fun x => !(x.ctx == e.ctx && x.key == key)) ++ [d]
    flits := if status = 0 then s.flits else s.flits.filter fun f => f.key != key }
  s.retireEntry c q status

/-- A collective aborted on this member (R444, R447): the suspect and the status, and the abort flits
to the positions given. -/
def abortColl (s : State) (c q k : Nat) (e : QEntry) (co : Coll) (code suspect orig : Nat) (dsts : List Nat) : State :=
  let s := endColl s c q k e (code * 2 ^ 24 + suspect)
  dsts.foldl (fun s p => s.sendColl .abort (co.members.getD p 0) (collKey k e.desc) [orig, suspect]) s

/-- An abort flit taken by a member at work (R447): it completes RELAYED and forwards the flit. -/
def relayColl (s : State) (c q k : Nat) (e : QEntry) (co : Coll) (a : AbortMark) : State :=
  let m := co.members.length
  let prev := (co.pos + m - 1) % m
  let next := (co.pos + 1) % m
  let away :=
    if cdAlg e.desc = 0 then (if m = 1 then [] else if co.members[prev]? = some a.src then [next] else [prev])
    else (co.partners e.desc).filter fun p => co.members[p]? != some a.src
  let s : State := { s with aborts := s.aborts.filter fun x => x.key != a.key }
  abortColl s c q k e co 0x11 a.suspect a.orig away

/-! ## The turns of a collective -/

/-- One access of a collective's engine: its value, or what becomes of the command (R449). -/
def collAccess (s : State) (c q k : Nat) (e : QEntry) (va n : Nat) (acc : Acc) (done : State → QEntry → Nat → State) : State :=
  match s.unitAccess (e.req c q) e.rem (BitVec.ofNat 64 va) n true false acc with
  | (s, .val x _, _) => done s { e with rem := none } x
  | (s, .wait, rem) =>
    let s := s.setHead c q { e with rem := rem }
    if rem.isSome then s else { s with agenda := s.agenda ++ [.engineElement c q] }
  | (s, .fault h m, _) => s.holdEntry c q e (va % 2 ^ 64) acc.kind.code h m
  | (s, .timeout, _) => endColl s c q k e 2
  | (s, .refused, _) => endColl s c q k e 1
  | (s, .poisoned pa, _) => s.engineFatal c e 1 pa va
  | (s, .fatal, _) => s.engineFatal c e 7 0 va

/-- The entry goes on with its next access or operation. -/
def State.goOn (s : State) (c q : Nat) (e : QEntry) : State :=
  { s.setHead c q e with agenda := s.agenda ++ [.engineElement c q] }

/-- The membership table is read and checked (R443, R444), and a kept abort flit is taken. -/
def collStart (s : State) (c q k : Nat) (e : QEntry) : State :=
  let l := e.vals
  if l.any (fun x => x / 2 ^ 18 != 0) || l.count s.modid != 1 then endColl s c q k e 3
  else if l.any fun x => x != s.modid && !s.routed x then endColl s c q k e 1
  else
    let p := l.idxOf s.modid
    let ops := (if cdAlg e.desc = 0 then ringOps else directOps) k (cdCount e.desc) l.length p
    let co : Coll := { members := l, pos := p, ops := ops, k := 0, hand := [], fl := 0, raws := [], sent := [] }
    let e := { e with vals := [], coll := some co }
    match s.aborts.find? fun a => a.key == collKey k e.desc with
    | some a => relayColl s c q k e co a
    | none => s.goOn c q e

/-- Whether a flit of a partner comes from another descriptor (R444). -/
def flitDiffers (d : CollDesc) (co : Coll) (f : Flit) : Bool :=
  f.opc != cdOpc d || f.alg != cdAlg d || f.count != cdCount d || f.nmem != cdNmem d || f.members != co.members

/-- One operation of a collective, or one element of it (R445). It has ended once the transport has acknowledged every
flit that it has sent (R447). -/
def collStep (s : State) (c q k : Nat) (e : QEntry) (co : Coll) : State :=
  let d := e.desc
  let key := collKey k d
  let z := cdSize d
  let next := fun (s : State) (e : QEntry) (co : Coll) => s.goOn c q { e with coll := some { co with ops := co.ops.drop 1, k := 0 } }
  match s.flits.find? fun f => f.key == key && flitDiffers d co f with
  | some f => abortColl s c q k e co 0x13 f.src s.modid (co.partners d)
  | none =>
    match co.ops with
    | [] =>
      if !co.sent.isEmpty then s.setHead c q e
      else
      let s := if k = kStepmark then s.stepMark e.ctx (cdStep d) else s
      endColl s c q k e 0
    | .read off n :: _ =>
      let co := if co.k = 0 then { co with hand := [], fl := 0 } else co
      if n ≤ co.k then next s e co
      else collAccess s c q k e (cdSbuf d + (off + co.k) * z) z .load fun s e x =>
        s.goOn c q { e with coll := some { co with hand := co.hand ++ [x], k := co.k + 1 } }
    | .send pos ph :: _ =>
      let t := s.ntag
      let s := ({ s with ntag := t + 1 } : State).sendColl .collData (co.members.getD pos 0) key
        ([t, ph, cdOpc d, cdAlg d, cdCount d, cdNmem d, co.fl.toNat] ++ co.members ++ co.hand)
      next s e { co with sent := co.sent ++ [(pos, t)] }
    | .recv pos ph :: _ =>
      match s.flits.find? fun f => f.key == key && f.phase == ph && some f.src == co.members[pos]? with
      | none => s.setHead c q e
      | some f => next { s with flits := s.flits.erase f } e { co with hand := f.elems, fl := f.flags }
    | .fold off n :: _ =>
      if n ≤ co.k then next s e co
      else collAccess s c q k e (cdSbuf d + (off + co.k) * z) z .load fun s e y =>
        let r := collFold (cdOpc d) (co.hand.getD co.k 0) y
        s.goOn c q { e with coll := some { co with hand := co.hand.set co.k r.1, fl := co.fl ||| r.2, k := co.k + 1 } }
    | .write off n :: _ =>
      if n ≤ co.k then next (s.taskFlags c e.lctx e.tcb co.fl) e co
      else collAccess s c q k e (cdDbuf d + (off + co.k) * z) z (.store (co.hand.getD co.k 0)) fun s e _ =>
        s.goOn c q { e with coll := some { co with k := co.k + 1 } }
    | .keep pos :: _ => next s e { co with raws := co.raws ++ [(pos, co.hand)] }
    | .foldAll ch :: _ =>
      let m := co.members.length
      let l := (cdCount d + m - 1) / m
      let at_ := fun (i : Nat) => foldOrder (cdOpc d) m (ch.getD (i / l)) fun p =>
        ((co.raws.find? fun r => r.1 == p).map fun r => r.2.getD i 0).getD 0
      let rs := (List.range (cdCount d)).map at_
      next s e { co with hand := rs.map Prod.fst, fl := (rs.map Prod.snd).foldl (· ||| ·) 0 }

/-- A collective goes on: its membership table first, then its operations. -/
def collElement (s : State) (c q k : Nat) (e : QEntry) : State :=
  match e.coll with
  | some co => collStep s c q k e co
  | none =>
    if cdNmem e.desc ≤ e.prog then collStart s c q k e
    else collAccess s c q k e (cdMemb e.desc + 4 * e.prog) 4 .load fun s e x =>
      s.goOn c q { e with vals := e.vals ++ [x], prog := e.prog + 1 }

/-- ENGINE_ELEMENT (R305, R445): an element of a copy, or a step of a collective. -/
def execEngineElement (c q : Nat) (s : State) : Host.Outcome State Fault Refusal :=
  match s.queue c q with
  | [] => .next s
  | e :: _ =>
    if e.st ≠ .active then .next s
    else match e.kind with
      | .cpy k => .next (copyElement c q k 6 s e)
      | .coll k => .next (collElement s c q k e)
      | _ => .next s

/-! ## Activation (R302, R307, R442, R451) -/

/-- The collectives of a context that are ACTIVE (R442). -/
def State.collsActive (s : State) (ctx : Nat) : Nat :=
  (s.cores.map fun c => (c.2.queues.map fun q => q.2.countP fun e =>
    e.isColl && e.ctx == ctx && (e.st == .active || e.st == .held)).foldl (· + ·) 0).foldl (· + ·) 0

/-- Whether an entry is another one of a context with a key that has not retired. -/
def QEntry.clashes (e : QEntry) (ctx : Nat) (key : CollKey) (tag : Nat) : Bool :=
  match e.kind with
  | .coll k => e.ctx == ctx && e.tag != tag && e.st != .done && collKey k e.desc == key
  | _ => false

/-- The other entries of a context with a key that have not retired, by their tags (R451). -/
def State.sameKey (s : State) (ctx : Nat) (key : CollKey) (tag : Nat) : List Nat :=
  s.cores.flatMap fun c => c.2.queues.flatMap fun q => (q.2.filter fun e => e.clashes ctx key tag).map QEntry.tag

/-- The later entries of a key marked to complete MISMATCH in their turn (R451). -/
def State.markClash (s : State) (ctx : Nat) (key : CollKey) (tag status : Nat) : State :=
  let mark := fun (e : QEntry) => if e.clashes ctx key tag && decide (tag < e.tag) && e.st == .posted then { e with code := status } else e
  { s with cores := s.cores.map fun c => (c.1, { c.2 with queues := c.2.queues.map fun q => (q.1, q.2.map mark) }) }

/-- Whether the markers of a QFENCE stand first in every queue that it names (R307). -/
def fenceReady (s : State) (c fid mask : Nat) : Bool :=
  (List.range 8).all fun q => !mask.testBit q || match s.queue c q with
    | e :: _ => e.kind == .fence fid mask
    | [] => true

/-- The marker of a TQ retires (R328): the tile is READY, or EMPTY with undefined contents where a counted entry has
failed (R318). -/
def retireMarker (s : State) (c q tile turn : Nat) (e : QEntry) : State :=
  let k := s.core c
  let n := q * 4 + e.lctx
  let bad := k.tqBad.contains n
  let s : State := s.setCore c { k with tqBad := k.tqBad.filter (· != n) }
  let s : State := if (s.turns c tile).any fun x => x.tag == turn then
      let e := s.tile c tile
      let s : State := if bad then s.loseTile c e else s
      ((s.setTile c tile (e.setState (if bad then tEmpty else tReady))).lessPend c tile).endTurn c tile turn
    else s
  s.freeEntry c q

/-- QUEUE_ENTRY_ACTIVATE (R302, R307, R442, R443, R451): the oldest entry of a queue becomes ACTIVE, or
retires where it is a marker or malformed. A context has at most 64 collectives ACTIVE, and of two
with one key the later completes MISMATCH. -/
def execQueueEntryActivate (c q : Nat) (s : State) : Host.Outcome State Fault Refusal :=
  match s.queue c q with
  | [] => .next s
  | e :: _ =>
    if e.st ≠ .posted then .next s
    else
      let start := fun (s : State) =>
        { s.setHead c q { e with st := .active } with agenda := s.agenda ++ [.engineElement c q] }
      match e.kind with
      | .cpy k =>
        if copyBad k e.desc then .next (s.retireEntry c q 3) else .next (start s)
      | .coll k =>
        let key := collKey k e.desc
        if 64 ≤ s.collsActive e.ctx then .next s
        else if collBad k s.featacc e.desc then .next (endColl s c q k e 3)
        else if e.code ≠ 0 then .next (scrambleBuf c q e (dstCount k e.desc) s |>.retireEntry c q e.code)
        else match s.sameKey e.ctx key e.tag with
          | [] => .next (start s)
          | l =>
            let status := 0x13 * 2 ^ 24 + s.modid
            if l.any (fun t => decide (t < e.tag)) then .next (scrambleBuf c q e (dstCount k e.desc) s |>.retireEntry c q status)
            else .next ((start s).markClash e.ctx key e.tag status)
      | .fence fid mask =>
        if fenceReady s c fid mask then
          .next (((List.range 8).filter fun i => mask.testBit i).foldl (fun s i => s.freeEntry c i) s)
        else .next s
      | .marker t turn => .next (retireMarker s c q t turn e)

/-! ## COLL -/

/-- COLL (R442): its post reads, checks and captures the descriptor as CPY does, and its key is in use
anew. -/
def execColl (sb : Bool) (k q : BitVec 3) (g : BitVec 5) (s : State) : Host.Outcome State Fault Refusal :=
  issue (.coll sb k q g) sb tileRules
    (fun s id ag _ => withStruct s id 0 (ag.getX g.toNat) 8 64 fun s x =>
      let key := collKey k.toNat (BitVec.ofNat 512 x)
      match postWhenFree s id q.toNat (.coll k.toNat) x with
      | .done s => .done { s with doneKeys := s.doneKeys.filter fun d => !(d.ctx == ag.ctx && d.key == key) }
      | r => r) s

/-! ## Flits (R444, R447, R448) -/

/-- The collectives of a key at work on the module: core, queue and entry. -/
def State.collsOf (s : State) (key : CollKey) : List (Nat × Nat × QEntry) :=
  s.cores.flatMap fun c => c.2.queues.filterMap fun q => match q.2 with
    | e :: _ => match e.kind with
      | .coll k => if collKey k e.desc = key ∧ e.st ≠ .posted ∧ e.st ≠ .done then some (c.1, q.1, e) else none
      | _ => none
    | [] => none

/-- Whether a collective of a key is posted and has not been completed. -/
def State.collPosted (s : State) (key : CollKey) : Bool :=
  s.cores.any fun c => c.2.queues.any fun q => q.2.any fun e => match e.kind with
    | .coll k => collKey k e.desc == key && e.st != .done
    | _ => false

/-- COLL_DATA_FLIT (R437, R444): a flit of a peer waits for its member's turn; one of a key that has
failed here is dropped. -/
def execCollDataFlit (f : Flit) (s : State) : Host.Outcome State Fault Refusal :=
  if !s.routed f.src ∨ s.boot = .bootfail then .next s
  else if !s.collPosted f.key && s.doneKeys.any (fun d => d.key == f.key && d.status != 0) then .next s
  else
    .next { s with
      flits := s.flits ++ [f]
      agenda := s.agenda ++ (s.collsOf f.key).map fun p => .engineElement p.1 p.2.1 }

/-- Whether a member waits for a partner (R447): for its flit, or for the acknowledgement of the last ones it sent. -/
def Coll.waiting (co : Coll) (s : State) (key : CollKey) : Bool :=
  match co.ops with
  | .recv pos ph :: _ => !s.flits.any fun f => f.key == key && f.phase == ph && some f.src == co.members[pos]?
  | [] => !co.sent.isEmpty
  | _ => false

/-- HOLD_FLIT (R447): a waiting member tells its successor, or its partners, that it lives. -/
def execHoldFlit (c q : Nat) (s : State) : Host.Outcome State Fault Refusal :=
  match s.queue c q with
  | [] => .next s
  | e :: _ => match e.kind, e.coll with
    | .coll k, some co =>
      let m := co.members.length
      let dsts := if cdAlg e.desc = 0 then (if m = 1 then [] else [(co.pos + 1) % m]) else co.partners e.desc
      if e.st = .active && co.waiting s (collKey k e.desc) then
        .next (dsts.foldl (fun s p => s.sendColl .hold (co.members.getD p 0) (collKey k e.desc) []) s)
      else .next s
    | _, _ => .next s

/-- HOP_TIMEOUT (R447): the wait for a partner, for its flit or for its acknowledgement of one, has
lasted `HTO` clocks. -/
def execHopTimeout (c q pos : Nat) (s : State) : Host.Outcome State Fault Refusal :=
  match s.queue c q with
  | [] => .next s
  | e :: _ => match e.kind, e.coll with
    | .coll k, some co =>
      let waits := match co.ops with
        | .recv p _ :: _ => p == pos
        | _ => false
      if e.st != .done && (waits || co.sent.any fun x => x.1 == pos) then
        .next (abortColl s c q k e co 0x10 (co.members.getD pos 0) s.modid (co.partners e.desc))
      else .next s
    | _, _ => .next s

/-- ABORT_FLIT (R447, R448): taken by a member at work; kept for one that is not; and for a key that
has been aborted here with another suspect, a notification of the conflict. -/
def execAbortFlit (key : CollKey) (src orig suspect : Nat) (s : State) : Host.Outcome State Fault Refusal :=
  let a : AbortMark := { key := key, src := src, orig := orig, suspect := suspect }
  if !s.routed src ∨ s.boot = .bootfail then .next s
  else match (s.collsOf key).find? fun p => p.2.2.coll.isSome with
    | some (c, q, e) => match e.kind, e.coll with
      | .coll k, some co => .next (relayColl s c q k e co a)
      | _, _ => .next s
    | none =>
      if s.collPosted key then .next { s with aborts := s.aborts ++ [a] }
      else match s.doneKeys.find? fun d => d.key == key with
        | none => .next { s with aborts := s.aborts ++ [a] }
        | some d =>
          let code := d.status / 2 ^ 24
          if (code = 0x10 ∨ code = 0x11) ∧ d.status % 2 ^ 24 ≠ suspect ∧ d.nendpt ≠ 0xFFFF then
            let v := s.free 64
            .next (v.2.notify d.nendpt d.ctx (0x12 * 2 ^ 24 + suspect) key.job 0 v.1)
          else .next s

/-- ABORT_FLIT_EXPIRY (R447): a kept flit is dropped while its key has not been posted. -/
def execAbortFlitExpiry (key : CollKey) (s : State) : Host.Outcome State Fault Refusal :=
  .next (if s.collPosted key then s else { s with aborts := s.aborts.filter fun a => a.key != key })

end Sys2Proof.Machine
end

