-- ==== Sys2Proof/Machine/Resident.lean ====
section
/-! DEFINITION. How records become resident groups and leads (R97, R209, R210, R229, R402, R405, R416, R473), and the
order in which the dispatcher takes records and tasks (R383, R401). -/

namespace Sys2Proof.Machine

/-! ## Where a record can run -/

/-- The lead context that a task holds on a core. -/
def State.lctxOn (s : State) (tcb c : Nat) : Option Nat :=
  ((s.core c).placed.find? fun p => p.2.tcb == tcb).map Prod.fst

/-- Whether the record is one of a saved lead. -/
def Record.isLead (r : Record) : Bool :=
  match r.kind with
  | .resume l _ => l
  | _ => false

/-- Whether the group of the record holds a group part (R229, R405, R473). -/
def Record.needsPart (r : Record) : Bool :=
  match r.kind with
  | .group _ => true
  | .resume _ _ => r.part.isSome
  | _ => false

/-- Whether the record needs a frame of the pool (R409). -/
def Record.needsFrame (r : Record) : Bool :=
  match r.kind with
  | .resume _ _ => false
  | _ => true

/-- The cores on which a record may run (R405, R416): no group runs on a core where its task's lead has yet to start
(R388). -/
def State.coresOf (s : State) (r : Record) : List Nat :=
  let cs := match mapFind r.tcb s.tasks with
    | some t => (t.cores.map Prod.fst).filter fun c => r.isLead || !t.starts.any fun x => x.1 == c
    | none => []
  cs.filter fun c => if r.pin || r.isLead then c == r.home else c / 32 == r.home / 32

/-- The group parts of a task on a core that the group of a record may take: its own on the core it
comes from, or a free one. -/
def State.partsFor (s : State) (r : Record) (c : Nat) : List Nat :=
  match r.part, decide (c = r.home) with
  | some p, true => [p]
  | _, _ => match (s.lctxOn r.tcb c).bind fun l => mapFind l (s.core c).placed with
    | some q => (List.range q.parts).filter fun i => !q.partUse.contains i
    | none => []

/-- The empty channels of a group of a task (R215). -/
def State.taskChans (s : State) (tcb : Nat) : SMap (Chan VReg) :=
  let depth := fun (c : Nat) => match (mapFind tcb s.tasks).bind Task.prep with
    | some p => p.depth c
    | none => 2
  (List.range 8).map fun c => (c, { depth := depth c, elems := [] })

/-- The bytes of the channel pool that a group of a task takes (R472). -/
def State.groupPool (s : State) (tcb : Nat) : Nat :=
  ((s.taskChans tcb).map fun c => c.2.depth * 128).foldl (· + ·) 0

/-- Whether a core has a slot and room in its channel pool. -/
def State.slotOn (s : State) (r : Record) (c : Nat) : Bool :=
  r.isLead || (!(s.core c).freeGroups.isEmpty && decide ((s.core c).pool + s.groupPool r.tcb ≤ 131072))

/-- Whether a core can make the agent of a record resident now. -/
def State.coreRuns (s : State) (r : Record) (c : Nat) : Bool :=
  s.slotOn r c && (!r.needsPart || !(s.partsFor r c).isEmpty)

/-- A record whose work is gone (R405): its task is not RUNNING in its context. -/
def State.orphan (s : State) (r : Record) : Bool :=
  match r.kind with
  | .join _ => r.tcb != noTask && match mapFind r.tcb s.tasks with
    | some t => t.st != .running
    | none => true
  | _ => (mapFind r.tcb s.tasks).isNone

/-- Whether a record could become resident within every cap, were there a slot (R398, R409). -/
def State.admits (s : State) (r : Record) : Bool :=
  let c := s.ctx r.ctx
  c.st == .active && !(s.coresOf r).isEmpty && (r.isLead || s.groupFits (s.chainOf r.tcb))
    && (!r.needsFrame || decide (c.frames.length < c.nfr))

/-! ## The registers of a new group (R97, R229, R405) -/

/-- The registers that every new group of a task has. -/
def newGroup (s : State) (t : Task) (r : Record) (l : Nat) (frame : Word64) : Agent :=
  let a := freshAgent false t.ctx r.tcb l r.code s.featacc
  let p : Prep := t.prep.getD { dict := [], tiles := [], ranges := [], al := [], depths := [], exts := [], list := [] }
  let a := (a.setX 1 r.frame).setX 3 (BitVec.ofNat 64 (imgNgrp t.image))
  { a with al := p.al, frame := frame, own := frame, seen := s.clock, born := s.ntag, chans := s.taskChans r.tcb }

/-- The thread ids of a launch group (R216). -/
def launchIds (index : Nat) : SMap Word :=
  (List.range 32).foldl (fun m i => mapSet 0 m i (BitVec.ofNat 32 (32 * index + i))) []

/-- The logical lanes as a vector register. -/
def laneIds : VReg := mkV fun t => BitVec.ofNat 32 t

/-- The threads of a formed group in its lanes (R229). -/
def Agent.withThreads (a : Agent) (ts : List WheyThread) : Agent :=
  let get := fun (n i : Nat) => match ts[i]? with
    | some w => mapGet 0 w.v n
    | none => 0
  let mask := fun (n : Nat) =>
    ts.zipIdx.foldl (fun (m : Word) w => if w.1.m.getLsbD n then m ||| BitVec.twoPow 32 w.2 else m) 0
  let present : Word := BitVec.ofNat 32 (2 ^ ts.length - 1)
  let a := (List.range 32).foldl (fun a n => a.setV n (mkV fun i => get n i)) a
  let a := (List.range 8).foldl (fun a n => a.setM n (mask n)) a
  { a with origin := .formed, present := present, paths := a.paths.map fun p => { p with mask := present }
           tids := ts.zipIdx.foldl (fun m w => mapSet 0 m w.2 w.1.tid) [] }

/-! ## Popping -/

/-- The state in which an agent is resident in a slot. -/
def State.seat (s : State) (id : AgentId) (a : Agent) : State :=
  { s.setAgent id a with runq := s.runq ++ [id], ntag := s.ntag + 1 }

/-- A group part taken on a core, and the one left behind (R473). -/
def State.takePart (s : State) (r : Record) (c l : Nat) (part : Option Nat) : State :=
  let s : State := if c = r.home then s
    else match s.lctxOn r.tcb r.home with
      | some h => s.freePart r.home h r.part
      | none => s
  match part, mapFind l (s.core c).placed with
  | some p, some q => s.setPlaced c l { q with partUse := if q.partUse.contains p then q.partUse else q.partUse ++ [p] }
  | _, _ => s

/-- The address of the scratchpad part of a group, or of its task. -/
def State.baseOf (s : State) (ctx c l : Nat) (part : Option Nat) : Word64 :=
  match mapFind l (s.core c).placed with
  | none => 0
  | some q => s.spadVa ctx c (match part with
    | some p => q.off + q.spt + p * q.spg
    | none => q.off)

/-- A record that could not start yet put back before the others of its queue, with the events that it waits for. -/
def State.putBack (s : State) (r : Record) (events : List Instr) : State :=
  let cl := r.home / 32
  let k := s.cluster cl
  { s.setCluster cl { k with queue := r :: k.queue } with agenda := events ++ [.recordPop cl] }

/-- A saved agent resident again (R181, R416): whole after a park, and in its restore routine after a
pre-emption. A group that takes another part finds it named in `g31` (R473). Where its frame must wait (R457), the state
`s0` in which it was popped has the record back. -/
def resumeOn (s0 s : State) (r : Record) (id : AgentId) (l : Nat) (lead : Bool) (ans : Option Answer) (part : Option Nat)
    (t : Task) : State :=
  let moved := part.isSome && (part != r.part || id.core != r.home)
  let base := s.baseOf r.ctx id.core l part
  let fresh := { freshAgent lead r.ctx r.tcb l 0 s.featacc with
                 frame := r.frame, own := r.own, seen := s.clock, part := part, born := s.ntag, x := [], paths := [], chans := s.taskChans r.tcb
                 cursor := if part.isSome && imgPlace t.image then some 0 else none }
  let fail := fun (cause pa va : Nat) => s.unitFatal r.ctx cause pa va (s.vaOf r.tcb)
  let stop := fun {α : Type} (x : Hw α) (k : α → State → State) => match x with
    | .ok x s => k x s
    | .wait s => s0.putBack r s.agenda
    | .poison pa va => fail 1 pa va
    | .bad c va => fail c 0 va
  if !(s.ctx r.ctx).frameOk r.frame then fail 5 0 r.frame.toNat
  else stop (s.hwReads (frameReq id fresh) r.frame.toNat headParts) fun xs s =>
      let hdr : BitVec 512 := BitVec.ofNat 512 (joinWords 8 (xs.take 8))
      if getF hdr 88 8 = 1 then
        stop (s.loadParked id fresh) fun a s =>
          let a := if moved then a.setX 31 base else a
          let va := BitVec.ofNat 64 (getF hdr 256 64)
          let a := { a with told := ans.map fun x => (va, x), got := r.got, gotFl := r.gotFl }
          (s.seat id a).bindSlots id a
      else
        let a := { fresh.loadHead xs with perf := 0 }
        let b := { a.enterSave 1 (s.saveVector a) with
                   tpc := BitVec.ofNat 64 (getF hdr 0 64), tclause := BitVec.ofNat 64 (getF hdr 64 5)
                   ppriv := hdr.getLsbD 70 }
        if moved then
          stop (s.saveParts id b [(0x138, 8, base.toNat)]) fun _ s => s.seat id b
        else s.seat id b

/-- A record popped on a core (R210); a new group has a tag of its own (R357; log entry 83). -/
def State.popOn (s : State) (r : Record) (c : Nat) (t : Task) : State :=
  match s.lctxOn r.tcb c, s.badRcb t.chain with
  | none, _ => s
  | some _, some b => s.rcbFatal r.ctx r.tcb b
  | some l, none =>
    let s0 := s
    let slot := if r.isLead then some (64 + l, s) else s.pick (s.core c).freeGroups
    match slot with
    | none => s
    | some (idx, s) =>
      let id : AgentId := { core := c, idx := idx }
      let pt : Option Nat × State :=
        if r.needsPart then match s.pick (s.partsFor r c) with
          | some (p, s) => (some p, s)
          | none => (none, s)
        else (none, s)
      let part := pt.1
      let s := pt.2.takePart r c l part
      match r.kind with
      | .resume lead ans => resumeOn s0 s r id l lead ans part t
      | k =>
        match s.takeFrame r.ctx with
        | none => s
        | some (f, s) =>
          let a := (newGroup s t r l f).setX 31 (s.baseOf r.ctx c l part)
          let o := s.free 32
          let a := { a with part := part, otag := BitVec.ofNat 32 o.1 }
          o.2.seat id (match k with
            | .group i =>
              let g := BitVec.ofNat 64 i
              let v := mkV fun j => BitVec.ofNat 32 (32 * i + j)
              { ((a.setX 2 g).setV 0 laneIds).setV 1 v with
                tids := launchIds i, cursor := if imgPlace t.image then some 0 else none }
            | .formed ts => (a.setX 2 0xFFFFFFFFFFFFFFFF).withThreads ts
            | _ =>
              { ((a.setX 2 0xFFFFFFFFFFFFFFFF).setV 0 laneIds).setV 1 laneIds with
                origin := .spawned, tids := launchIds 0, fetchChk := .spawned })

/-- The record at a place of a cluster's queue taken out. -/
def State.unqueue (s : State) (cl i : Nat) : State :=
  let k := s.cluster cl
  s.setCluster cl { k with queue := k.queue.eraseIdx i }

/-- Whether the task that a fired copy names lies on another module that a route leads to: it waits there. -/
def State.joinFar (s : State) (r : Record) (task : Word64) : Bool :=
  match s.walk r.ctx task.toNat with
  | .leaf e _ => leafPa e task.toNat / 2 ^ 40 != s.modid && s.routed (leafPa e task.toNat / 2 ^ 40)
  | .fwd h => s.routed h
  | _ => false

/-- A fired copy whose task is not RUNNING discarded (R405). -/
def State.discard (s : State) (r : Record) : State :=
  let s : State := match r.kind with
    | .join task => s.errRecord r.ctx { unitErr s 4 11 0 0 0 with task := task.toNat }
    | _ => s
  let s : State := s.updTask r.tcb fun t => { t with live := t.live - 1 }
  (s.settleTask r.tcb).wake

/-- The TCB of a fired copy read as its record is to start (R405): a task that is RUNNING owns it from now on, and its
count of armed records falls; a missing page is asked for; and otherwise the copy is discarded. -/
def State.adopt (s : State) (cl i : Nat) (r : Record) (task : Word64) : State :=
  let gone := fun (s : State) => (s.unqueue cl i).discard r
  match s.translate (unitReq r.ctx true) task.toNat .load with
  | (s, .ok t) =>
    match (if t.win.isSome ∨ t.pa / 2 ^ 40 ≠ s.modid then .none else s.locOf (t.pa % 2 ^ 40)) with
    | .hbm b =>
      if s.poisonAt b 256 then s.unitFatal r.ctx 1 t.pa task.toNat task.toNat
      else match mapFind b s.tasks with
        | some k =>
          if k.ctx = r.ctx ∧ k.st = .running then
            let q := s.cluster cl
            let s : State := s.updTask b fun k => { k with live := k.live + 1, armed := k.armed - 1 }
            (s.setCluster cl { q with queue := q.queue.set i { r with tcb := b } }).wake
          else gone s
        | none => gone s
    | _ => gone s
  | (s, .missing h m) => (s.unqueue cl i).requestFault r.ctx task.toNat 0 h m [.group r]
  | (s, .fatal _) => s.unitFatal r.ctx 7 0 task.toNat task.toNat
  | (s, _) => gone s

/-! ## Pre-emption (R402) -/

/-- A resident group that may have to leave: its region, by its RCB, the region's `DEFICIT`, when the group became
resident, and the group. -/
structure Victim where
  region : Nat
  deficit : Nat
  born : Nat
  id : AgentId
  deriving DecidableEq, Repr

/-- The resident groups of a cluster whose effective priority is below one. -/
def State.victims (s : State) (cl prio : Nat) : List Victim :=
  s.cores.flatMap fun c =>
    if c.1 / 32 ≠ cl then [] else
    (c.2.groups.filter fun g => decide (s.prioOf (s.chainOf g.2.tcb) < prio)).map fun g =>
      let r := match s.chainOf g.2.tcb with
        | r :: _ => r.2
        | [] => 0
      { region := r, deficit := s.rcbF r 320 64, born := g.2.born, id := { core := c.1, idx := g.1 } }

/-- The victim that a comparison puts first. -/
def bestOf (f : Victim → Victim → Bool) : List Victim → Option Victim
  | [] => none
  | v :: t => match bestOf f t with
    | none => some v
    | some w => if f v w then some v else some w

/-- One group asked to leave for work of higher priority, unless one is already leaving: the youngest of the region with
the greatest `DEFICIT`, and then of that region until it has none left in the cluster. -/
def State.makeRoom (s : State) (cl : Nat) (r : Record) : Option State :=
  let vs := s.victims cl (s.prioOf (s.chainOf r.tcb))
  let leaving := vs.any fun v => match s.agent v.id with
    | some a => a.preq
    | none => false
  let k := s.cluster cl
  let region := match k.victim with
    | some p => if vs.any fun v => v.region == p then some p
      else (bestOf (fun v w => decide (w.deficit < v.deficit)) vs).map Victim.region
    | none => (bestOf (fun v w => decide (w.deficit < v.deficit)) vs).map Victim.region
  if leaving then some s
  else region.bind fun p =>
    (bestOf (fun v w => decide (w.born < v.born)) (vs.filter fun v => v.region == p)).bind fun v =>
      (s.agent v.id).map fun a => (s.setCluster cl { k with victim := some p }).setAgent v.id { a with preq := true }

/-! ## The order of work (R401) -/

/-- What the dispatcher can take: a record by its place in a cluster's queue, a READY task, or a task that is
prepared and can be placed. -/
inductive Work where
  | record (cl i : Nat) (r : Record)
  | take (tcb : Nat)
  | place (tcb : Nat)

/-- The image of a TCB as memory holds it. -/
def State.tcbImage (s : State) (tcb : Nat) : BitVec 2048 := BitVec.ofNat 2048 (s.hwGet tcb 256)

/-- The virtual address of the RCB that a TCB image names. -/
def State.regionOf (s : State) (ctx : Nat) (x : BitVec 2048) : Nat :=
  if imgF x 191 128 = 0 then (s.ctx ctx).rootRcb else imgF x 191 128

/-- The chain of RCBs from a virtual address up, as far as the page tables lead there now (log entry 26). -/
def State.chainNow (s : State) (ctx : Nat) : Nat → Nat → List (Nat × Nat)
  | 0, _ => []
  | f + 1, va =>
    match s.walk ctx va with
    | .leaf e _ =>
      match s.locOf (leafPa e va % 2 ^ 40) with
      | .hbm pa => (va, pa) :: if va = (s.ctx ctx).rootRcb then [] else s.chainNow ctx f (s.rcbF pa 0 64)
      | _ => []
    | _ => []

/-- `count` values of `n` bytes from a virtual address on, as far as the page tables lead to HBM of this module now. -/
def State.peekList (s : State) (ctx n : Nat) : Nat → Nat → Option (List Nat)
  | 0, _ => some []
  | c + 1, va =>
    match s.walk ctx va with
    | .leaf e _ =>
      match if leafPa e va / 2 ^ 40 = s.modid then s.locOf (leafPa e va % 2 ^ 40) else .none with
      | .hbm pa => (s.peekList ctx n c (va + n)).map fun l => s.hwGet pa n :: l
      | _ => none
    | _ => none

/-- What bounds the placement of a task that is READY: its core list, its tiles and the depths of its channels, as memory
holds them (R96, R388, R472); none where they cannot be read yet, or will be refused. -/
def State.peekPrep (s : State) (ctx : Nat) (x : BitVec 2048) : Option Prep :=
  (s.peekList ctx 2 (if imgPlace x then imgNcore x else 0) (imgF x 959 896)).bind fun list =>
  (s.peekList ctx 8 (9 * imgF x 815 808) (imgF x 575 512)).bind fun ts =>
  (s.peekList ctx 8 (imgF x 824 820) (imgF x 703 640)).bind fun cs =>
    if chansBad cs then none
    else some
      { dict := [], tiles := (tileEntries ts).filter (fun t => decide (t.1 < 64)), ranges := [], al := []
        depths := cs.foldl (fun m c => mapPut (c % 256) (c / 2 ^ 16 % 65536) m) [], exts := [], list := list }

/-- The work on a task that some of the cores given could take, with its place in the order of work. A task whose lists
cannot be read yet, or are refused, is taken, which finds that out. -/
def State.taskWork (s : State) (cs : List Nat) (tcb : Nat) (t : Task) : Option (List Nat × Work) :=
  if (s.ctx t.ctx).st ≠ .active ∨ t.ending then none
  else match t.st, t.prep with
    | .ready, _ =>
      let x := s.tcbImage tcb
      let chain := s.chainNow t.ctx 8 (s.regionOf t.ctx x)
      let fits := match s.peekPrep t.ctx x with
        | some p => coresBad p.list || s.placeable cs tcb { t with image := x, chain := chain } p
        | none => true
      if imageBadTcb x || fits then some (s.workKey t.ctx chain ++ [t.born], .take tcb) else none
    | .dispatching, some p =>
      if t.cores.isEmpty && s.placeable cs tcb t p then some (s.workKey t.ctx t.chain ++ [t.born], .place tcb) else none
    | _, _ => none

/-- When the task of a record became READY. -/
def State.bornOf (s : State) (tcb : Nat) : Nat := match mapFind tcb s.tasks with
  | some t => t.born
  | none => 0

/-- The records of a cluster that could become resident, with their places in the order of work. -/
def State.recordWork (s : State) (cl : Nat) : List (List Nat × Work) :=
  ((s.cluster cl).queue.zipIdx.filter fun p => s.admits p.1).map fun p =>
    (s.workKey p.1.ctx (s.chainOf p.1.tcb) ++ [s.bornOf p.1.tcb], .record cl p.2 p.1)

/-- The work of one cluster: its records and the tasks that its cores could take. -/
def State.clusterWork (s : State) (cl : Nat) : List (List Nat × Work) :=
  s.recordWork cl ++ s.tasks.filterMap fun t => s.taskWork ((List.range 32).map (32 * cl + ·)) t.1 t.2

/-- Whether a piece of work can be done as things stand. -/
def State.fitsNow (s : State) : Work → Bool
  | .record cl _ r => (s.cluster cl).cqbase.getLsbD 0 && (s.coresOf r).any fun c => s.coreRuns r c
  | _ => true

/-- The work of the module that can be done as things stand. -/
def State.moduleWork (s : State) : List (List Nat × Work) :=
  (s.clusters.flatMap fun k => s.recordWork k.1).filter (fun w => s.fitsNow w.2) ++
    s.tasks.filterMap fun t => s.taskWork (List.range 512) t.1 t.2

/-- A READY task taken: its TCB is read and checked (R383, R385). -/
def State.takeTask (s : State) (tcb : Nat) : State :=
  match mapFind tcb s.tasks with
  | none => s
  | some t =>
    if s.poisonAt tcb 256 then s.unitFatal t.ctx 1 (s.modid * 2 ^ 40 + tcb) (s.vaOf tcb) (s.vaOf tcb)
    else
      let x := s.tcbImage tcb
      prepareTask tcb { t with image := x } ((s.setTask tcb .dispatching).updTask tcb fun t => { t with image := x })

/-- A prepared task placed (R383, R388). -/
def State.placeTask (s : State) (tcb : Nat) : State :=
  match mapFind tcb s.tasks with
  | none => s
  | some t => match s.badRcb t.chain with
    | some b => s.rcbFatal t.ctx tcb b
    | none => match t.prep.bind fun p => (s.place tcb t p).map fun s => (p, s) with
    | none => s
    | some (p, s) =>
      let places := s.placesOf tcb
      match s.finishPlaces t p places.length places.zipIdx with
      | none => (s.unplaceTask tcb).failTask tcb 0x12
      | some s =>
        let s : State := s.updTask tcb fun t => { t with cores := places }
        { s with agenda := s.agenda ++ [.dispatchComplete tcb] }

/-- The cluster with no region whose groups are leaving: the work fits. -/
def State.unvictim (s : State) (cl : Nat) : State :=
  let k := s.cluster cl
  if k.victim.isSome then s.setCluster cl { k with victim := none } else s

/-- The first piece of work of a ranked list done (R401): a task is taken or placed, or a record that some core can
run is popped; a record that lacks only a slot or room in the channel pool may have a group of lower priority leave
(R402), until it fits. -/
def workFirst (s : State) : List Work → State
  | [] => s
  | .take tcb :: _ => (s.takeTask tcb).wake
  | .place tcb :: _ => (s.placeTask tcb).wake
  | .record cl i r :: t =>
    let cs := s.coresOf r
    match s.pick (cs.filter fun c => s.coreRuns r c) with
    | some (c, s) => match mapFind r.tcb s.tasks with
      | some k => (((s.unqueue cl i).unvictim cl).popOn r c k).wake
      | none => s
    | none =>
      let wants := cs.any fun c => !s.slotOn r c && (!r.needsPart || !(s.partsFor r c).isEmpty)
      match (if wants then s.makeRoom cl r else none) with
      | some s => s
      | none => workFirst s t

/-- The task that a fired copy is still to be given, where the read of its TCB is due. -/
def State.seeks (s : State) (r : Record) : Option Word64 :=
  match r.kind with
  | .join task => if r.tcb = noTask ∧ (s.ctx r.ctx).st = .active ∧ !s.joinFar r task then some task else none
  | _ => none

/-- RECORD_POP (R210, R401, R402, R405): the cluster does the work that comes first, finds the task of a fired copy, or
discards a record whose task is gone. -/
def execRecordPop (cluster : Nat) (s : State) : Host.Outcome State Fault Refusal :=
  let q := (s.cluster cluster).queue.zipIdx.map fun p => (p.2, p.1)
  if !(s.cluster cluster).cqbase.getLsbD 0 then .next s
  else match q.find? fun p => s.orphan p.2 && (s.ctx p.2.ctx).st == .active with
    | some (i, r) => .next ((s.unqueue cluster i).discard r)
    | none => match q.findSome? fun p => (s.seeks p.2).map fun task => (p.1, p.2, task) with
    | some (i, r, task) => .next (s.adopt cluster i r task)
    | none => .next (workFirst s (ranked (s.clusterWork cluster)))

/-- DISPATCHING (R383, R401): a task that is being prepared goes on with that, and the dispatcher does the work that
comes first: it takes a READY task, places a prepared one, or pops a record. -/
def execDispatching (tcb : Nat) (s : State) : Host.Outcome State Fault Refusal :=
  match mapFind tcb s.tasks with
  | none => .next s
  | some t =>
    if (s.ctx t.ctx).st ≠ .active ∨ t.ending then .next s
    else if t.st = .ready then .next (workFirst s (ranked s.moduleWork))
    else if t.st = .dispatching then
      let s : State := if t.prep.isNone then prepareTask tcb t s else s
      .next (workFirst s (ranked s.moduleWork))
    else .next s

end Sys2Proof.Machine
end

