-- ==== Sys2Proof/Machine/Context.lean ====
section
/-! DEFINITION. The life of a context (R408, R410, R411, R422), the command area (R376) and the
service of a cluster (R404). -/

namespace Sys2Proof.Machine

/-! ## Commands of a context (R410) -/

def State.setCtx (s : State) (ctx : Nat) (c : CtxSlot) : State := { s with ctxs := mapPut ctx c s.ctxs }

/-- A command that the present state does not accept (R410). -/
def State.refuseCtx (s : State) (ctx : Nat) : State := s.setCtx ctx { s.ctx ctx with err := true }

/-- Whether a local address range lies in HBM that is in service. -/
def State.inHbm (s : State) (a n : Nat) : Bool :=
  decide (a + n ≤ 0xA000000000) && s.inService a && s.inService (a + n - 1)

/-- A vector or another virtual address that is not of its form (R408). -/
def vaddrBad (a align : Nat) : Bool := a % align != 0 || a / 2 ^ 60 != 0

/-- Whether LOAD refuses a descriptor (R408, R411). -/
def State.descBad (s : State) (x : BitVec 1024) : Bool :=
  let c : CtxSlot := { CtxSlot.new with image := x }
  let here := fun (pa n : Nat) => pa / 2 ^ 40 == s.modid && s.inHbm (pa % 2 ^ 40) n
  getF x 816 208 != 0 || getF x 58 6 != 0 || getF x 0 14 != 0
    || c.erra % 64 != 0 || c.frpool % 65536 != 0 || vaddrBad c.lsvec 4 || vaddrBad c.svec 4 || vaddrBad c.lvec 4
    || vaddrBad c.tvec 4 || c.rootRcb % 128 != 0 || c.aper % 2 ^ 33 != 0 || c.wint % 32 != 0 || c.ownt % 16 != 0
    || c.nfr == 0 || decide (65536 < c.nfr) || c.errn == 0 || decide (2 ^ 20 < c.errn)
    || !here c.ptroot (2 ^ 14) || !here c.erra (64 * c.errn)

/-- LOAD (R408, R411): the descriptor is read, checked and in force, once the module is READY
(R466). -/
def execLoad (ctx : Nat) (desc : BitVec 50) (s : State) : Host.Outcome State Fault Refusal :=
  let c := s.ctx ctx
  let pa := desc.toNat * 256
  let a := pa % 2 ^ 40
  if 16 ≤ ctx then .next s
  else if (c.st ≠ .new ∧ c.st ≠ .freed) ∨ s.boot ≠ .ready then .next (s.refuseCtx ctx)
  else if pa / 2 ^ 40 ≠ s.modid ∨ ¬ s.inHbm a 128 ∨ s.poisonAt a 128 then
    .next (s.refuseCtx ctx)
  else
    let x : BitVec 1024 := BitVec.ofNat 1024 (s.hwGet a 128)
    if s.descBad x then .next (s.refuseCtx ctx)
    else
      .next { s.setCtx ctx { CtxSlot.new with st := .loaded, desc := desc, image := x } with
        csteps := mapErase ctx s.csteps }

/-- ACTIVATE (R411): READY tasks and queued records are dispatched, and drained tasks retire. -/
def execActivate (ctx : Nat) (s : State) : Host.Outcome State Fault Refusal :=
  let c := s.ctx ctx
  if c.st ≠ .loaded then .next (s.refuseCtx ctx)
  else
    let s : State := s.setCtx ctx { c with st := .active, err := false }
    let s : State := s.tasks.foldl (fun s t =>
      if t.2.ctx ≠ ctx then s
      else if t.2.ending then { s with agenda := s.agenda ++ [.taskRetirement t.1] }
      else s.settleTask t.1) s
    .next s.wake

/-- A task in DISPATCHING back to READY (R383): what its dispatch had placed is released. -/
def State.undispatch (s : State) (tcb : Nat) (t : Task) : State :=
  let s : State := (s.unplaceTask tcb).setTask tcb .ready
  s.updTask tcb fun _ => { freshTask t.ctx t.born with slots := t.slots }

/-- QUIESCE (R411, R416): nothing new is dispatched, every group is asked to leave, every bin of the
whey store flushes. -/
def execQuiesce (ctx : Nat) (s : State) : Host.Outcome State Fault Refusal :=
  let c := s.ctx ctx
  if c.st ≠ .active then .next (s.refuseCtx ctx)
  else
    let s : State := s.setCtx ctx { c with st := .quiescing, err := false }
    let s : State := s.tasks.foldl (fun s t =>
      if t.2.ctx = ctx ∧ t.2.st = .dispatching ∧ t.2.ending = false then s.undispatch t.1 t.2 else s) s
    let ask := fun (a : Agent) => if a.ctx = ctx then { a with preq := true } else a
    let s : State := { s with cores := s.cores.map fun k => (k.1, { k.2 with groups := k.2.groups.map fun g => (g.1, ask g.2) }) }
    let s : State := s.clusters.foldl (fun s k => s.flushBins k.1 fun b => b.ctx == ctx) s
    .next s.wake

/-- QUIESCE_COMPLETE (R411): with everything saved and retired, the context is LOADED again. -/
def execQuiesceComplete (ctx : Nat) (s : State) : Host.Outcome State Fault Refusal :=
  if s.quiesced ctx then
    let s : State := s.clusters.foldl (fun s k => s.flushBins k.1 fun b => b.ctx == ctx) s
    .next (s.setCtx ctx { s.ctx ctx with st := .loaded })
  else .next s

/-- KILL (R411, R422). -/
def execKill (ctx : Nat) (s : State) : Host.Outcome State Fault Refusal :=
  if (s.ctx ctx).resident then .next ((s.setCtx ctx { s.ctx ctx with err := false }).killCtx ctx 0)
  else .next (s.refuseCtx ctx)

/-- DONE (R411): the discard of a killed context is complete, and other work may take what it held. -/
def execDone (ctx : Nat) (s : State) : Host.Outcome State Fault Refusal :=
  if (s.ctx ctx).st = .killed then .next (s.setCtx ctx { s.ctx ctx with done := true }).wake else .next s

/-- FREE (R411): every TLB entry and extent of the context is gone, and what it had left with it. -/
def execFree (ctx : Nat) (s : State) : Host.Outcome State Fault Refusal :=
  let c := s.ctx ctx
  if c.st = .loaded ∨ (c.st = .killed ∧ c.done) then
    let s : State := s.invalidate ctx (0, 2 ^ 44)
    let s : State := { s with
      ctxs := mapPut ctx { c with st := .freed, err := false, done := false, frames := [] } s.ctxs
      cores := s.cores.map fun p => (p.1, p.2.purge ctx)
      clusters := s.clusters.map fun p => (p.1, p.2.purge ctx)
      tasks := s.tasks.filter fun p => p.2.ctx != ctx
      faults := s.faults.filter fun f => f.ctx != ctx
      snaps := mapErase ctx s.snaps
      frozen := s.frozen.filter (· != ctx)
      snapEnds := s.snapEnds.filter fun e => e.ctx != ctx }
    .next s.wake
  else .next (s.refuseCtx ctx)

/-- CTXCTL_CLEAR_ERR (R410). -/
def execCtxctlClearErr (ctx : Nat) (s : State) : Host.Outcome State Fault Refusal :=
  .next (s.setCtx ctx { s.ctx ctx with err := false })

/-! ## The command area (R376) -/

/-- CMDBASE_WRITE (R376). -/
def execCmdbaseWrite (x : Word64) (s : State) : Host.Outcome State Fault Refusal :=
  let base := getF x 24 16 * 2 ^ 24
  if x.getLsbD 0 && !s.inHbm base 0xF00000 then .next s
  else .next { s with cmdbase := x &&& 0xFFFF000001 }

/-! ## The service of a cluster (R404) -/

/-- CQBASE_WRITE (R404): a write that clears `EN` while work is placed or queued there is ignored. -/
def execCqbaseWrite (cluster : Nat) (x : Word64) (s : State) : Host.Outcome State Fault Refusal :=
  let k := s.cluster cluster
  let busy := !k.queue.isEmpty || s.cores.any fun c => c.1 / 32 == cluster && !c.2.placed.isEmpty
  if !x.getLsbD 0 && k.cqbase.getLsbD 0 && busy then .next s
  else .next (s.setCluster cluster { k with cqbase := x &&& 0xFFFFFFFFE1 }).wake

end Sys2Proof.Machine
end

