-- ==== Sys2Proof/Machine/Port.lean ====
section
/-! DEFINITION. Ports (R434, R435), and what other modules and endpoints access here (R14, R377, R437,
R439). -/

namespace Sys2Proof.Machine

/-! ## The life of a link (R434) -/

/-- A port moved to another state. -/
def State.portTo (s : State) (p : Nat) (st : PortState) : State := s.setPort p { s.port p with st := st }

/-- ENABLE (R434, R435). -/
def execEnable (p : Nat) (s : State) : Host.Outcome State Fault Refusal :=
  .next (if p < 8 ∧ (s.port p).st = .down then s.portTo p .training else s)

/-- LINKUP (R434): the link is up on 1 to 8 lanes. -/
def execLinkup (p lanes : Nat) (s : State) : Host.Outcome State Fault Refusal :=
  .next (if (s.port p).st = .training ∧ 1 ≤ lanes ∧ lanes ≤ 8 then s.setPort p { s.port p with st := .linkup, lanes := lanes } else s)

/-- TRAINING_TIMEOUT (R434). -/
def execTrainingTimeout (p : Nat) (s : State) : Host.Outcome State Fault Refusal :=
  .next (if (s.port p).st = .training then s.portTo p .down else s)

/-- A port that has become JOINED: it goes on to ACTIVE where `AUTO` is 1 (R434). -/
def State.joinPort (s : State) (p : Nat) : State :=
  let x := s.port p
  let s := s.portTo p .joined
  if x.auto then { s with agenda := s.agenda ++ [.use p] } else s

/-- The end of a negotiation (R434). -/
def negotiated (s : State) (p : Nat) (ok : Bool) : State :=
  let s := s.setPort p { s.port p with negfail := !ok }
  if ok then s.joinPort p else s

/-- JOINED (R434): the peer has agreed to every service, or has refused one. -/
def execJoined (p : Nat) (ok : Bool) (s : State) : Host.Outcome State Fault Refusal :=
  .next (if (s.port p).st = .linkup then negotiated s p ok else s)

/-- NEGOTIATION_RETRY (R434): a refused negotiation again. -/
def execNegotiationRetry (p : Nat) (ok : Bool) (s : State) : Host.Outcome State Fault Refusal :=
  .next (if (s.port p).st = .linkup ∧ (s.port p).negfail then negotiated s p ok else s)

/-- USE (R434, R435): a port with fewer than 8 lanes is degraded at once. -/
def execUse (p : Nat) (s : State) : Host.Outcome State Fault Refusal :=
  .next (if (s.port p).st = .joined then
      let s : State := s.portTo p .active
      if (s.port p).lanes < 8 then { s with agenda := s.agenda ++ [.degraded p 0] } else s
    else s)

/-- DEGRADED (R434): too many retries in a window, or fewer than 8 lanes. -/
def execDegraded (p retries : Nat) (s : State) : Host.Outcome State Fault Refusal :=
  let x := s.port p
  .next (if x.st = .active ∧ (x.lanes < 8 ∨ x.degth.toNat < retries) then s.portTo p .degraded else s)

/-- DEGRADED_RECOVERY (R434): few enough retries for long enough, on 8 lanes. -/
def execDegradedRecovery (p retries : Nat) (s : State) : Host.Outcome State Fault Refusal :=
  let x := s.port p
  .next (if x.st = .degraded ∧ x.lanes = 8 ∧ 2 * retries < x.degth.toNat then s.portTo p .active else s)

/-- PORT_DRAIN (R434, R435). -/
def execPortDrain (p : Nat) (s : State) : Host.Outcome State Fault Refusal :=
  let x := s.port p
  .next (if x.st = .active ∨ x.st = .degraded then s.portTo p .draining else s)

/-- PORT_DRAIN_DONE (R434). -/
def execPortDrainDone (p : Nat) (s : State) : Host.Outcome State Fault Refusal :=
  .next (if (s.port p).st = .draining then s.joinPort p else s)

/-- A port taken down, with no lane up. -/
def State.portDown (s : State) (p : Nat) : State :=
  if (s.port p).st = .down then s else s.setPort p { s.port p with st := .down, lanes := 0 }

/-- DISABLE (R434, R435). -/
def execDisable (p : Nat) (s : State) : Host.Outcome State Fault Refusal := .next (s.portDown p)

/-- LINK_LOSS (R434). What was sent and not acknowledged goes out again on other ports, which nothing
shows (R436). -/
def execLinkLoss (p : Nat) (s : State) : Host.Outcome State Fault Refusal := .next (s.portDown p)

/-- LINK_LEVEL_RETRY (R435). -/
def execLinkLevelRetry (p : Nat) (s : State) : Host.Outcome State Fault Refusal :=
  .next (s.setPort p { s.port p with retry := (s.port p).retry + 1 })

/-! ## Inbound accesses (R14, R377, R437, R439) -/

/-- An entry of the endpoint table, and its flags. -/
def State.endpt (s : State) (e : Nat) : BitVec 256 := mapGet 0 s.endpts e
def State.endptV (s : State) (e : Nat) : Bool := (s.endpt e).getLsbD 128
def State.endptCmdr (s : State) (e : Nat) : Bool := s.endptV e && (s.endpt e).getLsbD 129
def State.endptPeer (s : State) (e : Nat) : Bool := s.endptV e && (s.endpt e).getLsbD 130

/-- Whether the module listens to an endpoint at all: its entry is valid (R437), and not while the boot
has failed (R466). -/
def State.hears (s : State) (e : Nat) : Bool := s.endptV e && s.boot != .bootfail

/-- An answer to a request of an endpoint. -/
def State.answerEndpt (s : State) (e tag : Nat) (fields : List Nat) : State :=
  { s with outbox := s.outbox ++ [{ kind := .reply, dst := e, fields := tag :: fields }] }

/-- Where an inbound access may go: HBM in service, or the alias of the command area for a write or an
atomic of an endpoint with command right (R14, R25, R377). -/
def State.inboundAt (s : State) (src addr n : Nat) (write : Bool) : Option Nat :=
  if addr < 0xA000000000 then (if s.inHbm addr n then some addr else none)
  else if 0xFE01000000 ≤ addr ∧ addr + n ≤ 0xFE01F00000 ∧ write ∧ s.endptCmdr src then
    match s.locOf addr with
    | .hbm a => some a
    | _ => none
  else none

/-- The parts of `n` bytes at an address that lie in one block of 256 bytes each, which one channel serves (R17): address
and length. -/
def blocksOf (a n : Nat) : List (Nat × Nat) :=
  (List.range ((a % 256 + n + 255) / 256)).map fun i =>
    let lo := max a (a / 256 * 256 + 256 * i)
    (lo, min (a + n) (a / 256 * 256 + 256 * (i + 1)) - lo)

/-- An inbound access to the memory. It waits while any granule that it writes holds it, or any channel that it reaches is
retraining (R429, R457), and a long write goes to each channel by itself. -/
def State.atBlocks (s : State) (ctx a n : Nat) (acc : Acc) : State × PRes :=
  let bs := blocksOf a n
  match if acc.kind.writes then bs.findSome? fun b => s.frozenAt b.1 else none with
  | some f => (s.holdWrite f.1 f.2, .busy)
  | none =>
    if bs.any fun b => s.trainingAt b.1 then (s, .busy)
    else match acc with
      | .store x => bs.foldl (fun r b => match r with
          | (s, .poisoned) => (s, .poisoned)
          | (s, _) => s.atHbm (unitReq ctx true) 0 b.1 b.2 false (.store (x / 256 ^ (b.1 - a) % 256 ^ b.2))) (s, .val 0 0)
      | _ => s.atHbm (unitReq ctx true) 0 a n false acc

/-- The word of another module that a record whose `TASK` is a task dispatched here has fired there (R404). -/
def State.firedAway (s : State) (ctx addr : Nat) : State :=
  match s.locOf addr with
  | .hbm b => match mapFind b s.tasks with
    | some t => if t.ctx = ctx then ({ s with tasks := mapPut b { t with armed := t.armed - 1 } s.tasks } : State).settleTask b else s
    | none => s
  | _ => s

/-- An inbound access performed, or refused where it may not go; one that must wait is told so once and
comes again as `again` (R429). -/
def inbound (s : State) (src tag ctx addr n : Nat) (acc : Acc) (held : Bool) (again : Instr) : State :=
  match s.inboundAt src addr n (acc.kind != .load && acc.kind != .probe) with
  | none => s.answerEndpt src tag [0]
  | some a =>
    match s.atBlocks ctx a n acc with
    | (s, .val x f) => s.answerEndpt src tag [1, x, f.toNat]
    | (s, .poisoned) => s.answerEndpt src tag [2]
    | (s, .busy) =>
      let s : State := if held then s else s.answerEndpt src tag [3]
      { s with agenda := s.agenda ++ [again] }
    | (s, _) => s.answerEndpt src tag [0]

/-- INBOUND_RDMA (R14, R437, R439): reads, writes, and atomics of 4 or 8 bytes; the whole-object
atomics of barriers, CDEC and completions, and the word of a record that has fired (code 24, R404), only from a peer. -/
def execInboundRdma (src tag ctx addr n code x c r : Nat) (held : Bool) (s : State) : Host.Outcome State Fault Refusal :=
  let atomic := decide (2 ≤ code ∧ code < 10) && (n == 4 || n == 8) && addr % n == 0
  let object := decide (16 ≤ code) && s.endptPeer src && addr % 16 == 0
  if !s.hears src then .next s
  else if code = 24 ∧ s.endptPeer src then .next ((s.firedAway ctx addr).answerEndpt src tag [1, 0, 0])
  else if code < 2 ∨ atomic = true ∨ object = true then
    .next (inbound s src tag ctx addr n (accOf code x c r) held (.inboundRdma src tag ctx addr n code x c r true))
  else .next (s.answerEndpt src tag [0])

/-- REMOTE_ATOMF (R437, R439): a peer message, which is dropped where its sender is no peer. -/
def execRemoteAtomf (src : Nat) (tag : Ticket) (addr op x rnd : Nat) (s : State) : Host.Outcome State Fault Refusal :=
  if !s.hears src ∨ !s.endptPeer src then .next s
  else if addr % 4 ≠ 0 ∨ 4 ≤ op then .next (s.answerEndpt src tag.tag [0])
  else .next (inbound s src tag.tag 0 addr 4 (.rmw (8 + op) rnd x 0) tag.held
    (.remoteAtomf src { tag with held := true } addr op x rnd))

end Sys2Proof.Machine
end

