-- ==== Sys2Proof/Machine/Manage.lean ====
section
/-! DEFINITION. The management of the module: module events (R461), the feature word (R470), layer
map-out (R459), start-up (R466, R467), attestation (R468), device-fatal errors (R422), and writes to
control registers (R6, R24, R471). -/

namespace Sys2Proof.Machine

/-! ## Module events (R461) -/

/-- An event entered in the ring, and sent to its endpoint. -/
def State.raiseEvent (s : State) (code slice stack chan : Nat) : State :=
  let full := s.evtail - s.evhead == 64
  let x : BitVec 128 := BitVec.ofNat 128 (code + slice % 32 * 2 ^ 8 + stack % 8 * 2 ^ 13 + chan % 32 * 2 ^ 16 + s.evseq.toNat * 2 ^ 64)
  let seq := s.evseq.toNat
  let s : State := { s with
    events := mapSet 0 s.events (s.evtail.toNat % 64) x
    evhead := if full then s.evhead + 1 else s.evhead
    evtail := s.evtail + 1, evovf := s.evovf || full, evseq := s.evseq + 1 }
  if s.evendpt = 0xFFFF then s else s.notify s.evendpt.toNat 0 code (seq % 2 ^ 32) 0 0

/-- EVHEAD_WRITE (R461): within the unread events, both ends included. -/
def execEvheadWrite (x : BitVec 16) (s : State) : Host.Outcome State Fault Refusal :=
  .next (if (x - s.evhead).toNat ≤ (s.evtail - s.evhead).toNat then { s with evhead := x } else s)

/-- OVF_CLEAR (R471). -/
def execOvfClear (s : State) : Host.Outcome State Fault Refusal := .next { s with evovf := false }

/-! ## The feature word (R470) -/

/-- FEATACC_WRITE (R470): a 1 in bit 63 clears `FERR` first; a refused value sets it. -/
def execFeataccWrite (x : Word64) (s : State) : Host.Outcome State Fault Refusal :=
  let s : State := if x.getLsbD 63 then { s with ferr := false } else s
  let v := x &&& 0x7FFFFFFFFFFFFFFF
  let busy := s.ctxs.any fun c => c.2.st != .new && c.2.st != .freed
  .next (if busy || v &&& ~~~ Config.feat != 0 || !v.getLsbD 4 then { s with ferr := true } else { s with featacc := v })

/-- MINVER_WRITE (R471). -/
def execMinverWrite (x : Word) (s : State) : Host.Outcome State Fault Refusal :=
  .next (if s.minver.toNat ≤ x.toNat then { s with minver := x } else s)

/-! ## Layer map-out (R459, R460) -/

/-- A DRAM die of a slice judged failing, where the feature is accepted (R459): MAPOUT_PENDING. -/
def State.judge (s : State) (slice stack : Nat) : State :=
  if s.featacc.getLsbD 7 && mapGet .service s.slices slice == .service then
    ({ s with slices := mapPut slice .pending s.slices, outstk := mapSet 0 s.outstk slice stack } : State).raiseEvent 1 slice stack 0
  else s

/-- CONFIRM (R459): the rebuild of a slice in PENDING begins. -/
def execConfirm (slice : Nat) (s : State) : Host.Outcome State Fault Refusal :=
  .next (if mapGet .service s.slices slice = .pending then
      { s with slices := mapPut slice .reforming s.slices, agenda := s.agenda ++ [.hotremove slice] }
    else s)

/-- Bytes of memory that become undefined (R7): each takes a free value. -/
def scrambleMem (a : Nat) : Nat → State → State
  | 0, s => s
  | n + 1, s => let v := s.free 8; scrambleMem a n { v.2 with mem := setByte v.2.mem (a + n) (BitVec.ofNat 8 v.1) }

/-- HOTREMOVE (R459): the slice is rebuilt across seven stacks, its contents undefined. -/
def execHotremove (slice : Nat) (s : State) : Host.Outcome State Fault Refusal :=
  if mapGet .service s.slices slice ≠ .reforming then .next s
  else
    let lost := fun (a : Nat) => a / 2 ^ 35 == slice
    let s : State := { s with
      slices := mapPut slice .reformed s.slices
      mem := s.mem.filter (fun c => !lost c.1)
      uo := s.uo.filter (fun u => !lost u.at_)
      stale := s.stale.filter (fun u => !lost u.at_)
      owed := s.owed.filter (fun u => !lost u.1)
      poison := s.poison.filter fun p => !lost (p * 32) }
    .next ((scrambleMem (slice * 2 ^ 35) 0x700000000 s).raiseEvent 2 slice (mapGet 0 s.outstk slice) 0)

/-! ## Device-fatal errors (R422, R466) -/

/-- FATAL (R422, R466): every context is killed, and the cause stands in the boot state. -/
def execFatal (cause : Nat) (s : State) : Host.Outcome State Fault Refusal :=
  if s.boot = .reset then .next s
  else
    let s : State := { s with boot := .fatal, cause := cause }
    .next (s.ctxs.foldl (fun s c => s.killCtx c.1 0) s)

/-- POWER_LIMIT (R27): the issue rate falls, which changes no result, and a limit that still holds is
device-fatal. -/
def execPowerLimit (still : Bool) (s : State) : Host.Outcome State Fault Refusal :=
  .next (if still then { s with agenda := s.agenda ++ [.fatal 2] } else s)

/-! ## Start-up (R466, R467) -/

/-- The bytes of an image's header. -/
def Image.bytes (i : Image) (lo n : Nat) : List Byte :=
  (List.range n).map fun j => BitVec.ofNat 8 (getF i.header (8 * (lo + j)) 8)

def Image.version (i : Image) : Nat := getF i.header 32 32

/-- Whether an image is valid (R467). -/
def Image.valid (i : Image) (minver : Word) : Bool :=
  let n := getF i.header 64 32
  getF i.header 0 32 == 0x57465A4E && n % 64 == 0 && decide (n ≤ 2 ^ 24) && i.body.length == n
    && verifies romKey (i.bytes 0 160) (getF i.header 1280 384) (getF i.header 1664 384)
    && sha384 i.body == i.bytes 16 48
    && getF i.header 96 32 == 0 && getF i.header 512 768 == 0 && decide (minver.toNat ≤ i.version)

/-- The slot that the ROM boots: true for B (R467). -/
def State.bootSlot (s : State) : Option Bool :=
  let ok := fun (i : Option Image) => (i.filter fun x => x.valid s.minver).map Image.version
  match ok s.flashA, ok s.flashB with
  | none, none => none
  | some _, none => some false
  | none, some _ => some true
  | some a, some b => some (decide (a < b))

/-- ENABLE on every port. -/
def enablePorts : List Instr := (List.range 8).map fun p => .enable p

/-- Routing endpoint 0, which the ROM writes from a valid provisioning record (R467). -/
def State.routeHost (s : State) : State :=
  match s.prov with
  | some p => { s with endpts := mapSet 0 s.endpts 0 (BitVec.ofNat 256 (p.host.toNat + 3 * 2 ^ 128)) }
  | none => s

/-- The boot has failed (R466): no image runs. -/
def State.bootFails (s : State) (cause : Nat) : State :=
  { s with boot := .bootfail, cause := cause, loaded := false, agenda := s.agenda ++ enablePorts }

/-- The boot ROM's verdict (R466, R467). Without a valid image, or without a valid provisioning record, the boot has
failed; the cause is open where both are missing. -/
def State.romBoots (s : State) : State :=
  match s.bootSlot, s.prov with
  | some b, some _ => { s with boot := .fwload, slot := b, loaded := true, agenda := s.agenda ++ [.fwload] }
  | none, some _ => s.bootFails 1
  | some _, none => s.bootFails 3
  | none, none => let c := s.choose 2; c.2.bootFails (1 + 2 * c.1)

/-- POWER_GOOD (R466): the module leaves RESET for its boot ROM, which then verifies the flash images. -/
def execPowerGood (s : State) : Host.Outcome State Fault Refusal :=
  .next (if s.boot = .reset then { s with boot := .rom, agenda := s.agenda ++ [.powerGood] }
    else if s.boot = .rom then s.routeHost.romBoots
    else s)

/-- FWLOAD (R466): the firmware has started. -/
def execFwload (s : State) : Host.Outcome State Fault Refusal :=
  .next (if s.boot = .fwload then { s with boot := .hbminit } else s)

/-- HBMINIT (R466, R467): every channel is trained, or a stack has failed. The module then has its id
and routing endpoint 0. -/
def execHbminit (ok : Bool) (s : State) : Host.Outcome State Fault Refusal :=
  if s.boot ≠ .hbminit then .next s
  else if !ok then .next (s.bootFails 2)
  else
    let p := s.prov.getD { modid := 0, own := 0, host := 0 }
    .next { s.routeHost with boot := .links, modid := p.modid.toNat, agenda := s.agenda ++ enablePorts ++ [.links] }

/-- LINKS (R466): the firmware is ready. -/
def execLinks (s : State) : Host.Outcome State Fault Refusal :=
  .next (if s.boot = .links then { s with boot := .ready } else s)

/-- The module after a reset (R466): what it holds for good is kept, and what has been sent stays
sent. Power is good, so that it starts again. -/
def State.restart (s : State) : State :=
  { State.reset with
    flashA := s.flashA, flashB := s.flashB, prov := s.prov, minver := s.minver
    outbox := s.outbox, ntag := s.ntag, freeCtr := s.freeCtr, agenda := [.powerGood] }

/-- BOOTCMD_RESET (R466). -/
def execBootcmdReset (s : State) : Host.Outcome State Fault Refusal := .next s.restart

/-- RESET_SEND (R468): from an endpoint with command right. -/
def execResetSend (src : Nat) (s : State) : Host.Outcome State Fault Refusal :=
  .next (if s.endptCmdr src then s.restart else s)

/-! ## Attestation (R468) -/

/-- The `n` bytes of a number, the lowest first. -/
def leBytes (n x : Nat) : List Byte := (List.range n).map fun i => BitVec.ofNat 8 (x / 256 ^ i)

/-- The image that runs: none before the firmware is loaded, and none in BOOTFAIL. -/
def State.running (s : State) : Option Image :=
  if !s.loaded then none else if s.slot then s.flashB else s.flashA

/-- The report (R468). -/
def attestReport (s : State) (nonce : BitVec 256) : List Byte :=
  let i := s.running
  let body := leBytes 4 1 ++ leBytes 4 s.modid ++ leBytes 8 Config.feat.toNat ++ leBytes 8 (s.mgmtWord 0x008)
    ++ leBytes 8 ((i.map Image.version).getD 0) ++ leBytes 32 nonce.toNat
    ++ ((i.map fun i => i.bytes 16 48).getD (List.replicate 48 0)) ++ leBytes 8 (s.mgmtWord 0x010) ++ List.replicate 72 0
  let g := signId body
  body ++ leBytes 48 g.1 ++ leBytes 48 g.2

/-- A request that waits for its report; a fifth is refused. -/
def State.askReport (s : State) (dst : Nat) (nonce : BitVec 256) : Option State :=
  if s.attreqs.length < 4 then
    some { s with attreqs := s.attreqs ++ [(dst, nonce)], agenda := s.agenda ++ [.attestationRequest none] }
  else none

/-- ATTESTATION_REQUEST (R468): a type-9 send of an endpoint with command right joins the requests that
wait, or, without one, the report of the oldest goes out. -/
def execAttestationRequest (req : Option (Nat × BitVec 256)) (s : State) : Host.Outcome State Fault Refusal :=
  .next (match req with
    | some (src, nonce) =>
      if !s.endptCmdr src then s else (s.askReport src nonce).getD (s.answerEndpt src 0 [0])
    | none => match s.attreqs with
      | [] => s
      | (dst, nonce) :: t =>
        { s with attreqs := t, outbox := s.outbox ++ [{ kind := .attestation, dst := dst, fields := (attestReport s nonce).map BitVec.toNat }] })

/-- GO (R468): a supervisor asks for a report to an endpoint. -/
def execGo (x : Word64) (s : State) : Host.Outcome State Fault Refusal :=
  let s : State := { s with attendpt := x.setWidth 16 }
  .next (if x.getLsbD 16 then (s.askReport s.attendpt.toNat s.attnonce).getD s else s)

/-! ## Writes to other control registers (R6, R24) -/

/-- The writable fields of a register of the block of a die (R435, R437, R454). -/
def writeDie (d r x : Nat) (s : State) : State :=
  let w : Word64 := BitVec.ofNat 64 x
  let g := r % 0x1000000
  if 0x2000000 ≤ r ∧ r < 0x4000000 then
    let k := 2 * d + (r - 0x2000000) / 0x1000000
    let h := s.hbmOf k
    if g = 0 then s.setHbm k { h with bud := w &&& 0xFFFFFFFFFFFF }
    else if g = 8 then s.setHbm k { h with ctl := w &&& 0xFFFFFFFFFF00 }
    else if 0x1000 ≤ g ∧ g < 0x1100 then s.setHbm k { h with miss := mapSet 0 h.miss ((g - 0x1000) / 8) w }
    else s
  else if 0x4000000 ≤ r ∧ r < 0x6000000 ∧ g = 0 then
    let p := 2 * d + (r - 0x4000000) / 0x1000000
    let q : Port := { s.port p with degth := BitVec.ofNat 16 (x / 2 ^ 16), auto := w.getLsbD 8 }
    let s := s.setPort p q
    if q.auto && q.st == .joined then { s with agenda := s.agenda ++ [.use p] } else s
  else if d = 0 ∧ 0x7000000 ≤ r ∧ r < 0x7100000 then
    let m := (r - 0x7000000) / 4
    let e := fun (y : Nat) => (BitVec.ofNat 32 y : Word) &&& 0x8000FFFF
    { s with modmap := mapSet 0 (mapSet 0 s.modmap m (e x)) (m + 1) (e (x / 2 ^ 32)) }
  else if d = 0 ∧ 0x7100000 ≤ r ∧ r < 0x72FFFE0 then
    let i := (r - 0x7100000) / 32
    { s with endpts := mapSet 0 s.endpts i (setF (mapGet 0 s.endpts i) (r % 32 * 8) 64 x &&& BitVec.ofNat 256 (2 ^ 131 - 1)) }
  else s

/-- REGISTER_WRITE (R6, R230, R410, R424, R437, R471): a register without an event of its own. -/
def execRegisterWrite (off _n x : Nat) (s : State) : Host.Outcome State Fault Refusal :=
  .next (
    if off = 0x030 then { s with evendpt := BitVec.ofNat 16 x }
    else if 0x100 ≤ off ∧ off < 0x120 then { s with attnonce := setF s.attnonce ((off - 0x100) * 8) 64 x }
    else if 0x2001000 ≤ off ∧ off < 0x2001080 then s.refuseCtx ((off - 0x2001000) / 8)
    else if off = 0x3000008 then ({ s with snshare := BitVec.ofNat 7 x } : State).due .drainStart
    else if 0x10000000 ≤ off ∧ off < 0x50000000 then writeDie (off / 0x10000000 - 1) (off % 0x10000000) x s
    else if 0x50000000 ≤ off ∧ off < 0x60000000 ∧ off % 0x1000000 = 0x400000 then
      let c := off / 0x1000000 % 16
      s.setCluster c { s.cluster c with idle := BitVec.ofNat 16 (x / 2) }
    else s)

end Sys2Proof.Machine
end

