-- ==== Sys2Proof/Machine/Reliability.lean ====
section
/-! DEFINITION. The memory stack and the strike defence: refresh and self-refresh (R455, R456), command
parity (R457), scrub (R458), strikes, commits and replay (R462 to R465). -/

namespace Sys2Proof.Machine

/-! ## The HBM controllers -/

/-- REFRESH (R455): it changes no data and no other state; bursts that it splits return the same. -/
def execRefresh (_stack _chan : Nat) (s : State) : Host.Outcome State Fault Refusal := .next s

/-- SELF_REFRESH (R456): a pseudo-channel that has been idle for `SRIDLE` × 256 clocks. -/
def execSelfRefresh (stack pc idle : Nat) (s : State) : Host.Outcome State Fault Refusal :=
  let h := s.hbmOf stack
  let n := getF h.ctl 32 16
  .next (if n ≠ 0 ∧ 256 * n ≤ idle ∧ ¬ h.asleep.contains pc then s.setHbm stack { h with asleep := h.asleep ++ [pc] } else s)

/-- PARITY_ALERT (R457): the command and every later one are replayed. The third failure of one command
running degrades the channel, whose interface is retrained; one after that takes it out. -/
def execParityAlert (stack chan : Nat) (again : Bool) (s : State) : Host.Outcome State Fault Refusal :=
  let h := s.hbmOf stack
  let n := if again then mapGet 0 h.fails chan + 1 else 1
  let trained := if again then h.trained else h.trained.filter (· != chan)
  let s : State := s.setHbm stack { h with parcnt := h.parcnt + 1, fails := mapSet 0 h.fails chan n, trained := trained }
  .next (if trained.contains chan then { s with agenda := s.agenda ++ [.chanout stack chan] }
    else if n = 3 then
      let k := s.hbmOf stack
      (s.setHbm stack { k with deg := k.deg ||| BitVec.twoPow 32 chan, training := k.training ++ [chan] }).raiseEvent 3 0 stack chan
    else s)

/-- CHANNEL_RETRAIN_DONE (R457): the requests of the channel are served again. -/
def execChannelRetrainDone (stack chan : Nat) (s : State) : Host.Outcome State Fault Refusal :=
  let h := s.hbmOf stack
  .next (if h.training.contains chan then
      s.setHbm stack { h with training := h.training.filter (· != chan), trained := h.trained ++ [chan] }
    else s)

/-- CHANOUT (R457): a channel that fails after its retraining, or is not retrained in time, is out of
service. -/
def execChanout (stack chan : Nat) (s : State) : Host.Outcome State Fault Refusal :=
  let h := s.hbmOf stack
  .next (if h.training.contains chan || h.trained.contains chan then
      (s.setHbm stack { h with
        out := h.out ||| BitVec.twoPow 32 chan, training := h.training.filter (· != chan)
        trained := h.trained.filter (· != chan) }).raiseEvent 4 0 stack chan
    else s)

/-- The words of a block that a mask of eight bits names. -/
def maskWords (m : BitVec 8) : List Nat := (List.range 8).filter fun i => m.getLsbD i

/-- Corrected errors counted (R458, R459): in `CECNT`, and among those of a die within the last 2³² controller clocks. How
many of its earlier ones still lie within them is open. -/
def State.countErrors (s : State) (stack layer n : Nat) : State :=
  if n = 0 then s
  else
    let f := s.choose (mapGet 0 (s.hbmOf stack).errs layer + 1)
    let h := f.2.hbmOf stack
    f.2.setHbm stack { h with cecnt := h.cecnt + BitVec.ofNat 32 n, errs := mapSet 0 h.errs layer (f.1 + n) }

/-- SCRUB (R458, R459): the 256-byte block of an address is read; the words `fixed` are written back corrected, and those
`lost` with the poison mark, and no value changes. `again` says that a second read of a lost word has confirmed the error. Where
scrub is off, what reads the block is a request, which finds the same errors and confirms none. In the window of a core
it is an SRAM that has lost words of 8 bytes, in the 64 bytes of the address (R421). -/
def execScrub (addr : Nat) (fixed lost : BitVec 8) (again : Bool) (s : State) : Host.Outcome State Fault Refusal :=
  .next (match s.locOf addr with
    | .hbm a =>
      let k := s.stackOf a
      let b := a / 256 * 8
      let bad := ((maskWords lost).map (b + ·)).filter fun w => !s.poison.contains w
      let s : State := (({ s with poison := s.poison ++ bad } : State).countErrors k.1 k.2.1 (maskWords fixed).length)
      let many := decide (256 < mapGet 0 (s.hbmOf k.1).errs k.2.1)
      if many || (again && lost != 0 && getF (s.hbmOf k.1).ctl 8 8 != 0) then s.judge k.2.1 k.1 else s
    | .spad c o =>
      let q := s.core c
      let bad := ((maskWords lost).map (o / 64 * 8 + ·)).filter fun w => !q.spoison.contains w
      s.setCore c { q with spoison := q.spoison ++ bad }
    | .win c o =>
      let q := s.core c
      let bad := ((maskWords lost).map (o / 64 * 8 + ·)).filter fun w => !q.lost.contains w
      s.setCore c { q with lost := q.lost ++ bad }
    | _ => s)

/-! ## The strike defence -/

/-- The uncommitted results of a core squashed and computed again (R201, R464): they come out the same,
and a reservation whose LR was among them is lost. -/
def State.squash (s : State) (core : Nat) : State :=
  let hit := fun (p : List Resv × State) (v : Resv) =>
    if v.id.core = core then
      let c := p.2.choose 2
      (if c.1 = 0 then p.1 ++ [v] else p.1, c.2)
    else (p.1 ++ [v], p.2)
  let r := s.resvs.foldl hit ([], s)
  { r.2 with resvs := r.1 }

/-- STRIKE (R464, R465): counted; with the feature accepted it squashes, and else it raises a STRIKE
event. -/
def execStrike (core : Nat) (s : State) : Host.Outcome State Fault Refusal :=
  let k := s.core core
  let s := s.setCore core { k with strk := k.strk + 1 }
  .next (if s.featacc.getLsbD 6 then s.squash core else s.raiseEvent 5 0 0 0)

/-- RESULT_COMMIT (R463): a result that its group has read since it was made becomes visible to the
others. The model shows each result to everyone as soon as it is made, which no other agent can tell
from a later commit. -/
def execResultCommit (_core : Nat) (s : State) : Host.Outcome State Fault Refusal := .next s

/-- REPLAY (R465): an idle beat of a lane of a core takes the oldest unchecked entry of the partner lane. A mismatch
squashes within the window, and after commit halts the group. -/
def execReplay (beat : Nat × Nat) (bad late : Bool) (s : State) : Host.Outcome State Fault Refusal :=
  let k := s.core beat.1
  let l := (beat.2 + 16) % 32
  match mapGet [] k.beats l with
  | [] => .next s
  | i :: t =>
    if !s.featacc.getLsbD 6 then .next s
    else
      let k := { k with beats := mapSet [] k.beats l t, rchk := k.rchk + 1 }
      .next (if !bad then s.setCore beat.1 k
        else if !late then (s.setCore beat.1 { k with rmisw := k.rmisw + 1 }).squash beat.1
        else
          let s := s.setCore beat.1 { k with rmisc := k.rmisc + 1 }
          let id : AgentId := { core := beat.1, idx := i }
          match s.agent id with
          | some a => s.halt id a 4 0 0
          | none => s)

end Sys2Proof.Machine
end

