-- ==== Sys2Proof/Machine/Dispatch.lean ====
section
/-! DEFINITION. The meaning of every instruction and event of the opcode table, one arm each. -/

namespace Sys2Proof.Machine

def exec (i : Instr) (s : State) : Host.Outcome State Fault Refusal :=
  match i with
  | .nop sb u => Sys2Proof.Machine.execNop sb u s
  | .pfx m z r c x => Sys2Proof.Machine.execPfx m z r c x s
  | .dictPairWord w => Sys2Proof.Machine.execDictPairWord w s
  | .clauseFetch => Sys2Proof.Machine.execClauseFetch s
  | .add sb u q t d a b => Sys2Proof.Machine.execAdd sb u q t d a b s
  | .sub sb u q t d a b => Sys2Proof.Machine.execSub sb u q t d a b s
  | .mul sb u q t d a b => Sys2Proof.Machine.execMul sb u q t d a b s
  | .mulh sb u t d a b => Sys2Proof.Machine.execMulh sb u t d a b s
  | .mad sb u q t d a b => Sys2Proof.Machine.execMad sb u q t d a b s
  | .min sb u t d a b => Sys2Proof.Machine.execMin sb u t d a b s
  | .max sb u t d a b => Sys2Proof.Machine.execMax sb u t d a b s
  | .absd sb u t d a b => Sys2Proof.Machine.execAbsd sb u t d a b s
  | .div sb u t d a b => Sys2Proof.Machine.execDiv sb u t d a b s
  | .rem sb u t d a b => Sys2Proof.Machine.execRem sb u t d a b s
  | .logic sb u f d a b => Sys2Proof.Machine.execLogic sb u f d a b s
  | .shift sb u e p d a b => Sys2Proof.Machine.execShift sb u e p d a b s
  | .bits sb u f d a => Sys2Proof.Machine.execBits sb u f d a s
  | .bfx sb u e d a b => Sys2Proof.Machine.execBfx sb u e d a b s
  | .bfi sb u d a b => Sys2Proof.Machine.execBfi sb u d a b s
  | .perm sb u d a b => Sys2Proof.Machine.execPerm sb u d a b s
  | .sel sb m d a b => Sys2Proof.Machine.execSel sb m d a b s
  | .cmp sb u c y d a b => Sys2Proof.Machine.execCmp sb u c y d a b s
  | .fclass sb u t d a => Sys2Proof.Machine.execFclass sb u t d a s
  | .fsgn sb u o t d a b => Sys2Proof.Machine.execFsgn sb u o t d a b s
  | .sfu sb h f d a => Sys2Proof.Machine.execSfu sb h f d a s
  | .dot sb f d a b => Sys2Proof.Machine.execDot sb f d a b s
  | .mov sb u d a => Sys2Proof.Machine.execMov sb u d a s
  | .bcast sb d g => Sys2Proof.Machine.execBcast sb d g s
  | .movi sb u d imm => Sys2Proof.Machine.execMovi sb u d imm s
  | .movh sb u d imm => Sys2Proof.Machine.execMovh sb u d imm s
  | .addi sb u d a imm => Sys2Proof.Machine.execAddi sb u d a imm s
  | .lea sb u h d a b => Sys2Proof.Machine.execLea sb u h d a b s
  | .cvt sb u n d a t y => Sys2Proof.Machine.execCvt sb u n d a t y s
  | .qscl sb e d a => Sys2Proof.Machine.execQscl sb e d a s
  | .qenc sb e d a b => Sys2Proof.Machine.execQenc sb e d a b s
  | .qdec sb e d a b => Sys2Proof.Machine.execQdec sb e d a b s
  | .ald sb l a => Sys2Proof.Machine.execAld sb l a s
  | .rget sb l d a b => Sys2Proof.Machine.execRget sb l d a b s
  | .rset sb l d a b => Sys2Proof.Machine.execRset sb l d a b s
  | .runpk sb l d a b => Sys2Proof.Machine.execRunpk sb l d a b s
  | .rpack sb l d a b => Sys2Proof.Machine.execRpack sb l d a b s
  | .rdot sb q y x d a b => Sys2Proof.Machine.execRdot sb q y x d a b s
  | .rsum sb l d a b => Sys2Proof.Machine.execRsum sb l d a b s
  | .rchk sb l d a => Sys2Proof.Machine.execRchk sb l d a s
  | .rmap sb l d a k => Sys2Proof.Machine.execRmap sb l d a k s
  | .rcnt sb l d a b => Sys2Proof.Machine.execRcnt sb l d a b s
  | .symld sb l o c d b x => Sys2Proof.Machine.execSymld sb l o c d b x s
  | .symst sb l o c d b x => Sys2Proof.Machine.execSymst sb l o c d b x s
  | .shfl sb f d a b => Sys2Proof.Machine.execShfl sb f d a b s
  | .bfly sb w k d a => Sys2Proof.Machine.execBfly sb w k d a s
  | .vote sb f d a => Sys2Proof.Machine.execVote sb f d a s
  | .redg sb o d a => Sys2Proof.Machine.execRedg sb o d a s
  | .scang sb e o d a => Sys2Proof.Machine.execScang sb e o d a s
  | .lane sb d a b => Sys2Proof.Machine.execLane sb d a b s
  | .lmap sb f d a b => Sys2Proof.Machine.execLmap sb f d a b s
  | .br sb k a o => Sys2Proof.Machine.execBr sb k a o s
  | .brd sb t m o => Sys2Proof.Machine.execBrd sb t m o s
  | .jmp sb a => Sys2Proof.Machine.execJmp sb a s
  | .jmpd sb t a b => Sys2Proof.Machine.execJmpd sb t a b s
  | .call sb d a => Sys2Proof.Machine.execCall sb d a s
  | .loop sb d a => Sys2Proof.Machine.execLoop sb d a s
  | .ctlYield sb => Sys2Proof.Machine.execCtlYield sb s
  | .ctlExit sb => Sys2Proof.Machine.execCtlExit sb s
  | .ctlJoinp sb => Sys2Proof.Machine.execCtlJoinp sb s
  | .ctlTrap sb a => Sys2Proof.Machine.execCtlTrap sb a s
  | .ctlBkpt sb => Sys2Proof.Machine.execCtlBkpt sb s
  | .ld sb u z o c d b x => Sys2Proof.Machine.execLd sb u z o c d b x s
  | .st sb u z o c d b x => Sys2Proof.Machine.execSt sb u z o c d b x s
  | .atom sb u p o c d b x => Sys2Proof.Machine.execAtom sb u p o c d b x s
  | .atom64 sb u p o c d b x => Sys2Proof.Machine.execAtom64 sb u p o c d b x s
  | .atomf sb u p o c d b x => Sys2Proof.Machine.execAtomf sb u p o c d b x s
  | .lr sb u o c d b x => Sys2Proof.Machine.execLr sb u o c d b x s
  | .sc sb u m o c d b x => Sys2Proof.Machine.execSc sb u m o c d b x s
  | .fence sb o c => Sys2Proof.Machine.execFence sb o c s
  | .pref sb u c b x => Sys2Proof.Machine.execPref sb u c b x s
  | .ldc sb u z o c d b x => Sys2Proof.Machine.execLdc sb u z o c d b x s
  | .stc sb u z o c d b x => Sys2Proof.Machine.execStc sb u z o c d b x s
  | .cntw sb f => Sys2Proof.Machine.execCntw sb f s
  | .bari sb d a b => Sys2Proof.Machine.execBari sb d a b s
  | .bara sb d a => Sys2Proof.Machine.execBara sb d a s
  | .barw sb d a b => Sys2Proof.Machine.execBarw sb d a b s
  | .bars sb d a => Sys2Proof.Machine.execBars sb d a s
  | .barq sb d a => Sys2Proof.Machine.execBarq sb d a s
  | .sigr sb a b => Sys2Proof.Machine.execSigr sb a b s
  | .sigw sb d => Sys2Proof.Machine.execSigw sb d s
  | .spawn sb a b => Sys2Proof.Machine.execSpawn sb a b s
  | .joinc sb d a b => Sys2Proof.Machine.execJoinc sb d a b s
  | .cdec sb d a => Sys2Proof.Machine.execCdec sb d a s
  | .cr sb d r => Sys2Proof.Machine.execCr sb d r s
  | .crW sb a r => Sys2Proof.Machine.execCrW sb a r s
  | .tdef sb d a => Sys2Proof.Machine.execTdef sb d a s
  | .tsetEmpty sb d => Sys2Proof.Machine.execTsetEmpty sb d s
  | .tsetReady sb d => Sys2Proof.Machine.execTsetReady sb d s
  | .tld sb t d a b => Sys2Proof.Machine.execTld sb t d a b s
  | .tst sb d a b => Sys2Proof.Machine.execTst sb d a b s
  | .mmq sb l f d a b => Sys2Proof.Machine.execMmq sb l f d a b s
  | .mmt sb d a => Sys2Proof.Machine.execMmt sb d a s
  | .mms sb d a => Sys2Proof.Machine.execMms sb d a s
  | .mnorm sb d a => Sys2Proof.Machine.execMnorm sb d a s
  | .aliasTab sb d a => Sys2Proof.Machine.execAliasTab sb d a s
  | .accz sb d => Sys2Proof.Machine.execAccz sb d s
  | .accr sb d a b => Sys2Proof.Machine.execAccr sb d a b s
  | .drain sb r d a b => Sys2Proof.Machine.execDrain sb r d a b s
  | .txp sb d a => Sys2Proof.Machine.execTxp sb d a s
  | .varr sb d a => Sys2Proof.Machine.execVarr sb d a s
  | .tq sb d q => Sys2Proof.Machine.execTq sb d q s
  | .itnew sb f d a => Sys2Proof.Machine.execItnew sb f d a s
  | .itadd sb f d a b => Sys2Proof.Machine.execItadd sb f d a b s
  | .next sb f c a m => Sys2Proof.Machine.execNext sb f c a m s
  | .enough sb d => Sys2Proof.Machine.execEnough sb d s
  | .itsave sb d a b => Sys2Proof.Machine.execItsave sb d a b s
  | .itload sb d a => Sys2Proof.Machine.execItload sb d a s
  | .itq sb d a => Sys2Proof.Machine.execItq sb d a s
  | .cpy sb k q g => Sys2Proof.Machine.execCpy sb k q g s
  | .qfence sb m => Sys2Proof.Machine.execQfence sb m s
  | .qwait sb d a b => Sys2Proof.Machine.execQwait sb d a b s
  | .coll sb k q g => Sys2Proof.Machine.execColl sb k q g s
  | .snapFreeze sb d a b => Sys2Proof.Machine.execSnapFreeze sb d a b s
  | .snapQuery sb d => Sys2Proof.Machine.execSnapQuery sb d s
  | .snapRelease sb d => Sys2Proof.Machine.execSnapRelease sb d s
  | .sysCsrr sb d r => Sys2Proof.Machine.execSysCsrr sb d r s
  | .sysCsrw sb a r => Sys2Proof.Machine.execSysCsrw sb a r s
  | .sysEret sb => Sys2Proof.Machine.execSysEret sb s
  | .sysTlbinv sb a b => Sys2Proof.Machine.execSysTlbinv sb a b s
  | .sysXtinv sb a b => Sys2Proof.Machine.execSysXtinv sb a b s
  | .sysFrame sb a b => Sys2Proof.Machine.execSysFrame sb a b s
  | .sysHaltg sb d a => Sys2Proof.Machine.execSysHaltg sb d a s
  | .sysDictld sb a => Sys2Proof.Machine.execSysDictld sb a s
  | .trapEntry a => Sys2Proof.Machine.execTrapEntry a s
  | .preempt a => Sys2Proof.Machine.execPreempt a s
  | .park a => Sys2Proof.Machine.execPark a s
  | .faultRequest ctx va kind from_ => Sys2Proof.Machine.execFaultRequest ctx va kind from_ s
  | .faultReplyResolved ctx gran leaf => Sys2Proof.Machine.execFaultReplyResolved ctx gran leaf s
  | .faultReplyRefused ctx gran => Sys2Proof.Machine.execFaultReplyRefused ctx gran s
  | .faultNak w ctx va => Sys2Proof.Machine.execFaultNak w ctx va s
  | .forwardedAccess src tag ctx va n h code x c r => Sys2Proof.Machine.execForwardedAccess src tag ctx va n h code x c r s
  | .retired ctx gran => Sys2Proof.Machine.execRetired ctx gran s
  | .remoteAccessTimeout w => Sys2Proof.Machine.execRemoteAccessTimeout w s
  | .extentRetranslate core lctx vpn => Sys2Proof.Machine.execExtentRetranslate core lctx vpn s
  | .accessReply a tag ans => Sys2Proof.Machine.execAccessReply a tag ans s
  | .storeAck a lctx tcb tag n ok => Sys2Proof.Machine.execStoreAck a lctx tcb tag n ok s
  | .recordPop cluster => Sys2Proof.Machine.execRecordPop cluster s
  | .wheySpawn cluster => Sys2Proof.Machine.execWheySpawn cluster s
  | .idle cluster bin => Sys2Proof.Machine.execIdle cluster bin s
  | .flush cluster => Sys2Proof.Machine.execFlush cluster s
  | .dispatching tcb => Sys2Proof.Machine.execDispatching tcb s
  | .dispatchComplete tcb => Sys2Proof.Machine.execDispatchComplete tcb s
  | .launchRecordQueue tcb => Sys2Proof.Machine.execLaunchRecordQueue tcb s
  | .taskRetirement tcb => Sys2Proof.Machine.execTaskRetirement tcb s
  | .rcbFold => Sys2Proof.Machine.execRcbFold s
  | .queueEntryActivate core q => Sys2Proof.Machine.execQueueEntryActivate core q s
  | .engineElement core q => Sys2Proof.Machine.execEngineElement core q s
  | .completionWrite core q => Sys2Proof.Machine.execCompletionWrite core q s
  | .engineTimeout core q => Sys2Proof.Machine.execEngineTimeout core q s
  | .tileRowArrival core tile => Sys2Proof.Machine.execTileRowArrival core tile s
  | .tileDrainDone core tag => Sys2Proof.Machine.execTileDrainDone core tag s
  | .iteratorPrefetch core slot => Sys2Proof.Machine.execIteratorPrefetch core slot s
  | .signalReceive w msg => Sys2Proof.Machine.execSignalReceive w msg s
  | .collDataFlit f => Sys2Proof.Machine.execCollDataFlit f s
  | .holdFlit core q => Sys2Proof.Machine.execHoldFlit core q s
  | .hopTimeout core q pos => Sys2Proof.Machine.execHopTimeout core q pos s
  | .abortFlit key src orig suspect => Sys2Proof.Machine.execAbortFlit key src orig suspect s
  | .abortFlitExpiry key => Sys2Proof.Machine.execAbortFlitExpiry key s
  | .shadowCopy ctx gran => Sys2Proof.Machine.execShadowCopy ctx gran s
  | .drainStart => Sys2Proof.Machine.execDrainStart s
  | .granuleAck tag => Sys2Proof.Machine.execGranuleAck tag s
  | .enable port => Sys2Proof.Machine.execEnable port s
  | .use port => Sys2Proof.Machine.execUse port s
  | .portDrain port => Sys2Proof.Machine.execPortDrain port s
  | .disable port => Sys2Proof.Machine.execDisable port s
  | .linkup port lanes => Sys2Proof.Machine.execLinkup port lanes s
  | .trainingTimeout port => Sys2Proof.Machine.execTrainingTimeout port s
  | .joined port ok => Sys2Proof.Machine.execJoined port ok s
  | .negotiationRetry port ok => Sys2Proof.Machine.execNegotiationRetry port ok s
  | .degraded port retries => Sys2Proof.Machine.execDegraded port retries s
  | .degradedRecovery port retries => Sys2Proof.Machine.execDegradedRecovery port retries s
  | .portDrainDone port => Sys2Proof.Machine.execPortDrainDone port s
  | .linkLoss port => Sys2Proof.Machine.execLinkLoss port s
  | .inboundRdma src tag ctx addr n code x c r held => Sys2Proof.Machine.execInboundRdma src tag ctx addr n code x c r held s
  | .attestationRequest req => Sys2Proof.Machine.execAttestationRequest req s
  | .go x => Sys2Proof.Machine.execGo x s
  | .resetSend src => Sys2Proof.Machine.execResetSend src s
  | .load ctx desc => Sys2Proof.Machine.execLoad ctx desc s
  | .activate ctx => Sys2Proof.Machine.execActivate ctx s
  | .quiesce ctx => Sys2Proof.Machine.execQuiesce ctx s
  | .quiesceComplete ctx => Sys2Proof.Machine.execQuiesceComplete ctx s
  | .kill ctx => Sys2Proof.Machine.execKill ctx s
  | .done ctx => Sys2Proof.Machine.execDone ctx s
  | .free ctx => Sys2Proof.Machine.execFree ctx s
  | .ctxctlClearErr ctx => Sys2Proof.Machine.execCtxctlClearErr ctx s
  | .cmdbaseWrite x => Sys2Proof.Machine.execCmdbaseWrite x s
  | .cqbaseWrite cluster x => Sys2Proof.Machine.execCqbaseWrite cluster x s
  | .snpoolWrite x => Sys2Proof.Machine.execSnpoolWrite x s
  | .varianceRecordWrite core acc x => Sys2Proof.Machine.execVarianceRecordWrite core acc x s
  | .feataccWrite x => Sys2Proof.Machine.execFeataccWrite x s
  | .minverWrite x => Sys2Proof.Machine.execMinverWrite x s
  | .confirm slice => Sys2Proof.Machine.execConfirm slice s
  | .hotremove slice => Sys2Proof.Machine.execHotremove slice s
  | .evheadWrite x => Sys2Proof.Machine.execEvheadWrite x s
  | .ovfClear => Sys2Proof.Machine.execOvfClear s
  | .bootcmdReset => Sys2Proof.Machine.execBootcmdReset s
  | .registerWrite off n x => Sys2Proof.Machine.execRegisterWrite off n x s
  | .refresh stack chan => Sys2Proof.Machine.execRefresh stack chan s
  | .selfRefresh stack pc idle => Sys2Proof.Machine.execSelfRefresh stack pc idle s
  | .parityAlert stack chan again => Sys2Proof.Machine.execParityAlert stack chan again s
  | .chanout stack chan => Sys2Proof.Machine.execChanout stack chan s
  | .scrub addr fixed lost failing => Sys2Proof.Machine.execScrub addr fixed lost failing s
  | .strike core => Sys2Proof.Machine.execStrike core s
  | .resultCommit core => Sys2Proof.Machine.execResultCommit core s
  | .replay beat bad late => Sys2Proof.Machine.execReplay beat bad late s
  | .powerLimit still => Sys2Proof.Machine.execPowerLimit still s
  | .powerGood => Sys2Proof.Machine.execPowerGood s
  | .fwload => Sys2Proof.Machine.execFwload s
  | .hbminit ok => Sys2Proof.Machine.execHbminit ok s
  | .links => Sys2Proof.Machine.execLinks s
  | .fatal cause => Sys2Proof.Machine.execFatal cause s
  | .linkLevelRetry port => Sys2Proof.Machine.execLinkLevelRetry port s
  | .matUpdateWritten a tag => Sys2Proof.Machine.execMatUpdateWritten a tag s
  | .remoteAtomf src tag addr op x rnd => Sys2Proof.Machine.execRemoteAtomf src tag addr op x rnd s
  | .channelRetrainDone stack chan => Sys2Proof.Machine.execChannelRetrainDone stack chan s

end Sys2Proof.Machine
end

