-- ==== Sys2Proof/Machine/Step.lean ====
section
/-! DEFINITION. One step of the module: the next event that is due, or the next instruction of
the agent whose turn it is. -/

namespace Sys2Proof.Machine

/-- The next event that is due. What is no event is dropped. -/
def eventStep (s : State) : Host.Outcome State Fault Refusal :=
  match s.agenda with
  | [] => .next s
  | i :: t => if i.isEvent then exec i { s with agenda := t } else .next { s with agenda := t }

/-- The next word of an agent. One that holds its issue is pre-empted there when that is asked of the agent
(R35). -/
def wordStep (s : State) (id : AgentId) (a : Agent) : Host.Outcome State Fault Refusal :=
  match turnOf id a with
  | .illegal => .next (illegalWord s id a)
  | .event i =>
    match exec i s with
    | .next s' => if a.preq && waitWord i && stillAt s' id a then exec (.preempt id) s' else .next s'
    | o => o

/-- The turn of the first agent of the run queue: its next word, or any of those that have issued and wait. -/
def agentStep (s : State) : Host.Outcome State Fault Refusal :=
  match s.runq with
  | [] => .next s
  | id :: t =>
    match s.agent id with
    | none => .next { s with runq := t }
    | some a =>
      if a.late.isEmpty then wordStep s id a
      else
        let c := s.choose (a.late.length + 1)
        match a.late[c.1]? with
        | none => wordStep c.2 id a
        | some l => exec l.ins (c.2.setAgent id (a.view l))

/-- One step. Time passes for what has yet to settle; where both an event is due and an agent can issue, either may come
first. -/
def step (s : State) : Host.Outcome State Fault Refusal :=
  let s := s.tick
  if s.runq.isEmpty then eventStep s
  else if s.agenda.isEmpty then agentStep s
  else
    let c := s.choose 2
    if c.1 = 0 then eventStep c.2 else agentStep c.2

/-- The state in which the next step issues the instruction word `w` (numbered as the opcode
table numbers it). -/
def State.withFetchWord (s : State) (nbits w : Nat) : State :=
  if nbits = 32 then placeWord s w else s

end Sys2Proof.Machine
end

