-- ==== Sys2Proof/Safety.lean ====
section
/-! DEFINITION. What counts as a safe run, and the terms that claims use: when a word issues, and
what it leaves alone. -/

namespace Sys2Proof

/-- `n` steps from a state all give a next state. -/
def Safe (s : Machine.State) : Nat → Prop
  | 0 => True
  | n + 1 => ∃ t, Machine.step s = .next t ∧ Safe t n

namespace Machine

/-! ## When a word issues -/

/-- The agent `a` stands next in turn at the word `i`, whose checks are `r`: it is not going on with a word that
has issued and waits, the counters that the clause's wait mask and the last switch marker name are zero (R36,
R37), and the issue stage accepts the word (R40, R42, R49, R61, R72). -/
structure Tries (s : State) (id : AgentId) (a : Agent) (i : Instr) (r : Rules) : Prop where
  turn : s.current = some (id, a)
  fresh : a.now = none
  gate : a.clear a.gate = true
  accepted : accepts s a i r = true

/-- The agent `a` issues the word `i`: besides, the agent's own state gives the word no trap (R58), its completion
counters have room (R71), it waits behind nothing: no earlier word, no write of a tile (R320), no
acknowledgement (R440), and no channel that it pops or peeks (R215), and no memory of its core but the scratchpad is
poisoned (R421). -/
structure Issues (s : State) (id : AgentId) (a : Agent) (i : Instr) (r : Rules) : Prop extends Tries s id a i r where
  first : r.first a = none
  room : s.closed id a r = false
  free : s.held id a i r a.late (r.pops a.prefixOf) = false
  sound : (s.core id.core).lost = []

/-- The agent as it stands after a word with an effect: past the word, its switch marker set. -/
def Agent.passed (b : Agent) (a : Agent) (sb : Bool) : Agent :=
  { b.advance with gate := if a.marker sb then 0xF else 0 }

/-- The module after a word of the agent `a` that has had the effect `e`: the agent stands past the
word, the next agent has its turn, and the word's issue slots are counted, 1 in uniform form and 32 in
vector form outside lead code (R211, R213, R399). -/
def State.passes (e : State) (id : AgentId) (a : Agent) (sb u : Bool) : State :=
  match e.agent id with
  | some b => ((e.setAgent id (b.passed a sb)).rotate).spent a.tcb (a.slots u)
  | none => e.rotate.spent a.tcb (a.slots u)

/-- The agent as it stands after a word that has set the position itself. -/
def Agent.landed (b a : Agent) (sb : Bool) : Agent :=
  { b with gate := if a.marker sb then 0xF else 0, pfx := none, pairw := none, perf := 0, got := [], gotFl := 0
           rem := none, far := none, clause := none }

/-- The module after a word of the agent `a` that has had the effect `e` and has set the position
itself. -/
def State.lands (e : State) (id : AgentId) (a : Agent) (sb u : Bool) : State :=
  match e.agent id with
  | some b => ((e.setAgent id (b.landed a sb)).rotate).spent a.tcb (a.slots u)
  | none => e.rotate.spent a.tcb (a.slots u)

/-- The header of the clause at `t` reads well for the agent `id`, and the read leaves `s1` (R57). -/
structure Lands (s s1 : State) (id : AgentId) (t : Word64) : Prop where
  aligned : t.toNat % 4 = 0
  header : ∃ w h, s.fetchWords id headNo t.toNat 1 = (s1, .ok [w]) ∧ decodeHeader w = some h

/-- The module after a word that is a switch point (R218). -/
def State.switches (e : State) (id : AgentId) (a : Agent) (sb u : Bool) : State :=
  match e.agent id with
  | some b => ((e.setAgent id { b.advance.switch with gate := if a.marker sb then 0xF else 0 }).rotate).spent a.tcb
      (a.slots u)
  | none => e.rotate.spent a.tcb (a.slots u)

/-- The memory word `i` that makes the accesses `m` completes, once its addresses are aligned and every
thread in turn has performed its access, which leaves `s1`, and no value is marked invalid: what the
replies bring is posted, or is there at once where the word holds the issue for it (R283, R284), and `sw` says
whether the word is a switch point (R191, R218). -/
def MemoryWord (sw : Bool) (i : Instr) (sb : Bool) (r : Rules) (pre : State → AgentId → Agent → Prop)
    (m : State → AgentId → Agent → MemOp) : Prop :=
  ∀ s s1 id a, Issues s id a i r → pre s id a →
    badLanes (m s id a).n (m s id a).addr (m s id a).ls = 0 →
    runLanes id (m s id a).md (m s id a).n (m s id a).addr (m s id a).acc (m s id a).ls s = (s1, none) →
    (∀ b, s1.agent id = some b → (m s id a).marks b.got = 0) →
    let e := if (m s id a).sync then (m s id a).land ((m s id a).pop s1) id
      else (m s id a).post ((m s id a).pop s1) id (m s id a).zeros
    exec i s = .next (if sw then e.switches id a sb r.u else (e.passes id a sb r.u).queueBeats id a i r)

/-- Whenever the word `i`, with the checks `r`, issues in a state that meets `pre`, its step
completes with exactly the effect `eff`; the beats of a vector word of class VEC enter the replay queues (R465). -/
def Completes (i : Instr) (sb : Bool) (r : Rules) (pre : State → AgentId → Agent → Prop)
    (eff : State → AgentId → Agent → State) : Prop :=
  ∀ s id a, Issues s id a i r → pre s id a → exec i s = .next (((eff s id a).passes id a sb r.u).queueBeats id a i r)

/-- Whenever the word `i`, with the checks `r`, issues in a state that meets `pre`, its step takes the
trap `code` at the word and does nothing else: what taking it does is `State.trap` (R413). -/
def Traps (i : Instr) (r : Rules) (pre : State → AgentId → Agent → Prop) (code : Nat)
    (info : State → AgentId → Agent → Word64) : Prop :=
  ∀ s id a, Issues s id a i r → pre s id a →
    exec i s = .next ((s.trap id a code (info s id a)).spent a.tcb (a.slots r.u))

/-- Whenever an agent that meets `pre` comes to the word `i`, its step takes the trap `code` before the word reads
its sources, and does nothing else (R58). -/
def TrapsFirst (i : Instr) (r : Rules) (pre : Agent → Prop) (code : Nat) (info : Agent → Word64) : Prop :=
  ∀ s id a, Tries s id a i r → pre a → exec i s = .next (s.trap id a code (info a))

/-- No further condition. -/
def always (_ : State) (_ : AgentId) (_ : Agent) : Prop := True

/-! ## What a word leaves alone -/

/-- An agent apart from its place in its code. -/
def Agent.still (a : Agent) : Agent :=
  { a with paths := [], cur := 0, clause := none, pfx := none, pairw := none, gate := 0
           perf := 0, got := [], gotFl := 0, rem := none, far := none, told := none }

/-- A core apart from its agents, the task-on-core registers of its tasks, and its replay queues (R465). -/
def Core.units (k : Core) : Core := { k with groups := [], leads := [], placed := [], beats := [] }

/-- The module apart from its cores, the order of turns, and its tasks. -/
def State.units (s : State) : State := { s with cores := [], runq := [], tasks := [] }

/-- A task apart from the issue slots counted for its regions (R399). -/
def Task.unmetered (t : Task) : Task := { t with slots := 0 }

/-- From `s` to `t` nothing changes but the agent `id`, the registers of its own task on that core,
whose turn it is, and the issue slots counted: every byte of memory, every unit, every other agent
and task stays. -/
structure OnlyAgent (s t : State) (id : AgentId) (lctx : Nat) : Prop where
  units : t.units = s.units
  tasks : ∀ k, (mapFind k t.tasks).map Task.unmetered = (mapFind k s.tasks).map Task.unmetered
  cores : ∀ c, (t.core c).units = (s.core c).units
  agents : ∀ j, j ≠ id → t.agent j = s.agent j
  placed : ∀ c l, c ≠ id.core ∨ l ≠ lctx → mapFind l (t.core c).placed = mapFind l (s.core c).placed

/-- The flags that the active threads raise (R126). -/
def flagsOf (act : Word) (f : Nat → Out 32) : BitVec 9 :=
  (List.range 32).foldl (fun m t => if act.getLsbD t then m ||| (f t).2 else m) 0

/-- The registers of a task on a core once a word of an agent has raised flags: they join `cr.fstat`, or wait behind an
earlier word that could still undo them (R34, R126). -/
def Placed.flagged (p : Placed) (id : AgentId) (a : Agent) (fl : BitVec 9) : Placed :=
  if fl = 0 then p else p.raised id a fl

/-- The channel that a vector destination names has room for one element. -/
def chanRoom (s : State) (id : AgentId) : Opd → Prop
  | .reg _ => True
  | .chan _ c => ∃ a ch, s.agent id = some a ∧ mapFind c.toNat a.chans = some ch ∧ ch.elems.length < ch.depth

/-- The task channel that a uniform destination names has room for one element. -/
def taskRoom (s : State) (id : AgentId) : Opd → Prop
  | .reg _ => True
  | .chan _ c => ∃ a p ch, s.agent id = some a ∧ s.placedOf id a = some p ∧ mapFind c.toNat p.chans = some ch ∧
      ch.elems.length < ch.depth

/-- Register `n` of `b` after a vector write (R50): an active thread has its result, a masked thread
has 0 where the write zeroes (`z`) and else its old value, and an absent thread its old value. -/
def laneResult (a b : Agent) (z : Bool) (n : Nat) (f : Nat → Word) : Prop :=
  ∀ l, l < 32 → laneOf (b.getV n) l =
    if (a.active a.prefixOf).getLsbD l then f l else if a.live.getLsbD l && z then 0 else laneOf (a.getV n) l

/-- A vector word of the agent `a` has put `f` into the destination `d`. `s` is the state after its
sources were read. Its own registers but `d` stay, and its task's flags gain those of `f`. -/
structure VectorDone (s t : State) (id : AgentId) (a : Agent) (z : Bool) (d : Opd) (f : Nat → Out 32) : Prop where
  only : OnlyAgent s t id a.lctx
  result : ∃ a1 b, s.agent id = some a1 ∧ t.agent id = some b ∧
    { b.still with v := [], chans := [] } = { a1.still with v := [], chans := [] } ∧
    match d with
    | .reg n => b.chans = a1.chans ∧ (∀ k, k ≠ n.toNat → b.getV k = a1.getV k) ∧
        laneResult a b z n.toNat (fun l => (f l).1)
    | .chan _ c => b.v = a1.v ∧ (∀ k, k ≠ c.toNat → mapFind k b.chans = mapFind k a1.chans) ∧
        ∀ ch, mapFind c.toNat a1.chans = some ch → mapFind c.toNat b.chans = some { ch with
          elems := ch.elems ++ [mkV fun l => if (a.active a.prefixOf).getLsbD l then (f l).1 else 0] }
  flags : t.placedOf id a = (s.placedOf id a).map fun p => p.flagged id a (flagsOf (a.active a.prefixOf) f)

/-- A cross-lane word of the agent `a` has put `f` into the destination `d`, or nothing with every present thread
masked: then even a channel takes no element (R237, R243). -/
def CrossDone (s t : State) (id : AgentId) (a : Agent) (d : Opd) (f : Nat → Out 32) : Prop :=
  if a.active a.prefixOf = 0 then
    OnlyAgent s t id a.lctx ∧ t.placedOf id a = s.placedOf id a ∧
      ∃ a1 b, s.agent id = some a1 ∧ t.agent id = some b ∧ b.still = a1.still
  else VectorDone s t id a a.prefixOf.z d f

/-- A uniform word of the agent `a` has put `x` into the destination `d` and raised the flags `fl`.
`s` is the state after its sources were read. A write to register 0 is discarded (R20); a channel
takes one element (R393, R394). -/
structure UniformDone (s t : State) (id : AgentId) (a : Agent) (d : Opd) (x : Word64) (fl : BitVec 9) : Prop where
  result : ∃ a1 b, s.agent id = some a1 ∧ t.agent id = some b ∧
    { b.still with x := [] } = { a1.still with x := [] } ∧
    match d with
    | .reg n => (∀ k, b.getX k = if k = n.toNat ∧ k ≠ 0 then x else a1.getX k) ∧ OnlyAgent s t id a.lctx ∧
        t.placedOf id a = (s.placedOf id a).map fun p => p.flagged id a fl
    | .chan _ c => b.x = a1.x ∧ ∃ s2, pushTask s id.core a1.lctx (s.decides a1) c.toNat x = some s2 ∧
        OnlyAgent s2 t id a.lctx ∧
        t.placedOf id a = (s2.placedOf id a).map fun p => p.flagged id a fl

/-- The vector word `i` completes, for every agent that meets `c`, every reading of its sources `src`
and every destination with room: thread `l` of the destination `d` gets `f` of the source values of
thread `l`. -/
def VectorWordIf (c : Agent → Prop) (i : Instr) (r : Rules) (d : Opd) (src : List Opd)
    (f : Agent → List Word → Nat → Out 32) : Prop :=
  ∀ s s1 id a vs, Issues s id a i r → c a → readVs s id src = some (vs, s1) → chanRoom s1 id d →
    ∃ t, exec i s = .next t ∧ VectorDone s1 t id a a.prefixOf.z d (fun l => f a (vs.map fun v => laneOf v l) l)

/-- The same where `f` must have a value in every active thread. -/
def VectorWordSome (c : Agent → Prop) (i : Instr) (r : Rules) (d : Opd) (src : List Opd)
    (f : Agent → List Word → Option (Out 32)) : Prop :=
  ∀ s s1 id a vs, Issues s id a i r → c a → readVs s id src = some (vs, s1) → chanRoom s1 id d →
    (∀ l, l < 32 → (a.active a.prefixOf).getLsbD l = true → (f a (vs.map fun v => laneOf v l)).isSome) →
    ∃ t, exec i s = .next t ∧ VectorDone s1 t id a a.prefixOf.z d (fun l => (f a (vs.map fun v => laneOf v l)).getD (0, 0))

/-- The same for every agent. -/
def VectorWord : Instr → Rules → Opd → List Opd → (Agent → List Word → Nat → Out 32) → Prop :=
  VectorWordIf fun _ => True

/-- The uniform word `i` completes, for every agent that meets `c`, every reading of its sources `src`
and every destination with room, and `d` gets `f` of the source values. -/
def UniformWordIf (c : Agent → Prop) (i : Instr) (r : Rules) (d : Opd) (src : List Opd)
    (f : Agent → List Word64 → Out 64) : Prop :=
  ∀ s s1 id a xs, Issues s id a i r → c a → readUs s id src = some (xs, s1) → taskRoom s1 id d →
    ∃ t, exec i s = .next t ∧ UniformDone s1 t id a d (f a xs).1 (f a xs).2

/-- The same for every agent. -/
def UniformWord : Instr → Rules → Opd → List Opd → (Agent → List Word64 → Out 64) → Prop :=
  UniformWordIf fun _ => True

/-! ## Words of one access -/

/-- The uniform sources `l` have the values `xs`. -/
def State.hasU (s : State) (id : AgentId) (l : List Opd) (xs : List Word64) : Prop := ∃ t, readUs s id l = some (xs, t)

/-- The channel elements that the uniform sources `l` pop are taken. -/
def State.took (s : State) (id : AgentId) (l : List Opd) : State := ((readUs s id l).map Prod.snd).getD s

/-- The sources `l` are taken and the uniform destination has `x`. -/
def State.gives (s : State) (id : AgentId) (l : List Opd) (d : Opd) (x : Word64) : State :=
  (writeU (s.took id l) id d x).getD (s.took id l)

/-- The agent `id` with `f` applied. -/
def State.onAgent (s : State) (id : AgentId) (f : Agent → Agent) : State :=
  match s.agent id with
  | some a => s.setAgent id (f a)
  | none => s

/-- A task with `f` applied. -/
def State.onTask (s : State) (tcb : Nat) (f : Task → Task) : State :=
  match mapFind tcb s.tasks with
  | some t => { s with tasks := mapPut tcb (f t) s.tasks }
  | none => s

/-- What the task of the agent `a` has on its core, with `f` applied. -/
def State.onPlaced (s : State) (id : AgentId) (a : Agent) (f : Placed → Placed) : State :=
  match s.placedOf id a with
  | some p => s.setPlaced id.core a.lctx (f p)
  | none => s

/-- Events become due, after those that are. -/
def State.later (s : State) (l : List Instr) : State := { s with agenda := s.agenda ++ l }

end Machine

end Sys2Proof
end

