-- ==== Sys2Proof/Values.lean ====
section
/-! DEFINITION. The numbers that codes stand for, and correct rounding, over the rational numbers and from the
formulas of the rules alone (R101 to R117, R272): the terms in which the claims say what the instructions on floats, scales
and packed symbols compute. The model computes with none of these. -/

namespace Sys2Proof.Machine

/-! ## Codes of the IEEE formats (R101, R102) -/

/-- Precision of a format with infinities: significand bits with the hidden one. -/
def precOf : Fmt → Nat
  | .f32 => 24
  | .f16 => 11
  | _ => 8

/-- The exponent of the least normal number of a format with infinities. -/
def leastExp : Fmt → ℤ
  | .f16 => -14
  | _ => -126

/-- The formats with infinities. -/
def hasInf (f : Fmt) : Bool := f == .f32 || f == .f16 || f == .bf16

/-- The code without its sign bit. -/
def magCode (f : Fmt) (x : Nat) : Nat := x % 2 ^ (f.width - 1)

/-- The sign bit of a code. -/
def negCode (f : Fmt) (x : Nat) : Bool := decide (x / 2 ^ (f.width - 1) % 2 = 1)

/-- The sign bit as part of a code. -/
def signPart (f : Fmt) (s : Bool) : Nat := if s then 2 ^ (f.width - 1) else 0

/-- The code of `+∞` of an IEEE format, and the number of magnitude codes of the others. -/
def codeTop : Fmt → Nat
  | .f32 => 255 * 2 ^ 23
  | .f16 => 31 * 2 ^ 10
  | .bf16 => 255 * 2 ^ 7
  | .t8 => 128
  | .t6 => 32
  | .e2m1 => 8

def infCode (f : Fmt) (x : Nat) : Bool := hasInf f && decide (magCode f x = codeTop f)

/-- A NaN of an IEEE format, or NaR (R103, R104). -/
def nanLike (f : Fmt) (x : Nat) : Bool :=
  if hasInf f then decide (codeTop f < magCode f x) else f != .e2m1 && negCode f x && decide (magCode f x = 0)

/-- A signalling NaN: a NaN whose top fraction bit is 0 (R154). -/
def sigNan (f : Fmt) (x : Nat) : Bool := hasInf f && nanLike f x && decide (x / 2 ^ (precOf f - 2) % 2 = 0)

/-- A code of a number. -/
def finCode (f : Fmt) (x : Nat) : Bool := !infCode f x && !nanLike f x

/-- The canonical NaN, or NaR (R102, R105). -/
def nanOut : Fmt → Nat
  | .f32 => 0x7FC00000
  | .f16 => 0x7E00
  | .bf16 => 0x7FC0
  | .t8 => 0x80
  | .t6 => 0x20
  | .e2m1 => 0

/-- The flags of operands read arithmetically: NV for a signalling NaN, NF for a NaN or an infinity (R118, R148). -/
def readFlags (f : Fmt) (xs : List Nat) : BitVec 9 :=
  flagIf (xs.any (sigNan f)) flNV ||| flagIf (xs.any fun x => !finCode f x) flNF

/-! ## Magnitudes -/

/-- The magnitude of a tapered code of `n` magnitude bits: a run of `k` equal bits, its terminating bit, an exponent bit where
the format has one and a bit is left, and the fraction (R103, R104). -/
def taperedMag (n : Nat) (eb : Bool) (c : Nat) : ℚ :=
  if c = 0 then 0
  else
    let ones := decide (2 ^ (n - 1) ≤ c)
    let k := if ones then (if c = 2 ^ n - 1 then n else n - 1 - Nat.log2 (2 ^ n - 1 - c)) else n - 1 - Nat.log2 c
    let reg : ℤ := if ones then (k : ℤ) - 1 else -(k : ℤ)
    let rest := n - 1 - k
    let w := if eb then rest - 1 else rest
    let e : ℤ := if eb && decide (1 ≤ rest) then ((c / 2 ^ w % 2 : Nat) : ℤ) else 0
    2 ^ ((if eb then 2 * reg else reg) + e) * (1 + ((c % 2 ^ w : Nat) : ℚ) / 2 ^ w)

/-- The magnitude that a magnitude code stands for. The code of infinity gives `2^(emax+1)`, the magnitude next above the
greatest finite one (R101, R103, R104, R106, R116). -/
def magnitude (f : Fmt) (c : Nat) : ℚ :=
  match f with
  | .t8 => taperedMag 7 true c
  | .t6 => taperedMag 5 false c
  | .e2m1 => ([0, 1 / 2, 1, 3 / 2, 2, 3, 4, 6] : List ℚ).getD c 0
  | f =>
    let p := precOf f - 1
    if c / 2 ^ p = 0 then (c : ℚ) * 2 ^ (leastExp f - p)
    else (1 + ((c % 2 ^ p : Nat) : ℚ) / 2 ^ p) * 2 ^ (leastExp f + (c / 2 ^ p : Nat) - 1)

/-- The number that a code stands for. -/
def codeValue (f : Fmt) (x : Nat) : ℚ := (if negCode f x then -1 else 1) * magnitude f (magCode f x)

/-! ## Rounding (R116, R117) -/

/-- Whether the magnitude `a` between the neighbours `lo` and `hi` goes to `hi`: `odd` says that the code of `lo` is odd. -/
def goesUp (rnd rbits : Nat) (neg odd : Bool) (a lo hi : ℚ) : Bool :=
  match rnd with
  | 2 => false
  | 3 => !neg
  | 4 => neg
  | 5 => decide ((2 : ℤ) ^ 23 ≤ ⌊(a - lo) / (hi - lo) * 2 ^ 23⌋ + (rbits % 2 ^ 23 : Nat))
  | _ => decide (hi - a < a - lo) || (decide (hi - a = a - lo) && odd)

/-- Whether rounding `z` with an exponent range without bounds stays below the least normal number: it does unless `a` lies
above the greatest number of the format's precision below it, and goes up (R117). -/
def tinyAfter (f : Fmt) (rnd rbits : Nat) (z : ℚ) : Bool :=
  let m : ℚ := 2 ^ leastExp f
  let l : ℚ := m - 2 ^ (leastExp f - precOf f)
  decide (|z| < m) && !(decide (l < |z|) && goesUp rnd rbits (decide (z < 0)) true |z| l m)

/-- `o` is the code of `z`, not 0, rounded once to the format, with the flags of that rounding. -/
def RoundsTo (f : Fmt) (rnd rbits : Nat) (z : ℚ) (o : Nat × BitVec 9) : Prop :=
  ∃ c, c < codeTop f ∧ magnitude f c ≤ |z| ∧ (c + 1 < codeTop f → |z| < magnitude f (c + 1)) ∧
    let k := if goesUp rnd rbits (decide (z < 0)) (c % 2 == 1) |z| (magnitude f c) (magnitude f (c + 1)) then c + 1 else c
    if |z| = magnitude f c then o = (signPart f (decide (z < 0)) + c, 0)
    else if hasInf f then o = (signPart f (decide (z < 0)) + k,
      flNX ||| flagIf (k == codeTop f || decide (magnitude f (codeTop f) ≤ |z|)) flOF ||| flagIf (tinyAfter f rnd rbits z) flUF |||
        flagIf (k == codeTop f) flNF)
    else if c + 1 = codeTop f then o = (signPart f (decide (z < 0)) + c, flNX ||| flOF)
    else o = (if k = 0 then 0 else signPart f (decide (z < 0)) + k, flNX ||| flagIf (k == 0) flUF)

/-- `o` is `z` rounded once, with the sign `s` for an exact zero where the format has a negative zero (R105, R108, R149). -/
def Rounded (f : Fmt) (rnd rbits : Nat) (z : ℚ) (s : Bool) (o : Nat × BitVec 9) : Prop :=
  if z = 0 then o = (if hasInf f then signPart f s else 0, 0) else RoundsTo f rnd rbits z o

/-- `o` is `z` rounded once to an integer from `lo` to `hi` (R117). -/
def RoundsToInt (lo hi : ℤ) (rnd rbits : Nat) (z : ℚ) (o : ℤ × BitVec 9) : Prop :=
  let n := ⌊|z|⌋
  let k := if |z| ≠ n ∧ goesUp rnd rbits (decide (z < 0)) (n % 2 == 1) |z| n (n + 1) then n + 1 else n
  let x := if z < 0 then -k else k
  o = (max lo (min hi x), flagIf (decide (x < lo ∨ hi < x)) flNV ||| flagIf (decide (|z| ≠ n)) flNX)

/-- `o` is the square root of `z`, above 0, rounded once (R155): no root is too great or too small for its format. -/
def RootRounded (f : Fmt) (rnd : Nat) (z : ℚ) (o : Nat × BitVec 9) : Prop :=
  ∃ c, c + 1 < codeTop f ∧ magnitude f c ^ 2 ≤ z ∧ z < magnitude f (c + 1) ^ 2 ∧
    let m := ((magnitude f c + magnitude f (c + 1)) / 2) ^ 2
    if z = magnitude f c ^ 2 then o = (c, 0)
    else o = (if rnd = 3 ∨ (rnd < 2 ∧ (m < z ∨ (z = m ∧ c % 2 = 1))) then c + 1 else c, flNX)

/-! ## Elements of a float result -/

/-- Element `j` of a float type in an operand. -/
def codeAt (f : Fmt) (x : BitVec n) (j : Nat) : Nat := x.toNat / 2 ^ (f.width * j) % 2 ^ f.width

/-- Each element of the result and its flags meet `P`; the elements lie in the low 32 bits, and the word's flags are
those of its elements together (R126, R148). -/
def EachCode (f : Fmt) (o : Out n) (P : Nat → Nat × BitVec 9 → Prop) : Prop :=
  o.1.toNat < 2 ^ 32 ∧ ∃ fl : Nat → BitVec 9, o.2 = (List.range (32 / f.width)).foldl (fun m j => m ||| fl j) 0 ∧
    ∀ j, j < 32 / f.width → P j (codeAt f o.1 j, fl j)

/-- A NaN result, with the flags `fl` beside NF. -/
def nanResult (f : Fmt) (fl : BitVec 9) : Nat × BitVec 9 := (nanOut f, flNF ||| fl)

/-- `o` is the sum of two codes under a rounding code (R149, R150). -/
def SumOf (f : Fmt) (rnd x y : Nat) (o : Nat × BitVec 9) : Prop :=
  if nanLike f x || nanLike f y then o = nanResult f (flagIf (sigNan f x || sigNan f y) flNV)
  else if infCode f x && infCode f y && negCode f x != negCode f y then o = nanResult f flNV
  else if infCode f x then o = (x, flNF)
  else if infCode f y then o = (y, flNF)
  else Rounded f rnd 0 (codeValue f x + codeValue f y)
    (if x = y then negCode f x else rnd == 4) o

/-- A code with its sign turned. -/
def turned (f : Fmt) (x : Nat) : Nat := signPart f (!negCode f x) + magCode f x

/-- `o` is the product of two codes. -/
def ProductOf (f : Fmt) (rnd x y : Nat) (o : Nat × BitVec 9) : Prop :=
  let s := negCode f x != negCode f y
  if nanLike f x || nanLike f y then o = nanResult f (flagIf (sigNan f x || sigNan f y) flNV)
  else if (infCode f x && magCode f y == 0) || (magCode f x == 0 && infCode f y) then o = nanResult f flNV
  else if infCode f x || infCode f y then o = (signPart f s + codeTop f, flNF)
  else Rounded f rnd 0 (codeValue f x * codeValue f y) s o

/-- `o` is the quotient of two codes. -/
def QuotientOf (f : Fmt) (rnd x y : Nat) (o : Nat × BitVec 9) : Prop :=
  let s := negCode f x != negCode f y
  if nanLike f x || nanLike f y then o = nanResult f (flagIf (sigNan f x || sigNan f y) flNV)
  else if (infCode f x && infCode f y) || (magCode f x == 0 && magCode f y == 0) then o = nanResult f flNV
  else if infCode f x then o = (signPart f s + codeTop f, flNF)
  else if infCode f y then o = (signPart f s, flNF)
  else if magCode f y = 0 then o = (signPart f s + codeTop f, flDZ ||| flNF)
  else Rounded f rnd 0 (codeValue f x / codeValue f y) s o

/-- `o` is the magnitude of the difference of two codes. -/
def DistanceOf (f : Fmt) (rnd x y : Nat) (o : Nat × BitVec 9) : Prop :=
  if nanLike f x || nanLike f y then o = nanResult f (flagIf (sigNan f x || sigNan f y) flNV)
  else if infCode f x && infCode f y && negCode f x == negCode f y then o = nanResult f flNV
  else if infCode f x || infCode f y then o = (codeTop f, flNF)
  else Rounded f rnd 0 |codeValue f x - codeValue f y| false o

/-- `o` is the fused product and sum of three codes. -/
def FusedOf (f : Fmt) (rnd x y z : Nat) (o : Nat × BitVec 9) : Prop :=
  let s := negCode f x != negCode f y
  let bad := (infCode f x && magCode f y == 0) || (magCode f x == 0 && infCode f y)
  if nanLike f x || nanLike f y || nanLike f z then o = nanResult f (flagIf (bad || sigNan f x || sigNan f y || sigNan f z) flNV)
  else if bad || ((infCode f x || infCode f y) && infCode f z && s != negCode f z) then o = nanResult f flNV
  else if infCode f x || infCode f y then o = (signPart f s + codeTop f, flNF)
  else if infCode f z then o = (z, flNF)
  else Rounded f rnd 0 (codeValue f x * codeValue f y + codeValue f z)
    (if codeValue f x * codeValue f y = 0 ∧ s = negCode f z then s else rnd == 4) o

/-- The place of a code in the order of R151: `-∞ < negative < -0 < +0 < positive < +∞`. -/
def codeRank (f : Fmt) (x : Nat) : ℤ := if negCode f x then -(magCode f x : ℤ) - 1 else magCode f x

/-- The greater of two codes, or the lesser (R151): an operand's bits. -/
def extremeOf (greater : Bool) (f : Fmt) (x y : Nat) : Nat × BitVec 9 :=
  (if nanLike f x && nanLike f y then nanOut f else if nanLike f x then y else if nanLike f y then x
    else if greater == decide (codeRank f x < codeRank f y) then y else x, readFlags f [x, y])

/-- The classes of R154: one bit is set. -/
def classOf (f : Fmt) (x : Nat) : Nat :=
  let m := magCode f x
  let p := 2 ^ (precOf f - 1)
  if nanLike f x then (if sigNan f x then 2 ^ 8 else 2 ^ 9)
  else if negCode f x then (if infCode f x then 2 ^ 0 else if p ≤ m then 2 ^ 1 else if m = 0 then 2 ^ 3 else 2 ^ 2)
  else (if infCode f x then 2 ^ 7 else if p ≤ m then 2 ^ 6 else if m = 0 then 2 ^ 4 else 2 ^ 5)

/-- The comparisons of R152: zeros are equal, and with a NaN the operands are unordered. -/
def comparisonOf (c x y : Nat) : Bool × BitVec 9 :=
  let un := nanLike .f32 x || nanLike .f32 y
  let k := fun (x : Nat) => if negCode .f32 x then -(magCode .f32 x : ℤ) else magCode .f32 x
  ((match c with
    | 0 => !un && decide (k x = k y)
    | 1 => un || decide (k x ≠ k y)
    | 2 => !un && decide (k x < k y)
    | 3 => !un && decide (k x ≤ k y)
    | 4 => !un && decide (k y < k x)
    | 5 => !un && decide (k y ≤ k x)
    | 6 => un
    | _ => !un),
    readFlags .f32 [x, y] ||| flagIf (decide (2 ≤ c ∧ c ≤ 5) && un) flNV)

/-- `o` is a special function of a code (R155): the quotient and the two roots on every operand, and each other function
where its exact value is a number of the format, or the operand has a row of its own. -/
def FunctionOf (f : Fmt) (fn r x : Nat) (o : Nat × BitVec 9) : Prop :=
  let v := codeValue f x
  let s := signPart f (negCode f x)
  if nanLike f x then o = nanResult f (flagIf (sigNan f x) flNV)
  else match fn with
    | 0 => if infCode f x then o = (s, flNF) else if v = 0 then o = (s + codeTop f, flDZ ||| flNF) else RoundsTo f 0 0 (1 / v) o
    | 1 => if magCode f x = 0 then o = (s + codeTop f, flDZ ||| flNF) else if negCode f x then o = nanResult f flNV
        else if infCode f x then o = (0, flNF) else RootRounded f 0 (1 / v) o
    | 2 => if magCode f x = 0 then o = (x, 0) else if negCode f x then o = nanResult f flNV
        else if infCode f x then o = (x, flNF) else RootRounded f r v o
    | 3 => if infCode f x then o = (if negCode f x then 0 else x, flNF)
        else v = ⌊v⌋ → |v| ≤ 1024 → RoundsTo f 0 0 (2 ^ ⌊v⌋) o
    | 4 => if magCode f x = 0 then o = (signPart f true + codeTop f, flDZ ||| flNF) else if negCode f x then o = nanResult f flNV
        else if infCode f x then o = (x, flNF) else ∀ k : ℤ, v = 2 ^ k → Rounded f 0 0 k false o
    | 5 => if infCode f x then o = nanResult f flNV else (v = ⌊v⌋ → o = (s, 0)) ∧
        (v - ⌊v⌋ = 1 / 2 → RoundsTo f 0 0 (if ⌊v⌋ % 2 = 0 then 1 else -1) o)
    | 6 => if infCode f x then o = nanResult f flNV else (v = ⌊v⌋ → RoundsTo f 0 0 (if ⌊v⌋ % 2 = 0 then 1 else -1) o) ∧
        (v - ⌊v⌋ = 1 / 2 → o = (0, 0))
    | _ => if magCode f x = 0 then o = (x, 0) else infCode f x → o.2 = flNF ∧ RoundsTo f 0 0 (if negCode f x then -1 else 1) (o.1, 0)

/-- `o` is the sum of the products of the codes `x j` and `y j`, for `j < n`, and the f32 code `c`, rounded once (R120, R156). -/
def DotOf (f : Fmt) (n r : Nat) (x y : Nat → Nat) (c : Nat) (o : Nat × BitVec 9) : Prop :=
  let s := fun j => negCode f (x j) != negCode f (y j)
  let bad := (List.range n).any fun j => (infCode f (x j) && magCode f (y j) == 0) || (magCode f (x j) == 0 && infCode f (y j))
  let inf := fun b => (infCode .f32 c && negCode .f32 c == b) ||
    (List.range n).any fun j => (infCode f (x j) || infCode f (y j)) && s j == b
  let p := fun j => codeValue f (x j) * codeValue f (y j)
  if nanLike .f32 c || (List.range n).any fun j => nanLike f (x j) || nanLike f (y j) then
    o.1 = nanOut .f32 ∧ o.2 &&& flNF = flNF
  else if bad || (inf true && inf false) then o = nanResult .f32 flNV
  else if inf true then o = (signPart .f32 true + codeTop .f32, flNF)
  else if inf false then o = (codeTop .f32, flNF)
  else Rounded .f32 r 0 (((List.range n).map p).sum + codeValue .f32 c)
    (c == 2 ^ 31 && (List.range n).all fun j => decide (p j = 0) && s j) o

/-! ## Conversions (R117, R159) -/

/-- The number formats by their codes, an integer format by its range; i32 and n32 have `n` bits (R98, R158). -/
def formatOf (k : Nat) : Option Fmt :=
  match k with
  | 2 => some .f32
  | 3 => some .f16
  | 4 => some .bf16
  | 9 => some .t8
  | 10 => some .t6
  | 11 => some .e2m1
  | 13 => some .f16
  | 14 => some .bf16
  | _ => none

/-- Least and greatest number, and the bits, of an integer format. -/
def integersOf (n k : Nat) : ℤ × ℤ × Nat :=
  match k with
  | 0 => (-2 ^ (n - 1), 2 ^ (n - 1) - 1, n)
  | 1 => (0, 2 ^ n - 1, n)
  | 5 => (-2 ^ 15, 2 ^ 15 - 1, 16)
  | 6 => (0, 2 ^ 16 - 1, 16)
  | 7 => (-2 ^ 7, 2 ^ 7 - 1, 8)
  | _ => (0, 2 ^ 8 - 1, 8)

/-- `r` is the number `z`, with the sign `s` where it is 0, in the destination format `k` under a rounding code: an integer
in the low bits with its sign extended, or a code with zeros above it. -/
def ConvertsNumber (n k rnd rb : Nat) (z : ℚ) (s : Bool) (r : Out n) : Prop :=
  match formatOf k with
  | some f => ∃ c, Rounded f rnd rb z s (c, r.2) ∧ r.1 = BitVec.ofNat n c
  | none => ∃ x, RoundsToInt (integersOf n k).1 (integersOf n k).2.1 rnd rb z (x, r.2) ∧ r.1 = BitVec.ofInt n x

/-- A NaN in the destination format, with flags of the operand beside those of the encoding. -/
def ConvertsNan (n k : Nat) (fl : BitVec 9) (r : Out n) : Prop :=
  match formatOf k with
  | some f => r = (BitVec.ofNat n (nanOut f), flNF ||| flagIf (f == .e2m1) flNV ||| fl)
  | none => r = (0, flNV ||| flNF ||| fl)

/-- An infinity of the sign `s` in the destination format. -/
def ConvertsInf (n k : Nat) (s : Bool) (r : Out n) : Prop :=
  match formatOf k with
  | some .t8 => r = (0x80, flNF)
  | some .t6 => r = (0x20, flNF)
  | some .e2m1 => r = (BitVec.ofNat n (signPart .e2m1 s + 7), flNF ||| flOF)
  | some f => r = (BitVec.ofNat n (signPart f s + codeTop f), flNF)
  | none => r = (BitVec.ofInt n (if s then (integersOf n k).1 else (integersOf n k).2.1), flNV ||| flNF)

/-- `r` is the source element `x` of format `sty` converted to the format `dty`. -/
def Converts (n sty dty rnd rb x : Nat) (r : Out n) : Prop :=
  match formatOf sty with
  | some f =>
    let y := x % 2 ^ f.width
    if f = .e2m1 ∧ y = 8 then ConvertsNan n dty flNV r
    else if nanLike f y then ConvertsNan n dty (flagIf (sigNan f y) flNV) r
    else if infCode f y then ConvertsInf n dty (negCode f y) r
    else ConvertsNumber n dty rnd rb (codeValue f y) (negCode f y) r
  | none =>
    let w := (integersOf n sty).2.2
    let y : ℤ := (x % 2 ^ w : Nat)
    ConvertsNumber n dty rnd rb ((if y ≤ (integersOf n sty).2.1 then y else y - 2 ^ w : ℤ) : ℚ) false r

/-! ## Block scales (R109) -/

/-- The number that an s12 scale stands for, its exponent field not 255. -/
def scaleValue (s : Nat) : ℚ :=
  if s / 16 % 256 = 0 then 2 ^ (-126 : ℤ) * ((s % 16 : Nat) : ℚ) / 16
  else 2 ^ ((s / 16 % 256 : Nat) - (127 : ℤ)) * (1 + ((s % 16 : Nat) : ℚ) / 16)

/-- The greatest finite magnitude of an element format (R160). -/
def greatestOf (k : Nat) : ℚ :=
  match k with
  | 7 => 127
  | 9 => 4096
  | 10 => 16
  | _ => 6

/-- `r` is the scale of a block (R161). -/
def ScaleOf (k : Nat) (xs : List Word) (r : Nat × BitVec 9) : Prop :=
  let bad := xs.any fun x => !finCode .f32 x.toNat
  let fits := fun s : Nat => ∀ x ∈ xs, |codeValue .f32 x.toNat| ≤ scaleValue s * greatestOf k
  if bad then r = (0xFF0, readFlags .f32 (xs.map BitVec.toNat))
  else if ∀ x ∈ xs, magCode .f32 x.toNat = 0 then r = (0x7F0, 0)
  else (fits r.1 ∧ r.1 < 0xFF0 ∧ r.2 = 0 ∧ ∀ s, s < r.1 → ¬ fits s) ∨ ((∀ s, s < 0xFF0 → ¬ fits s) ∧ r = (0xFEF, flOF))

/-- An element in the codes of a block format, zero-extended (R162): the number `z` rounded once. -/
def EncodesNumber (k rnd rb : Nat) (z : ℚ) (s : Bool) (r : Word) (fl : BitVec 9) : Prop :=
  match formatOf k with
  | some f => Rounded f rnd rb z s (r.toNat, fl)
  | none => ∃ x, RoundsToInt (-128) 127 rnd rb z (x, fl) ∧ r = (BitVec.ofInt 8 x).setWidth 32

/-- `r` is the code of `x` under the scale `sc`, which is neither 0 nor a NaN, for an element that is not escaped; and of
a NaN or infinite `x` under any scale (R162). -/
def EncodesUnder (k rnd rb x sc : Nat) (r : Out 32) : Prop :=
  if nanLike .f32 x then
    r = (match formatOf k with | some f => (BitVec.ofNat 32 (nanOut f), flNF ||| flagIf (f == .e2m1 || sigNan .f32 x) flNV)
                               | none => (0, flNV ||| flNF))
  else if infCode .f32 x then
    r = (match formatOf k with | some .e2m1 => (BitVec.ofNat 32 (signPart .e2m1 (negCode .f32 x) + 7), flNF ||| flOF)
                               | some f => (BitVec.ofNat 32 (nanOut f), flNF)
                               | none => (if negCode .f32 x then 0x80 else 0x7F, flNV ||| flNF))
  else EncodesNumber k rnd rb (codeValue .f32 x / scaleValue sc) (negCode .f32 x) r.1 r.2

/-- `r` is QENC of one element (R162, R163), `rank` escaped threads lying below it. -/
def Encodes (k rnd rb rank : Nat) (x sc : Word) (r : Out 32) : Prop :=
  let s := sc.toNat % 4096
  let y := x.toNat
  if s / 16 = 255 then
    r = (match formatOf k with | some f => (BitVec.ofNat 32 (nanOut f), flNANSC ||| flNF ||| flagIf (f == .e2m1) flNV ||| readFlags .f32 [y])
                               | none => (0, flNANSC ||| flNF ||| flNV ||| readFlags .f32 [y]))
  else if s = 0 then (if finCode .f32 y then r = (0, flagIf (decide (magCode .f32 y ≠ 0)) flDZ) else EncodesUnder k rnd rb y s r)
  else if k = 11 ∧ (infCode .f32 y ∨ (finCode .f32 y ∧ 6 < |codeValue .f32 y / scaleValue s|)) then
    ∃ c fl, r = (BitVec.ofNat 32 (8 + rank * 256 + c * 65536), fl) ∧
      if infCode .f32 y then c = signPart .f16 (negCode .f32 y) + codeTop .f16 ∧ fl = flNF
      else RoundsTo .f16 rnd rb (codeValue .f32 y / scaleValue s) (c, fl)
  else EncodesUnder k rnd rb y s r

/-- `r` is QDEC of one element (R110, R164). -/
def Decodes (k rnd : Nat) (x sc : Word) (r : Out 32) : Prop :=
  let s := sc.toNat % 4096
  let f := if k = 11 ∧ x.toNat % 16 = 8 then Fmt.f16 else (formatOf k).getD .e2m1
  let y := if k = 11 ∧ x.toNat % 16 = 8 then x.toNat / 65536 else x.toNat % 2 ^ f.width
  let fl := if k = 7 then 0 else readFlags f [y]
  if s / 16 = 255 then r = (BitVec.ofNat 32 (nanOut .f32), flNANSC ||| flNF ||| fl)
  else if k ≠ 7 ∧ nanLike f y then r = (BitVec.ofNat 32 (nanOut .f32), flNF ||| fl)
  else if k ≠ 7 ∧ infCode f y then
    r = if s = 0 then (BitVec.ofNat 32 (nanOut .f32), flNV ||| flNF)
      else (BitVec.ofNat 32 (signPart .f32 (negCode f y) + codeTop .f32), flNF)
  else
    let z : ℚ := if k = 7 then ((x.setWidth 8).toInt : ℚ) else codeValue f y
    Rounded .f32 rnd 0 (z * scaleValue s) (if k = 7 then (x.setWidth 8).msb else negCode f y) (r.1.toNat, r.2)

/-! ## Digits of an alphabet (R112, R114, R272) -/

/-- The fields of run `k` of a descriptor: radix, digit count, mapping. -/
def runFields (al : Word64) (k : Nat) : Nat × Nat × Nat :=
  let x := al.toNat / 2 ^ (16 * k)
  (x / 256 % 256 + 1, x / 8 % 32, x % 8)

/-- The run of digit `i`. -/
def runAt (al : Word64) (i : Nat) : Nat :=
  let c := (runFields al 0).2.1
  if i < c then 0 else if i < c + (runFields al 1).2.1 then 1 else 2

/-- Digits in a word. -/
def digitsOf (al : Word64) : Nat := (runFields al 0).2.1 + (runFields al 1).2.1 + (runFields al 2).2.1

def radixAt (al : Word64) (i : Nat) : Nat := (runFields al (runAt al i)).1
def mapAt (al : Word64) (i : Nat) : Nat := (runFields al (runAt al i)).2.2

/-- The weight of digit `i`; the weight of digit `n` is the number of valid words. -/
def weightAt (al : Word64) (i : Nat) : Nat := ((List.range i).map (radixAt al)).prod

/-- The code of digit `i` of a word. -/
def digitAt (al : Word64) (x i : Nat) : Nat := x / weightAt al i % radixAt al i

/-- The value of a code of digit `i`. -/
def digitValue (al : Word64) (i c : Nat) : ℤ :=
  match mapAt al i with
  | 0 => c
  | 1 => (c : ℤ) - (radixAt al i / 2 : Nat)
  | _ => if c % 2 = 1 then -((c / 2 : Nat) : ℤ) else (c / 2 : Nat)

/-- The value of digit `i` of a word. -/
def symbolAt (al : Word64) (x i : Nat) : ℤ := digitValue al i (digitAt al x i)

/-- The range of digit `i` (R272). -/
def rangeAt (al : Word64) (i : Nat) : ℤ × ℤ :=
  let r : ℤ := radixAt al i
  match mapAt al i with
  | 0 => (0, r - 1)
  | 1 => (-(r / 2), r - 1 - r / 2)
  | _ => (-((r - 2) / 2), (r - 1) / 2)

/-- The value nearest to `v` in the range of digit `i`. -/
def clampAt (al : Word64) (i : Nat) (v : ℤ) : ℤ := max (rangeAt al i).1 (min v (rangeAt al i).2)

/-- `y` is a valid word whose digits have the least codes of the values `g` (R272). -/
def Spells (al : Word64) (y : Nat) (g : Nat → ℤ) : Prop :=
  y < weightAt al (digitsOf al) ∧ ∀ i, i < digitsOf al → digitValue al i (digitAt al y i) = g i ∧
    ∀ c, digitValue al i c = g i → c < radixAt al i → digitAt al y i ≤ c

/-- `x` is read through an alphabet that does not trap it (R273): a valid word as it is, and an invalid one as the word of
zeros, with INVAL. -/
def ReadsAs (al : Word64) (w : Word) (x : Nat) (fl : BitVec 9) : Prop :=
  if w.toNat < weightAt al (digitsOf al) then x = w.toNat ∧ fl = 0
  else al.getLsbD 48 = false ∧ Spells al x (fun _ => 0) ∧ fl = flINVAL

end Sys2Proof.Machine
end

