-- ==== Sys2Proof/Certificates/Slice0/Obligations.lean ====
section
/-! DEFINITION. The statements about this machine that are to be proved. Where a statement says which
agent has the next turn, or in which order due events stand, that is the model's own order (log entry 5);
what a byte of memory that nothing has written reads as is log entry 3. -/

open Sys2Proof Sys2Proof.Machine

/-! ## Register words -/

/-- The integer and move words (R40, R128 to R146): each thread's result in vector form, for every operand
form, mask and zeroing prefix, and the 64-bit result in uniform form and in lead code. -/
def Obligations.IntegerWords : Prop := 
  (∀ (sb q e : Bool) (t m : BitVec 3) (f : BitVec 5) (p : BitVec 2) (d x y : Opd),
  VectorWord (.add sb false q t d x y) (regRules false d [x, y] (rndOf t)) d [x, y]
    (fun a xs _ => aluAdd q t a.prefixOf.rnd.toNat (arg xs 0) (arg xs 1)) ∧
  VectorWord (.sub sb false q t d x y) (regRules false d [x, y] (rndOf t)) d [x, y]
    (fun a xs _ => aluSub q t a.prefixOf.rnd.toNat (arg xs 0) (arg xs 1)) ∧
  VectorWord (.mul sb false q t d x y) (regRules false d [x, y] (rndOf t)) d [x, y]
    (fun a xs _ => aluMul q t a.prefixOf.rnd.toNat (arg xs 0) (arg xs 1)) ∧
  VectorWord (.min sb false t d x y) (regRules false d [x, y] 0) d [x, y]
    (fun _ xs _ => aluMinMax false t (arg xs 0) (arg xs 1)) ∧
  VectorWord (.max sb false t d x y) (regRules false d [x, y] 0) d [x, y]
    (fun _ xs _ => aluMinMax true t (arg xs 0) (arg xs 1)) ∧
  VectorWord (.absd sb false t d x y) (regRules false d [x, y] (rndOf t)) d [x, y]
    (fun a xs _ => aluAbsd t a.prefixOf.rnd.toNat (arg xs 0) (arg xs 1)) ∧
  VectorWord (.div sb false t d x y) (regRules false d [x, y] (rndOf t)) d [x, y]
    (fun a xs _ => aluDiv t a.prefixOf.rnd.toNat (arg xs 0) (arg xs 1)) ∧
  VectorWord (.rem sb false t d x y) (regRules false d [x, y] 0) d [x, y] (fun _ xs _ => intRem t (arg xs 0) (arg xs 1)) ∧
  VectorWord (.shift sb false t p d x y) (regRules false d [x, y] 0) d [x, y]
    (fun _ xs _ => (aluShift t p (arg xs 0) (arg xs 1), 0)) ∧
  VectorWord (.bits sb false f d x) (regRules false d [x] 0) d [x] (fun _ xs _ => (aluBits f (arg xs 0), 0)) ∧
  VectorWord (.bfx sb false e d x y) (regRules false d [x, y] 0) d [x, y]
    (fun _ xs _ => (aluBfx e (arg xs 0) (arg xs 1), 0)) ∧
  VectorWord (.bfi sb false d x y) { regRules false d [x, y] 0 with legal := d.isReg } d [x, y, d]
    (fun _ xs _ => (aluBfi (arg xs 0) (arg xs 1) (arg xs 2), 0)) ∧
  VectorWord (.sel sb m d x y) (vecRules d [x, y] 0) d [x, y]
    (fun a xs l => (if (a.getM m.toNat).getLsbD l then arg xs 0 else arg xs 1, 0)) ∧
  VectorWord (.mov sb false d x) (regRules false d [x] 0) d [x] (fun _ xs _ => (arg xs 0, 0)) ∧
  VectorWord (.bcast sb d f) (vecRules d [] 0) d [] (fun a _ _ => ((a.getX f.toNat).setWidth 32, 0))) ∧
  (∀ (sb q e : Bool) (t : BitVec 3) (f : BitVec 5) (p : BitVec 2) (d x y : Opd),
  UniformWord (.add sb true q t d x y) (regRules true d [x, y] (rndOf t)) d [x, y]
    (fun a xs => aluAdd q t a.prefixOf.rnd.toNat (arg xs 0) (arg xs 1)) ∧
  UniformWord (.sub sb true q t d x y) (regRules true d [x, y] (rndOf t)) d [x, y]
    (fun a xs => aluSub q t a.prefixOf.rnd.toNat (arg xs 0) (arg xs 1)) ∧
  UniformWord (.mul sb true q t d x y) (regRules true d [x, y] (rndOf t)) d [x, y]
    (fun a xs => aluMul q t a.prefixOf.rnd.toNat (arg xs 0) (arg xs 1)) ∧
  UniformWord (.min sb true t d x y) (regRules true d [x, y] 0) d [x, y]
    (fun _ xs => aluMinMax false t (arg xs 0) (arg xs 1)) ∧
  UniformWord (.max sb true t d x y) (regRules true d [x, y] 0) d [x, y]
    (fun _ xs => aluMinMax true t (arg xs 0) (arg xs 1)) ∧
  UniformWord (.absd sb true t d x y) (regRules true d [x, y] (rndOf t)) d [x, y]
    (fun a xs => aluAbsd t a.prefixOf.rnd.toNat (arg xs 0) (arg xs 1)) ∧
  UniformWord (.div sb true t d x y) (regRules true d [x, y] (rndOf t)) d [x, y]
    (fun a xs => aluDiv t a.prefixOf.rnd.toNat (arg xs 0) (arg xs 1)) ∧
  UniformWord (.rem sb true t d x y) (regRules true d [x, y] 0) d [x, y] (fun _ xs => intRem t (arg xs 0) (arg xs 1)) ∧
  UniformWord (.shift sb true t p d x y) (regRules true d [x, y] 0) d [x, y]
    (fun _ xs => (aluShift t p (arg xs 0) (arg xs 1), 0)) ∧
  UniformWord (.bits sb true f d x) (regRules true d [x] 0) d [x] (fun _ xs => (aluBits f (arg xs 0), 0)) ∧
  UniformWord (.bfx sb true e d x y) (regRules true d [x, y] 0) d [x, y]
    (fun _ xs => (aluBfx e (arg xs 0) (arg xs 1), 0)) ∧
  UniformWord (.bfi sb true d x y) { regRules true d [x, y] 0 with legal := d.isReg } d [x, y, d]
    (fun _ xs => (aluBfi (arg xs 0) (arg xs 1) (arg xs 2), 0)) ∧
  UniformWord (.mov sb true d x) (regRules true d [x] 0) d [x] (fun _ xs => (arg xs 0, 0)))

/-- MOVI and MOVH (R46, R144): the immediate with and without a prefix. MAD and PERM (R49, R131, R139): the fourth operand is
what the prefix names; without a prefix it is the old destination of MAD, and the constant selector of PERM. -/
def Obligations.ImmediateAndFourthOperandWords : Prop := 
  ((∀ (sb : Bool) (d : Opd) (i : BitVec 17),
  VectorWord (.movi sb false d i) { regRules false d [] 0 with okX := true } d []
    (fun a _ _ => (BitVec.ofInt 32 (match a.pfx with
      | some p => (p.x ++ i).toInt
      | none => i.toInt), 0)) ∧
  UniformWord (.movi sb true d i) { regRules true d [] 0 with okX := true } d []
    (fun a _ => (BitVec.ofInt 64 (match a.pfx with
      | some p => (p.x ++ i).toInt
      | none => i.toInt), 0)) ∧
  VectorWord (.movh sb false d i) { regRules false d [] 0 with legal := d.isReg } d [d]
    (fun _ xs _ => (i ++ (arg xs 0).setWidth 15, 0)) ∧
  UniformWordIf (fun a => a.pfx = none) (.movh sb true d i) { regRules true d [] 0 with okX := true, legal := d.isReg } d [d]
    (fun _ xs => (((arg xs 0) >>> 32).setWidth 32 ++ (i ++ (arg xs 0).setWidth 15), 0)) ∧
  UniformWordIf (fun a => a.pfx.isSome) (.movh sb true d i) { regRules true d [] 0 with okX := true, legal := d.isReg } d [d]
    (fun a xs => (((arg xs 0) >>> 42).setWidth 22 ++ ((a.prefixOf.x ++ i) ++ (arg xs 0).setWidth 15), 0))) ∧
  (∀ (sb q : Bool) (t : BitVec 3) (d x y z : Opd),
  VectorWordIf (fun a => a.pfx.isSome ∧ a.prefixOf.c = z) (.mad sb false q t d x y)
    { regRules false d [x, y] (rndOf t) with okC := true, first := addendFirst d } d [x, y, z]
    (fun a xs _ => aluMad q t a.prefixOf.rnd.toNat (arg xs 0) (arg xs 1) (arg xs 2)) ∧
  VectorWordIf (fun a => a.pfx = none ∧ d.isReg) (.mad sb false q t d x y)
    { regRules false d [x, y] (rndOf t) with okC := true, first := addendFirst d } d [x, y, d]
    (fun a xs _ => aluMad q t a.prefixOf.rnd.toNat (arg xs 0) (arg xs 1) (arg xs 2)) ∧
  UniformWordIf (fun a => a.pfx.isSome ∧ a.prefixOf.c = z) (.mad sb true q t d x y)
    { regRules true d [x, y] (rndOf t) with okC := true, first := addendFirst d } d [x, y, z]
    (fun a xs => aluMad q t a.prefixOf.rnd.toNat (arg xs 0) (arg xs 1) (arg xs 2)) ∧
  UniformWordIf (fun a => a.pfx = none ∧ d.isReg) (.mad sb true q t d x y)
    { regRules true d [x, y] (rndOf t) with okC := true, first := addendFirst d } d [x, y, d]
    (fun a xs => aluMad q t a.prefixOf.rnd.toNat (arg xs 0) (arg xs 1) (arg xs 2)) ∧
  VectorWordIf (fun a => a.pfx.isSome ∧ a.prefixOf.c = z) (.perm sb false d x y)
    { regRules false d [x, y] 0 with okC := true } d [x, y, z]
    (fun _ xs _ => (permVec (arg xs 0) (arg xs 1) (arg xs 2), 0)) ∧
  VectorWordIf (fun a => a.pfx = none) (.perm sb false d x y) { regRules false d [x, y] 0 with okC := true } d [x, y]
    (fun _ xs _ => (arg xs 0, 0)) ∧
  UniformWordIf (fun a => a.pfx.isSome ∧ a.prefixOf.c = z) (.perm sb true d x y)
    { regRules true d [x, y] 0 with okC := true } d [x, y, z]
    (fun _ xs => (permUni (arg xs 0) (arg xs 1) (arg xs 2), 0)) ∧
  UniformWordIf (fun a => a.pfx = none) (.perm sb true d x y) { regRules true d [x, y] 0 with okC := true } d [x, y]
    (fun _ xs => (arg xs 0, 0))))

/-- CMP (R140): a mask register in vector form, by thread, and 1 or 0 in uniform form; nothing else of
the agent but its place changes, and its task's flags gain those of the comparison. -/
def Obligations.CompareWords : Prop := ∀ (sb : Bool) (c : BitVec 3) (y : BitVec 2) (d x z : Opd),
  UniformWord (.cmp sb true c y d x z) { regRules true d [x, z] 0 with dst := some d } d [x, z]
    (fun _ xs => (if (aluCmp c y (arg xs 0) (arg xs 1)).1 then 1 else 0, (aluCmp c y (arg xs 0) (arg xs 1)).2)) ∧
  ∀ s s1 id a vs, Issues s id a (.cmp sb false c y d x z) { regRules false d [x, z] 0 with dst := none } →
    readVs s id [x, z] = some (vs, s1) → ∃ t a1 b, exec (.cmp sb false c y d x z) s = .next t ∧
      OnlyAgent s1 t id a.lctx ∧ s1.agent id = some a1 ∧ t.agent id = some b ∧
      { b.still with m := [] } = { a1.still with m := [] } ∧
      (∀ k, k ≠ d.code % 8 → b.getM k = a1.getM k) ∧
      (d.code % 8 ≠ 0 → ∀ l, l < 32 → (b.getM (d.code % 8)).getLsbD l =
        if (a.active a.prefixOf).getLsbD l then
          (aluCmp c y (laneOf (vs.getD 0 zeroV) l) (laneOf (vs.getD 1 zeroV) l)).1
        else if a.live.getLsbD l && a.prefixOf.z then false else (a.getM (d.code % 8)).getLsbD l) ∧
      t.placedOf id a = (s1.placedOf id a).map fun p => p.flagged id a (flagsOf (a.active a.prefixOf) fun l =>
        (0, (aluCmp c y (laneOf (vs.getD 0 zeroV) l) (laneOf (vs.getD 1 zeroV) l)).2))

/-- The float words of one element each way (R153 to R156): sign and class, functions, dot products. And what the float
words compute, on every element and every kind of operand (R149 to R156): the exact result, a rational number, rounded once,
with the flags of R117 and R148; the sign of an exact zero; NaNs and infinities; a special function other than the quotient
and the roots where its exact value is a number of the format or the operand has a row of its own (elsewhere its
value is not stated here); and the rules' own examples. -/
def Obligations.FloatWords : Prop := (∀ (sb h : Bool) (t fn : BitVec 3) (o : BitVec 2) (f : BitVec 5) (d x y z : Opd),
  VectorWord (.fclass sb false t d x) (regRules false d [x] 0) d [x] (fun _ xs _ => (aluFclass t (arg xs 0), 0)) ∧
  UniformWord (.fclass sb true t d x) (regRules true d [x] 0) d [x] (fun _ xs => (aluFclass t (arg xs 0), 0)) ∧
  VectorWord (.fsgn sb false o t d x y) (regRules false d [x, y] 0) d [x, y]
    (fun _ xs _ => (aluFsgn o t (arg xs 0) (arg xs 1), 0)) ∧
  UniformWord (.fsgn sb true o t d x y) (regRules true d [x, y] 0) d [x, y]
    (fun _ xs => (aluFsgn o t (arg xs 0) (arg xs 1), 0)) ∧
  VectorWord (.sfu sb h fn d x) (vecRules d [x] (if fn = 2 then 4 else 0)) d [x]
    (fun a xs _ => aluSfu h fn a.prefixOf.rnd.toNat (arg xs 0)) ∧
  VectorWordIf (fun a => a.pfx.isSome ∧ a.prefixOf.c = z) (.dot sb f d x y)
    { vecRules d [x, y] (if f = 3 then 0 else 4) with okC := true, first := addendFirst d } d [x, y, z]
    (fun a xs _ => aluDot f a.prefixOf.rnd.toNat (arg xs 0) (arg xs 1) (arg xs 2)) ∧
  VectorWordIf (fun a => a.pfx = none ∧ d.isReg) (.dot sb f d x y)
    { vecRules d [x, y] (if f = 3 then 0 else 4) with okC := true, first := addendFirst d } d [x, y, d]
    (fun a xs _ => aluDot f a.prefixOf.rnd.toNat (arg xs 0) (arg xs 1) (arg xs 2))) ∧
  (∀ (n r : Nat) (a b c : BitVec n) (sat : Bool) (t : BitVec 3) (f : Fmt), n = 32 ∨ n = 64 → r ≤ 4 →
    (t, f) ∈ [((2 : BitVec 3), Fmt.f32), (3, .f16), (4, .bf16)] →
    let x := codeAt f a; let y := codeAt f b; let z := codeAt f c
    EachCode f (aluAdd sat t r a b) (fun j => SumOf f r (x j) (y j)) ∧
    EachCode f (aluSub sat t r a b) (fun j => SumOf f r (x j) (turned f (y j))) ∧
    EachCode f (aluMul sat t r a b) (fun j => ProductOf f r (x j) (y j)) ∧
    EachCode f (aluMad sat t r a b c) (fun j => FusedOf f r (x j) (y j) (z j)) ∧
    EachCode f (aluAbsd t r a b) (fun j => DistanceOf f r (x j) (y j)) ∧
    (t = 2 → EachCode f (aluDiv t r a b) (fun j => QuotientOf f r (x j) (y j))) ∧
    (∀ g, EachCode f (aluMinMax g t a b) (fun j o => o = extremeOf g f (x j) (y j))) ∧
    EachCode f (aluFsgn 0 t a b, 0) (fun j o => o.1 = magCode f (x j)) ∧
    EachCode f (aluFsgn 1 t a b, 0) (fun j o => o.1 = turned f (x j)) ∧
    EachCode f (aluFsgn 2 t a b, 0) (fun j o => o.1 = signPart f (negCode f (y j)) + magCode f (x j)) ∧
    EachCode f (aluFclass t a, 0) (fun j o => o.1 = classOf f (x j)) ∧
    (∀ k : BitVec 3, f = .f32 → aluCmp k 2 a b = comparisonOf k.toNat (x 0) (y 0))) ∧
  (∀ (r : Nat) (a b c : Word) (k : BitVec 3) (h : Bool), r ≤ 4 →
    EachCode (if h then .f16 else .f32) (aluSfu h k r a)
      (fun j => FunctionOf (if h then .f16 else .f32) k.toNat r (codeAt (if h then .f16 else .f32) a j)) ∧
    (∀ p ∈ [((0 : BitVec 5), Fmt.f16, 2), (1, .bf16, 2), (2, .t8, 4), (4, .t6, 5)],
      DotOf p.2.1 p.2.2 r (codeAt p.2.1 a) (codeAt p.2.1 b) c.toNat ((aluDot p.1 r a b c).1.toNat, (aluDot p.1 r a b c).2)) ∧
    aluDot 3 r a b c = (BitVec.ofInt 32 (((List.range 4).map fun j =>
      ((a >>> (8 * j)).setWidth 8).toInt * ((b >>> (8 * j)).setWidth 8).toInt).sum + c.toInt), 0)) ∧
  aluFclass 3 (0x80007E00 : Word) = 0x00080200 ∧ aluDot 2 0 0x23D85840 0x40404040 0x3F000000 = (0x3FE60000, 0)

/-- CVT (R157 to R159): one element, two packed elements from a pair of registers or from one
register, and two elements unpacked into a pair. Code 5 takes its random bits from the register or channel `z` that the
prefix names. And what one conversion computes, for every pair of formats and rounding code (R105, R108, R117, R119, R159): the
number of the source element rounded once to the destination format, an integer kept in its range with NV, NaNs,
infinities and the e2m1 escape; and the rule's example of random rounding. -/
def Obligations.ConversionWords : Prop := (∀ (sb : Bool) (n : BitVec 3) (ty yy : BitVec 4) (d x z : Opd),
  let c := fun (a : Agent) => if n = 5 then a.pfx.isSome ∧ a.prefixOf.c = z else z = .reg 0
  let rb := fun (w : Word) (j : Nat) => if n = 5 then rbitsOf w j else 0
  let rules := fun (u : Bool) => ({ regRules u d [x] 0 with okC := n == 5, first := cvtFirst n u ty yy } : Rules)
  UniformWordIf c (.cvt sb true n d x ty yy) (rules true) d [x, z] (fun _ xs =>
    cvtElem 64 ty.toNat yy.toNat n.toNat (rb ((arg xs 1).setWidth 32) 0)
      (if ty = 2 then (arg xs 0).toNat % 2 ^ 32 else (arg xs 0).toNat)) ∧
  (¬ (yy = 2 ∧ (ty = 13 ∨ ty = 14)) → yy ≠ 13 → yy ≠ 14 →
    VectorWordIf c (.cvt sb false n d x ty yy) (rules false) d [x, z] (fun _ xs _ =>
      cvtElem 32 ty.toNat yy.toNat n.toNat (rb (arg xs 1) 0) (arg xs 0).toNat)) ∧
  (yy = 13 ∨ yy = 14 → ty = 2 →
    VectorWordIf c (.cvt sb false n d x ty yy) (rules false) d [x, .reg (BitVec.ofNat 5 (x.code + 1)), z] (fun _ xs _ =>
      let el := fun j => cvtElem 32 2 yy.toNat n.toNat (rb (arg xs 2) j) (arg xs j).toNat
      ((el 0).1 ||| (el 1).1 <<< 16, (el 0).2 ||| (el 1).2))) ∧
  (yy = 13 ∨ yy = 14 → ty ≠ 2 →
    VectorWordIf c (.cvt sb false n d x ty yy) (rules false) d [x, .reg 0, z] (fun _ xs _ =>
      let el := fun j => cvtElem 32 ty.toNat yy.toNat n.toNat (rb (arg xs 2) j) ((arg xs 0).toNat / 2 ^ (16 * j) % 65536)
      ((el 0).1 ||| (el 1).1 <<< 16, (el 0).2 ||| (el 1).2))) ∧
  (yy = 2 → ty = 13 ∨ ty = 14 → ∀ s s1 id a vs, Issues s id a (.cvt sb false n d x ty yy) (rules false) → c a →
    readVs s id [x, z] = some (vs, s1) → ∃ t a1 b, exec (.cvt sb false n d x ty yy) s = .next t ∧
      OnlyAgent s1 t id a.lctx ∧ s1.agent id = some a1 ∧ t.agent id = some b ∧
      { b.still with v := [] } = { a1.still with v := [] } ∧
      (∀ k, k ≠ d.code % 32 → k ≠ (d.code + 1) % 32 → b.getV k = a1.getV k) ∧
      ∀ j, j < 2 → laneResult a b a.prefixOf.z ((d.code + j) % 32) (fun l =>
        (cvtElem 32 ty.toNat 2 n.toNat (rb (laneOf (vs.getD 1 zeroV) l) j)
          ((laneOf (vs.getD 0 zeroV) l).toNat / 2 ^ (16 * j) % 65536)).1))) ∧
  (∀ sty dty rnd rb x : Nat, rnd ≤ 5 →
    (sty < 15 → dty < 15 → sty ≠ 12 → dty ≠ 12 → Converts 32 sty dty rnd rb x (cvtElem 32 sty dty rnd rb x)) ∧
    (sty < 3 → dty < 3 → Converts 64 sty dty rnd rb x (cvtElem 64 sty dty rnd rb x))) ∧
  (∀ rb, cvtElem 32 2 4 5 rb 0x3F804000 = (if 0x600000 ≤ rb % 2 ^ 23 then 0x3F81 else 0x3F80, flNX)) ∧
  ∀ (w : Word) (j : Nat), j < 2 → rbitsOf w j = (w.rotateRight (8 * j)).toNat

/-- QSCL, QENC and QDEC (R161 to R164). QSCL, and QENC to e2m1, need a converged group; QENC
with rounding code 5 takes its random bits from the register or channel `z` that the prefix names, and counts for each thread the
escaped threads below it. And what they compute (R109, R110, R160 to R164): the least scale that no element exceeds; the exact
quotient by the scale, and the exact product with it, rounded once; zero scales, NaN scales, NaNs and infinities. -/
def Obligations.BlockScaleWords : Prop := (∀ (sb : Bool) (e : BitVec 4) (d x y z : Opd),
  VectorWord (.qdec sb e d x y) (vecRules d [x, y] 4) d [x, y]
    (fun a xs _ => aluQdec e.toNat a.prefixOf.rnd.toNat (arg xs 0) (arg xs 1)) ∧
  (∀ s s1 id a v, Issues s id a (.qscl sb e d x) { vecRules d [x] 0 with first := convergedFirst } →
    readVs s id [x] = some ([v], s1) → chanRoom s1 id d → ∃ t, exec (.qscl sb e d x) s = .next t ∧
      let r := aluQscl e.toNat ((lanes (a.active a.prefixOf)).map fun l => laneOf v l)
      VectorDone s1 t id a a.prefixOf.z d (fun l => (BitVec.ofNat 32 r.1, if (lanes (a.active a.prefixOf)).head? = some l then r.2 else 0))) ∧
  (∀ s s1 id a vs, Issues s id a (.qenc sb e d x y) { vecRules d [x, y] 5 with okC := true, first := qencFirst e } →
    (if a.prefixOf.rnd = 5 then a.prefixOf.c = z else z = .reg 0) →
    readVs s id [x, y, z] = some (vs, s1) → chanRoom s1 id d → ∃ t, exec (.qenc sb e d x y) s = .next t ∧
      let v := fun l => laneOf (vs.getD 0 zeroV) l
      let w := fun l => laneOf (vs.getD 1 zeroV) l
      VectorDone s1 t id a a.prefixOf.z d (fun l => aluQenc e.toNat a.prefixOf.rnd.toNat
        (if a.prefixOf.rnd = 5 then (laneOf (vs.getD 2 zeroV) l).toNat else 0)
        (((lanes (a.active a.prefixOf)).filter fun k => qEscaped (v k) (w k)).filter (· < l)).length (v l) (w l)))) ∧
  ∀ (k rnd rb rank : Nat) (xs : List Word) (x sc : Word), k = 7 ∨ k = 9 ∨ k = 10 ∨ k = 11 → rnd ≤ 5 → rank < 32 →
    ScaleOf k xs (aluQscl k xs) ∧ Encodes k rnd rb rank x sc (aluQenc k rnd rb rank x sc) ∧
    Decodes k rnd x sc (aluQdec k rnd x sc) ∧
    (qEscaped x sc = true ↔ sc.toNat % 4096 ≠ 0 ∧ sc.toNat % 4096 / 16 ≠ 255 ∧ (infCode .f32 x.toNat = true ∨
      (finCode .f32 x.toNat = true ∧ 6 < |codeValue .f32 x.toNat / scaleValue (sc.toNat % 4096)|)))

/-! ## Alphabets and packed symbols -/

/-- The word instructions on packed symbols (R271 to R281): where the alphabet registers hold
alphabets and every active thread's words are valid under one that traps, each thread gets its result. And what they compute,
digit by digit, under every valid descriptor (R112 to R115, R272, R276 to R281): an invalid word gives nothing where the
alphabet traps it, and else reads as the word of zeros with INVAL; a value outside the digit's range is brought to the nearer end with RANGE;
and the rule's own examples. -/
def Obligations.AlphabetWords : Prop := (∀ (sb q : Bool) (l k : BitVec 2) (d x y z : Opd),
  let has := fun (a : Agent) => a.getAl l.toNat ≠ 0
  VectorWordSome has (.rget sb l d x y) (alRules l d [x, y]) d [x, y] (fun a xs => rgetOf (a.getAl l.toNat) xs) ∧
  VectorWordSome has (.rset sb l d x y) { alRules l d [x, y] with legal := d.isReg } d [x, y, d]
    (fun a xs => rsetOf (a.getAl l.toNat) xs) ∧
  VectorWordSome has (.runpk sb l d x y) (alRules l d [x, y]) d [x, y] (fun a xs => runpkOf (a.getAl l.toNat) xs) ∧
  VectorWordSome has (.rpack sb l d x y) { alRules l d [x, y] with legal := d.isReg } d [x, y, d]
    (fun a xs => rpackOf (a.getAl l.toNat) xs) ∧
  VectorWordSome has (.rsum sb l d x y) (alRules l d [x, y]) d [x, y] (fun a xs => rsumOf (a.getAl l.toNat) xs) ∧
  VectorWordSome has (.rcnt sb l d x y) (alRules l d [x, y]) d [x, y] (fun a xs => rcntOf (a.getAl l.toNat) xs) ∧
  VectorWordIf has (.rchk sb l d x) (alRules l d [x]) d [x]
    (fun a xs _ => (if alP (a.getAl l.toNat) ≤ (arg xs 0).toNat then 1 else 0, 0)) ∧
  VectorWordSome (fun a => has a ∧ a.getAl k.toNat ≠ 0) (.rmap sb l d x k) { alRules l d [x] with first := emptyFirst [l, k] } d [x]
    (fun a xs => rmapOf (a.getAl l.toNat) (a.getAl k.toNat) xs) ∧
  VectorWordSome (fun a => has a ∧ a.getAl k.toNat ≠ 0 ∧ alN (a.getAl k.toNat) = alN (a.getAl l.toNat) ∧
      if a.pfx.isSome then a.prefixOf.c = z else d.isReg ∧ z = d) (.rdot sb q l k d x y)
    { vecRules d [x, y] 0 with okC := true, traps := true, first := rdotFirst l k d } d [x, y, z]
    (fun a xs => rdotOf q (a.getAl k.toNat) (a.getAl l.toNat) xs)) ∧
  (∀ (al : Word64) (w v b : Word) (i : Nat), alValid al = true → al ≠ 0 → i < 2 ^ 32 →
    let n := digitsOf al; let j := i % 8; let at_ := BitVec.ofNat 32 i
    let sym := symbolAt al
    let byte := fun k : Nat => if mapAt al (4 * j + k) = 0 then (byteOf b k : ℤ) else (BitVec.ofNat 8 (byteOf b k)).toInt
    let puts := fun (y : Nat) (k : Nat) (u : ℤ) => digitValue al k (digitAt al y k) = clampAt al k u ∧
      ∀ c, c < radixAt al k → digitValue al k c = clampAt al k u → digitAt al y k ≤ c
    alN al = n ∧ alP al = weightAt al n ∧
    (n ≤ i → rgetOf al [w, at_] = some (0, 0) ∧ rsetOf al [v, at_, w] = some (w, 0)) ∧
    (n ≤ 4 * j → runpkOf al [w, at_] = some (0, 0) ∧ rpackOf al [b, at_, w] = some (w, 0)) ∧
    (weightAt al n ≤ w.toNat → al.getLsbD 48 = true →
      (i < n → rgetOf al [w, at_] = none ∧ rsetOf al [v, at_, w] = none) ∧
      (4 * j < n → runpkOf al [w, at_] = none ∧ rpackOf al [b, at_, w] = none) ∧
      rsumOf al [w, v] = none ∧ rcntOf al [w, v] = none ∧ ∀ bl, rmapOf al bl [w] = none ∧
        ∀ q, rdotOf q al bl [w, b, v] = none ∧ rdotOf q bl al [b, w, v] = none) ∧
    (w.toNat < weightAt al n ∨ al.getLsbD 48 = false → ∃ x fl, ReadsAs al w x fl ∧
      (i < n → rgetOf al [w, at_] = some (BitVec.ofInt 32 (sym x i), fl) ∧
        ∃ y : Word, rsetOf al [v, at_, w] = some (y, fl ||| flagIf (decide (v.toInt ≠ clampAt al i v.toInt)) flRANGE) ∧
          y.toNat < weightAt al n ∧ puts y.toNat i v.toInt ∧ ∀ k, k < n → k ≠ i → digitAt al y.toNat k = digitAt al x k) ∧
      (4 * j < n → (∃ o : Word, runpkOf al [w, at_] = some (o, fl) ∧
          ∀ k, k < 4 → byteOf o k = if 4 * j + k < n then (sym x (4 * j + k) % 256).toNat else 0) ∧
        ∃ y : Word, rpackOf al [b, at_, w] = some (y, fl ||| flagIf ((List.range 4).any fun k =>
            decide (4 * j + k < n ∧ byte k ≠ clampAt al (4 * j + k) (byte k))) flRANGE) ∧ y.toNat < weightAt al n ∧
          ∀ k, k < n → if k / 4 = j then puts y.toNat k (byte (k % 4)) else digitAt al y.toNat k = digitAt al x k) ∧
      rsumOf al [w, v] = some (BitVec.ofInt 32 (v.toInt + ((List.range n).map (sym x)).sum), fl) ∧
      rcntOf al [w, v] = some (BitVec.ofNat 32 ((List.range n).countP fun k => sym x k == v.toInt), fl) ∧
      ∀ bl : Word64, alValid bl = true → bl ≠ 0 →
        (∃ y : Word, rmapOf al bl [w] = some (y, fl ||| flagIf ((List.range n).any fun k =>
            sym x k != if k < digitsOf bl then clampAt bl k (sym x k) else 0) flRANGE) ∧
          Spells bl y.toNat (fun k => if k < n then clampAt bl k (sym x k) else 0)) ∧
        ∀ y gl, digitsOf bl = n → ReadsAs bl b y gl →
          let s := v.toInt + ((List.range n).map fun k => sym x k * symbolAt bl y k).sum
          rdotOf false al bl [w, b, v] = some (BitVec.ofInt 32 s, fl ||| gl) ∧
          rdotOf true al bl [w, b, v] = some (BitVec.ofInt 32 (max (-2 ^ 31) (min (2 ^ 31 - 1) s)),
            fl ||| gl ||| flagIf (decide (s < -2 ^ 31 ∨ 2 ^ 31 - 1 < s)) flOF))) ∧
  rgetOf 0x0229 [100, 2] = some (1, 0) ∧ runpkOf 0x0229 [227, 0] = some (0x0100FF01, 0) ∧
  runpkOf 0x0229 [227, 1] = some (1, 0) ∧ rmapOf 0x0229 0x0429 [227] = some (2308, 0) ∧
  rsetOf 0x0429 [3, 2, 2568] = some (2618, flRANGE) ∧ rcntOf 0x0229 [227, 1] = some (3, 0) ∧ alP 0x0229 = 243

/-- ALD (R274): a group loads a valid descriptor into the alphabet register and nothing else changes;
a lead only checks it. A descriptor that is not valid raises ILLEGAL_INSTR. A packed word that is not valid under an
alphabet that traps raises INVALID_CODE with the mask of its threads, and nothing is written (R273, R275): RSUM stands for
the word instructions. -/
def Obligations.AlphabetChecks : Prop := (∀ (sb : Bool) (l : BitVec 2) (n : BitVec 5),
  let rules : Rules := { form := .u, u := true, src := [.reg n], regs := true, traps := true, late := true }
  Completes (.ald sb l (.reg n)) sb rules (fun _ _ a => alValid (a.getX n.toNat) = true)
    (fun s id a => if a.lead then s else s.setAgent id (a.setAl l.toNat (a.getX n.toNat))) ∧
  (∀ p c x, Completes (.ald sb l (.chan p c)) sb { form := .u, u := true, src := [.chan p c], regs := true, traps := true, late := true }
    (fun s id _ => alValid x = true ∧ ∃ s1, readU s id (.chan p c) = some (x, s1))
    (fun s id a =>
      let s1 := ((readU s id (.chan p c)).map Prod.snd).getD s
      if a.lead then s1 else match s1.agent id with
        | some b => s1.setAgent id (b.setAl l.toNat x)
        | none => s1)) ∧
  Traps (.ald sb l (.reg n)) rules (fun _ _ a => alValid (a.getX n.toNat) = false) trIllegalInstr (fun _ _ _ => 0)) ∧
  (∀ (sb : Bool) (l : BitVec 2) (d : Opd) (n k : BitVec 5),
  let bad := fun (a : Agent) (t : Nat) => (a.active a.prefixOf).getLsbD t && alTrap (a.getAl l.toNat) &&
    decide (alP (a.getAl l.toNat) ≤ (laneOf (a.getV n.toNat) t).toNat)
  Traps (.rsum sb l d (.reg n) (.reg k)) (alRules l d [.reg n, .reg k])
    (fun _ _ a => ∃ t, t < 32 ∧ bad a t = true) trInvalidCode
    (fun _ _ a => (BitVec.ofBoolListLE ((List.range 32).map (bad a))).setWidth 64))

/-! ## Cross-lane words -/

/-- SHFL, BFLY, VOTE, REDG, SCANG and LANE in a converged group, and LMAP (R232 to R243): the masked threads
of the group have no vote and no term; with every present thread masked nothing is written but by LANE, a channel
included. A group that is not converged raises ILLEGAL_STATE with its threads, and nothing else happens. LMAP (R242): the
lane number, the thread id of each thread, or new thread ids for the active ones. -/
def Obligations.CrossLaneWords : Prop := (∀ (sb e : Bool) (f g u : BitVec 5) (w : BitVec 2) (k o : BitVec 3) (d x y : Opd)
    (s s1 : State) (id : AgentId) (a : Agent) (v v' : VReg),
  let act := a.active a.prefixOf
  let tree := redTree o.toNat a.prefixOf.rnd.toNat 5 (redInput o.toNat act v)
  let scan := (List.range 5).foldl (fun (r : List Term × BitVec 9) j =>
    let q := scanLevel o.toNat a.prefixOf.rnd.toNat j act r.1
    (q.1, r.2 ||| q.2)) (redInput o.toNat act v, 0)
  let once := fun (fl : BitVec 9) (l : Nat) => if (lanes act).head? = some l then fl else 0
  (Issues s id a (.shfl sb f d x y) (laneRules d [x, y] 0) → readVs s id [x, y] = some ([v, v'], s1) → chanRoom s1 id d →
    ∃ t, exec (.shfl sb f d x y) s = .next t ∧
      CrossDone s1 t id a d (fun l => (laneOf v (shflLane f.toNat l (laneOf v' l)), 0))) ∧
  (Issues s id a (.vote sb f d x) (laneRules d [x] 0) → readVs s id [x] = some ([v], s1) → chanRoom s1 id d →
    ∃ t, exec (.vote sb f d x) s = .next t ∧ CrossDone s1 t id a d (fun _ =>
      (if f = 0 then (if (lanes act).all fun l => laneOf v l != 0 then 1 else 0)
        else if f = 1 then (if (lanes act).any fun l => laneOf v l != 0 then 1 else 0)
        else (BitVec.ofBoolListLE ((List.range 32).map fun l => act.getLsbD l && laneOf v l != 0)).setWidth 32, 0))) ∧
  (Issues s id a (.redg sb o d x) (laneRules d [x] (redRnd o)) → readVs s id [x] = some ([v], s1) → chanRoom s1 id d →
    ∃ t, exec (.redg sb o d x) s = .next t ∧
      CrossDone s1 t id a d (fun l => ((tree.1.getD 0 noTerm).2, once tree.2 l))) ∧
  (Issues s id a (.scang sb e o d x) (laneRules d [x] (redRnd o)) → readVs s id [x] = some ([v], s1) → chanRoom s1 id d →
    ∃ t, exec (.scang sb e o d x) s = .next t ∧ CrossDone s1 t id a d (fun l =>
      ((if e then (if l = 0 then redIdent o.toNat else (scan.1.getD (l - 1) noTerm).2) else (scan.1.getD l noTerm).2),
        once scan.2 l))) ∧
  (Issues s id a (.lane sb g x u)
      { form := .v, u := false, src := [x], regs := true, late := true, first := convergedFirst } →
    readVs s id [x] = some ([v], s1) → ∃ t, exec (.lane sb g x u) s = .next t ∧
      UniformDone s1 t id a (.reg g) ((laneOf v ((a.getX u.toNat).toNat % 32)).setWidth 64) 0) ∧
  (Issues s id a (.bfly sb w k d x) { laneRules d [x] 0 with legal := bflyLegal (2 ^ w.toNat) d x } →
    ∃ t b, exec (.bfly sb w k d x) s = .next t ∧ OnlyAgent s t id a.lctx ∧ t.agent id = some b ∧
      { b.still with v := [] } = { a.still with v := [] } ∧
      (∀ n, n < d.code ∨ d.code + bflyRun (2 ^ w.toNat) ≤ n → b.getV n = a.getV n) ∧
      ∀ j, j < bflyRun (2 ^ w.toNat) → laneResult a b (a.prefixOf.z && act != 0) (d.code + j)
        (fun l => bflyWord a (2 ^ w.toNat) k.toNat x.code l j))) ∧
  (∀ (sb e : Bool) (f g u : BitVec 5) (o : BitVec 3) (d x y : Opd),
  let split := fun (a : Agent) => a.converged = false
  let who := fun (a : Agent) => a.live.setWidth 64
  TrapsFirst (.shfl sb f d x y) (laneRules d [x, y] 0) split trIllegalState who ∧
  TrapsFirst (.vote sb f d x) (laneRules d [x] 0) split trIllegalState who ∧
  TrapsFirst (.redg sb o d x) (laneRules d [x] (redRnd o)) split trIllegalState who ∧
  TrapsFirst (.scang sb e o d x) (laneRules d [x] (redRnd o)) split trIllegalState who ∧
  TrapsFirst (.lane sb g x u) { form := .v, u := false, src := [x], regs := true, late := true, first := convergedFirst }
    split trIllegalState who) ∧
  (∀ (sb : Bool) (d x : Opd),
  VectorWord (.lmap sb 0 d (.reg 0) (.reg 0)) (vecRules d [] 0) d [] (fun _ _ l => (BitVec.ofNat 32 l, 0)) ∧
  VectorWord (.lmap sb 1 d (.reg 0) (.reg 0)) (vecRules d [] 0) d [] (fun a _ l => (mapGet 0 a.tids l, 0)) ∧
  ∀ s s1 id a v, Issues s id a (.lmap sb 2 (.reg 0) x (.reg 0)) { vecRules (.reg 0) [x] 0 with okM := true } →
    readVs s id [x] = some ([v], s1) → ∃ t a1 b, exec (.lmap sb 2 (.reg 0) x (.reg 0)) s = .next t ∧ OnlyAgent s1 t id a.lctx ∧
      s1.agent id = some a1 ∧ t.agent id = some b ∧ { b.still with tids := [] } = { a1.still with tids := [] } ∧
      ∀ l, l < 32 → mapGet 0 b.tids l = if (a.active a.prefixOf).getLsbD l then laneOf v l else mapGet 0 a.tids l)

/-! ## Control words -/

/-- BR, JMP, CALL and LOOP (R34, R57, R218, R220, R221): where the branch is taken and the clause header at its target
reads well, the path stands at the first word of that clause, and a move backward is a switch point; CALL leaves the link
and LOOP its count. Else only the position moves on. A target that is not a multiple of 4 raises BAD_TARGET with the
threads of the path, and leaves no link and no count. -/
def Obligations.UniformTransfers : Prop := (∀ (sb : Bool) (k : BitVec 3) (n : BitVec 5) (o : BitVec 15) (d x : Opd)
    (s s1 : State) (id : AgentId) (a : Agent),
  let cond := fun (v : Word64) => k = 0 ∨ (k = 1 ∧ v = 0) ∨ (k = 2 ∧ v ≠ 0) ∨ (k = 3 ∧ v.toInt < 0) ∨ (k = 4 ∧ 0 ≤ v.toInt)
  let off : Word64 := match a.pfx with
    | some p => (p.x ++ o).signExtend 64
    | none => o.signExtend 64
  let word := a.path.pc + BitVec.ofNat 64 (4 * (a.path.wix + if a.pfx.isSome then 2 else 1))
  let t := a.getX x.code
  let left := a.getX d.code - 1
  (Issues s id a (.br sb k n o) (ctlRules true) → cond (a.getX n.toNat) → Lands s s1 id (word + off * 4) →
    exec (.br sb k n o) s = .next ((s1.setAgent id (a.go (word + off * 4))).lands id a sb true)) ∧
  (Issues s id a (.br sb k n o) (ctlRules true) → ¬ cond (a.getX n.toNat) →
    exec (.br sb k n o) s = .next (s.passes id a sb true)) ∧
  (Issues s id a (.jmp sb x) (ctlRules false) → Lands s s1 id t →
    exec (.jmp sb x) s = .next ((s1.setAgent id (a.go t)).lands id a sb true)) ∧
  (Issues s id a (.call sb d x) (ctlRules false) → Lands s s1 id t →
    exec (.call sb d x) s = .next ((s1.setAgent id ((a.setX d.code a.fallThrough).go t)).lands id a sb true)) ∧
  (Issues s id a (.loop sb d x) (ctlRules false) → left ≠ 0 → Lands s s1 id t →
    exec (.loop sb d x) s = .next ((s1.setAgent id ((a.setX d.code left).go t)).lands id a sb true)) ∧
  (Issues s id a (.loop sb d x) (ctlRules false) → left = 0 →
    exec (.loop sb d x) s = .next ((s.setAgent id (a.setX d.code left)).passes id a sb true))) ∧
  (∀ (a : Agent) (t : Word64), a.cur < a.paths.length →
  let there := a.setPath { a.path with pc := t, wix := 0, h := false }
  (a.wordAddr.toNat < t.toNat → a.go t = there) ∧
  (t.toNat ≤ a.wordAddr.toNat → a.inHandler = true → a.go t = there) ∧
  (t.toNat ≤ a.wordAddr.toNat → (a.go t).paths = there.paths ∧
    ((a.go t).cur ≠ a.cur → ∃ p, (a.go t).paths[(a.go t).cur]? = some p ∧ p.waiting = false)) ∧
  there.path = { a.path with pc := t, wix := 0, h := false }) ∧
  (∀ (sb : Bool) (d x : Opd),
  let bad := fun (s : State) (id : AgentId) (a : Agent) => (a.getX x.code).toNat % 4 ≠ 0 ∧ a.live ≠ 0 ∧ s.current = some (id, a)
  Traps (.jmp sb x) (ctlRules false) bad trBadTarget (fun _ _ a => a.live.setWidth 64) ∧
  Traps (.call sb d x) (ctlRules false) bad trBadTarget (fun _ _ a => a.live.setWidth 64) ∧
  Traps (.loop sb d x) (ctlRules false) (fun s id a => bad s id a ∧ a.getX d.code ≠ 1) trBadTarget
    (fun _ _ a => a.live.setWidth 64))

/-- BRD and JMPD (R222 to R225, R227) where the path moves as a whole, where it splits into held paths, and
where threads spawn: the threads that stay keep their registers; each spawned one goes to the whey store of the
cluster with its landing address, its vector registers, its bits of `m1` to `m7` and its thread id, in the
order of the lanes, and gives up its reservations; what the group has written is ordered for the device (R269). -/
def Obligations.DivergentTransfers : Prop := (∀ (sb : Bool) (th m : BitVec 3) (o : BitVec 15) (x : Opd) (u : BitVec 5)
    (s s1 : State) (id : AgentId) (a : Agent),
  let tk := a.live &&& a.getM m.toNat
  let nt := a.live &&& ~~~ a.getM m.toNat
  let t := a.target o
  let ft := a.fallThrough
  let brd : Rules := { form := .v, u := false, okX := true, regs := true, fixed := true }
  let jmpd : Rules := { form := .v, u := false, regs := true, fixed := true }
  let at_ := fun (p : Word64) (w : Word) => ({ noPath with pc := p, mask := w } : Path)
  let ts := jmpdTargets a u x
  (Issues s id a (.brd sb th m o) brd → th.toNat < 6 → tk = 0 → nt ≠ 0 → exec (.brd sb th m o) s = .next (s.passes id a sb false)) ∧
  (Issues s id a (.brd sb th m o) brd → th.toNat < 6 → tk ≠ 0 → nt = 0 → Lands s s1 id t →
    exec (.brd sb th m o) s = .next ((s1.setAgent id (a.go t)).lands id a sb false)) ∧
  (Issues s id a (.brd sb th m o) brd → th = 0 → tk ≠ 0 → nt ≠ 0 → Lands s s1 id t → a.paths.length < 4 →
    ∃ b, exec (.brd sb th m o) s = .next ((s1.setAgent id b).lands id a sb false) ∧
      b.paths = a.paths.take a.cur ++ [{ a.path with pc := ft, wix := 0, h := false, mask := nt }, at_ t tk]
        ++ a.paths.drop (a.cur + 1) ∧
      { b.still with present := 0 } = { a.still with present := 0 }) ∧
  (Issues s id a (.jmpd sb th x u) jmpd → th.toNat < 7 → ∀ p, ts = [p] → Lands s s1 id p.1 →
    a.paths.length ≤ 4 → a.live ≠ 0 → ∃ b, exec (.jmpd sb th x u) s = .next ((s1.setAgent id b).lands id a sb false) ∧
      b.paths = a.paths.take a.cur ++ [{ a.path with pc := p.1, wix := 0, h := false, mask := p.2 }]
        ++ a.paths.drop (a.cur + 1) ∧
      { b.still with present := 0 } = { a.still with present := 0 }) ∧
  (∀ w h, Issues s id a (.brd sb th m o) brd → th = 7 → tk ≠ 0 → nt ≠ 0 → t.toNat % 4 = 0 →
    s.fetchWords id headNo t.toNat 1 = (s1, .ok [w]) → decodeHeader w = some h → h.l = true → a.paths.length ≤ 4 →
    a.clear 13 = true → a.late = [] → s1.drains a = false → (s1.cluster (id.core / 32)).slots + (lanes tk).length ≤ 8192 →
    ∃ b, exec (.brd sb th m o) s = .next (((s1.spawnThreads id a [{ addr := t, mask := tk, spawned := true }]).setAgent id b).lands
      id a sb false) ∧
      b.paths = a.paths.take a.cur ++ [{ a.path with pc := ft, wix := 0, h := false, mask := nt }] ++ a.paths.drop (a.cur + 1) ∧
      { b.still with present := 0 } = { a.still with present := 0 })) ∧
  (∀ (s : State) (id : AgentId) (a : Agent) (p : Target),
  let t := s.spawnThreads id a [p]
  let c := id.core / 32
  (t.cluster c).arrive = ((s.fenceUo id 3).cluster c).arrive ++ (lanes p.mask).map (fun l =>
    { ctx := a.ctx, tcb := a.tcb, land := p.addr, threads := [a.thread l] }) ∧
  (∀ l, l < 32 → p.mask.getLsbD l = true → t.resvs.all fun v => !(v.id == id && v.lane == l)) ∧
  (∀ l n, n < 32 → l < 32 → mapGet 0 (a.thread l).v n = laneOf (a.getV n) l ∧
    ((a.thread l).m.getLsbD n = decide (n ≠ 0 ∧ n < 8 ∧ (a.getM n).getLsbD l = true)) ∧
    (a.thread l).tid = mapGet 0 a.tids l) ∧
  t.agenda = (s.fenceUo id 3).agenda ++ [.wheySpawn c])

/-- CTL (R218, R219, R226): YIELD is a switch point, at which the path behind the current one goes on unless it waits; JOINP on one path has no effect; EXIT of a path that is
not the last leaves the others in place; TRAP raises SW_TRAP with its operand and BKPT raises BKPT. -/
def Obligations.ControlWords : Prop := ∀ (sb : Bool) (x : Opd),
  (∀ s id a, Issues s id a (.ctlYield sb) (ctlRules false) → ∃ t, exec (.ctlYield sb) s = .next t ∧
    OnlyAgent s t id a.lctx ∧ t.agent id = some { a.advance.switch with gate := if a.marker sb then 0xF else 0 }) ∧
  (∀ (a : Agent) (p : Path), a.inHandler = false → 1 < a.paths.length → a.cur < a.paths.length →
    a.paths[(a.cur + 1) % a.paths.length]? = some p → p.waiting = false →
    a.switch.cur = (a.cur + 1) % a.paths.length ∧ a.switch.paths = a.paths) ∧
  Completes (.ctlJoinp sb) sb (ctlRules false) (fun _ _ a => a.lead = true ∨ a.inHandler = true ∨ a.paths.length ≤ 1)
    (fun s _ _ => s) ∧
  (∀ s id a, Issues s id a (.ctlJoinp sb) (ctlRules false) → a.lead = false → a.inHandler = false → 1 < a.paths.length →
    ∃ b, exec (.ctlJoinp sb) s = .next ((s.setAgent id b).lands id a sb true) ∧ b.still = a.still ∧
      ((∃ p ∈ (a.paths.eraseIdx a.cur), p.waiting = false) →
        b.paths = a.advance.paths.set a.cur { a.advance.path with waiting := true, joinp := a.wordAddr })) ∧
  (∀ s id a, Issues s id a (.ctlExit sb) (ctlRules false) → (∃ p ∈ a.paths.eraseIdx a.cur, p.waiting = false) →
    ∃ b, exec (.ctlExit sb) s = .next ((s.setAgent id b).lands id a sb true) ∧ b.paths = a.paths.eraseIdx a.cur ∧
      { b.still with present := 0 } = { a.still with present := 0 }) ∧
  (∀ s id a p, Issues s id a (.ctlExit sb) (ctlRules false) → a.paths = [p] → a.cur = 0 → a.late = [] →
    exec (.ctlExit sb) s = .next ((s.retire id a).spent a.tcb 1)) ∧
  Traps (.ctlTrap sb x) (ctlRules false) always trSwTrap (fun _ _ a => a.getX x.code) ∧
  Traps (.ctlBkpt sb) (ctlRules false) always trBkpt (fun _ _ _ => 0)

/-! ## Traps and the supervisor words -/

/-- Taking a trap (R413, R414): with every result written, the trap registers hold the code, the place and the
threads of the trapping word, `PPRIV` the privilege, which is now 1, and the agent fetches from the vector of
its kind; everything else of the agent and of the module stays. With results still to be written the
trap waits. A trap that waited is taken as soon as nothing that the agent has issued is unfinished (R38, R413); until then the event leaves
the agent as it is. A trap or a fault inside a handler halts the agent with cause DOUBLE, code 3 (R415), with the virtual address that it
concerns for the error record (R423). -/
def Obligations.TrapEntry : Prop := 
  ((∀ (s : State) (id : AgentId) (a : Agent) (code : Nat) (info : Word64),
  s.agent id = some a → a.inHandler = false → (s.core id.core).turns = [] → a.cur < a.paths.length →
  let p := a.path
  let vec := BitVec.ofNat 64 (if a.lead then (s.ctx a.ctx).lvec else (s.ctx a.ctx).tvec)
  (a.cld = 0 → a.cst = 0 → a.cmat = 0 → a.cchn = 0 → a.outst = [] → a.late = [] →
    ∃ b, (s.trap id a code info).agent id = some b ∧ OnlyAgent s (s.trap id a code info) id a.lctx ∧
      b.tcause = BitVec.ofNat 64 code ∧ b.tpc = p.pc ∧ b.tclause = BitVec.ofNat 64 (p.h.toNat * 16 + p.wix % 16) ∧
      b.tmask = (if a.lead then 1 else p.mask).setWidth 64 ∧ b.tinfo = info ∧ b.ppriv = a.priv ∧ b.priv = true ∧
      b.inHandler = true ∧ b.path.pc = vec ∧ b.path.wix = 0 ∧ b.path.h = false ∧ b.cur = a.cur ∧
      (∀ i, i ≠ a.cur → b.paths[i]? = a.paths[i]?) ∧ b.x = a.x ∧ b.v = a.v ∧ b.m = a.m ∧ b.al = a.al ∧
      b.chans = a.chans ∧ b.tsave0 = a.tsave0 ∧ b.tsave1 = a.tsave1 ∧ b.frame = a.frame) ∧
  (a.outst ≠ [] ∨ a.late ≠ [] → ∃ b, (s.trap id a code info).agent id = some b ∧ b.pend = .trap code info ∧
    { b with pend := a.pend } = a)) ∧
  (∀ (s : State) (id : AgentId) (a : Agent) (code : Nat) (info : Word64),
  s.agent id = some a → a.pend = .trap code info →
  (a.settled = true → ∃ t b, exec (.trapEntry id) s = .next t ∧ OnlyAgent s t id a.lctx ∧
    t.agent id = some b ∧ b.tcause = BitVec.ofNat 64 code ∧ b.tinfo = info ∧ b.tpc = a.path.pc ∧
    b.ppriv = a.priv ∧ b.priv = true ∧ b.inHandler = true ∧ b.pend = .none ∧ b.x = a.x ∧ b.v = a.v ∧ b.m = a.m) ∧
  (a.settled = false → exec (.trapEntry id) s = .next s.rotate))) ∧
  (∀ (s : State) (id : AgentId) (a : Agent) (code kind : Nat) (info va : Word64)
    (perf : Word) (home : Option Nat) (m : Bool),
  a.inHandler = true →
    s.trap id a code info = (s.leaveTurns id.core a.key).halt id a 3 0 (trapVa code info) ∧
    s.pageFault id a va kind perf home m = (s.leaveTurns id.core a.key).halt id a 3 0 va.toNat)

/-- SYS.ERET (R226, R416, R418): outside a save or a restore it restores the privilege, leaves the handler and
resumes at `cr.tpc` and `cr.tclause`, or after SW_TRAP and BKPT at the word that follows: the high code of a pair word
after its low one, and past a prefix its word as well. The ERET that ends a save frees the slot; the one that ends a restore puts
the path table and the wait of a BARS as the frame holds them before it. Outside a handler it raises ILLEGAL_INSTR. -/
def Obligations.HandlerReturn : Prop := ∀ (sb : Bool) (s : State) (id : AgentId) (a : Agent),
  Issues s id a (.sysEret sb) sysRules → a.priv = true →
  (a.inHandler = true → a.tcause.toNat % 256 ≠ trPreempt → a.tcause.toNat % 256 ≠ trSwTrap → a.tcause.toNat % 256 ≠ trBkpt →
    a.cur < a.paths.length → ∃ t b, exec (.sysEret sb) s = .next t ∧ OnlyAgent s t id a.lctx ∧ t.agent id = some b ∧
      b.priv = a.ppriv ∧ b.ppriv = a.ppriv ∧ b.inHandler = false ∧ b.path.pc = a.tpc ∧
      b.path.wix = a.tclause.toNat % 16 ∧ b.path.h = a.tclause.getLsbD 4 ∧ b.cur = a.cur ∧ b.x = a.x ∧ b.v = a.v ∧
      b.m = a.m ∧ b.al = a.al ∧ b.tcause = a.tcause ∧ b.tpc = a.tpc ∧ b.tinfo = a.tinfo ∧ b.tmask = a.tmask) ∧
  (a.inHandler = true → a.tcause.toNat % 256 = trPreempt → a.tinfo.getLsbD 0 = false →
    a.settled = true → a.sigs = [] → s.drains a = false → exec (.sysEret sb) s = .next ((s.saveDone id a).spent a.tcb 1)) ∧
  (∀ s1 ws x c, a.inHandler = true → a.tcause.toNat % 256 = trSwTrap ∨ a.tcause.toNat % 256 = trBkpt →
    let wix := a.tclause.toNat % 16
    s.fetchWords id (2 * fetchNo) a.tpc.toNat (wix + 2) = (s1, .ok ws) → decodeHeader (ws.getD 0 0) = some x →
    s1.agent id = some c → c.cur < c.paths.length → ∃ t b, exec (.sysEret sb) s = .next t ∧ OnlyAgent s1 t id a.lctx ∧
      t.agent id = some b ∧ b.path.pc = c.tpc ∧
      (b.path.wix, b.path.h) = (if x.pair.getLsbD wix then if a.tclause.getLsbD 4 then (wix + 1, false) else (wix, true)
        else if ws.getD (wix + 1) 0 / 2 ^ 23 % 128 = 0x7F then (wix + 2, false) else (wix + 1, false)) ∧
      b.cur = c.cur ∧ b.priv = c.ppriv ∧ b.ppriv = c.ppriv ∧ b.inHandler = false ∧ b.x = c.x ∧ b.v = c.v ∧ b.m = c.m) ∧
  (∀ s1 xs c, a.inHandler = true → a.tcause.toNat % 256 = trPreempt → a.tinfo.getLsbD 0 = true →
    (s.ctx a.ctx).frameOk a.frame = true → s.hwReads (frameReq id a) a.frame.toNat headParts = .ok xs s1 →
    s1.agent id = some c → c.tcause = a.tcause → let f := c.loadHead xs
    f.cur < f.paths.length → ∃ t b, exec (.sysEret sb) s = .next t ∧ OnlyAgent s1 t id a.lctx ∧ t.agent id = some b ∧
      b.paths = f.paths.set f.cur { f.path with pc := c.tpc, wix := c.tclause.toNat % 16, h := c.tclause.getLsbD 4 } ∧
      b.cur = f.cur ∧ b.bwait = f.bwait ∧ b.priv = c.ppriv ∧ b.inHandler = false ∧ b.x = c.x ∧ b.v = c.v ∧ b.m = c.m) ∧
  (a.inHandler = false → exec (.sysEret sb) s = .next ((s.trap id a trIllegalInstr 0).spent a.tcb 1))

/-- CSRR and CSRW (R70, R412, R418): every supervisor register reads as its fields stand; a write changes it
but for its reserved bits, and never `PRIV`. -/
def Obligations.SupervisorRegisters : Prop := ∀ (sb : Bool) (n : BitVec 5) (r : BitVec 4),
  let priv := fun (_ : State) (_ : AgentId) (a : Agent) => a.priv = true
  let value := fun (s : State) (id : AgentId) (a : Agent) => match r.toNat with
    | 0 => a.tcause
    | 1 => a.tpc
    | 2 => a.tclause
    | 3 => a.tmask
    | 4 => a.tinfo
    | 5 => a.frame
    | 6 => a.tsave0
    | 7 => a.tsave1
    | 8 => BitVec.ofNat 64 (a.priv.toNat + 2 * a.ppriv.toNat)
    | 9 => a.feat
    | _ => BitVec.ofNat 64 (s.modid + id.core * 2 ^ 32 + id.idx % 64 * 2 ^ 48 + a.lead.toNat * 2 ^ 54 + a.ctx * 2 ^ 56)
  Completes (.sysCsrr sb n r) sb sysRules priv (fun s id a => s.setAgent id (a.setX n.toNat (value s id a))) ∧
  Completes (.sysCsrw sb n r) sb sysRules priv (fun s id a =>
    let x := a.getX n.toNat
    s.setAgent id (match r.toNat with
      | 0 => { a with tcause := x &&& 0xFF }
      | 1 => { a with tpc := x }
      | 2 => { a with tclause := x &&& 0x1F }
      | 3 => { a with tmask := x &&& 0xFFFFFFFF }
      | 4 => { a with tinfo := x }
      | 5 => { a with frame := x }
      | 6 => { a with tsave0 := x }
      | 7 => { a with tsave1 := x }
      | _ => { a with ppriv := x.getLsbD 1 }))

/-- A word that the issue stage does not accept (R42, R49, R61, R72) raises ILLEGAL_INSTR, wherever its
counters let it issue; ADD, CR.w and a channel operand stand for the shared issue of every word. So does SYS without
privilege (R70, R418). -/
def Obligations.RefusedWords : Prop := (∀ (s : State) (id : AgentId) (a : Agent),
  s.current = some (id, a) → a.now = none → a.clear a.gate = true →
  (∀ sb u q t d x y, accepts s a (.add sb u q t d x y) (regRules u d [x, y] (rndOf t)) = false →
    exec (.add sb u q t d x y) s = .next (s.trap id a trIllegalInstr 0)) ∧
  (∀ sb d r, a.lead = false → exec (.crW sb d r) s = .next (s.trap id a trIllegalInstr 0)) ∧
  (∀ sb u q t d x y, (u = true ∧ a.prefixOf.m ≠ 0) ∨ t = 7 ∨ a.prefixOf.c ≠ .reg 0 ∨ a.prefixOf.x ≠ 0 →
    exec (.add sb u q t d x y) s = .next (s.trap id a trIllegalInstr 0)) ∧
  (∀ sb q t d x y c p, (d = .chan p c ∨ x = .chan p c ∨ y = .chan p c) → 8 ≤ c.toNat →
    exec (.add sb false q t d x y) s = .next (s.trap id a trIllegalInstr 0))) ∧
  (∀ (sb : Bool) (d n k : BitVec 5) (r : BitVec 4),
  let user := fun (_ : State) (_ : AgentId) (a : Agent) => a.priv = false
  let zero := fun (_ : State) (_ : AgentId) (_ : Agent) => (0 : Word64)
  Traps (.sysCsrr sb d r) sysRules user trIllegalInstr zero ∧
  Traps (.sysCsrw sb n r) sysRules user trIllegalInstr zero ∧
  Traps (.sysEret sb) sysRules user trIllegalInstr zero ∧
  Traps (.sysTlbinv sb n k) sysRules user trIllegalInstr zero ∧
  Traps (.sysXtinv sb n k) sysRules user trIllegalInstr zero ∧
  Traps (.sysFrame sb n k) sysRules user trIllegalInstr zero ∧
  Traps (.sysHaltg sb d n) sysRules user trIllegalInstr zero ∧
  Traps (.sysDictld sb n) sysRules user trIllegalInstr zero)

/-- A word whose wait mask or switch marker names a counter that is not zero waits for its turn again
(R36, R37), and nothing else changes; the bits of the mask name LD, ST, MAT and CHN from bit 0 up. A word that pops an
empty channel issues and waits: it is set aside, the channel counter rises by one for each element that it has yet to take, and
the agent goes on behind it (R71, R215). It takes the elements that are there in the order of its operands (R42): of two empty channels
none, and of a channel with an element before an empty one that element. That each operand's element counts for itself is log entry 14. -/
def Obligations.HeldWords : Prop := (∀ (s : State) (id : AgentId) (a : Agent), s.current = some (id, a) →
  a.now = none → a.clear a.gate = false → ∀ sb u q t d x y n l o c z b k,
    exec (.add sb u q t d x y) s = .next s.rotate ∧ exec (.nop sb u) s = .next s.rotate ∧
    exec (.st sb u z o c d b k) s = .next s.rotate ∧ exec (.mmq sb l t n b k) s = .next s.rotate ∧
    exec (.sysEret sb) s = .next s.rotate) ∧
  (∀ (a : Agent) (w : BitVec 4), a.clear w = true ↔
  ((w.getLsbD 0 = true → a.cld = 0) ∧ (w.getLsbD 1 = true → a.cst = 0) ∧
    (w.getLsbD 2 = true → a.cmat = 0) ∧ (w.getLsbD 3 = true → a.cchn = 0))) ∧
  (∀ (s : State) (id : AgentId) (a : Agent) (sb q p : Bool) (t c : BitVec 3) (d y : Opd) (n : Nat),
    let i : Instr := .add sb false q t d (.chan p (c.setWidth 4)) y
    let r : Rules := regRules false d [.chan p (c.setWidth 4), y] (rndOf t)
    Tries s id a i r → s.closed id a r = false → s.stays id a i r = false →
      mapFind c.toNat a.chans = some { depth := n, elems := [] } →
      ∃ t b, exec i s = .next t ∧ t.agent id = some b ∧ b.cchn = a.cchn + (r.pops a.prefixOf).length ∧
        b.path = a.advance.path ∧ b.v = a.v ∧ b.chans = a.chans ∧
        ∃ l, b.late = a.late ++ [l] ∧ l.ins = i ∧ l.v = a.v ∧ l.hand = [] ∧ l.pops = r.pops a.prefixOf) ∧
  (∀ (s : State) (id : AgentId) (a : Agent) (sb q : Bool) (t c k : BitVec 3) (d : Opd) (n m : Nat) (e : VReg) (es : List VReg),
    let x : Opd := .chan false (c.setWidth 4)
    let y : Opd := .chan false (k.setWidth 4)
    let i : Instr := .add sb false q t d x y
    let r : Rules := regRules false d [x, y] (rndOf t)
    Tries s id a i r → s.closed id a r = false → a.late = [] → mapFind c.toNat a.chans = some { depth := n, elems := e :: es } →
      mapFind k.toNat a.chans = some { depth := m, elems := [] } →
      ∃ t b, exec i s = .next t ∧ t.agent id = some b ∧ b.cchn = a.cchn + 1 ∧ b.v = a.v ∧
        b.chans = mapPut c.toNat { depth := n, elems := es } a.chans ∧
        ∃ l, b.late = [l] ∧ l.ins = i ∧ l.hand = [{ peek := false, chan := c.toNat, v := e, x := 0 }] ∧ l.pops = [k.toNat])

/-- TLBINV and XTINV (R185, R201): every TLB entry of the issuer's context that overlaps the granules goes, on every
core, and so do its reservations there; XTINV also marks the extents STALE. While an access of the context that went
out before is still unanswered the word waits, and then completes; that it waits for every such access, and not only for those
that used a translation removed, is the model's reading (log entry 36). An address with bits 63 to 60
not zero raises ILLEGAL_INSTR. -/
def Obligations.InvalidationWords : Prop := ∀ (sb : Bool) (n k : BitVec 5),
  let fits := fun (a : Agent) => a.priv = true ∧ (a.getX n.toNat).toNat < 2 ^ 60
  let bad := fun (_ : State) (_ : AgentId) (a : Agent) => a.priv = true ∧ 2 ^ 60 ≤ (a.getX n.toNat).toNat
  let range := fun (a : Agent) => if a.getX k.toNat = 0 then (0, 2 ^ 44) else
    ((a.getX n.toNat).toNat / 2 ^ 16, min (2 ^ 44) (((a.getX n.toNat).toNat / 2 ^ 16 * 2 ^ 16 + (a.getX k.toNat).toNat
      + (2 ^ 16 - 1)) / 2 ^ 16))
  let tlb := fun (s : State) (a : Agent) => s.invalidate a.ctx (range a)
  let ext := fun (s : State) (a : Agent) => ((s.invalidate a.ctx (range a)).markStale a.ctx (range a)).wake
  let first := fun (a : Agent) => fits a ∧ mapFind invKey a.got = none
  let quiet := fun (t : State) (a : Agent) => t.inFlight a.ctx t.ntag = false
  let held := fun (t : State) (id : AgentId) (a : Agent) =>
    ({ t.setAgent id { a with got := mapPut invKey t.ntag a.got } with ntag := t.ntag + 1 } : State)
  let again := fun (s : State) (_ : AgentId) (a : Agent) =>
    fits a ∧ ∃ m, mapFind invKey a.got = some m ∧ s.inFlight a.ctx m = false
  Completes (.sysTlbinv sb n k) sb sysRules (fun s _ a => first a ∧ quiet (tlb s a) a) (fun s _ a => (tlb s a).landCtx a.ctx) ∧
  Completes (.sysXtinv sb n k) sb sysRules (fun s _ a => first a ∧ quiet (ext s a) a) (fun s _ a => (ext s a).landCtx a.ctx) ∧
  (∀ s id a, Issues s id a (.sysTlbinv sb n k) sysRules → first a → ¬ quiet (tlb s a) a →
    exec (.sysTlbinv sb n k) s = .next (held (tlb s a) id a).rotate) ∧
  (∀ s id a, Issues s id a (.sysXtinv sb n k) sysRules → first a → ¬ quiet (ext s a) a →
    exec (.sysXtinv sb n k) s = .next (held (ext s a) id a).rotate) ∧
  Completes (.sysTlbinv sb n k) sb sysRules again (fun s _ a => s.landCtx a.ctx) ∧
  Completes (.sysXtinv sb n k) sb sysRules again (fun s _ a => s.landCtx a.ctx) ∧
  Traps (.sysTlbinv sb n k) sysRules bad trIllegalInstr (fun _ _ _ => 0) ∧
  Traps (.sysXtinv sb n k) sysRules bad trIllegalInstr (fun _ _ _ => 0) ∧
  (∀ (s : State) ctx g c, ((s.invalidate ctx g).core c).tlb = (s.core c).tlb.filter fun e => !e.overlaps ctx g) ∧
  (∀ (s : State) ctx g v, v ∈ (s.invalidate ctx g).resvs ↔ v ∈ s.resvs ∧ ¬ (v.ctx = ctx ∧ g.1 ≤ v.vpn ∧ v.vpn < g.2)) ∧
  (∀ (s : State) ctx g c l p x, mapFind l ((s.markStale ctx g).core c).placed = some p → p.ctx = ctx → x ∈ p.exts →
    g.1 < x.vbase + x.npg → x.vbase < g.2 → x.stale = true)

/-- SYS.FRAME (R419): in the save or restore routine of a pre-emption it moves exactly the parts that the
control value names, and a CORE part after them; elsewhere, and with a control value that breaks the
layout, it raises ILLEGAL_INSTR. SYS.HALTG and SYS.DICTLD (R420): HALTG of the issuer halts it; of another agent of its context halts that one and
gives 1; of a slot without an agent of the context gives 0. DICTLD replaces the dictionary of the issuer's
task on its core by the entries read. A word that reads a register which poison covers halts its agent with cause 1 and the
register's place in the window of its core (R421): ADD stands for the words on registers. -/
def Obligations.FrameHaltAndDictionaryWords : Prop := 
  (∀ (sb : Bool) (n k : BitVec 5),
  let ctl := fun (a : Agent) => (a.getX n.toNat).toNat
  let here := fun (a : Agent) => a.priv = true ∧ a.inHandler = true ∧ a.tcause.toNat % 256 = trPreempt ∧
    frameCtlBad a.lead (ctl a) = false ∧ (a.lead = true ∨ k = 0)
  Completes (.sysFrame sb n k) sb sysRules
    (fun s id a => here a ∧ ctl a % 2 = 0 ∧ (ctl a).testBit 14 = false ∧ ∃ s1, s.saveParts id a (savedParts s id a (ctl a)) = .ok () s1)
    (fun s id a => match s.saveParts id a (savedParts s id a (ctl a)) with
      | .ok _ s1 => s1
      | _ => s) ∧
  Completes (.sysFrame sb n k) sb sysRules
    (fun s id a => here a ∧ ctl a % 2 = 1 ∧ (ctl a).testBit 14 = false ∧ ∃ f s1 b, loadParts s id a (ctl a) = .ok f s1 ∧
      s1.agent id = some b)
    (fun s id a => match loadParts s id a (ctl a) with
      | .ok f s1 => match s1.agent id with
        | some b => (s1.setAgent id (f b)).bindSlots id (f b)
        | none => s1
      | _ => s) ∧
  (∀ s s1 s2 id a, Issues s id a (.sysFrame sb n k) sysRules → here a → ctl a % 2 = 0 → (ctl a).testBit 14 = true →
    s.saveParts id a (savedParts s id a (ctl a)) = .ok () s1 → (a.getX k.toNat).toNat % 4096 = 0 →
    (s1.core id.core).tilesBusy ((s1.core id.core).tilesOf a.ctx a.lctx) = false →
    s1.storeParts id 0 ((joinParts (coreParts s1 id a)).map fun p => ((a.getX k.toNat).toNat + p.1, p.2)) = (s2, none) →
    exec (.sysFrame sb n k) s = .next ((s2.releaseCore id a).passes id a sb true)) ∧
  Traps (.sysFrame sb n k) sysRules (fun _ _ a => a.priv = true ∧ (a.inHandler = false ∨ a.tcause.toNat % 256 ≠ trPreempt ∨
    frameCtlBad a.lead (ctl a) = true ∨ (a.lead = false ∧ k ≠ 0))) trIllegalInstr (fun _ _ _ => 0)) ∧
  (∀ (sb : Bool) (d n : BitVec 5),
  let target := fun (id : AgentId) (a : Agent) => haltTarget id (a.getX n.toNat).toNat
  (∀ s id a, Issues s id a (.sysHaltg sb d n) sysRules → a.priv = true → target id a = some id → a.late = [] →
    exec (.sysHaltg sb d n) s = .next ((s.halt id a 2 0 0).spent a.tcb 1)) ∧
  (∀ s id a j b, Issues s id a (.sysHaltg sb d n) sysRules → a.priv = true → target id a = some j → j ≠ id →
    s.agent j = some b → b.ctx = a.ctx →
    exec (.sysHaltg sb d n) s = .next (((s.setAgent id (a.setX d.toNat 1)).halt j b 2 0 0).passes id a sb true)) ∧
  Completes (.sysHaltg sb d n) sb sysRules (fun s id a => a.priv = true ∧ ∃ j, target id a = some j ∧ j ≠ id ∧
      ∀ b, s.agent j = some b → b.ctx ≠ a.ctx) (fun s id a => s.setAgent id (a.setX d.toNat 0)) ∧
  Traps (.sysHaltg sb d n) sysRules (fun _ id a => a.priv = true ∧ target id a = none) trIllegalInstr (fun _ _ _ => 0) ∧
  (∀ s s1 s2 id a c ws, Issues s id a (.sysDictld sb n) sysRules → a.priv = true → (a.getX n.toNat).toNat % 4 = 0 →
    s.reads id { plain := true } 0 [(a.getX n.toNat, 4)] = (s1, .ok [c]) → c ≤ 1024 →
    s1.reads id { plain := true } 1 ((List.range c).map fun i => (a.getX n.toNat + BitVec.ofNat 64 (4 + 4 * i), 4)) =
      (s2, .ok ws) → ws.any dictForbids = false →
    exec (.sysDictld sb n) s = .next ((s2.setCore id.core ((s2.core id.core).loadDict a.lctx ws)).passes id a sb true)) ∧
  (∀ (k : Core) l ws i, l < 4 → ws.length ≤ 1024 → i < ws.length →
    mapGet 0 (k.loadDict l ws).dict (l * 0x400 + i) = BitVec.ofNat 32 (ws.getD i 0))) ∧
  (∀ (s : State) (id : AgentId) (a : Agent) (sb u q : Bool) (t : BitVec 3) (d : Opd) (n k : BitVec 5) (l : Nat),
    let i : Instr := .add sb u q t d (.reg n) (.reg k)
    let r : Rules := regRules u d [.reg n, .reg k] (rndOf t)
    let place := fun v : Nat => if u then uniPlace id.idx v else vecPlace id.idx v l
    Tries s id a i r → r.first a = none → s.closed id a r = false → s.held id a i r a.late [] = false → d.isReg = true →
    u = true ∨ (l < 32 ∧ (a.active a.prefixOf).getLsbD l = true) →
    ((s.core id.core).lost.contains (place n.toNat / 8) ∨ (s.core id.core).lost.contains (place k.toNat / 8)) →
    ∃ o, (s.core id.core).lost.contains (o / 8) ∧
      exec i s = .next ((s.halt id a 1 (s.winPa id.core o) 0).spent a.tcb (a.slots u)))

/-- PREEMPT and PARK (R181, R269, R415, R416): with nothing that the agent has issued unfinished, no signal and no write of its tiles
to come, the agent that is pre-empted outside a handler has its header, path table and lane map in its frame and enters the save
routine as one path of every present thread; in a handler the request waits. The group whose page is missing parks: that the whole park is one event
is the model's choice (log entry 65). -/
def Obligations.LeavingEvents : Prop := ∀ (s s1 : State) (id : AgentId) (a c : Agent),
  s.agent id = some a → a.settled = true → a.sigs = [] →
  (
    let s0 := ((s.fenceUo id 3).flushUo id).leaveTurns id.core a.key
    a.inHandler = false → s.drains a = false →
    s0.saveParts id a (frameHead s0 id { a with ppriv := a.priv } 2 0 0 (s0.pins a)) = .ok () s1 →
    s1.agent id = some c → c.cur < c.paths.length →
    ∃ t b, exec (.preempt id) s = .next t ∧ OnlyAgent s1 t id c.lctx ∧ t.agent id = some b ∧
      b.tcause = BitVec.ofNat 64 trPreempt ∧ b.tinfo = 0 ∧ b.tpc = c.path.pc ∧ b.inHandler = true ∧ b.priv = true ∧
      b.ppriv = c.priv ∧ b.paths.length = 1 ∧ b.path.pc = s1.saveVector c ∧ b.path.wix = 0 ∧
      b.path.mask = pathMask c.paths ∧ b.x = c.x ∧ b.v = c.v ∧ b.m = c.m) ∧
  (a.inHandler = true → exec (.preempt id) s = .next s.rotate) ∧
  (∀ va kind perf home m, a.pend = .park va kind perf home m → a.lead = false → a.inHandler = false → a.told = none →
    (s.leaveTurns id.core a.key).drains { a with pend := .none } = false →
    exec (.park id) s = .next ((s.leaveTurns id.core a.key).park id { a with pend := .none } va kind perf home m))

/-- The words and events that only lead to the next word (R28, R34, R47, R53): NOP has no effect; PFX keeps its
fields for the next word; a pair code takes an entry of the dictionary with `ROT` applied, as in the example that follows R55; a clause
whose header and words read well and are well formed is fetched whole, and its wait bits are in force. So `nop`, `pfx`,
`dictPairWord` and `clauseFetch` complete under these conditions on the state and the operands alone. -/
def Obligations.WordsBeforeWords : Prop :=
  (∀ (s : State) (id : AgentId) (a : Agent) (sb u : Bool), Issues s id a (.nop sb u) { form := .any, u := u, regs := true } →
    exec (.nop sb u) s = .next (s.passes id a sb u)) ∧
  (∀ (s : State) (id : AgentId) (a : Agent) m z r c x, s.current = some (id, a) → a.clear a.gate = true →
    Instr.wf (.pfx m z r c x) = true →
    let p : Pfx := { m := m, z := z, rnd := r, c := c, x := x }
    exec (.pfx m z r c x) s = .next (s.setAgent id { a with pfx := some p }) ∧ Agent.prefixOf { a with pfx := some p } = p) ∧
  (∀ (s : State) (id : AgentId) (a : Agent) w e, s.current = some (id, a) → a.clear a.gate = true →
    let c := decodePair (if a.path.h then w.toNat / 65536 else w.toNat % 65536)
    s.dictEntry id a c.idx.toNat = some e → (s.core id.core).lost = [] → exec (.dictPairWord w) s = .next (s.setAgent id { a with
      pairw := some { ins := (decodeWord e).toOption.map (Instr.rotate c.rot), s := c.s } })) ∧
  (∀ (s s1 s2 : State) (id : AgentId) (a b : Agent) w h xs, s.current = some (id, a) →
    (a.fetchChk = .spawned → a.path.pc.toNat % 4 = 0) →
    s.fetchWords id fetchNo a.path.pc.toNat 1 = (s1, .ok [w]) → decodeHeader w = some h → headerBad h = false →
    s1.fetchWords id (fetchNo + 1) (a.path.pc.toNat + 4) h.n.toNat = (s2, .ok xs) → s2.agent id = some b →
    clauseBad h (xs.map (BitVec.ofNat 32)) (s2.dictEntry id b.fetched) = none → (b.fetchChk = .plain ∨ h.l = true) →
    b.path.wix < h.n.toNat →
    exec .clauseFetch s = .next (s2.setAgent id { b.fetched with
      clause := some { addr := b.path.pc, hdr := h, words := xs.map (BitVec.ofNat 32) }
      fetchChk := .plain, gate := b.gate ||| h.w })) ∧
  (∀ i, Instr.rotate 0 i = i) ∧
  decodePair 0x1011 = { s := false, rot := 4, idx := 17 } ∧ decodePair 0x2011 = { s := false, rot := 8, idx := 17 } ∧
  (decodeWord 0x00803042).toOption.map (Instr.rotate 4) = some (.add false false false 0 (.reg 7) (.reg 5) (.reg 6)) ∧
  (decodeWord 0x00803042).toOption.map (Instr.rotate 8) = some (.add false false false 0 (.reg 11) (.reg 9) (.reg 10))

/-- Where a word leaves the position (R28, R34, R47, R53): behind the word, behind a prefix and its word
together, at the high code of a pair word after its low one, and at the next header after the last word of the
clause; the switch marker then asks for every counter (R37). The agent then stands last in the order of turns, and every other
agent keeps its place (R211: the model's order, log entry 5). -/
def Obligations.WordOrder : Prop := (∀ (a b : Agent) (c : Clause) (sb : Bool), b.cur < b.paths.length → b.clause = some c →
  let p := b.path
  let w := p.wix + if b.pfx.isSome then 2 else 1
  (b.pairw.isSome → p.h = false → (b.passed a sb).path = { p with h := true }) ∧
  (b.pairw = none ∨ p.h = true → w < c.hdr.n.toNat → (b.passed a sb).path = { p with wix := w, h := false }) ∧
  (b.pairw = none ∨ p.h = true → c.hdr.n.toNat ≤ w →
    (b.passed a sb).path = { p with pc := p.pc + BitVec.ofNat 64 (4 * (c.hdr.n.toNat + 1)), wix := 0, h := false }) ∧
  (b.passed a sb).pfx = none ∧ (b.passed a sb).pairw = none ∧
  (b.passed a sb).gate = (if sb = true ∨ ∃ l, a.pairw = some l ∧ l.s = true then 0xF else 0) ∧
  (∀ i, i ≠ b.cur → (b.passed a sb).paths[i]? = b.paths[i]?)) ∧
  (∀ (e : State) (id : AgentId) (a b : Agent) (sb u : Bool) (l : List AgentId),
  e.agent id = some b → e.runq = id :: l → (e.passes id a sb u).runq = l ++ [id] ∧
    (e.passes id a sb u).agent id = some (b.passed a sb) ∧ (∀ j, j ≠ id → (e.passes id a sb u).agent j = e.agent j) ∧
    (e.passes id a sb u).units = e.units ∧
    (∀ t, mapFind a.tcb e.tasks = some t →
      mapFind a.tcb (e.passes id a sb u).tasks = some { t with slots := t.slots + a.slots u }))

/-! ## Memory words -/

/-- Loads (R189, R190, R192, R193, R199, R282, R283): one access for each active thread at its own address, once in uniform form;
the values go to the destination with the reply. LDC clamps the index to the bound, and with a bound of 0 makes
no access and gives 0. Under an alphabet that traps SYMLD holds the issue until every word has returned, and its values are there
as it ends (R283). -/
def Obligations.LoadWords : Prop := ∀ (sb u tr : Bool) (z : BitVec 3) (l o c : BitVec 2) (d : Opd) (b x : BitVec 5),
  let room := fun (s : State) (id : AgentId) (a : Agent) => roomFor s id a u d = true
  let rules : Rules := { memRules u .ld with dst := some d }
  let bound := fun (a : Agent) => (a.getX (b.toNat + 1)).toNat
  MemoryWord false (.ld sb u z o c d b x) sb rules room (fun _ _ a =>
    { cls := .ld, md := { plain := o == 0, win := o == 0 }, n := szBytes z.toNat, kind := 0, ls := memLanes u a a.prefixOf
      addr := eaOf a u b x a.prefixOf, acc := fun _ => .load, writes := loadWrites u z.toNat d
      zeros := loadZeros u z.toNat d (zeroLanes a a.prefixOf), whole := !d.isReg }) ∧
  MemoryWord false (.ldc sb u z o c d b x) sb rules (fun s id a => room s id a ∧ bound a ≠ 0) (fun _ _ a =>
    { cls := .ld, md := { plain := o == 0 }, n := szBytes z.toNat, kind := 0, ls := memLanes u a a.prefixOf
      addr := fun t => a.getX b.toNat +
        BitVec.ofInt 64 (min (max (idxOf a u x t).toInt 0) (bound a - 1) * szBytes z.toNat) + a.prefixOf.off
      acc := fun _ => .load, writes := loadWrites u z.toNat d
      zeros := loadZeros u z.toNat d (zeroLanes a a.prefixOf), whole := !d.isReg }) ∧
  Completes (.ldc sb u z o c d b x) sb rules (fun s id a => room s id a ∧ bound a = 0) (fun s id a =>
    s.post id .ld (loadWrites u z.toNat d ((memLanes u a a.prefixOf).map fun t => (t, 0)) ++
      loadZeros u z.toNat d (zeroLanes a a.prefixOf)) 0 0) ∧
  MemoryWord true (.lr sb u o c d b x) sb { rules with sw := true } always (fun _ _ a =>
    { cls := .ld, md := { plain := o == 0, near := true }, n := if u then 8 else 4, kind := 0, ls := memLanes u a a.prefixOf
      addr := eaOf a u b x a.prefixOf, acc := fun _ => .lr, writes := loadWrites u (if u then 3 else 2) d
      zeros := loadZeros u (if u then 3 else 2) d (zeroLanes a a.prefixOf) }) ∧
  MemoryWord false (.symld sb l o c d b x) sb
    { form := .v, u := false, cls := some .ld, okM := true, okX := true, first := emptyFirst [l], late := !tr, dst := some d }
    (fun s id a => alTrap (a.getAl l.toNat) = tr ∧ roomFor s id a false d = true) (fun _ _ a =>
      let al := a.getAl l.toNat
      let digit := fun (g : Nat × Nat) => (laneOf (a.getV x.toNat) g.1).toNat % alN al
      { cls := .ld, md := { plain := o == 0 }, n := 4, kind := 0, ls := memLanes false a a.prefixOf
        addr := fun t => a.getX b.toNat + BitVec.ofNat 64 (4 * ((laneOf (a.getV x.toNat) t).toNat / alN al)) + a.prefixOf.off
        acc := fun _ => .load
        writes := fun got => loadWrites false 2 d (got.map fun g =>
          (g.1, (BitVec.ofInt 32 (alDigit al ((alRead al g.2).1.getD 0) (digit g))).toNat))
        flag := fun g => (alRead al g.2).2, zeros := loadZeros false 2 d (zeroLanes a a.prefixOf)
        whole := !d.isReg || alTrap al, marks := symMarks al, sync := alTrap al })

/-- Stores (R189, R190, R192, R193, R282, R284): the data of each active thread goes to its own address; STC drops a thread whose index
is out of bounds; SYMST rewrites one digit of the word. -/
def Obligations.StoreWords : Prop := ∀ (sb u tr : Bool) (z : BitVec 3) (l o c : BitVec 2) (d : Opd) (b x : BitVec 5)
    (f : Nat → Nat) (pop : State → State),
  let data := fun (s : State) (id : AgentId) (a : Agent) => storeData s id a u z.toNat d = some (f, pop)
  let rules : Rules := { memRules u .st with src := [d], legal := match d with
    | .chan peek _ => !peek
    | .reg _ => true }
  let bound := fun (a : Agent) => ((a.getX (b.toNat + 1)).toNat : Int)
  MemoryWord false (.st sb u z o c d b x) sb rules data (fun _ _ a =>
    { cls := .st, md := { plain := o == 0, win := o == 0, posted := true }, n := szBytes z.toNat, kind := 1
      ls := memLanes u a a.prefixOf, addr := eaOf a u b x a.prefixOf, acc := fun t => .store (f t), pop := pop }) ∧
  MemoryWord false (.stc sb u z o c d b x) sb rules data (fun _ _ a =>
    { cls := .st, md := { plain := o == 0, posted := true }, n := szBytes z.toNat, kind := 1
      ls := (memLanes u a a.prefixOf).filter fun t => decide (0 ≤ (idxOf a u x t).toInt ∧ (idxOf a u x t).toInt < bound a)
      addr := fun t => a.getX b.toNat + BitVec.ofInt 64 ((idxOf a u x t).toInt * szBytes z.toNat) + a.prefixOf.off
      acc := fun t => .store (f t), pop := pop }) ∧
  MemoryWord false (.symst sb l o c d b x) sb
    { form := .v, u := false, cls := some .st, okM := true, okX := true, first := emptyFirst [l], late := !tr, legal := d.isReg }
    (fun _ _ a => alTrap (a.getAl l.toNat) = tr) (fun _ _ a =>
      let al := a.getAl l.toNat
      let e := fun (t : Nat) => (laneOf (a.getV x.toNat) t).toNat
      { cls := .st, md := { plain := o == 0, near := true }, n := 4, kind := 1, ls := memLanes false a a.prefixOf
        addr := fun t => a.getX b.toNat + BitVec.ofNat 64 (4 * (e t / alN al)) + a.prefixOf.off
        acc := fun t => .sym al (e t % alN al) (laneOf (a.getV d.code) t).toInt
        marks := fun got => got.foldl (fun m g => if g.2 = 1 then m ||| BitVec.twoPow 32 g.1 else m) 0
        whole := alTrap al, sync := alTrap al })

/-- Atomics and SC (R196, R197, R200): one read-modify-write for each active thread at its own address; the
old value, or the success of SC, goes to the destination with the reply, and the no-return forms bring
nothing. Each is a switch point. -/
def Obligations.AtomicWords : Prop := ∀ (sb u : Bool) (op m : BitVec 3) (o c : BitVec 2) (d w : Opd) (b x : BitVec 5)
    (f : Nat → Nat) (pop : State → State),
  let noret := u && d == .reg 0
  let cas := op == 7
  let data := fun (n : Nat) (a : Agent) (t : Nat) =>
    if noret then f t
    else if u then (a.getX d.code).toNat % 2 ^ (8 * n)
    else if n = 8 then (laneOf (a.getV d.code) t).toNat + (laneOf (a.getV (d.code + 1)) t).toNat * 2 ^ 32
    else (laneOf (a.getV d.code) t).toNat
  let memOp := fun (n k : Nat) (a : Agent) => ({
    cls := if noret then .st else .ld, md := { plain := o == 0, counts := noret }, n := n, kind := 2, ls := memLanes u a a.prefixOf
    addr := eaOf a u b x a.prefixOf, acc := fun t => .rmw k a.prefixOf.rnd.toNat (data n a t) (if k = 7 then f t else 0)
    pop := pop, writes := if noret then fun _ => [] else loadWrites u (if n = 8 then 3 else 2) d
    zeros := if noret then [] else loadZeros u (if n = 8 then 3 else 2) d (zeroLanes a a.prefixOf) } : MemOp)
  let read := fun (n : Nat) (s : State) (id : AgentId) (a : Agent) => a.prefixOf.c = w ∧
    fourthData s id a u n (if noret || cas then w else .reg 0) = some (f, pop)
  MemoryWord true (.atom sb u op o c d b x) sb (atomRules u cas 4 0 d w) (read 4) (fun _ _ a => memOp 4 op.toNat a) ∧
  MemoryWord true (.atom64 sb u op o c d b x) sb (atomRules u cas 8 0 d w) (read 8) (fun _ _ a => memOp 8 op.toNat a) ∧
  MemoryWord true (.atomf sb u op o c d b x) sb (atomRules u false 4 (if op.toNat < 2 then 4 else 0) d w)
    (fun s id a => a.prefixOf.c = w ∧ fourthData s id a u 4 (if noret then w else .reg 0) = some (f, pop))
    (fun _ _ a => memOp 4 (8 + op.toNat) a) ∧
  MemoryWord true (.sc sb u m o c d b x) sb { memRules u .ld with sw := true } always (fun _ _ a =>
    { cls := .ld, md := { plain := o == 0, near := true }, n := if u then 8 else 4, kind := 1, ls := memLanes u a a.prefixOf
      addr := eaOf a u b x a.prefixOf
      acc := fun t => .sc (if u then (a.getX d.code).toNat else (laneOf (a.getV d.code) t).toNat)
      writes := fun got => got.map fun g =>
        if u then .uni d.code (BitVec.ofNat 64 g.2) else .mask m.toNat g.1 (g.2 == 1)
      zeros := if u then [] else (zeroLanes a a.prefixOf).map fun t => .mask m.toNat t false })

/-- The address of a thread (R46, R77, R189): base register, zero-extended index where there is one, `v31` counting as 0, and
the prefix's signed offset. Every active thread's address is checked before any thread performs its access (R191): the mask
of the threads at fault goes to `cr.tinfo`, and nothing is performed. -/
def Obligations.ThreadAddresses : Prop := (∀ (sb u : Bool) (z : BitVec 3) (o c : BitVec 2) (d : Opd) (n b x : BitVec 5) (op m : BitVec 3),
  let bad := fun (k : Nat) (a : Agent) => badLanes k (eaOf a u b x a.prefixOf) (memLanes u a a.prefixOf)
  let trap := fun (i : Instr) (r : Rules) (k : Nat) =>
    Traps i r (fun _ _ a => bad k a ≠ 0) trMisaligned (fun _ _ a => (bad k a).setWidth 64)
  trap (.ld sb u z o c (.reg n) b x) { memRules u .ld with dst := some (.reg n) } (szBytes z.toNat) ∧
  trap (.st sb u z o c (.reg n) b x) { memRules u .st with src := [.reg n] } (szBytes z.toNat) ∧
  trap (.lr sb u o c d b x) { memRules u .ld with dst := some d, sw := true } (if u then 8 else 4) ∧
  trap (.sc sb u m o c d b x) { memRules u .ld with sw := true } (if u then 8 else 4) ∧
  (u = false ∨ n ≠ 0 → op ≠ 7 → ∀ w,
    Traps (.atom sb u op o c (.reg n) b x) (atomRules u false 4 0 (.reg n) w)
      (fun _ _ a => a.prefixOf.c = w ∧ bad 4 a ≠ 0) trMisaligned (fun _ _ a => (bad 4 a).setWidth 64)) ∧
  (∀ k a t, t < 32 → (bad k a).getLsbD t =
    decide (t ∈ memLanes u a a.prefixOf ∧ (eaOf a u b x a.prefixOf t).toNat % k ≠ 0))) ∧
  (∀ (a : Agent) (b x : BitVec 5) (t : Nat),
  (a.pfx = none → x ≠ 31 → eaOf a false b x a.prefixOf t = a.getX b.toNat + (laneOf (a.getV x.toNat) t).setWidth 64) ∧
  (a.pfx = none → eaOf a false b 31 a.prefixOf t = a.getX b.toNat ∧ eaOf a true b x a.prefixOf t = a.getX b.toNat) ∧
  (∀ p, a.pfx = some p → x ≠ 31 →
    eaOf a false b x a.prefixOf t = a.getX b.toNat + (laneOf (a.getV x.toNat) t).setWidth 64 + p.x.signExtend 64))

/-- FENCE, PREF and CNTW (R185, R194, R195, R202, R245, R249, R262): a full fence orders the agent's own writes to UO pages for
those who share its scope; an acquire fence is an acquire, after which the agent sees what has been performed; a release fence,
once nothing is left that it waits behind, has nothing to do. PREF translates the address of each thread and never traps, and waits
while a stale extent is translated again; CNTW goes on as soon as the counters that it names are zero. -/
def Obligations.OrderingWords : Prop := ∀ (sb u : Bool) (o c : BitVec 2) (b x : BitVec 5) (f : BitVec 4),
  let one : Rules := { form := .u, u := true, regs := true }
  Completes (.fence sb o c) sb { form := .u, u := true, okX := true, late := true } always
    (fun s id _ => if o = 0 then s.fenceUo id (c.toNat + 1) else if o = 1 then s.acquired id else s) ∧
  let vas := fun (a : Agent) => (memLanes u a a.prefixOf).map (eaOf a u b x a.prefixOf)
  let pref : Rules := { form := .vu, u := u, okM := true, okX := true, regs := true }
  Completes (.pref sb u c b x) sb pref (fun s id a => ∀ va ∈ vas a, (s.translate (reqOf id a) va.toNat .load).2 ≠ .stale)
    (fun s id a => (vas a).foldl (fun s va => prefetch s id a va) s) ∧
  (∀ s id a va, Issues s id a (.pref sb u c b x) pref → vas a = [va] → (s.translate (reqOf id a) va.toNat .load).2 = .stale →
    exec (.pref sb u c b x) s = .next (s.retranslate id a.lctx (va.toNat / 65536)).rotate) ∧
  (∀ (s : State) (id : AgentId) (a : Agent), s.agent id = some a → ∃ b, (s.acquired id).agent id = some b ∧ b.seen = s.clock ∧
    b.floors = [] ∧ ({ b with seen := a.seen, floors := a.floors } : Agent) = a) ∧
  Completes (.cntw sb f) sb one (fun _ _ a => a.clear f = true) (fun s _ _ => s) ∧
  (∀ s id a, Issues s id a (.cntw sb f) one → a.clear f = false → exec (.cntw sb f) s = .next s.rotate)

/-! ## Barriers, signals and records -/

/-- BARI, BARA, BARW, BARS and BARQ (R291, R293 to R295): one access to the object, the arrival noted
in the join list, the wait for another phase, and the status word in the destination; a phase that was released while the agent
waited counts as released where the barrier has been abandoned since (R296). That an object which is not well formed has status 3 whatever
its other bits, and that a bad configuration comes before them, is the model's reading (log entry 22). What an access leaves in a barrier object (R289 to R291): BARI keeps the phase and rewrites every other
bit; an arrival counts, or releases the phase when it is the last; a halting agent leaves its record; an object
that is abandoned, not initialised or not valid keeps its bits under an arrival. -/
def Obligations.BarrierWords : Prop := (∀ (sb : Bool) (d x y : Opd) (va cfg : Word64) (o : Nat),
  let acc := fun (md : Mode) (op : ObjOp) (s : State) (id : AgentId) (a : Agent) => s.access id a 0 va 32 md (.obj op)
  let one := acc barMode
  let wait := acc waitMode
  let okIn := fun (md : Mode) (op : ObjOp) (l : List Opd) (xs : List Word64) (s : State) (id : AgentId) (a : Agent) =>
    s.hasU id l xs ∧ va.toNat % 32 = 0 ∧ (acc md op s id a).2 = .val o 0
  let ok := okIn barMode
  let okWait := okIn waitMode
  -- whether the agent has waited at this word before
  let waited := fun (t : State) (id : AgentId) => match t.agent id with
    | some b => (mapFind waitKey b.got).isSome
    | none => false
  let ends := fun (ph : Nat) (t : State) (id : AgentId) =>
    if barSt o = 0 ∨ (barSt o = 1 ∧ bitsOf o 120 120 = 1 ∧ barPhase o ≠ ph ∧ waited t id = true) then BitVec.ofNat 64 (barPhase o)
    else BitVec.ofNat 64 (barSt o * 2 ^ 56)
  let good := getF cfg 26 38 = 0 ∧ getF cfg 0 24 ≠ 0 ∧ getF cfg 24 2 ≠ 0
  let word := fun (st arr ph : Nat) => BitVec.ofNat 64 (st * 2 ^ 56 + arr * 2 ^ 32 + ph)
  let two := barRules true d [x, y]
  let alone := barRules true d [x]
  (good → barBad o = false → Completes (.bari sb d x y) sb two (ok (.bari cfg) [x, y] [va, cfg])
    (fun s id a => (one (.bari cfg) s id a).1.gives id [x, y] d (word 0 0 (barPhase o)))) ∧
  (¬ good → Completes (.bari sb d x y) sb two (ok .probe [x, y] [va, cfg])
    (fun s id a => (one .probe s id a).1.gives id [x, y] d (word 3 0 0))) ∧
  (barSt o = 0 → Completes (.bara sb d x) sb alone (fun s id a => ok .bara [x] [va] s id a ∧ a.joinsFull va = false)
    (fun s id a => ((one .bara s id a).1.onAgent id fun b => b.join va).gives id [x] d (word 0 0 (barPhase o)))) ∧
  (barSt o ≠ 0 → Completes (.bara sb d x) sb alone (fun s id a => ok .bara [x] [va] s id a ∧ a.joinsFull va = false)
    (fun s id a => (one .bara s id a).1.gives id [x] d (word (barSt o) 0 0))) ∧
  (barSt o = 0 → Traps (.bara sb d x) alone (fun s id a => ok .probe [x] [va] s id a ∧ a.joinsFull va = true ∧
    (one .probe s id a).1 = s) trResource (fun _ _ _ => 0)) ∧
  (barSt o ≠ 0 ∨ barPhase o ≠ cfg.toNat % 2 ^ 32 → Completes (.barw sb d x y) sb (barRules false d [x, y])
    (okWait .probe [x, y] [va, cfg]) (fun s id a => (wait .probe s id a).1.gives id [x, y] d
      (ends (cfg.toNat % 2 ^ 32) (wait .probe s id a).1 id))) ∧
  (barSt o = 0 → barPhase o = cfg.toNat % 2 ^ 32 → ∀ s id a, Issues s id a (.barw sb d x y) (barRules false d [x, y]) →
    okWait .probe [x, y] [va, cfg] s id a → exec (.barw sb d x y) s = .next ((wait .probe s id a).1.waits id).rotate) ∧
  (∀ w : Word, barSt o ≠ 0 ∨ barPhase o ≠ w.toNat →
    Completes (.bars sb d x) sb (barRules false d [x]) (fun s id a => okWait .probe [x] [va] s id a ∧ a.bwait = some w)
      (fun s id a => ((wait .probe s id a).1.onAgent id fun b => { b with bwait := none }).gives id [x] d
        (ends w.toNat (wait .probe s id a).1 id))) ∧
  (barSt o ≠ 0 → Completes (.bars sb d x) sb (barRules false d [x])
    (fun s id a => okWait .bara [x] [va] s id a ∧ a.bwait = none ∧ a.joinsFull va = false)
    (fun s id a => (wait .bara s id a).1.gives id [x] d (word (barSt o) 0 0))) ∧
  (barSt o = 0 → ∀ s s1 id a b, Issues s id a (.bars sb d x) (barRules false d [x]) → okWait .bara [x] [va] s id a →
    a.bwait = none → a.joinsFull va = false → (wait .bara s id a).1 = s1 → s1.agent id = some b →
    let c := { b.join va with bwait := some (BitVec.ofNat 32 (barPhase o)), got := mapPut waitKey 1 b.got }
    ∀ o', (wait .probe (s1.setAgent id c) id c).2 = .val o' 0 → barSt o' = 0 → barPhase o' = barPhase o →
      exec (.bars sb d x) s = .next ((wait .probe (s1.setAgent id c) id c).1.waits id).rotate) ∧
  Completes (.barq sb d x) sb alone (ok .probe [x] [va])
    (fun s id a => (one .probe s id a).1.gives id [x] d (word (barSt o) (o % 2 ^ 24) (barPhase o))) ∧
  ∀ a : Agent, (va ∈ a.joins → a.join va = a) ∧ (va ∉ a.joins → a.join va = { a with joins := a.joins ++ [va] }) ∧
    (a.joinsFull va = true ↔ 8 ≤ a.joins.length ∧ va ∉ a.joins)) ∧
  (∀ (o who : Nat) (cfg : Word64), o < 2 ^ 256 → who < 2 ^ 58 →
  let arr := bitsOf o 23 0
  let ph := bitsOf o 63 32
  let exp := bitsOf o 87 64
  (barBad o = false → ObjOp.new (.bari cfg) o =
    ph * 2 ^ 32 + getF cfg 0 24 * 2 ^ 64 + 2 ^ 120 + getF cfg 24 2 * 2 ^ 122) ∧
  (barSt o = 0 → arr + 1 < exp → let n := ObjOp.new .bara o
    bitsOf n 23 0 = arr + 1 ∧ bitsOf n 255 24 = bitsOf o 255 24) ∧
  (barSt o = 0 → arr + 1 = exp → let n := ObjOp.new .bara o
    bitsOf n 31 0 = 0 ∧ bitsOf n 63 32 = (ph + 1) % 2 ^ 32 ∧ bitsOf n 255 64 = bitsOf o 255 64) ∧
  (barSt o ≠ 0 → ObjOp.new .bara o = o) ∧
  (barSt o = 0 → let n := ObjOp.new (.mark who) o
    bitsOf n 121 121 = 1 ∧ bitsOf n 185 128 = who ∧ bitsOf n 120 0 = bitsOf o 120 0) ∧
  (barSt o = 0 ↔ barBad o = false ∧ bitsOf o 121 121 = 0 ∧ bitsOf o 120 120 = 1) ∧
  (bitsOf o 120 120 = 1 → (bitsOf o 123 122 = 0 ∨ exp = 0 ∨ bitsOf o 31 24 ≠ 0 ∨ bitsOf o 119 88 ≠ 0 ∨
    bitsOf o 127 124 ≠ 0 ∨ bitsOf o 255 192 ≠ 0) → barSt o = 3) ∧
  ObjOp.new .probe o = o)

/-- SIGR, SIGW and the arrival of a signal (R268, R298, R299, R441): the signal counts as outstanding and goes to the
module that the TCB's address names, where it is a remote access of its sender until it is acknowledged; it enters the inbox of the core that its ordinal picks, waits
there while the inbox is full, or is refused; SIGW takes the oldest element. -/
def Obligations.SignalWords : Prop := ∀ (sb : Bool) (d x y z : Opd) (va v k : Word64) (t : Trans),
  let src : List Opd := [x, y, z]
  let sent := fun (s : State) (id : AgentId) (a : Agent) => ((s.translate (reqOf id a) va.toNat .load).1.took id src).onPlaced
    id a fun p => { p with outst := p.outst + 1 }
  let msg := BitVec.ofNat 256 (v.toNat + t.pa % 2 ^ 40 * 2 ^ 64 + k.toNat % 2 ^ 9 * 2 ^ 128)
  let pre := fun (s : State) (id : AgentId) (a : Agent) =>
    (z = if a.pfx.isSome then a.prefixOf.c else .reg 0) ∧ s.hasU id src [va, v, k] ∧
      (s.translate (reqOf id a) va.toNat .load).2 = .ok t ∧ t.win = none
  let here := fun (s : State) (id : AgentId) (a : Agent) => (s.translate (reqOf id a) va.toNat .load).1.modid
  let rules : Rules := { form := .u, u := true, okC := true, src := [x, y], late := true }
  let sigw : Rules := { form := .u, u := true, src := [.chan false 14], legal := d.isReg, regs := true }
  Completes (.sigr sb x y) sb rules (fun s id a => pre s id a ∧ t.pa / 2 ^ 40 = here s id a)
    (fun s id a => (sent s id a).later [.signalReceive (.here id a.lctx a.tcb) msg]) ∧
  Completes (.sigr sb x y) sb rules (fun s id a => pre s id a ∧ t.pa / 2 ^ 40 ≠ here s id a ∧
      (s.translate (reqOf id a) va.toNat .load).1.routed (t.pa / 2 ^ 40) = true)
    (fun s id a =>
      let u := sent s id a
      { u.onAgent id fun b => { b with sigs := b.sigs ++ [u.ntag] } with ntag := u.ntag + 1, outbox := u.outbox ++
        [{ kind := .signal, dst := t.pa / 2 ^ 40, fields := [u.ntag, a.ctx, a.lctx, id.core, id.idx, msg.toNat] }] }) ∧
  (∀ s1, Completes (.sigw sb d) sb sigw
    (fun s id a => readTask s id a false 14 = some (v, s1)) (fun _ id _ => (writeU s1 id d v).getD s1)) ∧
  (∀ s id a, Issues s id a (.sigw sb d) sigw → readTask s id a false 14 = none →
    exec (.sigw sb d) s = .next s.rotate) ∧
  ∀ (s : State) (w : SigFrom) (tcb n : Nat) (task : Task), tcb < 2 ^ 40 → n < 2 ^ 9 → s.isTcb tcb = true →
    (∀ e g, w = .endpt e g → (mapGet 0 s.endpts e).getLsbD 128 = true) → mapFind tcb s.tasks = some task →
    let m := BitVec.ofNat 256 (v.toNat + tcb * 2 ^ 64 + n * 2 ^ 128)
    (task.st ≠ .running → exec (.signalReceive w m) s = .next (s.ackSignal w false)) ∧
    ∀ c l p, task.st = .running → task.cores[n % task.cores.length]? = some (c, l) → mapFind l (s.core c).placed = some p →
      (∀ s1, p.inbox = [] → pushTask s c l false 14 v = some s1 →
        exec (.signalReceive w m) s = .next (s1.ackSignal w true)) ∧
      (p.inbox ≠ [] ∨ pushTask s c l false 14 v = none →
        exec (.signalReceive w m) s = .next (s.setPlaced c l { p with inbox := p.inbox ++ [{ value := v, sender := w }] }))

/-- CR, CR.w, SPAWN, JOINC and CDEC (R390, R391, R403 to R405): the task-on-core registers are read by every agent of the task
and the first five are written by its lead alone; a read of `cr.fstat` has the flags of the reader's own words in flight, and it waits for words and
tile writes that have yet to raise theirs, as a write does, which replaces them all (R127). SPAWN adds a record at the end of the cluster's queue; JOINC arms a record in
memory, and CDEC counts it down. -/
def Obligations.RecordWords : Prop := ∀ (sb : Bool) (dd x : Opd) (q : BitVec 3) (d n k : BitVec 5) (p : Placed) (v : Word64) (o : Nat),
  let one : Rules := { form := .u, u := true }
  let codeGood := fun (y : Word64) => y.toNat % 4 = 0 ∧ y.toNat / 2 ^ 60 = 0
  let due := fun (s : State) (id : AgentId) (a : Agent) => q = 0 ∧ (a.late ≠ [] ∨ ∃ j ∈ (s.core id.core).jobs, j.frame = a.key)
  let value := fun (a : Agent) => match q.toNat with
    | 0 => (p.fstat ||| a.flagsOut).setWidth 64
    | 1 => p.lscale.setWidth 64
    | 2 => p.lgrow
    | 3 => p.step
    | 4 => p.seed
    | 5 => p.coreix
    | _ => p.ngrp
  let cnt := fun (a : Agent) => if a.pfx.isSome then (a.getX a.prefixOf.c.code).toNat else 0
  let image := fun (s : State) (id : AgentId) (a : Agent) => cnt a + 0x10 * 2 ^ 32 + id.core * 2 ^ 40 +
    (s.static a.tcb).toNat * 2 ^ 49 + (a.getX n.toNat).toNat * 2 ^ 64 + (a.getX k.toNat).toNat * 2 ^ 128 + s.vaOf a.tcb * 2 ^ 192
  let arm := fun (s : State) (id : AgentId) (a : Agent) =>
    s.access id a 0 (a.getX d.toNat) 32 { plain := true } (.store (image s id a))
  let dec := fun (s : State) (id : AgentId) (a : Agent) => s.access id a 0 (a.getX n.toNat) 32 barMode (.obj .cdec)
  (∀ s1, q.toNat ≤ 6 → Completes (.cr sb dd q) sb { one with dst := some dd, legal := decide (q.toNat ≤ 6), regs := true }
    (fun s id a => s.placedOf id a = some p ∧ ¬ due s id a ∧ writeU s id dd (value a) = some s1) (fun _ _ _ => s1)) ∧
  (∀ s id a, Issues s id a (.cr sb dd q) { one with dst := some dd, legal := decide (q.toNat ≤ 6), regs := true } →
    s.placedOf id a = some p → due s id a → exec (.cr sb dd q) s = .next s.rotate) ∧
  (∀ s1, Completes (.crW sb x q) sb
    { form := .l, u := true, src := [x], legal := decide (q.toNat ≤ 4), regs := true, late := true, fixed := true }
    (fun s id a => readU s id x = some (v, s1) ∧ ¬ due s id a ∧ s1.placedOf id a = some p)
    (fun _ id a => (if q = 0 then s1.onAgent id Agent.noFlags else s1).setPlaced id.core a.lctx (match q.toNat with
      | 0 => { p with fstat := v.setWidth 9 }
      | 1 => { p with lscale := v.setWidth 32 }
      | 2 => { p with lgrow := v }
      | 3 => { p with step := v }
      | _ => { p with seed := v }))) ∧
  Completes (.spawn sb n k) sb one (fun s id a => codeGood (a.getX n.toNat) ∧ (s.cluster (id.core / 32)).room = true)
    (fun s id a => (s.onTask a.tcb fun t => { t with live := t.live + 1 }).enqueue (id.core / 32)
      { kind := .spawn, ctx := a.ctx, tcb := a.tcb, frame := a.getX k.toNat, code := a.getX n.toNat, pin := s.static a.tcb
        home := id.core, part := none }) ∧
  (∀ s id a, Issues s id a (.spawn sb n k) one → codeGood (a.getX n.toNat) → (s.cluster (id.core / 32)).room = false →
    exec (.spawn sb n k) s = .next s.rotate) ∧
  Traps (.spawn sb n k) one (fun _ _ a => ¬ codeGood (a.getX n.toNat)) trIllegalInstr (fun _ _ _ => 0) ∧
  (∀ s id a, Issues s id a (.joinc sb d n k) { one with okC := true, legal := s.pfxC.isReg } → codeGood (a.getX n.toNat) →
    0 < cnt a → cnt a < 2 ^ 32 → (a.getX d.toNat).toNat % 32 = 0 → (arm s id a).2 = .val 0 0 →
    exec (.joinc sb d n k) s =
      .next (((arm s id a).1.onTask a.tcb fun t => { t with armed := t.armed + 1 }).passes id a sb true)) ∧
  Completes (.cdec sb d n) sb one (fun s id a => d ≠ 0 ∧ (a.getX n.toNat).toNat % 32 = 0 ∧ (dec s id a).2 = .val o 0)
    (fun s id a => ((dec s id a).1.onAgent id fun b => b.setX d.toNat (BitVec.ofNat 64 (o % 2 ^ 32)))) ∧
  Completes (.cdec sb 0 n) sb one (fun s id a => (a.getX n.toNat).toNat % 32 = 0 ∧ (dec s id a).2 = .val o 0 ∧
      ((dec s id a).1.placedOf id a).isSome)
    (fun s id a => ((dec s id a).1.onPlaced id a fun p => { p with outst := p.outst + 1 }).later [.storeAck id a.lctx a.tcb 0 1 true]) ∧
  (o < 2 ^ 256 → 0 < bitsOf o 31 0 → bitsOf (ObjOp.new .cdec o) 31 0 = bitsOf o 31 0 - 1 ∧
    bitsOf (ObjOp.new .cdec o) 255 40 = bitsOf o 255 40 ∧
    bitsOf (ObjOp.new .cdec o) 39 32 = bitsOf o 39 32 + (if bitsOf o 31 0 = 1 ∧ bitsOf o 39 32 = 0x10 then 1 else 0))

/-! ## Tiles -/

/-- TDEF, TSET, TLD, TST, DRAIN, TXP and TQ with the arrival of rows and the end of writes (R318, R319, R324 to R330, R338,
R339): a word whose turn has come on its tile has its effect there; one whose turn has not come keeps its
place. TLD reads one source row in each turn and holds the issue until its last (R327). A fill makes the tile FILLING and READY with its last row; TST and DRAIN make it DRAINING and EMPTY with the
last write. The entry of a tile under the words that change it (R314, R324 to R326): `STATE`, `PROG`, `ARRV` and `HELD` as given, every other field
and every other tile as before; and the order on a tile, in which a word stands behind those that issued before
it (R319). -/
def Obligations.TileWords : Prop := (∀ (sb tr : Bool) (d u : BitVec 6) (n k : BitVec 5) (r q : BitVec 3) (x y z : Nat)
    (s s1 s2 s3 : State) (id : AgentId) (a b : Agent),
  let c := id.core
  let t := d.toNat
  let e := s.tile c t
  let own := e.ownedBy a = true
  let at1 := fun (op : Nat) (fill : Bool) (s : State) (b : Agent) => s.joinTurn c t b op fill false
  let turn := fun (op : Nat) (fill : Bool) (s : State) (b : Agent) => turnNow ((at1 op fill s b).turns c t) b.key = true
  let reads := fun (w : Nat) => (a.getX n.toNat).toNat % (8 * w) = 0 ∧ s.readStruct id 0 (a.getX n.toNat) w = (s1, .ok x) ∧
    s1.agent id = some b
  let o := origin (a.getX k.toNat)
  let places := outPlaces e e.wrows e.pack o (tensorOf x)
  let ready := fun (s : State) => (s.tile c t).state = tReady
  (∀ p, let img := BitVec.ofNat 512 x
    Issues s id a (.tdef sb d n) { form := .l, u := true } → reads 8 → imageBad img = false →
    (e.own = true → own) → s1.placedOf id a = some p → tileInside img p = true →
    turn 0x60 false s1 b → ((at1 0x60 false s1 b).core c).accTaken t img = false →
    exec (.tdef sb d n) s =
      .next ((((at1 0x60 false s1 b).defTile c t img b.ctx b.lctx).markTurn c t b none).passes id a sb true)) ∧
  (Issues s id a (.tsetEmpty sb d) tileRules → own → turn 0x61 false s a →
    exec (.tsetEmpty sb d) s = .next (((setTileState (at1 0x61 false s a) c t tEmpty).markTurn c t a none).passes id a sb true)) ∧
  (Issues s id a (.tsetReady sb d) tileRules → own → turn 0x61 false s a →
    exec (.tsetReady sb d) s = .next (((setTileState ((at1 0x61 false s a).land fun w => w.fenced.getD 1 0 != 0) c t tReady).markTurn
      c t a none).passes id a sb true)) ∧
  (Issues s id a (.tsetReady sb d) tileRules → own → ¬ turn 0x61 false s a →
    exec (.tsetReady sb d) s = .next (at1 0x61 false s a).rotate) ∧
  (Issues s id a (.tsetEmpty sb d) tileRules → ¬ own →
    exec (.tsetEmpty sb d) s = .next ((s.trap id a trAccess (BitVec.ofNat 64 t)).spent a.tcb 1)) ∧
  (Issues s id a (.tld sb tr d n k) tileRules → own → (e.fmt = 16 → tr = false ∧ o.1 % e.pack = 0) → reads 4 →
    tensorBad x = false → ((tensorOf x).none = true ∨ (tensorOf x).aligned e.fmt e.pack ((List.range (fillRows e tr)).map
      fun (p : Nat) => clampTo (o.1 + ((p * e.pack : Nat) : Int)) (tensorOf x).rows) = true) →
    turn 0x62 true s1 b → fillRow id t tr (tensorOf x) o (beginFill (at1 0x62 true s1 b) c t b) = (s2, none) →
    (fillRows e tr ≤ (s2.tile c t).prog → exec (.tld sb tr d n k) s = .next ((s2.fillEnds c t b).passes id a sb true)) ∧
    ((s2.tile c t).prog < fillRows e tr → exec (.tld sb tr d n k) s = .next s2.rotate)) ∧
  (Issues s id a (.tst sb d n k) tileRules → own → (e.fmt = 16 → o.1 % e.pack = 0) → reads 4 → tensorBad x = false →
    (tensorOf x).aligned e.fmt e.pack (places.map fun p => p.1.1) = true → turn 0x63 false s1 b → ready (at1 0x63 false s1 b) →
    (at1 0x63 false s1 b).tileReadBad c e = none →
    exec (.tst sb d n k) s = .next ((startJob (at1 0x63 false s1 b) b id { newJob id b t e.fmt e.alph x 0 with
      cells := places.map Prod.snd
      todo := places.map fun p => (p.1.1, p.1.2, (at1 0x63 false s1 b).tileCode c e p.2.1 p.2.2) }).passes id a sb true)) ∧
  (
    let ds : BitVec 512 := BitVec.ofNat 512 x
    let of := getF ds 216 4
    let rf := getF ds 220 4
    let ps := outPlaces e e.rows 1 o (tensorOf y)
    Issues s id a (.drain sb r d n k) tileRules → own → e.kind = kACC → (a.getX n.toNat).toNat % 64 = 0 →
    s.readStruct id 0 (a.getX n.toNat) 8 = (s1, .ok x) → drainBad x = false → getF ds 0 64 % 32 = 0 →
    s1.readStruct id 8 (BitVec.ofNat 64 (getF ds 0 64)) 4 = (s2, .ok y) → tensorBad y = false →
    (getF ds 64 64 = 0 ∧ s3 = s2 ∧ z = 0 ∨ getF ds 64 64 ≠ 0 ∧ getF ds 64 64 % 32 = 0 ∧
      s2.readStruct id 12 (BitVec.ofNat 64 (getF ds 64 64)) 4 = (s3, .ok z) ∧ tensorBad z = false) → s3.agent id = some b →
    (tensorOf y).aligned of 1 (ps.map fun p => p.1.1) = true →
    (rf = 0 ∨ (tensorOf z).none = true ∨ (tensorOf z).aligned rf 1 (ps.map fun p => clampTo p.1.1 (tensorOf z).rows) = true) →
    turn 0x6B false s3 b → ready (at1 0x6B false s3 b) →
    exec (.drain sb r d n k) s = .next ((startJob (at1 0x6B false s3 b) b id { newJob id b t of 0 y z with
      drain := some ds, rnd := r.toNat, ready := false, cells := ps.map Prod.snd
      todo := ps.map fun p => (p.1.1, p.1.2, (at1 0x6B false s3 b).tileCode c e p.2.1 p.2.2) }).passes id a sb true)) ∧
  (
    let f := s.tile c u.toNat
    let j := joinTurns s c a 0x6C (if t = u.toNat then [(t, true, false)] else [(u.toNat, false, true), (t, true, false)])
    let xs := (List.range e.rows).flatMap fun i => (List.range e.cols).map fun l => (i, l, j.tileCode c f l i)
    Issues s id a (.txp sb d u) tileRules → own → f.ownedBy a = true → txpOk e f = true → emptyTurn j c a [u.toNat] = none →
    allTurns j c a [u.toNat] = true → turnNow (j.turns c t) a.key = true → j.tileReadBad c f = none →
    j.tileWrite c e xs = (s2, none) →
    exec (.txp sb d u) s = .next (((((s2.setTile c t ((((s2.tile c t).setState tReady).setArrv (2 ^ e.rows - 1)).setProg 0)).lessPend
      c t).markTurn c t a none).markTurn c u.toNat a none).passes id a sb true)) ∧
  (
    let j := at1 0x6E false s a
    let w := ((j.setTile c t (((((j.tile c t).setPend ((j.tile c t).pend + 1)).setState tFilling).setProg 0).setArrv 0)).turnFills
      c t a).markTurn c t a (some .running)
    Issues s id a (.tq sb d q) tileRules → own → turn 0x6E false s a → begun j c t a = false → w.queueRoom c q.toNat = true →
    exec (.tq sb d q) s = .next ((State.postEntry { w.turnEnded c t a w.ntag with ntag := w.ntag + 1 } id a q.toNat
      (.marker t w.ntag) 0).passes id a sb true)) ∧
  (∀ (g : TileFill), (s.core c).fills.find? (fun g => g.tile == t) = some g →
    let s1 := s.setCore c { s.core c with fills := (s.core c).fills.erase g }
    s1.tileWrite c (s1.tile c t) (arrivals g) = (s2, none) →
    let e' := (s1.tile c t).setArrv ((s1.tile c t).arrv ||| 2 ^ g.row)
    (e'.arrv = 2 ^ fillRows e' g.trans - 1 → exec (.tileRowArrival c t) s =
      .next (((s2.setTile c t (e'.setState tReady)).lessPend c t).endFirst c t)) ∧
    (e'.arrv ≠ 2 ^ fillRows e' g.trans - 1 → exec (.tileRowArrival c t) s = .next (s2.setTile c t e'))) ∧
  (∀ (j : TileJob), (s.core c).jobs.find? (fun j => j.tag == x) = some j →
    (j.todo = [] → exec (.tileDrainDone c x) s = .next ((s.endJob c j).settleTask j.tcb)) ∧
    (j.todo ≠ [] → j.held = false → j.rem = none → exec (.tileDrainDone c x) s =
      .next ((runJob c (2 * j.todo.length + 1) s j).due (.tileDrainDone c x))))) ∧
  (∀ (s : State) (c t m : Nat) (a : Agent) (x : BitVec 512) (ctx lc st : Nat),
  let same := fun (e f : Entry) => e.own = f.own ∧ e.lc = f.lc ∧ e.ctx = f.ctx ∧ e.pend = f.pend ∧ getF e 64 448 = getF f 64 448
  (st < 8 → let f := (setTileState s c t st).tile c t
    f.state = st ∧ f.prog = 0 ∧ f.arrv = 0 ∧ f.held = false ∧ same f (s.tile c t)) ∧
  (m ≠ t → (setTileState s c t st).tile c m = s.tile c m) ∧
  (ctx < 16 → lc < 4 → let f := (s.defTile c t x ctx lc).tile c t
    f.state = tEmpty ∧ f.own = true ∧ f.lc = lc ∧ f.ctx = ctx ∧ f.pend = 0 ∧ f.prog = 0 ∧ f.held = false ∧ f.arrv = 0 ∧
      getF f 64 448 = getF x 64 448) ∧
  (m ≠ t → (s.defTile c t x ctx lc).tile c m = s.tile c m) ∧
  (∀ op fill reader, myTurn (s.turns c t) a.key = none →
    let j := s.joinTurn c t a op fill reader
    j.turns c t = s.turns c t ++ [{ tag := s.ntag, frame := a.key, op := op, fill := fill, reader := reader, st := .waiting }] ∧
      (m ≠ t → j.turns c m = s.turns c m ∧ j.tile c m = s.tile c m) ∧
      (j.tile c t = if fill then (s.tile c t).setPend ((s.tile c t).pend + 1) else s.tile c t) ∧
      ((∀ y ∈ s.turns c t, y.tag ≠ s.ntag) → (turnNow (j.turns c t) a.key = true ↔ ∀ y ∈ s.turns c t, reader = true ∧ y.reader = true))) ∧
  (∀ e : Entry, ∀ i j, e.kind = kACC → s.tileCode c e i j = (mapGet 0 (s.core c).acc (e.base * 0x400 + i * 32 + j)).toNat))

/-- MMQ, MMT, MNORM, ALIAS, MMS, ACCZ, ACCR and VARR, and the supervisor's write of a variance record (R331 to R337, R341 to R352):
each at its turn on its accumulator. A macro word makes one K-step or one sample in each turn and holds
the issue until its last, when it raises the flags of all of them; where the arrays of a descriptor overlap, or another agent works
on them at once, what they hold is a free value (R342, R354). That ALIAS, which makes no access to the tensors, tells their overlap from
the descriptors that stand in memory is log entry 89. The sums of the matrix array (R121, R332): eight products and the accumulator make one sum with one rounding
to f32, and longer rows are summed eight by eight from the first on. -/
def Obligations.MatrixWords : Prop := (∀ (sb : Bool) (l w : BitVec 2) (f : BitVec 3) (d : BitVec 6) (n k : BitVec 5) (x xa xb : Nat)
    (s s1 s2 s3 s4 : State) (id : AgentId) (a b : Agent),
  let c := id.core
  let t := d.toNat
  let e := s.tile c t
  let own := e.kind = kACC ∧ e.ownedBy a = true
  let va := a.getX n.toNat
  let at1 := fun (op : Nat) (reader : Bool) (s : State) (b : Agent) => s.joinTurn c t b op false reader
  let turn := fun (op : Nat) (reader : Bool) (s : State) (b : Agent) => turnNow ((at1 op reader s b).turns c t) b.key = true
  let ds : BitVec 1024 := BitVec.ofNat 1024 x
  let desc := va.toNat % 128 = 0 ∧ s.readStruct id 0 va 16 = (s1, .ok x)
  let pair := getF ds 0 64 % 32 = 0 ∧ s1.readStruct id 16 (BitVec.ofNat 64 (getF ds 0 64)) 4 = (s2, .ok xa) ∧ tensorBad xa = false ∧
    getF ds 64 64 % 32 = 0 ∧ s2.readStruct id 20 (BitVec.ofNat 64 (getF ds 64 64)) 4 = (s3, .ok xb) ∧ tensorBad xb = false
  let level := fun (pack : Nat) (o : Operand) (lo : Int) (m : Nat) => o.t.none = true ∨ o.t.aligned o.fmt pack (o.span lo m) = true
  (
    let p := a.prefixOf
    let al := a.getAl l.toNat
    let rules : Rules := { form := .v, u := false, cls := some .mat, okM := true }
    ∀ bq : Nat → Option Nat, (∀ i, i < 4 → quarterTile a (a.active p) k.toNat i = .ok (bq i)) →
    let qs := (List.range 4).filterMap fun i => (bq i).map fun y => (i, y)
    let bs := (qs.map Prod.snd).dedup
    let j := joinTurns s c a 0x64 ((t, false, false) :: bs.map fun y => (y, false, true))
    Issues s id a (.mmq sb l f d n k) rules → own → (f = 4 ∨ f = 5 → al ≠ 0) → n.toNat + mmqRun f.toNat al ≤ 32 →
    (∀ y ∈ bs, bTileBad f.toNat (s.tile c y) = false ∧ (s.tile c y).ownedBy a = true) → a.converged = true → qs ≠ [] →
    emptyTurn j c a (t :: bs) = none → allTurns j c a (t :: bs) = true → (∀ y ∈ t :: bs, j.tileReadBad c (j.tile c y) = none) →
    ∀ side, sideReads id bs 100 j = (s1, .ok side) →
    exec (.mmq sb l f d n k) s = .next (((mmqUpdate s1 id a p f.toNat n.toNat t al qs side).1.postMat id (t :: bs) []
      (mmqUpdate s1 id a p f.toNat n.toNat t al qs side).2).passes id a sb false)) ∧
  (
    let g := getF ds 288 3
    let oa : Operand := { t := tensorOf xa, fmt := (pairA g).1, al := BitVec.ofNat 64 (getF ds 448 64), plane := getF ds 320 64, kcols := true }
    let ob : Operand := { t := tensorOf xb, fmt := pairB g, al := BitVec.ofNat 64 (getF ds 512 64), plane := getF ds 384 64, kcols := false }
    let len := getF ds 256 32
    let j := at1 0x65 false s3 b
    let m := beginMacro j c t b
    let em := m.tile c t
    Issues s id a (.mmt sb d n) tileRules → own → desc → mmtBad ds = false → pair →
    (len ≠ 0 → level oa.pack oa (intF ds 128) e.rows ∧ level ob.pack ob (intF ds 192) len) → s3.agent id = some b → turn 0x65 false s3 b →
    (begun j c t b = true ∨ (j.tile c t).state = tReady) →
    let ended := fun (s : State) => (s.raiseFlags id b (s.turnFlags c t b)).markTurn c t b none
    (len ≤ 32 * em.arrv → exec (.mmt sb d n) s = .next ((ended m).passes id a sb true)) ∧
    ∀ fl, mmtStep m id em ds oa ob em.arrv = (s4, .ok fl) → 32 * em.arrv < len →
      let v := ((s4.setTile c t (em.setArrv (em.arrv + 1))).addTurnFlags c t b fl).dropReads id 1000
      (len ≤ 32 * (em.arrv + 1) → exec (.mmt sb d n) s = .next ((ended v).passes id a sb true)) ∧
      (32 * (em.arrv + 1) < len → exec (.mmt sb d n) s = .next v.rotate)) ∧
  (
    let oa := sampA ds xa
    let ob := sampB ds xb
    let sound := sampBad ds = false ∧ sampUneven ds = false
    let e1 := s1.tile c t
    e.kind = kACC → desc → sound →
    (pair → level 1 oa (intF ds 128) e1.rows → level 1 ob (intF ds 192) (getF ds 256 32) → s3.agent id = some b →
      (s3.tile c t).ownedBy b = true →
      (
        let w := s3.atArrays id b (SampDesc.norms ds)
        Issues s id a (.mnorm sb d n) tileRules →
        normsFrom id (SampDesc.overlaps ds [oa.t, ob.t] || w.2) e1 ds oa ob (getF ds 256 32) w.1 = (s4, none) →
        exec (.mnorm sb d n) s = .next (((s4.raiseGot id).leaveArrays id).passes id a sb true)) ∧
      (
        let j := at1 0x66 false s3 b
        Issues s id a (.mms sb d n) tileRules → turn 0x66 false s3 b →
        (j.varOf c (s1.tile c t).base).getLsbD 115 = true → (begun j c t b = true ∨ (j.tile c t).state = tReady) →
        (∀ s5, mmsTurn j id b t ds oa ob = .done s5 → exec (.mms sb d n) s = .next (s5.passes id a sb true)) ∧
        (∀ s5, mmsTurn j id b t ds oa ob = .hold s5 → exec (.mms sb d n) s = .next s5.rotate))) ∧
    (
      let j := (at1 0x68 false s1 b).atArrays id b (SampDesc.table ds :: SampDesc.norms ds)
      Issues s id a (.aliasTab sb d n) tileRules → s1.agent id = some b → (s1.tile c t).ownedBy b = true → turn 0x68 false s1 b →
      ∀ na nb, normArrays j.1 id ds = (s2, .ok (na, nb)) →
      let undef := j.2 || SampDesc.overlaps ds (s2.seenTensor id b (getF ds 0 64) ++ s2.seenTensor id b (getF ds 64 64))
      let fa := s2.orFrees undef 32 na
      let fb := fa.2.orFrees undef 32 nb
      let tab := aliasOf fa.1 fb.1
      tableFrom id undef ds tab.1 (getF ds 256 32) fb.2 = (s3, none) →
      exec (.aliasTab sb d n) s = .next (((((s3.leaveArrays id).setVar c (s3.tile c t).base
        (BitVec.ofNat 256 (tab.2.1 + 2 ^ 115))).markTurn c t b none).raiseFlags id b tab.2.2).passes id a sb true))) ∧
  (
    let j := at1 0x69 false s a
    let z := j.setAcc c e.base ((List.range 1024).map fun i => (i / 32, i % 32, 0))
    Issues s id a (.accz sb d) tileRules → own → turn 0x69 false s a →
    exec (.accz sb d) s = .next ((((z.setTile c t ((((z.tile c t).setState tReady).setHeld false).setArrv 0)).stopVar c t).markTurn
      c t a none).passes id a sb true)) ∧
  (
    let j := at1 0x6A true s a
    Issues s id a (.accr sb k d w) { form := .v, u := false, cls := some .mat } → own →
    turn 0x6A true s a → (j.tile c t).state = tReady → exec (.accr sb k d w) s = .next ((j.postMat id [t] ((lanes (a.active a.prefixOf)).flatMap fun i =>
      (List.range 8).map fun m => RegWrite.lane (k.toNat + m) i (BitVec.ofNat 32 (j.accElem c e.base i (8 * w.toNat + m)))) 0).passes
        id a sb false)) ∧
  (
    let j := (at1 0x6D false s a).markTurn c t a none
    let r := j.varOf c e.base
    Issues s id a (.varr sb k d) tileRules → own → turn 0x6D false s a → exec (.varr sb k d) s = .next ((j.onAgent id fun b =>
      b.setX k.toNat (BitVec.ofNat 64 (getF r 32 32 + getF r 96 16 * 2 ^ 32 + getF r 112 2 * 2 ^ 48 + getF r 114 1 * 2 ^ 50))).passes
        id a sb true)) ∧
  (∀ v : BitVec 256, (s.core c).sampling x = false → exec (.varianceRecordWrite c x v) s = .next (s.setVar c x v))) ∧
  (∀ (acc : Nat) (xs ys us vs : List Elem), xs.length = ys.length →
  mac acc [] [] = (acc, 0) ∧
  (0 < xs.length → xs.length ≤ 8 → (mac acc xs ys).1 = (Fmt.f32.enc (sumExact false
    (Fmt.f32.dec acc :: (xs.zip ys).map fun q => (q.1.1.mul q.2.1).1)).1 1 0).1) ∧
  (xs.length % 8 = 0 → (mac acc (xs ++ us) (ys ++ vs)).1 = (mac (mac acc xs ys).1 us vs).1))

/-! ## Iterators -/

/-- ITNEW, ITADD, NEXT, ENOUGH, ITSAVE, ITLOAD and ITQ, and the prefetch of elements (R359, R363 to R372). What the objects of an iterator pull (R360 to R362): the first sources, and the transformers on top
of an element. -/
def Obligations.IteratorWords : Prop := (∀ (sb al : Bool) (f g : BitVec 5) (d u : BitVec 2) (q m : BitVec 3) (n : BitVec 5) (x : Nat)
    (s s1 : State) (id : AgentId) (a b : Agent),
  let c := id.core
  let va := a.getX n.toNat
  let o : BitVec 512 := BitVec.ofNat 512 x
  let image := fun (kind : Nat) => va.toNat % 64 = 0 ∧ s.readStruct id 0 va 8 = (s1, .ok x) ∧ objKind o = kind ∧ objBad o = false ∧
    objWorked o = false ∧ objUneven o = false
  let old := oldSlots s1 id a d.toNat
  let rel := releaseSlots s1 id old
  let free := (rel.core c).freeSlots
  let bound := fun (i : BitVec 2) (w : Nat) (y : ItSlot) => boundSlot s id a i.toNat = some (w, y)
  (
    let y : ItSlot := { st := itOpen, linked := false, rdy := false, pulls := 0, ctx := a.ctx, otag := a.otag, feed := 0, objs := [o]
                        bcnt := 0, buf := [], frame := a.key }
    Issues s id a (.itnew sb f d n) itRules → nameLinked s id a d.toNat = false → image (f.toNat + 1) → f.toNat < 6 →
    slotsFit s1 id a old 1 = true → rel.agent id = some b →
    exec (.itnew sb f d n) s = .next (((rel.setSlots c (mapPut (free.headD 0) y (rel.slots c))).setAgent id
      { b with its := mapPut d.toNat (free.headD 0) b.its }).passes id a sb true)) ∧
  (∀ w y, bound d w y → y.linked = false → y.st = itOpen → image (f.toNat + 0x10) → y.objs.length < 8 →
    (Issues s id a (.itadd sb f d n 0) { itRules with legal := true } → f ≠ 4 → f ≠ 5 → exec (.itadd sb f d n 0) s =
      .next ((s1.onSlot c w fun z => { z with objs := z.objs ++ [o] }).passes id a sb true)) ∧
    (∀ v, Issues s id a (.itadd sb f d n u) { itRules with legal := true } → f = 4 ∨ f = 5 → getF o 64 6 = 0 →
      feederOf s id a w u.toNat = some v → exec (.itadd sb f d n u) s =
        .next (((s1.onSlot c v fun z => { z with linked := true }).onSlot c w fun z =>
          { z with objs := z.objs ++ [setF o 64 6 v], feed := z.feed ||| BitVec.twoPow 64 v }).passes id a sb true))) ∧
  (∀ w y, bound u w y → y.linked = false → (al = true → y.rowFlat.isSome) → a.converged = true →
    Issues s id a (.next sb al q u m) { itRules with cls := some .chn, legal := q != 7 && m != 0 } →
    let s0 := if y.rdy ∨ ¬ (y.st = itOpen ∨ y.st = itActive) then s else s.onSlot c w fun z => { z with st := itInpull }
    (∀ l ∈ a.late, l.dst.bind opdChan ≠ some q.toNat ∧ l.dst.bind opdChan ≠ some (q.toNat + 1)) →
    (if y.rdy then (s0, none) else fillSlot id w al pullFuel s0) = (s1, none) →
    let s2 := s1.onSlot c w fun z => { z with rdy := true }
    ∀ z, s2.agent id = some b → mapFind w (s2.slots c) = some z →
    let room := fun (ch : Nat) => roomFor s2 id b false (.chan false (BitVec.ofNat 4 ch))
    (room q.toNat = true → room (q.toNat + 1) = true →
      exec (.next sb al q u m) s = .next ((deliver s2 id w q.toNat m.toNat z).passes id a sb true)) ∧
    (room q.toNat = false ∨ room (q.toNat + 1) = false → exec (.next sb al q u m) s = .next s2.rotate)) ∧
  (∀ w y, bound d w y → y.linked = false → Issues s id a (.enough sb d) itRules → exec (.enough sb d) s =
    .next (((itTree (s.slots c) 4 w).foldl (fun s v => s.onSlot c v fun z => { z with st := itEnded, bcnt := 0, rdy := false }) s).passes
      id a sb true)) ∧
  (∀ w y, bound u w y → Issues s id a (.itq sb g u) itRules → exec (.itq sb g u) s =
    .next ((s.setAgent id (a.setX g.toNat (BitVec.ofNat 64 y.word0))).passes id a sb true)) ∧
  (Issues s id a (.itq sb g u) itRules → boundSlot s id a u.toNat = none → exec (.itq sb g u) s =
    .next ((s.setAgent id (a.setX g.toNat 0)).passes id a sb true)) ∧
  (∀ w y, bound u w y → y.linked = false → va.toNat % 64 = 0 → Issues s id a (.itsave sb g u n) itRules →
    let order := itTree (s.slots c) 4 w
    storeAll id 100 (order.zipIdx.flatMap fun p => (List.range 128).map fun i => (va + BitVec.ofNat 64 (0x400 * p.2 + 8 * i), 8,
      (match mapFind p.1 (s.slots c) with
        | some z => savedBlock order z
        | none => 0) / 2 ^ (64 * i) % 2 ^ 64)) s = (s1, none) →
    (releaseSlots s1 id order).agent id = some b → exec (.itsave sb g u n) s = .next (((releaseSlots s1 id order).setAgent id
      (b.setX g.toNat (BitVec.ofNat 64 order.length))).passes id a sb true)) ∧
  (∀ bs l, Issues s id a (.itload sb d n) itRules → nameLinked s id a d.toNat = false → va.toNat % 64 = 0 →
    loadBlocks id va 4096 [0] [] s = (s1, .ok bs) → l = bs.filterMap (fun p => (loadedBlock (p.1 == 0) p.2).map fun z => (p.1, z)) →
    l.length = bs.length → blocksFit l = true → slotsFit s1 id a old bs.length = true →
    let place := fun (i : Nat) => free.getD i 0
    let put := fun (s : State) (p : Nat × ItSlot) => s.setSlots c (mapPut (place p.1) { p.2 with
      ctx := a.ctx, otag := a.otag, frame := a.key
      feed := p.2.feeders.foldl (fun f b => f ||| BitVec.twoPow 64 (place b)) 0
      objs := p.2.objs.map fun o => if objKind o = 0x14 ∨ objKind o = 0x15 then setF o 64 6 (place (getF o 64 6)) else o } (s.slots c))
    rel.agent id = some b → exec (.itload sb d n) s =
      .next (((l.foldl put rel).setAgent id { b with its := mapPut d.toNat (place 0) b.its }).passes id a sb true)) ∧
  (∀ w y i e, mapFind w (s.slots c) = some y → y.rdy = false → y.linked = false → y.st = itActive → e.got = [] → e.rem = none →
    (s.core c).groups.find? (fun g => g.2.key == y.frame) = some (i, e) → exec (.iteratorPrefetch c w) s =
      .next (prefetchSlot { core := c, idx := i } e w (s.choose 33).1 (s.choose 33).2))) ∧
  (∀ (rd : ItRead) (f n l : Nat) (rows : Option Nat) (mp : SMap ItSlot) (s : State) (y : ItSlot)
    (o : BitVec 512),
  mapFind n mp = some y → y.objs[l]? = some o →
  let w1 := objW o 1
  let w2 := objW o 2
  let cur := objCur o
  let out := pull rd (f + 1) n l rows mp s
  let elem := fun (a b : Nat) => Pulled.elem (BitVec.ofNat 32 a) (BitVec.ofNat 32 b)
  let next := putObj mp n l (setCur o (cur + 1))
  (objKind o = 0x01 → w1 % 2 ^ 32 + cur < w1 / 2 ^ 32 → out = (s, next, elem (w1 % 2 ^ 32 + cur) cur)) ∧
  (objKind o = 0x01 → w1 / 2 ^ 32 ≤ w1 % 2 ^ 32 + cur → out.2.2 = .endd) ∧
  (objKind o = 0x02 → cur < w2 % 2 ^ 32 → out = (s, next, elem (w1 % 2 ^ 32 + cur * (w1 / 2 ^ 32)) cur)) ∧
  (∀ s1 x, objKind o = 0x03 → cur < w2 % 2 ^ 32 → rd s (BitVec.ofNat 64 (w1 + 4 * cur)) 4 = (s1, .ok x) → out = (s1, next, elem x cur)) ∧
  ∀ s1 m1 a b, pull rd f n (l - 1) rows mp s = (s1, m1, .elem a b) →
    (objKind o = 0x10 → o.getLsbD 8 = false → out = (s1, m1, .elem (BitVec.ofNat 32 w1 * a + BitVec.ofNat 32 (w1 / 2 ^ 32)) b)) ∧
    (objKind o = 0x10 → o.getLsbD 8 = true → out = (s1, m1, .elem a (BitVec.ofNat 32 w1 * b + BitVec.ofNat 32 (w1 / 2 ^ 32)))) ∧
    (objKind o = 0x17 → cur ≠ w1 % 2 ^ 32 → out = (s1, putObj m1 n l (setCur o (cur + 1)), .elem a b)) ∧
    (objKind o = 0x17 → cur = w1 % 2 ^ 32 → out = (s, mp, .endd)))

/-! ## Engine queues -/

/-- CPY, COLL, QFENCE and QWAIT, and what becomes of an entry of a queue (R302, R303, R305 to R309, R312, R328, R442): the oldest
entry becomes ACTIVE, its elements are performed one access after another, it retires with a code, its completion is
written, and it leaves the queue; a QWAIT that ends is an acquire (R309). That elements go in ascending order, one access after another, is the
model's choice (log entry 66: R306 leaves the order open). QUEUE_ENTRY_ACTIVATE, ENGINE_ELEMENT, COMPLETION_WRITE and ENGINE_TIMEOUT of copies, fences and TQ markers (R302, R304 to
R308, R312, R328). -/
def Obligations.QueueWords : Prop := (∀ (sb : Bool) (k q : BitVec 3) (g : BitVec 5) (m : BitVec 8) (dd x y : Opd) (z : Nat)
    (s s1 : State) (id : AgentId) (a b : Agent),
  let c := id.core
  let read := (a.getX g.toNat).toNat % 64 = 0 ∧ s.readStruct id 0 (a.getX g.toNat) 8 = (s1, .ok z) ∧ s1.agent id = some b
  let key := collKey k.toNat (BitVec.ofNat 512 z)
  let fresh := fun (e : DoneKey) => !(e.ctx == a.ctx && e.key == key)
  let wait : Rules := { tileRules with src := [x, y], legal := dd.isReg }
  (Issues s id a (.cpy sb k q g) tileRules → read → s1.queueRoom c q.toNat = true → exec (.cpy sb k q g) s =
    .next ((s1.postEntry id b q.toNat (.cpy k.toNat) (BitVec.ofNat 512 z)).passes id a sb true)) ∧
  (Issues s id a (.cpy sb k q g) tileRules → read → s1.queueRoom c q.toNat = false → exec (.cpy sb k q g) s = .next s1.rotate) ∧
  (Issues s id a (.coll sb k q g) tileRules → read → s1.queueRoom c q.toNat = true →
    let t := s1.postEntry id b q.toNat (.coll k.toNat) (BitVec.ofNat 512 z)
    exec (.coll sb k q g) s = .next (State.passes { t with doneKeys := t.doneKeys.filter fresh } id a sb true)) ∧
  (
    let qs := (List.range 8).filter fun i => m.getLsbD i
    Issues s id a (.qfence sb m) tileRules → (∀ i ∈ qs, s.queueRoom c i = true) → exec (.qfence sb m) s =
      .next ((qs.foldl (fun t i => t.postEntry id a i (.fence s.ntag m.toNat) 0) s).passes id a sb true)) ∧
  (∀ va n o, Issues s id a (.qwait sb dd x y) wait → s.hasU id [x, y] [va, n] → va.toNat % 16 = 0 →
    s.access id a 0 va 16 { plain := true, patient := true } .load = (s1, .val o 0) →
    (bitsOf o 95 64 ≠ 0 ∨ n.toNat ≤ bitsOf o 63 0 → exec (.qwait sb dd x y) s =
      .next (((s1.acquired id).gives id [x, y] dd (BitVec.ofNat 64 (bitsOf o 95 64))).passes id a sb true)) ∧
    (bitsOf o 95 64 = 0 → bitsOf o 63 0 < n.toNat → exec (.qwait sb dd x y) s = .next s1.rotate)) ∧
  (
    let e : QEntry := { kind := .cpy k.toNat, tag := s.ntag, poster := id, ctx := a.ctx, tcb := a.tcb, lctx := a.lctx, priv := a.priv, desc := BitVec.ofNat 512 z, st := .posted, prog := 0, vals := [], rem := none, code := 0, coll := none }
    let t := s.postEntry id a q.toNat (.cpy k.toNat) (BitVec.ofNat 512 z)
    t.queue c q.toNat = s.queue c q.toNat ++ [e] ∧ (∀ i, i ≠ q.toNat → t.queue c i = s.queue c i) ∧
      (∀ p, s.placedOf id a = some p → t.placedOf id a = some { p with outst := p.outst + 1 }) ∧ t.mem = s.mem)) ∧
  (∀ (c q : Nat) (s s1 : State) (e : QEntry) (l : List QEntry), s.queue c q = e :: l →
  (∀ k, e.kind = .cpy k → e.st = .posted → copyBad k e.desc = false → exec (.queueEntryActivate c q) s =
    .next { s.setHead c q { e with st := .active } with agenda := s.agenda ++ [.engineElement c q] }) ∧
  (∀ k, e.kind = .cpy k → e.st = .posted → copyBad k e.desc = true →
    exec (.queueEntryActivate c q) s = .next (s.retireEntry c q 3)) ∧
  (∀ fid mask, e.kind = .fence fid mask → e.st = .posted → fenceReady s c fid mask = true → exec (.queueEntryActivate c q) s =
    .next (((List.range 8).filter fun i => mask.testBit i).foldl (fun s i => s.freeEntry c i) s)) ∧
  (∀ t turn, e.kind = .marker t turn → e.st = .posted → exec (.queueEntryActivate c q) s = .next (retireMarker s c q t turn e)) ∧
  (∀ k, e.kind = .cpy k → e.st = .active → copyCount k e.desc ≤ e.prog →
    exec (.engineElement c q) s = .next (s.retireEntry c q 0)) ∧
  (∀ k x, e.kind = .cpy 0 → k = cpSize e.desc → e.st = .active → e.prog < copyCount 0 e.desc → e.vals = [] → e.rem = none →
    s.perform (e.req c q) 0 (BitVec.ofNat 64 (cpSrc e.desc + e.prog * k)) k true true .load = (s1, .val x 0) →
    ∀ s2, s1.perform (e.req c q) 0 (BitVec.ofNat 64 (cpDst e.desc + e.prog * k)) k true true (.store x) = (s2, .val 0 0) →
    exec (.engineElement c q) s = .next { s2.setHead c q { e with prog := e.prog + 1, vals := [], rem := none } with
      agenda := s2.agenda ++ [.engineElement c q] }) ∧
  (∀ k, e.kind = .cpy k → e.st = .done → cpCpl e.desc = 0 → e.code = 0 →
    exec (.completionWrite c q) s = .next (s.freeEntry c q)) ∧
  (∀ k o, e.kind = .cpy k → e.st = .done → cpCpl e.desc ≠ 0 → cpCpl e.desc % 16 = 0 → e.rem = none →
    s.perform (e.req c q) 0 (BitVec.ofNat 64 (cpCpl e.desc)) 16 false false (.obj (.cpl (cpInc e.desc) e.code)) = (s1, .val o 0) →
    exec (.completionWrite c q) s = .next (s1.freeEntry c q)) ∧
  (∀ tag, e.rem = some { tag := tag, ans := none } → exec (.engineTimeout c q) s =
    .next ((s.setHead c q { e with rem := some { tag := tag, ans := some .timeout } }).resumeEngine c q)) ∧
  (∀ inc code o, o < 2 ^ 128 → inc < 2 ^ 32 → code < 2 ^ 32 → let n := ObjOp.new (.cpl inc code) o
    bitsOf n 63 0 = (bitsOf o 63 0 + inc) % 2 ^ 64 ∧ bitsOf n 95 64 = max (bitsOf o 95 64) code ∧ bitsOf n 127 96 = bitsOf o 127 96))

/-- The collectives of a member and their flits (R442 to R449): activation, the start from the membership table, its operations, a
partner's flit, and the events that end a wait. A member has ended once every flit that it has sent is acknowledged (R447). A chunk is folded from the position behind it
to its own. The steps of the algorithms other than the ring are log entry 45, and what becomes of flits whose key is not posted or has been
completed is log entry 46: the model's. -/
def Obligations.CollectiveEvents : Prop := ∀ (c q k : Nat) (s : State) (e : QEntry) (l : List QEntry) (co : Coll) (f : Flit)
    (src orig suspect pos : Nat), s.queue c q = e :: l → e.kind = .coll k →
  let d := e.desc
  let key := collKey k d
  let z := cdSize d
  let on := fun (s : State) (co : Coll) => s.goOn c q { e with coll := some co }
  let works := e.st = .active ∧ e.coll = some co ∧ s.flits.find? (fun f => f.key == key && flitDiffers d co f) = none
  let next := fun (s : State) (co : Coll) => on s { co with ops := co.ops.drop 1, k := 0 }
  (e.st = .posted → s.collsActive e.ctx < 64 → collBad k s.featacc d = false → e.code = 0 → s.sameKey e.ctx key e.tag = [] →
    exec (.queueEntryActivate c q) s = .next { s.setHead c q { e with st := .active } with agenda := s.agenda ++ [.engineElement c q] }) ∧
  (e.st = .posted → 64 ≤ s.collsActive e.ctx → exec (.queueEntryActivate c q) s = .next s) ∧
  (e.st = .posted → s.collsActive e.ctx < 64 → collBad k s.featacc d = true →
    exec (.queueEntryActivate c q) s = .next (endColl s c q k e 3)) ∧
  (e.st = .active → e.coll = none → cdNmem d ≤ e.prog → e.vals.count s.modid = 1 →
    (∀ x ∈ e.vals, x < 2 ^ 18 ∧ (x = s.modid ∨ s.routed x = true)) → (∀ a ∈ s.aborts, a.key ≠ key) →
    let p := e.vals.idxOf s.modid
    let co0 : Coll := { members := e.vals, pos := p, k := 0, hand := [], fl := 0, raws := [], sent := [],
                        ops := (if cdAlg d = 0 then ringOps else directOps) k (cdCount d) e.vals.length p }
    exec (.engineElement c q) s = .next (s.goOn c q { e with vals := [], coll := some co0 })) ∧
  (∀ p ph ops, works → co.ops = .send p ph :: ops → exec (.engineElement c q) s =
    .next (next (State.sendColl { s with ntag := s.ntag + 1 } .collData (co.members.getD p 0) key
      ([s.ntag, ph, cdOpc d, cdAlg d, cdCount d, cdNmem d, co.fl.toNat] ++ co.members ++ co.hand))
      { co with sent := co.sent ++ [(p, s.ntag)] })) ∧
  (∀ p ph ops g, works → co.ops = .recv p ph :: ops →
    s.flits.find? (fun f => f.key == key && f.phase == ph && some f.src == co.members[p]?) = some g →
    exec (.engineElement c q) s = .next (next { s with flits := s.flits.erase g } { co with hand := g.elems, fl := g.flags })) ∧
  (∀ off n ops x s1, works → co.ops = .fold off n :: ops → co.k < n → e.rem = none →
    s.perform (e.req c q) 0 (BitVec.ofNat 64 (cdSbuf d + (off + co.k) * z)) z true false .load = (s1, .val x 0) →
    let r := collFold (cdOpc d) (co.hand.getD co.k 0) x
    let co1 := { co with hand := co.hand.set co.k r.1, fl := co.fl ||| r.2, k := co.k + 1 }
    exec (.engineElement c q) s = .next (s1.goOn c q { e with rem := none, coll := some co1 })) ∧
  (works → co.ops = [] → co.sent ≠ [] → exec (.engineElement c q) s = .next (s.setHead c q e)) ∧
  (works → co.ops = [] → co.sent = [] → k ≠ kStepmark → exec (.engineElement c q) s = .next (endColl s c q k e 0)) ∧
  (works → co.ops = [] → co.sent = [] → k = kStepmark → exec (.engineElement c q) s = .next (endColl (s.stepMark e.ctx (cdStep d)) c q k e 0)) ∧
  (s.routed f.src = true → s.boot ≠ .bootfail → s.collPosted f.key = true → exec (.collDataFlit f) s = .next { s with
    flits := s.flits ++ [f], agenda := s.agenda ++ (s.collsOf f.key).map fun p => .engineElement p.1 p.2.1 }) ∧
  (e.st = .active → e.coll = some co → co.waiting s key = true → cdAlg d = 0 → 1 < co.members.length → exec (.holdFlit c q) s =
    .next (s.sendColl .hold (co.members.getD ((co.pos + 1) % co.members.length) 0) key [])) ∧
  (∀ ph ops, e.st ≠ .done → e.coll = some co → co.ops = .recv pos ph :: ops → exec (.hopTimeout c q pos) s =
    .next (abortColl s c q k e co 0x10 (co.members.getD pos 0) s.modid (co.partners d))) ∧
  (s.routed src = true → s.boot ≠ .bootfail →
    let a : AbortMark := { key := key, src := src, orig := orig, suspect := suspect }
    ((s.collsOf key).find? (fun p => p.2.2.coll.isSome) = some (c, q, e) → e.coll = some co →
      exec (.abortFlit key src orig suspect) s = .next (relayColl s c q k e co a)) ∧
    ((s.collsOf key).find? (fun p => p.2.2.coll.isSome) = none → s.collPosted key = true →
      exec (.abortFlit key src orig suspect) s = .next { s with aborts := s.aborts ++ [a] })) ∧
  (∀ w, s.collPosted w = false → exec (.abortFlitExpiry w) s = .next { s with aborts := s.aborts.filter fun a => a.key != w }) ∧
  (∀ opc m n y, 2 ≤ m → (foldOrder opc m n y).1 = (collFold opc ((List.range (m - 2)).foldl (fun a i =>
    (collFold opc a (y ((n + 2 + i) % m))).1) (y ((n + 1) % m))) (y (n % m))).1)

/-- SNAP, and the events of a snapshot (R424, R426 to R431): FREEZE arms it, once it has read the descriptor and the range list, or answers
why not (a list whose place is not aligned is read below it: log entry 102); QUERY reads its state, RELEASE gives it up; the drain engines
take one granule after another, of which one is on its way at a time (log entry 41), then the manifest, then the completion. -/
def Obligations.SnapshotWords : Prop := ∀ (sb : Bool) (d n m : BitVec 5) (x y : Nat) (s s1 s2 : State) (id : AgentId) (a : Agent)
    (ctx g tag : Nat) (v : Word64),
  let desc : SnapDesc := BitVec.ofNat 1024 x
  let ranges := (List.range (sdNrng desc)).map fun i => (y / 2 ^ (128 * i) % 2 ^ 64, y / 2 ^ (128 * i + 64) % 2 ^ 64)
  let p := s.snap ctx
  let due := fun (s : State) => s.due .drainStart
  let gives := fun (s : State) (z : Nat) => s.onAgent id fun b => b.setX d.toNat (BitVec.ofNat 64 z)
  (
    let st := (s2.snap a.ctx).st
    let idle := st = .none ∨ st = .released
    let bad := snapBad desc = true ∨ s2.rangesBad a.ctx desc ranges = true
    let late := s2.late a.ctx (a.getX n.toNat).toNat
    Issues s id a (.snapFreeze sb d n m) snapRules → (a.getX m.toNat).toNat % 128 = 0 →
    s.readStruct id 0 (a.getX m.toNat) 16 = (s1, .ok x) →
    s1.readStruct id 16 (BitVec.ofNat 64 (sdRnga desc / 16 * 16)) (2 * sdNrng desc) = (s2, .ok y) →
    (¬ idle → exec (.snapFreeze sb d n m) s = .next ((gives s2 1).passes id a sb true)) ∧
    (idle → s2.snpool.getLsbD 0 = false → exec (.snapFreeze sb d n m) s = .next ((gives s2 4).passes id a sb true)) ∧
    (idle → s2.snpool.getLsbD 0 = true → bad → exec (.snapFreeze sb d n m) s = .next ((gives s2 3).passes id a sb true)) ∧
    (idle → s2.snpool.getLsbD 0 = true → ¬ bad → late = true →
      exec (.snapFreeze sb d n m) s = .next ((gives s2 2).passes id a sb true)) ∧
    (idle → s2.snpool.getLsbD 0 = true → ¬ bad → late = false → exec (.snapFreeze sb d n m) s =
      .next ((gives (s2.setSnap a.ctx { Snap.fresh with st := .armed, step := (a.getX n.toNat).toNat, priv := a.priv, desc := desc, ranges := ranges }) 0).passes id a sb true))) ∧
  Completes (.snapQuery sb d) sb snapRules always (fun s id a => s.onAgent id fun b => b.setX d.toNat (BitVec.ofNat 64 (s.snap a.ctx).word)) ∧
  (
    let w := s.snap a.ctx
    Issues s id a (.snapRelease sb d) snapRules →
    (w.st = .armed → exec (.snapRelease sb d) s = .next ((gives (s.setSnap a.ctx Snap.fresh) 0).passes id a sb true)) ∧
    (w.st = .complete ∨ w.st = .failed → exec (.snapRelease sb d) s =
      .next ((gives (s.setSnap a.ctx { w with st := .released }) 0).passes id a sb true)) ∧
    (w.st = .frozen ∨ w.st = .draining → exec (.snapRelease sb d) s = .next ((gives s 1).passes id a sb true)) ∧
    (w.st = .none ∨ w.st = .released → exec (.snapRelease sb d) s = .next ((gives s 2).passes id a sb true))) ∧
  (∀ gr i l, s.snpool.getLsbD 0 = true → p.freezes = true → p.grans[g]? = some gr → gr.free = false → gr.shadow = none → gr.tag = none → s.poolFree = i :: l →
    exec (.shadowCopy ctx g) s = .next (s.copyGranule ctx g i)) ∧
  (∀ l gr, s.snapEnds = [] → s.frozen = ctx :: l → s.snshare ≠ 0 → p.manifest = none → (∀ z ∈ p.grans, z.tag = none) →
    let p' := { p with st := .draining }
    (p'.nextGran = some g → p.grans[g]? = some gr → exec .drainStart s = .next (drainGran (s.setSnap ctx p') ctx g p' gr)) ∧
    (p'.nextGran = none → exec .drainStart s = .next (drainManifest (s.setSnap ctx p') ctx p'))) ∧
  (∀ e l, s.snapEnds = e :: l → e.rem = none → exec .drainStart s = .next (completeSnap s e)) ∧
  (s.drainOf tag = some (ctx, p) →
    (p.manifest = some tag → exec (.granuleAck tag) s = .next (due { s with
      frozen := s.frozen.filter (· != ctx)
      snapEnds := s.snapEnds ++ [{ ctx := ctx, priv := p.priv, code := 0, desc := p.desc, rem := none }] })) ∧
    (p.manifest ≠ some tag → exec (.granuleAck tag) s = .next (due (s.setSnap ctx { p with
      drained := p.drained + 1
      grans := p.grans.map fun z => if z.tag = some tag then { z with tag := none, shadow := none, free := true } else z
      waits := p.waits.filter fun i => !((p.grans[i]?).any fun z => z.tag == some tag) })))) ∧
  ((∀ z ∈ s.snaps, z.2.freezes = false) → exec (.snpoolWrite v) s = .next { s with snpool := v &&& 0xFFFFFFFFE1 }) ∧
  ((∃ z ∈ s.snaps, z.2.freezes = true) → exec (.snpoolWrite v) s = .next s)

/-! ## Replies, faults and other modules -/

/-- ACCESS_REPLY, STORE_ACK and MAT_UPDATE_WRITTEN (R36, R71, R207, R268, R311, R332): the register writes of the instruction are made,
its flags are joined, and the counts fall; what a full channel holds up stays; a signal that is acknowledged holds nothing any longer; a
refused store marks the task FAILED. -/
def Obligations.ReplyEvents : Prop := ∀ (s s1 : State) (id : AgentId) (a b : Agent) (tag n lctx tcb : Nat) (o : Outst) (ans : Answer)
    (w : RegWrite) (ws : List RegWrite), s.agent id = some a →
  let alone := s.unitReply id.core tag ans = none
  let done := fun (s : State) (b : Agent) => (s.setAgent id (b.finishTag o)).joinFlags id a o.flags
  let ack := fun (s : State) => (s.lowerOutst id.core lctx tcb n).settleTask tcb
  let mine := fun (o : Outst) => o.tag == tag && o.cls == .st
  (alone → a.awaits tag = true → exec (.accessReply id tag ans) s = .next (s.setAgent id (a.answer tag ans))) ∧
  (∀ r, a.rem = some r → r.tag = tag → r.ans = none → a.awaits tag = true ∧ (a.answer tag ans).rem = some { r with ans := some ans }) ∧
  (∀ l r, l ∈ a.late → l.rem = some r → r.tag = tag → r.ans = none → a.awaits tag = true ∧
    { l with rem := some { r with ans := some ans } } ∈ (a.answer tag ans).late) ∧
  (alone → a.awaits tag = false → a.outst.find? (fun o => o.tag == tag && (o.cls != .st || o.more)) = some o →
    (o.more = false → s1.agent id = some b →
      (s.applyWrites id o.writes = (s1, []) → exec (.accessReply id tag ans) s = .next (done s1 (b.passOn tag a))) ∧
      (s.applyWrites id o.writes = (s1, w :: ws) → exec (.accessReply id tag ans) s =
        .next ((s1.setAgent id ((b.passOn tag a).keepTag { o with writes := w :: ws })).later [.accessReply id tag (.value 0 0)]))) ∧
    (o.more = true → o.left = 0 → exec (.accessReply id tag ans) s = .next (done s a)) ∧
    (o.more = true → o.left ≠ 0 → exec (.accessReply id tag ans) s = .next (s.setAgent id (a.keepTag { o with more := false })))) ∧
  (a.outst.find? mine = some o →
    (o.left ≤ n → o.more = false → exec (.storeAck id lctx tcb tag n true) s = .next (ack (done s a))) ∧
    (n < o.left ∨ o.more = true → exec (.storeAck id lctx tcb tag n true) s =
      .next (ack (s.setAgent id (a.keepTag { o with left := o.left - n }))))) ∧
  (a.outst.find? mine = none → a.sigs.contains tag = false → id.core ≠ 512 → exec (.storeAck id lctx tcb tag n false) s =
    .next (((s.lowerOutst id.core lctx tcb n).policy tcb 0x10).settleTask tcb)) ∧
  (a.outst.find? mine = none → a.sigs.contains tag = true → exec (.storeAck id lctx tcb tag n true) s =
    .next (ack (s.setAgent id { a with sigs := a.sigs.filter (· != tag) }))) ∧
  (
    let t := (s.core id.core).turns.foldl (fun s p => s.endTurn id.core p.1 tag) s
    ∀ c, t.agent id = some c → c.outst.find? (fun o => o.tag == tag && o.cls == .mat) = some o →
      (t.applyWrites id o.writes).1 = s1 → s1.agent id = some b → exec (.matUpdateWritten id tag) s =
        .next ((s1.setAgent id ((b.passOn tag c).finishTag o)).joinFlags id c o.flags)) ∧
  ((b.finishTag o).counter o.cls = b.counter o.cls - 1 ∧ (∀ k, k ≠ o.cls → (b.finishTag o).counter k = b.counter k) ∧
    (b.finishTag o).outst = b.outst.filter fun p => p.tag != o.tag) ∧
  (∀ r t x, r < 32 → t < 32 → ∃ c, s.applyWrite id (.lane r t x) = some (s.setAgent id c) ∧ (∀ k, k ≠ r → c.getV k = a.getV k) ∧
    (∀ l, l < 32 → laneOf (c.getV r) l = if l = t then x else laneOf (a.getV r) l) ∧ { c with v := [] } = { a with v := [] }) ∧
  (∀ r x, s.applyWrite id (.uni r x) = some (s.setAgent id (a.setX r x))) ∧
  (∀ r x ch, mapFind r a.chans = some ch → ch.elems.length < ch.depth → s.applyWrite id (.push r x) =
    some (s.setAgent id { a with chans := mapPut r { ch with elems := ch.elems ++ [x] } a.chans }))

/-- FAULT_REQUEST, FAULT_REPLY, FAULT_NAK, FORWARDED_ACCESS, RETIRED, REMOTE_ACCESS_TIMEOUT and EXTENT_RETRANSLATE (R166, R167, R181 to
R185): the home acknowledges a request, and answers it at once where it can; a reply releases every waiter; a NAK or a time-out answers
what waits for the access. That a reply with the tag acknowledges a request, and a NAK counts as one, is the model's reading (log
entry 17); RETIRED withdraws every granule of the page with its frame until a new frame is mapped (log entry 88); where a forwarded access
goes once it is translated, and the notice to a sender that waits for a held one, rest on log entry 81. -/
def Obligations.FaultEvents : Prop := ∀ (s s1 : State) (ctx va kind from_ gran tag n code x c r y : Nat) (priv plain told bad : Bool)
    (fl : BitVec 9) (w : Asker) (leaf : Word64) (id : AgentId) (a : Agent),
  let g := va / 65536
  let request := Instr.faultRequest ctx va kind { mod := from_, tag := tag, malformed := bad }
  let awake := s.routed from_ = true ∧ s.boot ≠ .bootfail
  let answer := fun (s : State) (l : List Nat) => ({ s with outbox := s.outbox ++ [{ kind := .reply, dst := from_, fields := l }] } : State)
  let heard := fun (f : FaultReq) => if f.ctx == ctx && f.gran == g then { f with acked := true } else f
  let acked := ({ s with faults := s.faults.map heard } : State)
  let asked := ({ answer s [tag] with homeReqs := s.homeReqs ++ [(ctx, g, from_)] } : State)
  (from_ = s.modid →
    (acked.homeAnswer ctx va = some none → exec request s = .next (acked.later [.faultReplyRefused ctx g])) ∧
    (∀ e, acked.homeAnswer ctx va = some (some e) → exec request s =
      .next (acked.later [.faultReplyResolved ctx g (BitVec.ofNat 64 e)])) ∧
    (acked.homeAnswer ctx va = none → exec request s = .next acked)) ∧
  (from_ ≠ s.modid → awake →
    (asked.homeAnswer ctx va = some none → exec request s = .next (asked.replyHome ctx g 0 0)) ∧
    (∀ e, asked.homeAnswer ctx va = some (some e) → exec request s = .next (asked.replyHome ctx g 1 e)) ∧
    (asked.homeAnswer ctx va = none → exec request s = .next asked)) ∧
  ((s.homeAnswer ctx va = some none ↔ (s.ctx ctx).resident = false ∨ ∃ f, (ctx, g, f) ∈ s.withdrawn) ∧
    ∀ e p, (s.ctx ctx).resident = true → (∀ f, (ctx, g, f) ∉ s.withdrawn) → s.walk ctx va = .leaf e p →
      s.homeAnswer ctx va = some (some e)) ∧
  (∀ place, leafV leaf.toNat = true → s.leafSlot (gran * 65536) (leafSpan leaf.toNat) 4 0 (s.ctx ctx).ptroot = some place →
    let t := (s.writeLeaf place leaf.toNat).remapped
    let block := leafSpan leaf.toNat % 11
    exec (.faultReplyResolved ctx gran leaf) s = .next ((t.replyHome ctx gran 1 leaf.toNat).releaseAll ctx gran none) ∧
    ((∀ a, s.trainingAt a = false) → (∀ a, s.frozenAt a = none) → (∀ a, s.outAt a = false) → leafSpan leaf.toNat < 11 → ∀ i, i < 2 ^ block →
      readN t.mem ((place / 8 / 2 ^ block * 2 ^ block + i) * 8) 8 = leaf.toNat)) ∧
  exec (.faultReplyRefused ctx gran) s = .next ((s.replyHome ctx gran 0 0).releaseAll ctx gran (some .refused)) ∧
  (
    let f : FaultReq := { tag := s.ntag, ctx := ctx, gran := g, home := s.homeId ctx va, kind := 0, malformed := false
                          acked := true, waiters := [] }
    let here := s.faults.any fun f => f.ctx == ctx && f.gran == g
    (here = false → exec (.faultNak w ctx va) s =
      .next (State.answerTo { s with faults := s.faults ++ [f], ntag := s.ntag + 1 } w .nak)) ∧
    (here = true → exec (.faultNak w ctx va) s = .next (acked.answerTo w .nak))) ∧
  (∀ v, s.agent id = some a → s.answerTo (.agent id tag) v = s.setAgent id (a.answer tag v)) ∧
  (awake →
    let q : Req := { ctx := ctx, priv := priv, lctx := 0, id := { core := 513, idx := 0 } }
    let forward := fun (told : Bool) => Instr.forwardedAccess from_ tag ctx va n { priv := priv, plain := plain, held := told } code x c r
    let acc := accOf code x c r
    ((s.ctx ctx).resident = false → exec (forward told) s = .next (answer s [tag, 0])) ∧
    ((s.ctx ctx).resident = true →
      (s.perform q 0 (BitVec.ofNat 64 va) n plain false acc = (s1, .val y fl) →
        exec (forward told) s = .next (answer s1 [tag, 1, y, fl.toNat])) ∧
      (s.perform q 0 (BitVec.ofNat 64 va) n plain false acc = (s1, .busy) →
        exec (forward told) s = .next ((if told = true then s1 else answer s1 [tag, 3]).later [forward true])) ∧
      ∀ h m, s.perform q 0 (BitVec.ofNat 64 va) n plain false acc = (s1, .fault h m) →
        exec (forward told) s = .next (State.requestFault { s1 with
          outbox := s1.outbox ++ [{ kind := .faultNak, dst := from_, fields := [tag, ctx, va] }]
          homeReqs := s1.homeReqs ++ [(ctx, va / 65536, from_)] } ctx va acc.kind.code h m []))) ∧
  (∀ e p, s.walk ctx (gran * 65536) = .leaf e p →
    let first := gran / 2 ^ leafSpan e * 2 ^ leafSpan e
    let page := (List.range (2 ^ leafSpan e)).map fun i => (first + i, leafPa e ((first + i) * 65536) / 65536)
    exec (.retired ctx gran) s = .next { s with
      withdrawn := (s.withdrawn.filter fun w => !(w.1 == ctx && page.any fun z => z.1 == w.2.1)) ++
        page.map fun z => (ctx, z.1, z.2) }) ∧
  (s.agent id = some a → a.outst.find? (fun o => o.tag == tag && o.cls == .st) = none →
    (a.patient tag = false → exec (.remoteAccessTimeout (.agent id tag)) s = .next (s.setAgent id (a.answer tag .timeout))) ∧
    (a.patient tag = true → exec (.remoteAccessTimeout (.agent id tag)) s = .next s)) ∧
  (∀ o, s.agent id = some a → a.outst.find? (fun o => o.tag == tag && o.cls == .st) = some o →
    exec (.remoteAccessTimeout (.agent id tag)) s = .next (s.later [.storeAck id a.lctx a.tcb tag (min o.left o.sent) false])) ∧
  (∀ core lctx tcb, exec (.remoteAccessTimeout (.signal { core := core, idx := n } lctx tcb tag)) s =
    .next ((s.dropHeld (.here { core := core, idx := n } lctx tcb)).later [.storeAck { core := core, idx := n } lctx tcb tag 1 false])) ∧
  ((s.faults.any fun f => f.ctx == ctx && f.gran == gran && !f.acked) = true →
    exec (.remoteAccessTimeout (.request ctx gran)) s = .next (s.releaseAll ctx gran (some .timeout))) ∧
  ((s.faults.any fun f => f.ctx == ctx && f.gran == gran && !f.acked) = false →
    exec (.remoteAccessTimeout (.request ctx gran)) s = .next s) ∧
  (∀ core lctx p e, mapFind lctx (s.core core).placed = some p → findExtent p x = some e → e.stale = true →
    let keep := p.exts.filter fun z => z.vbase != e.vbase
    let declared := fun (v : Nat) => match (mapFind p.tcb s.tasks).bind Task.prep with
      | some q => pageFlags q.ranges v
      | none => e.decl
    let q := s.translateAgain p.ctx (64 - keep.length) ((List.range e.npg).map fun i => (e.vbase + i, declared (e.vbase + i))) []
    (q.2.2 = none → exec (.extentRetranslate core lctx x) s = .next (q.1.setPlaced core lctx { p with
      exts := ((keep ++ q.2.1).foldl (fun (m : SMap Extent) z => mapPut z.vbase z m) []).map Prod.snd })) ∧
    ∀ v, q.2.2 = some v → exec (.extentRetranslate core lctx x) s = .next (q.1.walkFatal p.ctx core v (q.1.vaOf p.tcb)))

/-! ## The dispatcher, records and the whey store -/

/-- DISPATCHING, DISPATCH_COMPLETE, LAUNCH_RECORD_QUEUE, TASK_RETIREMENT and RCB_FOLD (R381, R383, R385, R386, R397, R399, R401, R409): a READY
task of an ACTIVE context is read and checked, and placed in the order of work; it becomes RUNNING and starts its leads; its launch
records enter the queues in order; it retires once it is out of work. That READY tasks, prepared tasks and records stand in one order is
the model's reading (log entry 26). -/
def Obligations.DispatchEvents : Prop := ∀ (s s1 : State) (tcb : Nat) (t : Task), mapFind tcb s.tasks = some t →
  let c := s.ctx t.ctx
  let active := c.st = .active
  (
    let x := s.tcbImage tcb
    let u := prepareTask tcb t s
    active → t.ending = false →
    (t.st = .ready → exec (.dispatching tcb) s = .next (workFirst s (ranked s.moduleWork))) ∧
    (t.st = .dispatching → t.prep.isSome → exec (.dispatching tcb) s = .next (workFirst s (ranked s.moduleWork))) ∧
    (t.st = .dispatching → t.prep = none → exec (.dispatching tcb) s = .next (workFirst u (ranked u.moduleWork))) ∧
    (∀ l, workFirst s (.take tcb :: l) = (s.takeTask tcb).wake ∧ workFirst s (.place tcb :: l) = (s.placeTask tcb).wake) ∧
    (s.poisonAt tcb 256 = false → s.takeTask tcb = prepareTask tcb { t with image := x }
      ((s.setTask tcb .dispatching).updTask tcb fun t => { t with image := x })) ∧
    (s.poisonAt tcb 256 = true → s.takeTask tcb =
      s.unitFatal t.ctx 1 (s.modid * 2 ^ 40 + tcb) (s.vaOf tcb) (s.vaOf tcb))) ∧
  (s.owed = [] → s.tcbImage tcb = BitVec.ofNat 2048 (readN s.mem tcb 256)) ∧
  (∀ (l : List (List Nat × Work)) z ws, ranked l = z :: ws → ∃ k, (k, z) ∈ l ∧ ∀ y ∈ l, keyLt y.1 k = false) ∧
  (active → t.ending = false → t.st = .dispatching → t.cores ≠ [] → t.cores.length ≤ c.nfr - c.frames.length →
    let s1 := (s.setTask tcb .running).updTask tcb fun t => { t with leads := t.cores.length }
    let s2 := t.cores.foldl (fun s p => s.startLead tcb t p.1 p.2) s1
    let s3 := s2.updTask tcb fun t => { t with starts := [] }
    exec (.dispatchComplete tcb) s = .next { s3 with agenda := s3.agenda ++ [.launchRecordQueue tcb] }) ∧
  (∀ core, t.st = .running → t.starts = [] → active → t.nextGroup < imgNgrp t.image →
    let static := imgPlace t.image
    let homes := match t.prep with
      | some p => if static then [p.list.getD (t.nextGroup % imgNcore t.image) 0] else t.cores.map Prod.fst
      | none => t.cores.map Prod.fst
    s.pick (homes.filter fun k => (s.cluster (k / 32)).room) = some (core, s1) →
    let r : Record := { kind := .group t.nextGroup, ctx := t.ctx, tcb := tcb, frame := BitVec.ofNat 64 (imgFrame t.image)
                        code := BitVec.ofNat 64 (imgF t.image 255 192), pin := static, home := core, part := none }
    let s2 := (s1.updTask tcb fun u => { u with nextGroup := t.nextGroup + 1, live := u.live + 1 }).enqueue (core / 32) r
    exec (.launchRecordQueue tcb) s = .next (if t.nextGroup + 1 < imgNgrp t.image then
      { s2 with agenda := s2.agenda ++ [.launchRecordQueue tcb] } else s2)) ∧
  (active ∨ c.st = .quiescing → t.ending = false → t.st = .draining → s.outstOf t = 0 → exec (.taskRetirement tcb) s =
    .next (retireTask (s.updTask tcb fun t => { t with ending := true, prog := 0, want := none, got := [] }) tcb { t with prog := 0 })) ∧
  exec .rcbFold s = .next (s.tasks.foldl (fun s t => s.foldTask t.1) s) ∧
  (∀ q b, t.chain = [(q, b)] → s.poisonAt b 128 = true → 0 < t.slots →
    s.foldTask tcb = s.unitFatal t.ctx 1 (s.modid * 2 ^ 40 + b) q (s.vaOf tcb)) ∧
  (∀ q b, t.chain = [(q, b)] → s.poisonAt b 128 = false → 0 < t.slots → s.owed = [] → (∀ a, s.trainingAt a = false) →
    (∀ a, s.frozenAt a = none) → (∀ a, s.outAt a = false) → let u := s.foldTask tcb
    readN u.mem (b + 32) 8 = (readN s.mem (b + 32) 8 + t.slots) % 2 ^ 64 ∧
    (∃ z, mapFind tcb u.tasks = some z ∧ z = { t with slots := 0 }) ∧
    (∀ d, d < b + 32 ∨ b + 48 ≤ d → d < b + 56 ∨ b + 64 ≤ d → byteAt u.mem d = byteAt s.mem d))

/-- RECORD_POP, WHEY_SPAWN, IDLE and FLUSH (R210, R227 to R229, R401, R404, R405): a cluster takes the record that comes first among those that
can run, finds the task of a fired copy whose TCB is to be read, and discards one whose task is gone; spawned threads gather in bins,
and a bin becomes a record. The one order of records and tasks is log entry 26, and the discard of a record whose task is gone log
entry 63: the model's readings. -/
def Obligations.RecordEvents : Prop := ∀ (s : State) (cl i : Nat) (r : Record) (b : Bin),
  let k := s.cluster cl
  let q := k.queue.zipIdx.map fun p => (p.2, p.1)
  let gone := fun (p : Nat × Record) => s.orphan p.2 && (s.ctx p.2.ctx).st == .active
  let seeks := q.findSome? fun p => (s.seeks p.2).map fun task => (p.1, p.2, task)
  (k.cqbase.getLsbD 0 = true → q.find? gone = some (i, r) → exec (.recordPop cl) s = .next ((s.unqueue cl i).discard r)) ∧
  (∀ task, k.cqbase.getLsbD 0 = true → q.find? gone = none → seeks = some (i, r, task) →
    exec (.recordPop cl) s = .next (s.adopt cl i r task)) ∧
  (k.cqbase.getLsbD 0 = true → q.find? gone = none → seeks = none →
    exec (.recordPop cl) s = .next (workFirst s (ranked (s.clusterWork cl)))) ∧
  (∀ (s1 : State) (task : Word64) (z : Trans) (at_ : Nat) (t : Task),
    s.translate (unitReq r.ctx true) task.toNat .load = (s1, .ok z) → z.win = none → z.pa / 2 ^ 40 = s1.modid →
    s1.locOf (z.pa % 2 ^ 40) = .hbm at_ → s1.poisonAt at_ 256 = false → mapFind at_ s1.tasks = some t →
    (t.ctx = r.ctx → t.st = .running →
      let u := s1.updTask at_ fun t => { t with live := t.live + 1, armed := t.armed - 1 }
      let m := s1.cluster cl
      s.adopt cl i r task = (u.setCluster cl { m with queue := m.queue.set i { r with tcb := at_ } }).wake) ∧
    (t.ctx ≠ r.ctx ∨ t.st ≠ .running → s.adopt cl i r task = (s1.unqueue cl i).discard r)) ∧
  (∀ l s1 core t, s.pick ((s.coresOf r).filter fun c => s.coreRuns r c) = some (core, s1) → mapFind r.tcb s1.tasks = some t →
    workFirst s (.record cl i r :: l) = (((s1.unqueue cl i).unvictim cl).popOn r core t).wake) ∧
  (k.cqbase.getLsbD 0 = false → exec (.recordPop cl) s = .next s) ∧
  (
    let s1 := k.arrive.foldl (fun s b => s.arriveOne cl b) (s.setCluster cl { k with arrive := [] })
    exec (.wheySpawn cl) s = .next (k.arrive.foldl (fun s b => s.settleTask b.tcb) s1)) ∧
  (k.bins[i]? = some b → exec (.idle cl i) s = .next (s.flushBins cl b.sameKey)) ∧
  exec (.flush cl) s = .next (s.flushBins cl fun _ => true) ∧
  (∀ f, (∀ b ∈ k.bins, f b = true → (mapFind b.tcb s.tasks).isSome) → let t := s.flushBins cl f
    (t.cluster cl).bins = (k.bins.filter fun b => !f b) ∧ (t.cluster cl).queue = k.queue ++ (k.bins.filter f).map fun b =>
      binRecord (32 * cl) (((mapFind b.tcb s.tasks).map fun t => t.image.extractLsb' 704 64).getD 0) b) ∧
  (∀ core (t : Task) l f s1, r.kind = .spawn → s.lctxOn r.tcb core = some l → s.badRcb t.chain = none → s.pick (s.core core).freeGroups = some (i, s1) → core = r.home →
    s1.takeFrame r.ctx = some f → ∃ e, (s.popOn r core t).agent { core := core, idx := i } = some e ∧ i < 64 ∧ e.lead = false ∧
      e.getX 1 = r.frame ∧ e.getX 2 = 0xFFFFFFFFFFFFFFFF ∧ e.getX 3 = BitVec.ofNat 64 (imgNgrp t.image) ∧
      e.path.pc = r.code ∧ e.present = 0xFFFFFFFF ∧ e.frame = f.1 ∧ e.tcb = r.tcb ∧ e.fetchChk = .spawned)

/-! ## Ports, other modules and contexts -/

/-- The table of R434 with the commands of R435: each event moves the port as its row says where its From state
holds, and else changes nothing; a port that becomes JOINED with `AUTO` goes on to ACTIVE, and one that becomes
ACTIVE on fewer than 8 lanes is degraded. Every other port keeps its registers. That LANES is 0 in DOWN, and that `AUTO` and the
lanes act by an event of their own which is due next, are the model's choices (log entry 54). -/
def Obligations.PortEvents : Prop := ∀ (s : State) (p n : Nat) (ok : Bool),
  let x := s.port p
  let moves := fun (i : Instr) (y : Port) (l : List Instr) => ∃ t, exec i s = .next t ∧ t.port p = y ∧
    (∀ q, q ≠ p → t.port q = s.port q) ∧ { t with ports := [] } = { s with ports := [], agenda := s.agenda ++ l }
  let goesOn := if x.auto then ([.use p] : List Instr) else []
  (p < 8 → x.st = .down → moves (.enable p) { x with st := .training } []) ∧
  (x.st ≠ .down → moves (.enable p) x []) ∧
  (x.st = .training → 1 ≤ n → n ≤ 8 → moves (.linkup p n) { x with st := .linkup, lanes := n } []) ∧
  (x.st = .training → moves (.trainingTimeout p) { x with st := .down } []) ∧
  (x.st = .linkup → moves (.joined p true) { x with st := .joined, negfail := false } goesOn ∧
    moves (.joined p false) { x with negfail := true } []) ∧
  (x.st = .linkup → x.negfail = true → moves (.negotiationRetry p true) { x with st := .joined, negfail := false } goesOn ∧
    moves (.negotiationRetry p false) x []) ∧
  (x.st = .joined → moves (.use p) { x with st := .active } (if x.lanes < 8 then [.degraded p 0] else [])) ∧
  (x.st = .active → x.lanes < 8 ∨ x.degth.toNat < n → moves (.degraded p n) { x with st := .degraded } []) ∧
  (x.st = .degraded → x.lanes = 8 → 2 * n < x.degth.toNat → moves (.degradedRecovery p n) { x with st := .active } []) ∧
  (x.st = .active ∨ x.st = .degraded → moves (.portDrain p) { x with st := .draining } []) ∧
  (x.st = .draining → moves (.portDrainDone p) { x with st := .joined } goesOn) ∧
  (x.st ≠ .down → moves (.disable p) { x with st := .down, lanes := 0 } [] ∧
    moves (.linkLoss p) { x with st := .down, lanes := 0 } []) ∧
  (x.st ≠ .joined → moves (.use p) x []) ∧
  (x.st ≠ .active → x.st ≠ .degraded → moves (.portDrain p) x []) ∧
  (x.st = .down → moves (.disable p) x [] ∧ moves (.linkLoss p) x []) ∧
  (8 ≤ p → moves (.enable p) x []) ∧
  (n = 0 ∨ 8 < n → moves (.linkup p n) x []) ∧
  (x.negfail = false → moves (.negotiationRetry p ok) x []) ∧
  (x.st ≠ .active ∨ (8 ≤ x.lanes ∧ n ≤ x.degth.toNat) → moves (.degraded p n) x []) ∧
  (x.st ≠ .degraded ∨ x.lanes ≠ 8 ∨ x.degth.toNat ≤ 2 * n → moves (.degradedRecovery p n) x []) ∧
  (x.st ≠ .draining → moves (.portDrainDone p) x []) ∧
  (x.st ≠ .training → moves (.linkup p n) x [] ∧ moves (.trainingTimeout p) x []) ∧
  (x.st ≠ .linkup → moves (.joined p ok) x [] ∧ moves (.negotiationRetry p ok) x []) ∧
  moves (.linkLevelRetry p) { x with retry := x.retry + 1 } []

/-- Inbound accesses (R14, R377, R437, R439): a source without a valid endpoint entry is not heard; an address outside the HBM
in service is refused, but for a write to the alias of the command area by an endpoint with command right; float
atomics and whole-object atomics are for peers, and a peer message of another endpoint is dropped; the answer brings the value read.
What codes carry, and the word of a record that has fired on another module (code 24), are the model's choice (log entry 57). RESET_SEND and a request for a
report need command right (R466, R468), and at most four requests wait. So `inboundRdma` (where HBM is idle, by conditions on
the state and the operands alone), `remoteAtomf` likewise, `attestationRequest`, `resetSend`, `bootcmdReset` and `go` complete. -/
def Obligations.InboundEvents : Prop := ∀ (s s1 : State) (src tag ctx addr n code x c r op rnd v : Nat) (fl : BitVec 9) (held : Bool)
    (nonce : BitVec 256) (y : Word64),
  let rdma := Instr.inboundRdma src tag ctx addr n code x c r held
  let atomf := fun (told : Bool) => Instr.remoteAtomf src { tag := tag, held := told } addr op x rnd
  let e : BitVec 256 := mapGet 0 s.endpts src
  let heard := e.getLsbD 128 = true ∧ s.boot ≠ .bootfail
  let answers := fun (i : Instr) (u : State) (l : List Nat) =>
    exec i s = .next { u with outbox := u.outbox ++ [{ kind := .reply, dst := src, fields := tag :: l }] }
  let base := getF s.cmdbase 24 16 * 2 ^ 24
  let area := fun (n : Nat) => 0xFE01000000 ≤ addr ∧ addr < 0xFE01F00000 ∧ addr + n ≤ 0xFE01F00000 ∧
    e.getLsbD 129 = true ∧ s.cmdbase.getLsbD 0 = true ∧ s.inService (base + (addr - 0xFE01000000)) = true
  let acc := accOf code x c r
  let writes := acc.kind ≠ .load ∧ acc.kind ≠ .probe
  let form := code < 2 ∨ (2 ≤ code ∧ code < 10 ∧ (n = 4 ∨ n = 8) ∧ addr % n = 0) ∨ (16 ≤ code ∧ e.getLsbD 130 = true ∧ addr % 16 = 0)
  let fired := code = 24 ∧ e.getLsbD 130 = true
  let at_ := fun (n : Nat) (writes : Prop) (a : Nat) => (addr < 0xA000000000 ∧ s.inHbm addr n = true ∧ a = addr) ∨
    (area n ∧ writes ∧ a = base + (addr - 0xFE01000000))
  let wait := fun (u : State) => if held then u else { u with outbox := u.outbox ++ [{ kind := .reply, dst := src, fields := [tag, 3] }] }
  (¬ heard → exec rdma s = .next s ∧ exec (atomf held) s = .next s) ∧
  (heard → ¬ fired → (¬ form ∨ ∀ a, ¬ at_ n writes a) → answers rdma s [0]) ∧
  (heard → fired → answers rdma (s.firedAway ctx addr) [1, 0, 0]) ∧
  (∀ a, heard → ¬ fired → form → at_ n writes a →
    (s.atBlocks ctx a n acc = (s1, .val v fl) → answers rdma s1 [1, v, fl.toNat]) ∧
    (s.atBlocks ctx a n acc = (s1, .poisoned) → answers rdma s1 [2]) ∧
    (s.atBlocks ctx a n acc = (s1, .busy) → exec rdma s = .next ((wait s1).later [.inboundRdma src tag ctx addr n code x c r true]))) ∧
  (heard → e.getLsbD 130 = false → exec (atomf held) s = .next s) ∧
  (heard → e.getLsbD 130 = true → addr % 4 ≠ 0 ∨ 4 ≤ op ∨ (∀ a, ¬ at_ 4 True a) → answers (atomf held) s [0]) ∧
  (∀ a, heard → e.getLsbD 130 = true → addr % 4 = 0 → op < 4 → at_ 4 True a →
    (s.atBlocks 0 a 4 (.rmw (8 + op) rnd x 0) = (s1, .val v fl) → answers (atomf held) s1 [1, v, fl.toNat]) ∧
    (s.atBlocks 0 a 4 (.rmw (8 + op) rnd x 0) = (s1, .busy) → exec (atomf held) s = .next ((wait s1).later [atomf true]))) ∧
  (¬ (e.getLsbD 128 = true ∧ e.getLsbD 129 = true) →
    exec (.resetSend src) s = .next s ∧ exec (.attestationRequest (some (src, nonce))) s = .next s) ∧
  (
    let idle := (∀ h ∈ s.hbm, h.2.out = 0 ∧ h.2.training = [] ∧ h.2.asleep = []) ∧ s.poison = [] ∧ s.uo = [] ∧ s.stale = [] ∧
      s.withdrawn = []
    let told := fun (v : Nat) => ({ kind := .reply, dst := src, fields := [tag, 1, v, 0] } : Packet)
    heard → idle → addr + n ≤ 0xA000000000 → 0 < n → s.inHbm addr n = true →
    (code = 0 → exec rdma s = .next { s with outbox := s.outbox ++ [told (readN s.mem addr n)] }) ∧
    (code = 1 → (∀ b, s.frozenAt b = none) → ∃ t, exec rdma s = .next t ∧ t.outbox = s.outbox ++ [told 0] ∧
      readN t.mem addr n = x % 256 ^ n ∧ ∀ d, d < addr ∨ addr + n ≤ d → byteAt t.mem d = byteAt s.mem d)) ∧
  (heard → (∀ h ∈ s.hbm, h.2.out = 0 ∧ h.2.training = [] ∧ h.2.asleep = []) → s.poison = [] → s.uo = [] → s.stale = [] →
    s.withdrawn = [] → (∀ b, s.frozenAt b = none) → s.cmdbase.getLsbD 0 = false → e.getLsbD 130 = true → addr % 4 = 0 → op < 4 → s.inHbm addr 4 = true →
    let old := readN s.mem addr 4
    let new := rmw (8 + op) 4 rnd old x 0
    ∃ t, exec (atomf held) s = .next t ∧
      t.outbox = s.outbox ++ [{ kind := .reply, dst := src, fields := [tag, 1, old, new.2.toNat] }] ∧
      readN t.mem addr 4 = new.1 % 2 ^ 32 ∧ ∀ d, d < addr ∨ addr + 4 ≤ d → byteAt t.mem d = byteAt s.mem d) ∧
  (e.getLsbD 128 = true → e.getLsbD 129 = true → exec (.resetSend src) s = .next s.restart ∧ exec .bootcmdReset s = .next s.restart ∧
    (s.attreqs.length < 4 → exec (.attestationRequest (some (src, nonce))) s =
      .next ({ s with attreqs := s.attreqs ++ [(src, nonce)] }.later [.attestationRequest none])) ∧
    (4 ≤ s.attreqs.length → exec (.attestationRequest (some (src, nonce))) s =
      .next { s with outbox := s.outbox ++ [{ kind := .reply, dst := src, fields := [0, 0] }] })) ∧
  (∀ d z l, s.attreqs = (d, z) :: l → exec (.attestationRequest none) s = .next { s with
    attreqs := l, outbox := s.outbox ++ [{ kind := .attestation, dst := d, fields := (attestReport s z).map BitVec.toNat }] }) ∧
  (
    let t : State := { s with attendpt := y.setWidth 16 }
    (y.getLsbD 16 = true → s.attreqs.length < 4 → exec (.go y) s =
      .next ({ t with attreqs := s.attreqs ++ [(t.attendpt.toNat, s.attnonce)] }.later [.attestationRequest none])) ∧
    (y.getLsbD 16 = false ∨ 4 ≤ s.attreqs.length → exec (.go y) s = .next t))

/-- The commands of a context (R408, R410, R411, R422): the state that each leaves, what KILL and FREE take
away, and `ERR` where the present state, or the descriptor, is not accepted. -/
def Obligations.ContextCommands : Prop := ∀ (s : State) (ctx : Nat) (desc : BitVec 50),
  let c := s.ctx ctx
  let pa := desc.toNat * 256
  let x : BitVec 1024 := BitVec.ofNat 1024 (s.hwGet (pa % 2 ^ 40) 128)
  let f := fun (lo w : Nat) => getF x lo w
  let calm := s.poison = [] ∧ s.snaps = [] ∧ ∀ h ∈ s.hbm, h.2.out = 0
  let inHbm := fun (a n : Nat) => a / 2 ^ 40 = s.modid ∧ s.inHbm (a % 2 ^ 40) n = true
  let vec := fun (lo k : Nat) => f lo 64 % k = 0 ∧ f lo 64 < 2 ^ 60
  let good := f 816 208 = 0 ∧ f 58 6 = 0 ∧ f 0 14 = 0 ∧ f 704 64 % 64 = 0 ∧ f 576 64 % 65536 = 0 ∧ vec 512 4 ∧ vec 448 4 ∧ vec 384 4 ∧
    vec 320 4 ∧ f 256 64 % 128 = 0 ∧ f 192 64 % 2 ^ 33 = 0 ∧ f 128 64 % 32 = 0 ∧ f 64 64 % 16 = 0 ∧ 1 ≤ f 640 32 ∧
    f 640 32 ≤ 65536 ∧ 1 ≤ f 768 32 ∧ f 768 32 ≤ 2 ^ 20 ∧ inHbm (f 14 44 * 2 ^ 14) (2 ^ 14) ∧ inHbm (f 704 64) (64 * f 768 32)
  let opens := ctx < 16 ∧ (c.st = .new ∨ c.st = .freed) ∧ s.boot = .ready
  let refused := fun (i : Instr) => exec i s = .next (s.setCtx ctx { c with err := true })
  let moved := fun (i : Instr) (st : CtxState) (e : Bool) => ∃ t, exec i s = .next t ∧ (t.ctx ctx).st = st ∧ (t.ctx ctx).err = e ∧
    (∀ k, k ≠ ctx → t.ctx k = s.ctx k) ∧ (t.ctx ctx).image = c.image ∧
    ∀ d, (∀ p ∈ s.tasks, d ≠ p.1 + 4) → byteAt t.mem d = byteAt s.mem d
  let gone := fun (t : State) => (∀ id a, t.agent id = some a → a.ctx ≠ ctx) ∧
    (∀ k p, mapFind k t.tasks = some p → p.ctx ≠ ctx) ∧ (∀ k r, r ∈ (t.cluster k).queue → r.ctx ≠ ctx) ∧
    (∀ k b, b ∈ (t.cluster k).bins ∨ b ∈ (t.cluster k).arrive → b.ctx ≠ ctx) ∧ (∀ r ∈ t.faults, r.ctx ≠ ctx) ∧
    (∀ k l p, mapFind l (t.core k).placed = some p → p.ctx ≠ ctx) ∧ (∀ k i z, mapFind i (t.core k).slots = some z → z.ctx ≠ ctx) ∧
    (t.ctx ctx).frames = [] ∧
    ∀ id a, s.agent id = some a → a.ctx ≠ ctx → ∃ b, t.agent id = some b ∧ { b with preq := a.preq } = a
  (s.owed = [] → ∀ a n, s.hwGet a n = readN s.mem a n) ∧
  (opens → pa / 2 ^ 40 = s.modid → s.inHbm (pa % 2 ^ 40) 128 = true → s.poisonAt (pa % 2 ^ 40) 128 = false → good →
    exec (.load ctx desc) s = .next { s.setCtx ctx { CtxSlot.new with st := .loaded, desc := desc, image := x } with
      csteps := mapErase ctx s.csteps }) ∧
  (opens → pa / 2 ^ 40 ≠ s.modid ∨ s.inHbm (pa % 2 ^ 40) 128 = false ∨ s.poisonAt (pa % 2 ^ 40) 128 = true ∨ ¬ good →
    refused (.load ctx desc)) ∧
  (ctx < 16 → c.st ≠ .new → c.st ≠ .freed → refused (.load ctx desc)) ∧
  (calm → c.st = .loaded → moved (.activate ctx) .active false) ∧ (c.st ≠ .loaded → refused (.activate ctx)) ∧
  (calm → c.st = .active → moved (.quiesce ctx) .quiescing false ∧ ∀ t, exec (.quiesce ctx) s = .next t →
    (∀ k i g, mapFind i (t.core k).groups = some g → g.ctx = ctx → g.preq = true) ∧
    (∀ k, (t.cluster k).bins.all fun b => b.ctx != ctx)) ∧
  (c.st ≠ .active → refused (.quiesce ctx)) ∧
  (s.quiesced ctx = true → moved (.quiesceComplete ctx) .loaded c.err) ∧
  (s.quiesced ctx = false → exec (.quiesceComplete ctx) s = .next s) ∧
  (c.resident = true → ∃ t l, exec (.kill ctx) s = .next t ∧ (t.ctx ctx).st = .killed ∧ (t.ctx ctx).err = false ∧
    (t.ctx ctx).done = false ∧ (t.ctx ctx).image = c.image ∧ (∀ k, k ≠ ctx → t.ctx k = s.ctx k) ∧ gone t ∧
    t.outbox = (s.outbox ++ if c.nendpt = 0xFFFF then [] else
      [{ kind := .notification, dst := c.nendpt, fields := [ctx, s.modid, 0x20, 0, 0, 0] }]) ++ l ∧ (∀ p ∈ l, p.kind = .reply) ∧
    (c.frames = [] → (∀ p ∈ s.tasks, p.2.ctx = ctx → p.2.prep = none) →
      (∀ k ∈ s.cores, (∀ q ∈ k.2.queues, ∀ e ∈ q.2, e.ctx ≠ ctx) ∧ ∀ j ∈ k.2.jobs, j.ctx ≠ ctx) → t.mem = s.mem)) ∧
  (c.resident = false → refused (.kill ctx)) ∧
  (c.st = .killed → exec (.done ctx) s = .next (s.setCtx ctx { c with done := true }).wake) ∧
  (c.st = .loaded ∨ (c.st = .killed ∧ c.done = true) → moved (.free ctx) .freed false ∧
    ∀ t, exec (.free ctx) s = .next t → gone t ∧ t.mem = s.mem ∧ ∀ k e, e ∈ (t.core k).tlb → e.overlaps ctx (0, 2 ^ 44) = false) ∧
  (c.st ≠ .loaded → c.st ≠ .killed ∨ c.done = false → refused (.free ctx)) ∧
  exec (.ctxctlClearErr ctx) s = .next (s.setCtx ctx { c with err := false })

/-! ## Management, reliability and start-up -/

/-- Writes to control registers (R376, R404, R410, R424, R435, R437, R454, R459, R461, R470, R471): each keeps its reserved bits at 0, and is
ignored where its rule says so; the CMD field of a context's register says which command a write is, and one that is no command
sets `ERR`. So `cmdbaseWrite`, `cqbaseWrite`, `feataccWrite`, `minverWrite`, `evheadWrite`, `ovfClear` and `registerWrite` complete. -/
def Obligations.ControlWrites : Prop := ∀ (s : State) (c p : Nat) (x : Word64) (y : Word) (w : BitVec 16),
  let k := s.cluster c
  let base := getF x 24 16 * 2 ^ 24
  let v := x &&& 0x7FFFFFFFFFFFFFFF
  let held := s.ctxs.any fun c => c.2.st != .new && c.2.st != .freed
  let good := held = false ∧ v &&& ~~~ (0xFF : Word64) = 0 ∧ v.getLsbD 4 = true
  let write := fun (off : Nat) => exec (.registerWrite off 8 x.toNat) s
  (x.getLsbD 0 = false ∨ s.inHbm base 0xF00000 = true →
    exec (.cmdbaseWrite x) s = .next { s with cmdbase := x &&& 0xFFFF000001 }) ∧
  (x.getLsbD 0 = true → s.inHbm base 0xF00000 = false → exec (.cmdbaseWrite x) s = .next s) ∧
  (x.getLsbD 0 = true ∨ k.cqbase.getLsbD 0 = false ∨ (k.queue = [] ∧ ∀ q ∈ s.cores, q.1 / 32 = c → q.2.placed = []) →
    exec (.cqbaseWrite c x) s = .next (s.setCluster c { k with cqbase := x &&& 0xFFFFFFFFE1 }).wake) ∧
  (x.getLsbD 0 = false → k.cqbase.getLsbD 0 = true → (k.queue ≠ [] ∨ ∃ q ∈ s.cores, q.1 / 32 = c ∧ q.2.placed ≠ []) →
    exec (.cqbaseWrite c x) s = .next s) ∧
  (good → exec (.feataccWrite x) s = .next { s with featacc := v, ferr := s.ferr && !x.getLsbD 63 }) ∧
  (¬ good → exec (.feataccWrite x) s = .next { s with ferr := true }) ∧
  (s.minver.toNat ≤ y.toNat → exec (.minverWrite y) s = .next { s with minver := y }) ∧
  (y.toNat < s.minver.toNat → exec (.minverWrite y) s = .next s) ∧
  ((w - s.evhead).toNat ≤ (s.evtail - s.evhead).toNat → exec (.evheadWrite w) s = .next { s with evhead := w }) ∧
  ((s.evtail - s.evhead).toNat < (w - s.evhead).toNat → exec (.evheadWrite w) s = .next s) ∧
  exec .ovfClear s = .next { s with evovf := false } ∧
  write 0x030 = .next { s with evendpt := x.setWidth 16 } ∧
  (c < 16 → x.toNat / 8 % 8 = 6 ∨ x.toNat / 8 % 8 = 7 → write (0x2001000 + 8 * c) = .next (s.setCtx c { s.ctx c with err := true })) ∧
  (c < 16 → ctlEvent (0x2001000 + 8 * c) x = match x.toNat / 8 % 8 with
    | 0 => [.ctxctlClearErr c]
    | 1 => [.load c (x.extractLsb' 8 50)]
    | 2 => [.activate c]
    | 3 => [.quiesce c]
    | 4 => [.kill c]
    | 5 => [.free c]
    | _ => [.registerWrite (0x2001000 + 8 * c) 8 x.toNat]) ∧
  write 0x3000008 = .next ({ s with snshare := x.setWidth 7 }.due .drainStart) ∧
  (c < 16 → write (0x50400000 + c * 0x1000000) = .next (s.setCluster c { s.cluster c with idle := (x >>> 1).setWidth 16 })) ∧
  (p < 8 → let off := 0x10000000 + p / 2 * 0x10000000 + p % 2 * 0x1000000
    write (off + 0x2000000) = .next (s.setHbm p { s.hbmOf p with bud := x &&& 0xFFFFFFFFFFFF }) ∧
    write (off + 0x2000008) = .next (s.setHbm p { s.hbmOf p with ctl := x &&& 0xFFFFFFFFFF00 }) ∧
    write (off + 0x2000010) = .next s ∧
    ∃ t, write (off + 0x4000000) = .next t ∧ t.port p = { s.port p with degth := (x >>> 16).setWidth 16, auto := x.getLsbD 8 }) ∧
  (∀ m, m % 2 = 0 → m < 262144 → ∃ t, write (0x17000000 + 4 * m) = .next t ∧
    mapGet 0 t.modmap m = x.setWidth 32 &&& 0x8000FFFF ∧ mapGet 0 t.modmap (m + 1) = (x >>> 32).setWidth 32 &&& 0x8000FFFF ∧
    ∀ j, j ≠ m → j ≠ m + 1 → mapGet 0 t.modmap j = mapGet 0 s.modmap j) ∧
  (∀ m, m < 65535 → ∃ t, write (0x17100010 + 32 * m) = .next t ∧ (mapGet 0 t.endpts m).extractLsb' 0 128 =
      (mapGet 0 s.endpts m).extractLsb' 0 128 ∧ (mapGet 0 t.endpts m).extractLsb' 128 128 = (x.setWidth 3).setWidth 128 ∧
    ∀ j, j ≠ m → mapGet 0 t.endpts j = mapGet 0 s.endpts j)

/-- Map-out, refresh, parity, scrub, strikes and replay (R27, R421, R455 to R461, R464, R465): what each counts and marks, the event that
it raises in the ring and at `EVENDPT`, and the memory that it leaves alone. That a channel which is not retrained in time goes out of
service too, that refresh and commits show nothing, and that a squash loses reservations by a free choice, is the model's choice (log
entry 56). -/
def Obligations.ReliabilityEvents : Prop := ∀ (s : State) (k c core n slice a o : Nat) (fixed lost : BitVec 8) (again : Bool),
  let h := s.hbmOf k
  let full := decide (s.evtail - s.evhead = 64)
  let rung := fun (t u : State) (code slice stack chan : Nat) => mapGet 0 u.events (s.evtail.toNat % 64) =
      BitVec.ofNat 128 (code + slice * 2 ^ 8 + stack * 2 ^ 13 + chan * 2 ^ 16 + s.evseq.toNat * 2 ^ 64) ∧
    u.evtail = s.evtail + 1 ∧ u.evhead = (if full then s.evhead + 1 else s.evhead) ∧ u.evseq = s.evseq + 1 ∧
    u.evovf = (s.evovf || full) ∧ u.outbox = s.outbox ++ (if s.evendpt = 0xFFFF then [] else
      [{ kind := .notification, dst := s.evendpt.toNat, fields := [0, s.modid, code, s.evseq.toNat % 2 ^ 32, 0, 0] }]) ∧
    { u with events := [], evtail := 0, evhead := 0, evseq := 0, evovf := false, outbox := [] } =
      { t with events := [], evtail := 0, evhead := 0, evseq := 0, evovf := false, outbox := [] }
  (exec (.refresh k c) s = .next s ∧ exec (.resultCommit core) s = .next s) ∧
  (getF h.ctl 32 16 ≠ 0 → 256 * getF h.ctl 32 16 ≤ n → c ∉ h.asleep →
    exec (.selfRefresh k c n) s = .next (s.setHbm k { h with asleep := h.asleep ++ [c] })) ∧
  (getF h.ctl 32 16 = 0 ∨ n < 256 * getF h.ctl 32 16 → exec (.selfRefresh k c n) s = .next s) ∧
  (∃ t, exec (.parityAlert k c false) s = .next t ∧ (t.hbmOf k).parcnt = h.parcnt + 1 ∧ (t.hbmOf k).deg = h.deg ∧
    (t.hbmOf k).out = h.out ∧ t.mem = s.mem ∧ ∀ j, j ≠ k → t.hbmOf j = s.hbmOf j) ∧
  (mapGet 0 h.fails c = 2 → c ∉ h.trained → k < 8 → c < 32 → ∃ t u, exec (.parityAlert k c true) s = .next u ∧
    rung t u 3 0 k c ∧ (u.hbmOf k).deg = h.deg ||| BitVec.twoPow 32 c ∧ c ∈ (u.hbmOf k).training ∧
    (u.hbmOf k).parcnt = h.parcnt + 1 ∧ u.mem = s.mem) ∧
  (c ∈ h.trained → ∃ t, exec (.parityAlert k c true) s = .next t ∧ .chanout k c ∈ t.agenda) ∧
  (c ∈ h.training → exec (.channelRetrainDone k c) s = .next (s.setHbm k { h with
    training := h.training.filter (· != c), trained := h.trained ++ [c] })) ∧
  (c ∈ h.training ∨ c ∈ h.trained → k < 8 → c < 32 → ∃ u, exec (.chanout k c) s = .next u ∧
    rung (s.setHbm k { h with out := h.out ||| BitVec.twoPow 32 c, training := h.training.filter (· != c)
                              trained := h.trained.filter (· != c) }) u 4 0 k c) ∧
  (
    let z := s.stackOf a
    let q := s.hbmOf z.1
    let count := ((List.range 8).filter fun i => fixed.getLsbD i).length
    let confirmed := again = true ∧ lost ≠ 0 ∧ getF q.ctl 8 8 ≠ 0
    s.inHbm a 1 = true → ∃ u, exec (.scrub a fixed lost again) s = .next u ∧ u.mem = s.mem ∧
      (∀ p, p ∈ u.poison ↔ p ∈ s.poison ∨ ∃ i, i < 8 ∧ lost.getLsbD i = true ∧ p = a / 256 * 8 + i) ∧
      (u.hbmOf z.1).cecnt = q.cecnt + BitVec.ofNat 32 count ∧
      (¬ confirmed → mapGet 0 q.errs z.2.1 + count ≤ 256 → u.slices = s.slices ∧ u.evtail = s.evtail ∧ u.outbox = s.outbox) ∧
      (s.featacc.getLsbD 7 = false → u.slices = s.slices ∧ u.evtail = s.evtail) ∧
      (confirmed → s.featacc.getLsbD 7 = true → mapGet .service s.slices z.2.1 = .service →
        mapGet .service u.slices z.2.1 = .pending ∧ mapGet 0 u.outstk z.2.1 = z.1 ∧ ∃ t, rung t u 1 z.2.1 z.1 0)) ∧
  (s.locOf a = .spad c o → ∃ u, exec (.scrub a fixed lost again) s = .next u ∧ u.mem = s.mem ∧ (u.core c).spad = (s.core c).spad ∧
    ∀ p, p ∈ (u.core c).spoison ↔ p ∈ (s.core c).spoison ∨ ∃ i, i < 8 ∧ lost.getLsbD i = true ∧ p = o / 64 * 8 + i) ∧
  (s.locOf a = .win c o → ∃ u, exec (.scrub a fixed lost again) s = .next u ∧ u.mem = s.mem ∧ (∀ j, u.agent j = s.agent j) ∧
    ∀ p, p ∈ (u.core c).lost ↔ p ∈ (s.core c).lost ∨ ∃ i, i < 8 ∧ lost.getLsbD i = true ∧ p = o / 64 * 8 + i) ∧
  (mapGet .service s.slices slice = .pending → ∃ t, exec (.confirm slice) s = .next t ∧
    mapGet .service t.slices slice = .reforming ∧ t.agenda = s.agenda ++ [.hotremove slice] ∧ t.mem = s.mem ∧
    ∀ j, j ≠ slice → mapGet .service t.slices j = mapGet .service s.slices j) ∧
  (mapGet .service s.slices slice ≠ .pending → exec (.confirm slice) s = .next s) ∧
  (mapGet .service s.slices slice = .reforming → slice < 32 → mapGet 0 s.outstk slice < 8 → ∃ t u, exec (.hotremove slice) s = .next u ∧
    rung t u 2 slice (mapGet 0 s.outstk slice) 0 ∧ mapGet .service u.slices slice = .reformed ∧
    (∀ d, d / 2 ^ 35 ≠ slice → byteAt u.mem d = byteAt s.mem d) ∧ (∀ d, s.inService d = true → d / 2 ^ 35 ≠ slice → u.inService d = true) ∧
    ∀ d, slice * 2 ^ 35 ≤ d → d < slice * 2 ^ 35 + 2 ^ 35 → (u.inService d = true ↔ d < slice * 2 ^ 35 + 28 * 2 ^ 30)) ∧
  (mapGet .service s.slices slice ≠ .reforming → exec (.hotremove slice) s = .next s) ∧
  (s.featacc.getLsbD 6 = false → ∃ u, exec (.strike core) s = .next u ∧
    rung (s.setCore core { s.core core with strk := (s.core core).strk + 1 }) u 5 0 0 0) ∧
  (s.featacc.getLsbD 6 = true → ∃ u, exec (.strike core) s = .next u ∧ (u.core core).strk = (s.core core).strk + 1 ∧
    u.mem = s.mem ∧ (∀ j, u.agent j = s.agent j) ∧ u.outbox = s.outbox ∧ (∀ r ∈ u.resvs, r ∈ s.resvs) ∧
    ∀ r ∈ s.resvs, r.id.core ≠ core → r ∈ u.resvs) ∧
  (s.featacc.getLsbD 6 = false → ∀ z b l, exec (.replay z b l) s = .next s) ∧
  (mapGet [] (s.core core).beats ((c + 16) % 32) = [] → ∀ b l, exec (.replay (core, c) b l) s = .next s) ∧
  (∀ i l, s.featacc.getLsbD 6 = true → mapGet [] (s.core core).beats ((c + 16) % 32) = i :: l →
    let q := s.core core
    let m := mapSet [] q.beats ((c + 16) % 32) l
    (∀ b, exec (.replay (core, c) false b) s = .next (s.setCore core { q with beats := m, rchk := q.rchk + 1 })) ∧
    exec (.replay (core, c) true false) s =
      .next ((s.setCore core { q with beats := m, rchk := q.rchk + 1, rmisw := q.rmisw + 1 }).squash core) ∧
    ∀ g, s.agent { core := core, idx := i } = some g → exec (.replay (core, c) true true) s =
      .next ((s.setCore core { q with beats := m, rchk := q.rchk + 1, rmisc := q.rmisc + 1 }).halt { core := core, idx := i } g 4 0 0)) ∧
  (∀ (u : State) (id : AgentId) (g : Agent) (i : Instr) (r : Rules), u.featacc.getLsbD 6 = true → r.u = false → replays i = true →
    let on := g.live &&& g.getM g.prefixOf.m.toNat
    ∀ t, t < 32 → let l := mapGet [] (u.core id.core).beats t
      mapGet [] ((u.queueBeats id g i r).core id.core).beats t =
        if on.getLsbD t then (l ++ [id.idx]).drop (l.length + 1 - 16) else l) ∧
  (exec (.powerLimit true) s = .next (s.later [.fatal 2]) ∧ exec (.powerLimit false) s = .next s)

/-- Start-up, reset and the device-fatal error (R422, R466, R467): the boot states in their order; the ROM writes routing endpoint 0, and
boots the valid image of higher version; a reset keeps what the module holds for good, and a device-fatal error kills every context.
That the ROM is entered and left by two events, and the choice of CAUSE where both images and the record are missing, is log entry 52;
what a reset keeps and empties, the memory among it, is log entry 53, the model's reading. -/
def Obligations.StartUp : Prop := ∀ (s : State) (b : Bool) (cause : Nat),
  let enables := ((List.range 8).map Instr.enable : List Instr)
  let failed := fun (t : State) (c : Nat) => ({ t with boot := .bootfail, cause := c, loaded := false } : State).later enables
  let routed := fun (p : Prov) => ({ s with endpts := mapSet 0 s.endpts 0 (BitVec.ofNat 256 (p.host.toNat + 3 * 2 ^ 128)) } : State)
  (s.boot = .reset → exec .powerGood s = .next ({ s with boot := .rom }.later [.powerGood])) ∧
  (∀ p, s.boot = .rom → s.bootSlot = some b → s.prov = some p →
    exec .powerGood s = .next ({ routed p with boot := .fwload, slot := b, loaded := true }.later [.fwload])) ∧
  (∀ p, s.boot = .rom → s.bootSlot = none → s.prov = some p → exec .powerGood s = .next (failed (routed p) 1)) ∧
  (s.boot = .rom → s.bootSlot = some b → s.prov = none → exec .powerGood s = .next (failed s 3)) ∧
  (s.boot = .rom → s.bootSlot = none → s.prov = none → ∃ t c, exec .powerGood s = .next (failed t c) ∧ (c = 1 ∨ c = 3) ∧
    { t with freeCtr := 0 } = { s with freeCtr := 0 }) ∧
  (s.boot ≠ .reset → s.boot ≠ .rom → exec .powerGood s = .next s) ∧
  (∀ i, s.flashA = some i ∨ s.flashB = some i → i.valid s.minver = true → s.bootSlot.isSome) ∧
  (∀ i j, s.flashA = some i → s.flashB = some j → i.valid s.minver = true → j.valid s.minver = true →
    s.bootSlot = some (decide (i.version < j.version))) ∧
  (s.boot = .fwload → exec .fwload s = .next { s with boot := .hbminit }) ∧
  (s.boot = .hbminit → exec (.hbminit false) s = .next (failed s 2) ∧
    ∀ p, s.prov = some p → ∃ t, exec (.hbminit true) s = .next t ∧ t.boot = .links ∧ t.modid = p.modid.toNat ∧
      mapGet 0 t.endpts 0 = BitVec.ofNat 256 (p.host.toNat + 3 * 2 ^ 128) ∧ t.agenda = s.agenda ++ enables ++ [.links] ∧
      t.mem = s.mem ∧ ∀ j, j ≠ 0 → mapGet 0 t.endpts j = mapGet 0 s.endpts j) ∧
  (s.boot = .links → exec .links s = .next { s with boot := .ready }) ∧
  (s.boot = .reset → exec (.fatal cause) s = .next s) ∧
  (s.boot ≠ .reset → ∃ t, exec (.fatal cause) s = .next t ∧ t.boot = .fatal ∧ t.cause = cause ∧
    ((∀ c ∈ s.ctxs, (s.ctx c.1).frames = []) → (∀ p ∈ s.tasks, p.2.prep = none) →
      (∀ k ∈ s.cores, (∀ q ∈ k.2.queues, q.2 = []) ∧ k.2.jobs = []) → t.mem = s.mem) ∧ t.events = s.events ∧ t.slices = s.slices ∧ ∀ c ∈ s.ctxs, (s.ctx c.1).resident = true → (t.ctx c.1).st = .killed ∧
      ∀ id a, t.agent id = some a → a.ctx ≠ c.1) ∧
  (∃ t, exec .bootcmdReset s = .next t ∧ t.boot = .reset ∧ t.agenda = [.powerGood] ∧ t.flashA = s.flashA ∧ t.flashB = s.flashB ∧
    t.prov = s.prov ∧ t.minver = s.minver ∧ t.outbox = s.outbox ∧ t.mem = State.reset.mem ∧ t.ctxs = State.reset.ctxs ∧
    t.cores = State.reset.cores ∧ t.featacc = 0x10 ∧ t.ferr = false ∧ t.evendpt = 0xFFFF ∧ t.tasks = [] ∧ t.runq = [])

/-! ## Memory -/

/-- An access to HBM (R3, R196 to R201, R378): in a channel that is in service and awake, where nothing is poisoned and no write to
a UO page is unsettled and no overwritten value can still be read, a load gives the bytes from the lowest upward; a store, an atomic
and a successful SC leave their value in those bytes and no other, and break the reservations of other threads there; SC succeeds while its own thread
holds the reservation of its LR. The atomic that takes the PRED of an idle TCB from 1 to 0 makes its task READY. -/
def Obligations.HbmAccesses : Prop := ∀ (s : State) (r : Req) (lane a n op rnd x c : Nat),
  (∀ h ∈ s.hbm, h.2.out = 0 ∧ h.2.training = [] ∧ h.2.asleep = []) → s.poison = [] → s.uo = [] → s.stale = [] → s.withdrawn = [] →
  0 < n → a + n ≤ 0xA000000000 →
  let old := readN s.mem a n
  let q := s.atHbm r lane a n false
  let own := fun (v : Resv) => v.id = r.id ∧ v.lane = lane
  let hit := fun (v : Resv) => v.gran = a / 64 ∨ v.gran = (a + n - 1) / 64
  let holds := ∃ v ∈ s.resvs, own v ∧ v.gran = a / 64
  let wrote := fun (t : State) (y : Nat) => readN t.mem a n = y % 256 ^ n ∧
    (∀ d, d < a ∨ a + n ≤ d → byteAt t.mem d = byteAt s.mem d) ∧
    { t with mem := [], resvs := [], stale := [], clock := 0, freeCtr := 0 } =
      { s with mem := [], resvs := [], stale := [], clock := 0, freeCtr := 0 } ∧
    ∀ v, v ∈ t.resvs → v ∈ s.resvs ∧ (own v ∨ ¬ hit v)
  let sg := fun (y : Nat) => (BitVec.ofNat (8 * n) y).toInt
  let new := match op with
    | 0 => old + x
    | 1 => if sg x < sg old then x else old
    | 2 => if sg old < sg x then x else old
    | 3 => old &&& x
    | 4 => old ||| x
    | 5 => old ^^^ x
    | 6 => x
    | _ => if old = c then x else old
  q .load = (s, .val old 0) ∧
  (∃ t, q (.store x) = (t, .val 0 0) ∧ wrote t x ∧ ∀ v ∈ s.resvs, own v ∨ ¬ hit v → v ∈ t.resvs) ∧
  (∃ t, q .lr = (t, .val old 0) ∧ { t with resvs := [] } = { s with resvs := [] } ∧
    (∃ v ∈ t.resvs, own v ∧ v.gran = a / 64) ∧ (∀ v ∈ t.resvs, own v → v.gran = a / 64) ∧
    ∀ v, ¬ own v → (v ∈ t.resvs ↔ v ∈ s.resvs)) ∧
  (holds → ∃ t, q (.sc x) = (t, .val 1 0) ∧ wrote t x ∧ ∀ v ∈ t.resvs, ¬ own v) ∧
  (¬ holds → ∃ t, q (.sc x) = (t, .val 0 0) ∧ t.mem = s.mem ∧ ∀ v ∈ t.resvs, ¬ own v) ∧
  (op < 8 → x < 256 ^ n → n ≠ 4 ∨ s.isTcb a = false → ∃ t, q (.rmw op rnd x c) = (t, .val old 0) ∧ wrote t new) ∧
  (n = 4 → s.isTcb a = true → byteAt s.mem (a + 4) = 0 → old = 1 → op < 8 → x < 256 ^ n → new % 2 ^ 32 = 0 →
    let k := readN s.mem (a + 5) 1 % 16
    (s.ctx k).resident = true → ∃ t, q (.rmw op rnd x c) = (t, .val 1 0) ∧ readN t.mem a 4 = 0 ∧ byteAt t.mem (a + 4) = 1 ∧
      (∀ d, d < a ∨ a + 5 ≤ d → byteAt t.mem d = byteAt s.mem d) ∧
      (∃ z, mapFind a t.tasks = some z ∧ z.st = .ready ∧ z.ctx = k) ∧
      t.agenda = s.agenda ++ if (s.ctx k).st = .active then [.dispatching a] else [])

/-- Address translation (R168 to R176, R179): the extents of the task first, then the core's TLB, then the walk of four levels, a leaf
at the third covering 128 MiB or more and one at the fourth 64 MiB or less; the walk sets `A` and fills the TLB; an access that the
page does not allow is refused, and so is an address with bits 63 to 60 not zero. -/
def Obligations.AddressTranslation : Prop := ∀ (s : State) (r : Req) (va pte e : Nat) (k : Kind) (p : Placed) (x : Extent)
    (b : Word64),
  let vpn := va / 2 ^ 16
  let allowed := fun (rd wr ex sup : Bool) => (match k with
    | .load => rd = true
    | .store => wr = true
    | .fetch => ex = true
    | _ => rd = true ∧ wr = true) ∧ (sup = false ∨ r.priv = true)
  let clean := fun (d : Bool) => d = true ∨ k.writes = false
  let none_ := ∀ p, mapFind r.lctx (s.core r.id.core).placed = some p → p.ctx ≠ r.ctx ∨
    ∀ x ∈ p.exts, vpn < x.vbase ∨ x.vbase + x.npg ≤ vpn
  let cell := fun (l tab : Nat) => tab % 2 ^ 40 + va / 2 ^ (49 - 11 * l) % 2 ^ 11 * 8
  let word := fun (l tab : Nat) => readN s.mem (cell l tab) 8
  let table := fun (l tab : Nat) => tab / 2 ^ 40 = s.modid ∧ tab % 2 ^ 40 < 0xA000000000 ∧ s.inService (cell l tab) = true ∧
    s.poisonAt (cell l tab) 8 = false
  let pointer := fun (y : Nat) => y % 2 = 1 ∧ y / 2 % 2 ^ 13 = 0
  let down := fun (y : Nat) => y / 2 ^ 14 % 2 ^ 44 * 2 ^ 14
  let leaf := fun (y lo hi : Nat) => y % 2 = 1 ∧ y / 2 % 4 ≠ 3 ∧ y / 2 ^ 14 % 4 = 0 ∧ lo ≤ y / 2 ^ 7 % 32 ∧ y / 2 ^ 7 % 32 ≤ hi
  let t0 := (s.ctx r.ctx).ptroot
  let t1 := down (word 0 t0)
  let t2 := down (word 1 t1)
  let t3 := down (word 2 t2)
  let top := table 0 t0 ∧ pointer (word 0 t0) ∧ table 1 t1 ∧ pointer (word 1 t1) ∧ table 2 t2
  (2 ^ 60 ≤ va → s.translate r va k = (s, .access)) ∧
  (va < 2 ^ 60 → mapFind r.lctx (s.core r.id.core).placed = some p → p.ctx = r.ctx → findExtent p vpn = some x → x.stale = false →
    x.win.find? (winCovers vpn) = none →
    (allowed x.r x.w x.x x.sup → clean (x.d || leafD (x.leafAt vpn)) → ∃ t, s.translate r va k = (s, .ok t) ∧ t.ord = x.ord ∧
      t.win = none ∧ t.pa = (x.pbase + (vpn - x.vbase)) * 2 ^ 16 + va % 2 ^ 16) ∧
    (¬ allowed x.r x.w x.x x.sup → (s.ctx r.ctx).wint = 0 → s.walk r.ctx va = .leaf e pte →
      ¬ allowed (leafR e && x.decl.testBit 0) (leafW e && x.decl.testBit 1) (leafX e) (leafS e) →
      ∃ u, s.translate r va k = (u, .access))) ∧
  (va < 2 ^ 60 → none_ → ∀ c v ws, findTlb (s.core r.id.core).tlb r.ctx vpn = some (.leaf c v b ws) →
    ws.find? (winCovers vpn) = none →
    let y := b.toNat
    (allowed (leafR y) (leafW y) (leafX y) (leafS y) → clean (leafD y) → ∃ t, s.translate r va k = (s, .ok t) ∧
      t.ord = leafOrd y ∧ t.pa = leafPa y va ∧ t.win = none) ∧
    (¬ allowed (leafR y) (leafW y) (leafX y) (leafS y) → s.walk r.ctx va = .leaf e pte →
      ((s.ctx r.ctx).wint = 0 → ¬ allowed (leafR e) (leafW e) (leafX e) (leafS e) → ∃ u, s.translate r va k = (u, .access)) ∧
      ((s.ctx r.ctx).wint = 0 → clean (leafD e) → allowed (leafR e) (leafW e) (leafX e) (leafS e) →
        ∃ t u, s.translate r va k = (u, .ok t) ∧ t.ord = leafOrd e ∧ t.pa = leafPa e va))) ∧
  (va < 2 ^ 60 → none_ → findTlb (s.core r.id.core).tlb r.ctx vpn = none → s.walk r.ctx va = .leaf e pte → e < 2 ^ 64 →
    (s.ctx r.ctx).wint = 0 → clean (leafD e) → allowed (leafR e) (leafW e) (leafX e) (leafS e) →
    s.trainingAt pte = false → s.frozenAt pte = none → s.outAt pte = false →
    ∃ t u, s.translate r va k = (u, .ok t) ∧ t.ord = leafOrd e ∧ t.pa = leafPa e va ∧ (leafA e = true → u.mem = s.mem) ∧
      (leafA e = false → readN u.mem pte 8 = e + 2 ^ 13 ∧ ∀ d, d < pte ∨ pte + 8 ≤ d → byteAt u.mem d = byteAt s.mem d) ∧
      (∃ w, (u.core r.id.core).tlb.head? = some (.leaf r.ctx vpn w []) ∧ leafPa w.toNat va = t.pa ∧ leafA w.toNat = true) ∧
      { u with mem := [], cores := [], resvs := [] } = { s with mem := [], cores := [], resvs := [] }) ∧
  (top → leaf (word 2 t2) 11 20 → word 2 t2 / 8 % 8 ≠ 0 → s.walk r.ctx va = .leaf (word 2 t2) (cell 2 t2)) ∧
  (top → pointer (word 2 t2) → table 3 t3 → leaf (word 3 t3) 0 10 → s.walk r.ctx va = .leaf (word 3 t3) (cell 3 t3)) ∧
  (table 0 t0 → word 0 t0 % 2 = 0 → s.homeOf r.ctx va = .ok none → s.walk r.ctx va = .missing none false) ∧
  leafPa e va = e / 2 ^ (16 + leafSpan e) % 2 ^ (58 - (16 + leafSpan e)) * 2 ^ (16 + leafSpan e) + va % 2 ^ (16 + leafSpan e)

/-! ## Values -/

/-- LEA (R146): `D := (A + (B << sh))[w−1:0]` with the shift in `FN`[2:0]; it wraps and raises no flag; vector operands
and results have 32 bits and uniform ones 64. A word with `FN`[4:3] not 0 is no LEA. The turn then goes to
the next agent: the model's order, log entry 5. -/
def Obligations.LeaResult : Prop := ∀ (sb : Bool) (sh : BitVec 3) (d x y : Opd),
  VectorWord (.lea sb false sh d x y) (regRules false d [x, y] 0) d [x, y]
    (fun _ xs _ => (BitVec.ofNat 32 ((arg xs 0).toNat + (arg xs 1).toNat * 2 ^ sh.toNat), 0)) ∧
  UniformWord (.lea sb true sh d x y) (regRules true d [x, y] 0) d [x, y]
    (fun _ xs => (BitVec.ofNat 64 ((arg xs 0).toNat + (arg xs 1).toNat * 2 ^ sh.toNat), 0)) ∧
  ∀ w, w / 2 ^ 23 % 128 = 0x1B → w / 2 ^ 21 % 4 ≠ 0 → (decodeWord w).toOption = none

/-- ADDI (R145): `D := (A + I)[w−1:0]` with the signed `I11`, or with a prefix the signed 21-bit field whose upper
ten bits the prefix holds (R46); it wraps and raises no flag. The turn then goes to
the next agent: the model's order, log entry 5. -/
def Obligations.AddiResult : Prop := ∀ (sb : Bool) (d x : Opd) (j : BitVec 11),
  let imm := fun (a : Agent) => match a.pfx with
    | some p => (p.x ++ j).toInt
    | none => j.toInt
  VectorWord (.addi sb false d x j) { regRules false d [x] 0 with okX := true } d [x]
    (fun a xs _ => (BitVec.ofInt 32 ((arg xs 0).toNat + imm a), 0)) ∧
  UniformWord (.addi sb true d x j) { regRules true d [x] 0 with okX := true } d [x]
    (fun a xs => (BitVec.ofInt 64 ((arg xs 0).toNat + imm a), 0)) ∧
  decodeWord (0x0D000000 + sb.toNat * 2 ^ 31 + d.code * 2 ^ 17 + x.code * 2 ^ 11 + j.toNat) = .ok (.addi sb false d x j) ∧
  decodeWord (0x4D000000 + sb.toNat * 2 ^ 31 + d.code * 2 ^ 17 + x.code * 2 ^ 11 + j.toNat) = .ok (.addi sb true d x j)

/-- LOGIC (R135) bit by bit over the full width, in both forms; `FN` from 6 up raises ILLEGAL_INSTR. The turn then goes to
the next agent: the model's order, log entry 5. -/
def Obligations.LogicResult : Prop := ∀ (sb : Bool) (f : BitVec 5) (d x y : Opd),
  let bit := fun (p q : Bool) => match f.toNat with
    | 0 => p && q
    | 1 => p || q
    | 2 => p != q
    | 3 => p && !q
    | 4 => p || !q
    | _ => p == q
  (f.toNat < 6 → VectorWord (.logic sb false f d x y) (regRules false d [x, y] 0) d [x, y]
      (fun _ xs _ => ((BitVec.ofBoolListLE ((List.range 32).map fun i =>
        bit ((arg xs 0).getLsbD i) ((arg xs 1).getLsbD i))).setWidth 32, 0)) ∧
    UniformWord (.logic sb true f d x y) (regRules true d [x, y] 0) d [x, y]
      (fun _ xs => ((BitVec.ofBoolListLE ((List.range 64).map fun i =>
        bit ((arg xs 0).getLsbD i) ((arg xs 1).getLsbD i))).setWidth 64, 0))) ∧
  (6 ≤ f.toNat → ∀ s id a u, s.current = some (id, a) → a.now = none → a.clear a.gate = true →
    exec (.logic sb u f d x y) s = .next (s.trap id a trIllegalInstr 0))

/-- MULH (R132): the high half of each exact double-width product, by element and signedness, with no flag; a
word with `FN`[4] = 1 is no MULH, and another type raises ILLEGAL_INSTR. The turn then goes to
the next agent: the model's order, log entry 5. -/
def Obligations.MulhResult : Prop := ∀ (sb : Bool) (t : BitVec 3) (d x y : Opd),
  let high := fun (w : Nat) (p q : Int) => p * q / 2 ^ w
  let packed := fun (w : Nat) (p q : Word) => BitVec.ofNat 32 (((List.range (32 / w)).map fun j =>
    (high w ((p >>> (w * j)).setWidth w).toInt ((q >>> (w * j)).setWidth w).toInt % 2 ^ w).toNat * 2 ^ (w * j)).foldl (· + ·) 0)
  VectorWord (.mulh sb false 0 d x y) (regRules false d [x, y] 0) d [x, y]
    (fun _ xs _ => (BitVec.ofInt 32 (high 32 (arg xs 0).toInt (arg xs 1).toInt), 0)) ∧
  VectorWord (.mulh sb false 1 d x y) (regRules false d [x, y] 0) d [x, y]
    (fun _ xs _ => (BitVec.ofInt 32 (high 32 (arg xs 0).toNat (arg xs 1).toNat), 0)) ∧
  VectorWord (.mulh sb false 5 d x y) (regRules false d [x, y] 0) d [x, y]
    (fun _ xs _ => (packed 16 (arg xs 0) (arg xs 1), 0)) ∧
  VectorWord (.mulh sb false 6 d x y) (regRules false d [x, y] 0) d [x, y]
    (fun _ xs _ => (packed 8 (arg xs 0) (arg xs 1), 0)) ∧
  UniformWord (.mulh sb true 0 d x y) (regRules true d [x, y] 0) d [x, y]
    (fun _ xs => (BitVec.ofInt 64 (high 64 (arg xs 0).toInt (arg xs 1).toInt), 0)) ∧
  UniformWord (.mulh sb true 1 d x y) (regRules true d [x, y] 0) d [x, y]
    (fun _ xs => (BitVec.ofInt 64 (high 64 (arg xs 0).toNat (arg xs 1).toNat), 0)) ∧
  (∀ s id a u, (t = 2 ∨ t = 3 ∨ t = 4 ∨ t = 7 ∨ (u = true ∧ (t = 5 ∨ t = 6))) → s.current = some (id, a) →
    a.now = none → a.clear a.gate = true →
    exec (.mulh sb u t d x y) s = .next (s.trap id a trIllegalInstr 0)) ∧
  ∀ w, w / 2 ^ 23 % 128 = 0x04 → w / 2 ^ 22 % 2 = 1 → (decodeWord w).toOption = none

/-- What the integer words compute (R99, R100, R129, R130, R133, R134, R136 to R140), for operands of 32 and of 64 bits: each
element wraps or saturates with OF; division by 0 gives the rule's value with DZ. -/
def Obligations.IntegerValues : Prop := ∀ (n r : Nat), n = 32 ∨ n = 64 → ∀ (a b c : BitVec n) (sat sx : Bool) (t : BitVec 3),
  t = 0 ∨ t = 1 ∨ t = 5 ∨ t = 6 →
  let sg := decide (t ≠ 1)
  let w := if t = 5 then 16 else if t = 6 then 8 else n
  let el := fun (x : BitVec n) (j : Nat) => if sg then ((x >>> (w * j)).setWidth w).toInt else (((x >>> (w * j)).setWidth w).toNat : Int)
  let lo : Int := if sg then -2 ^ (w - 1) else 0
  let hi : Int := if sg then 2 ^ (w - 1) - 1 else 2 ^ w - 1
  let clamp := fun (x : Int) => if sat = true ∧ x < lo then lo else if sat = true ∧ hi < x then hi else x
  let each := fun (o : BitVec n) (g : Int → Int → Int → Int) => ∀ j, j < n / w →
    (o >>> (w * j)).setWidth w = BitVec.ofInt w (g (el a j) (el b j) (el c j))
  let exact := fun (o : Out n) (g : Int → Int → Int → Int) => each o.1 (fun x y z => clamp (g x y z)) ∧
    (sat = true ∧ (∃ j, j < n / w ∧ ¬ (lo ≤ g (el a j) (el b j) (el c j) ∧ g (el a j) (el b j) (el c j) ≤ hi)) → o.2 = flOF) ∧
    (sat = false ∨ (∀ j, j < n / w → lo ≤ g (el a j) (el b j) (el c j) ∧ g (el a j) (el b j) (el c j) ≤ hi) → o.2 = 0)
  let pos := b.toNat % 256
  let len := if n ≤ pos then 0 else min (b.toNat / 256 % 256) (n - pos)
  exact (aluAdd sat t r a b) (fun x y _ => x + y) ∧
  exact (aluSub sat t r a b) (fun x y _ => x - y) ∧
  exact (aluMul sat t r a b) (fun x y _ => x * y) ∧
  exact (aluMad sat t r a b c) (fun x y z => x * y + z) ∧
  (each (aluMinMax false t a b).1 (fun x y _ => min x y) ∧ (aluMinMax false t a b).2 = 0) ∧
  (each (aluMinMax true t a b).1 (fun x y _ => max x y) ∧ (aluMinMax true t a b).2 = 0) ∧
  (each (aluAbsd t r a b).1 (fun x y _ => ((x - y).natAbs : Int)) ∧ (aluAbsd t r a b).2 = 0) ∧
  (t = 0 ∨ t = 1 → b ≠ 0 → aluDiv t r a b = (BitVec.ofInt n ((el a 0).tdiv (el b 0)), 0) ∧
    intRem t a b = (BitVec.ofInt n ((el a 0).tmod (el b 0)), 0)) ∧
  (t = 0 ∨ t = 1 → b = 0 → aluDiv t r a b = (if sg = true ∧ el a 0 < 0 then BitVec.ofInt n lo else BitVec.ofInt n hi, flDZ) ∧
    intRem t a b = (a, flDZ)) ∧
  (∀ e : BitVec 3, e.toNat < 3 → let k := if e = 0 then n else if e = 1 then 16 else 8
    ∀ j, j < n / k → let x := (a >>> (k * j)).setWidth k; let m := ((b >>> (k * j)).setWidth k).toNat
      let get := fun (p : BitVec 2) => (aluShift e p a b >>> (k * j)).setWidth k
      get 0 = BitVec.ofNat k (x.toNat * 2 ^ m) ∧ get 1 = BitVec.ofNat k (x.toNat / 2 ^ m) ∧
      get 2 = BitVec.ofInt k (x.toInt / 2 ^ m) ∧ ∀ i, i < k → (get 3).getLsbD ((i + m) % k) = x.getLsbD i) ∧
  aluBits 0 a = BitVec.ofNat n ((List.range n).countP fun i => a.getLsbD i) ∧
  (a = 0 → aluBits 1 a = BitVec.ofNat n n ∧ aluBits 2 a = BitVec.ofNat n n) ∧
  (a ≠ 0 → ∃ i k, i < n ∧ k < n ∧ aluBits 1 a = BitVec.ofNat n (n - 1 - i) ∧ a.getLsbD i = true ∧
    (∀ j, i < j → j < n → a.getLsbD j = false) ∧ aluBits 2 a = BitVec.ofNat n k ∧ a.getLsbD k = true ∧
    ∀ j, j < k → a.getLsbD j = false) ∧
  (∀ i, i < n → (aluBits 3 a).getLsbD i = a.getLsbD (n - 1 - i)) ∧
  (∀ i, i < n / 8 → byteOf (aluBits 4 a) i = byteOf a (n / 8 - 1 - i)) ∧
  (∀ i, i < n → (aluBfx sx a b).getLsbD i =
    if i < len then a.getLsbD (pos + i) else sx && decide (0 < len) && a.getLsbD (pos + len - 1)) ∧
  (∀ i, i < n → (aluBfi a b c).getLsbD i = if pos ≤ i ∧ i < pos + len then a.getLsbD (i - pos) else c.getLsbD i) ∧
  (∀ y : BitVec 2, y.toNat < 2 → let p : Int := if y = 0 then a.toInt else a.toNat; let q : Int := if y = 0 then b.toInt else b.toNat
    aluCmp 0 y a b = (decide (p = q), 0) ∧ aluCmp 1 y a b = (decide (p ≠ q), 0) ∧ aluCmp 2 y a b = (decide (p < q), 0) ∧
    aluCmp 3 y a b = (decide (p ≤ q), 0) ∧ aluCmp 4 y a b = (decide (q < p), 0) ∧ aluCmp 5 y a b = (decide (q ≤ p), 0)) ∧
  (∀ (u v z : Word) (j : Nat), j < 4 → let s := z.toNat / 2 ^ (4 * j) % 16
    let y := if s % 8 < 4 then byteOf u (s % 8) else byteOf v (s % 8 - 4)
    byteOf (permVec u v z) j = if s < 8 then y else if 128 ≤ y then 255 else 0) ∧
  ∀ (u v z : Word64) (j : Nat), j < 8 → let s := z.toNat / 2 ^ (4 * j) % 16
    byteOf (permUni u v z) j = if s < 8 then byteOf u s else byteOf v (s - 8)

/-! ## Operands, words and steps -/

/-- Operand fields (R20, R41, R42, R215, R393, R394): registers; the head of a group channel, popped or peeked, A before B; the
head of a task channel, and of the decision channel the element at the group's own cursor, each an acquire (R249); number 0 and `m0`
are fixed. A word that finds a source channel empty has issued and is set aside, and one that finds its destination channel
full waits for its turn again with nothing popped. -/
def Obligations.OperandForms : Prop := ∀ (s : State) (id : AgentId) (a : Agent), s.agent id = some a → a.now = none →
  ∀ (n : BitVec 5) (c : BitVec 4) (ch : Chan VReg) (p : Placed) (th : Chan Word64) (e f : VReg) (l : List VReg) (x : Word64)
    (r : List Word64) (k : Nat),
  let popped := { a with chans := mapPut c.toNat { ch with elems := f :: l } a.chans }
  let twice := { popped with chans := mapPut c.toNat { ch with elems := l } popped.chans }
  (readV s id (.reg n) = some (a.getV n.toNat, s) ∧ readU s id (.reg n) = some (a.getX n.toNat, s) ∧ a.getX 0 = 0 ∧
    (a.setX 0 x).getX 0 = 0 ∧ a.setX 0 x = a ∧ a.getM 0 = 0xFFFFFFFF ∧ a.setM 0 (x.setWidth 32) = a) ∧
  (mapFind c.toNat a.chans = some ch → ch.elems = e :: f :: l →
    readVs s id [.chan true c] = some ([e], s) ∧ readVs s id [.chan false c] = some ([e], s.setAgent id popped) ∧
    ∃ t, readVs s id [.chan false c, .chan false c] = some ([e, f], t) ∧ t.agent id = some twice) ∧
  (mapFind c.toNat a.chans = some ch → ch.elems = [] → ∀ b, readV s id (.chan b c) = none) ∧
  (s.placedOf id a = some p → mapFind c.toNat p.chans = some th → c ≠ 15 ∨ s.decides a = false →
    (th.elems = x :: r → readU s id (.chan true c) = some (x, s.setAgent id (a.acquired s)) ∧
      (p.inbox = [] → readU s id (.chan false c) =
        some (x, (s.setPlaced id.core a.lctx { p with chans := mapPut c.toNat { th with elems := r } p.chans }).setAgent id
          (a.acquired s)))) ∧
    (th.elems = [] → ∀ b, readU s id (.chan b c) = none)) ∧
  (s.placedOf id a = some p → mapFind 15 p.chans = some th → s.decides a = true → a.cursor = some k → p.decBase ≤ k →
    (th.elems[k - p.decBase]? = some x → readU s id (.chan true 15) = some (x, s.setAgent id (a.acquired s)) ∧
      ∃ t b, readU s id (.chan false 15) = some (x, t) ∧ t.agent id = some b ∧ b = { a.acquired s with cursor := some (k + 1) }) ∧
    (th.elems[k - p.decBase]? = none → readU s id (.chan true 15) = none ∧ readU s id (.chan false 15) = none)) ∧
  (∀ sb q t d y z, let i := Instr.add sb false q t d y z
    Tries s id a i (regRules false d [y, z] (rndOf t)) → s.closed id a (regRules false d [y, z] (rndOf t)) = false →
    s.stays id a i (regRules false d [y, z] (rndOf t)) = false → readVs s id [y, z] = none → exec i s = .next (s.setAside id a i sb (regRules false d [y, z] (rndOf t)))) ∧
  ∀ sb q t d y z, Issues s id a (.add sb false q t d y z) (regRules false d [y, z] (rndOf t)) →
    (∀ v s1 g b, readVs s id [y, z] = some (v, s1) → d = .chan b c → s1.agent id = some g → mapFind c.toNat g.chans = some ch →
      ch.depth ≤ ch.elems.length → exec (.add sb false q t d y z) s = .next s.rotate)

/-- A step runs the decoded instruction (R28, R34, R47, R53, R61): with no event due, the word at the position of the agent in turn,
or behind its prefix, is decoded and issued; a pair word gives its code; what does not decode raises ILLEGAL_INSTR; and the
clause at the address of the path is fetched first, from the bytes where translation puts it. A step begins with the passing of time for
what has yet to settle (R260), which changes nothing where all has settled. Where earlier words of the agent wait for
what they need, the free choice of the step lets one of them go on or takes the next word. A due event comes first
when no agent stands in the order of turns. The machine that `withFetchWord` gives runs that word. -/
def Obligations.StepRunsDecoded : Prop := ∀ (s0 s : State) (id : AgentId) (l : List AgentId) (a : Agent) (c : Clause) (i : Instr),
  s0.tick = s → s.runq = id :: l → s.agenda = [] → s.agent id = some a → a.pend = .none → a.preq = false →
  let p := a.path
  let k := if a.pfx.isSome then p.wix + 1 else p.wix
  let w := c.words.getD k 0
  let there := a.clause = some c ∧ c.addr = p.pc
  let turn := s.choose (a.late.length + 1)
  let u := if a.late.isEmpty then s else turn.2
  let fresh := a.late = [] ∨ a.late[turn.1]? = none
  (fresh → there → a.pairw = none → c.hdr.pair.getLsbD k = false →
    (decodeWord w.toNat = .ok i → step s0 = exec i u) ∧
    ((decodeWord w.toNat).toOption = none → a.clear a.gate = true → step s0 = .next (u.trap id a trIllegalInstr 0))) ∧
  (fresh → there → a.pairw = none → c.hdr.pair.getLsbD k = true → step s0 = exec (.dictPairWord w) u) ∧
  (∀ z, fresh → there → a.pairw = some z → z.ins = some i → step s0 = exec i u) ∧
  (fresh → a.clause = none ∨ (∃ d, a.clause = some d ∧ d.addr ≠ p.pc) → step s0 = exec .clauseFetch u) ∧
  (∀ z, a.late[turn.1]? = some z → step s0 = exec z.ins (turn.2.setAgent id (a.view z))) ∧
  (
    let q : Req := { reqOf id a with quiet := a.acked && !s.drains a, word := (s.wordTag a).1 }
    ∀ s1 t, s.translate q p.pc.toNat .fetch = (s1, .ok t) → t.win = none → t.ord ≠ 1 → s.drainsSo id a = false →
    a.told = none → a.rem = none → mapFind fetchNo a.got = none → s.drainsAt id a p.pc.toNat 4 = false →
    t.pa / 2 ^ 40 = s1.modid → t.pa % 2 ^ 40 < 0xA000000000 → s1.inService (t.pa % 2 ^ 40) = true →
    (∀ h ∈ s1.hbm, h.2.out = 0 ∧ h.2.training = [] ∧ h.2.asleep = []) → s1.poison = [] → s1.uo = [] →
    s.fetchWords id fetchNo p.pc.toNat 1 = (s1, .ok [readN s1.mem (t.pa % 2 ^ 40) 4])) ∧
  (∀ (u0 u : State) v r, u0.tick = u → u.runq = [] → u.agenda = v :: r → v.isEvent = true → step u0 = exec v { u with agenda := r }) ∧
  (∀ u : State, u.uo = [] → u.stale = [] → u.owed = [] → u.tick = u) ∧
  (∀ x, x < 2 ^ 32 → decodeWord x = .ok i → step (State.reset.withFetchWord 32 x) = exec i (State.reset.withFetchWord 32 x))

/-- Every well-formed instruction word decodes to its instruction, and every word that decodes is the
one encoding of its instruction; the same of clause headers and pair codes (R29, R44, R47, R53, R61). -/
def Obligations.WordsRoundTrip : Prop :=
  (∀ i, Instr.wf i = true → i.isEvent = false → i ≠ .clauseFetch → (∀ w, i ≠ .dictPairWord w) →
    ∃ w, encodeWord i = some w ∧ w < 2 ^ 32 ∧ decodeWord w = .ok i) ∧
  (∀ w i, w < 2 ^ 32 → decodeWord w = .ok i → encodeWord i = some w) ∧
  (∀ h : Header, decodeHeader (encodeHeader h) = some h ∧ encodeHeader h < 2 ^ 32) ∧
  (∀ w h, w < 2 ^ 32 → decodeHeader w = some h → encodeHeader h = w) ∧
  ∀ (c : PairCode) (w : Nat), decodePair (encodePair c) = c ∧ (w < 2 ^ 16 → encodePair (decodePair w) = w)

/-- Words written out from the manual's encodings (R44 to R47, and the assembly forms of the instructions). -/
def Obligations.DecodedWords : Prop :=
  decodeWord 0x04883042 = .ok (.div false false 2 (.reg 3) (.reg 1) (.reg 2)) ∧
  decodeWord 0x09282042 = .ok (.cmp false false 2 2 (.reg 2) (.reg 1) (.reg 2)) ∧
  decodeWord 0x02885042 = .ok (.mad false false false 2 (.reg 5) (.reg 1) (.reg 2)) ∧
  decodeWord 0x42885042 = .ok (.mad false true false 2 (.reg 5) (.reg 1) (.reg 2)) ∧
  decodeWord 0x1A80910A = .ok (.lane false 9 (.reg 4) 10) ∧
  decodeWord 0x1B042000 = .ok (.lmap false 1 (.reg 2) (.reg 0) (.reg 0)) ∧
  decodeWord 0x78000140 = .ok (.itnew false 0 0 5) ∧ decodeWord 0x789001C1 = .ok (.itadd false 4 0 7 1) ∧
  decodeWord 0x79000001 = .ok (.next false false 0 0 1) ∧ decodeWord 0x7A00C04D = .ok (.itsave false 12 1 13) ∧
  (decodeWord 0x16000000).toOption = none

/-- The machine right after reset (R411, R435, R466, R470, R471): the values that the manual gives; memory lists nothing (log entry 3), and its
form is canonical. EVHEAD, EVTAIL, OVF and every other register without a reset value in the manual are 0 (log entry 2). -/
def Obligations.ResetState : Prop :=
  let s := State.reset
  s.mem = [] ∧ Memory.wf s.mem = true ∧ s.boot = .reset ∧ s.featacc = 0x10 ∧ s.ferr = false ∧ s.evendpt = 0xFFFF ∧ s.evhead = 0 ∧ s.evtail = 0 ∧
  s.evovf = false ∧ s.uo = [] ∧ s.stale = [] ∧ s.owed = [] ∧ s.loaded = false ∧ s.cmdbase = 0 ∧ s.snpool = 0 ∧ s.runq = [] ∧ s.tasks = [] ∧
  (∀ c, (s.ctx c).st = .new ∧ (s.ctx c).err = false ∧ (s.ctx c).done = false) ∧
  (∀ p, (s.port p).st = .down ∧ (s.port p).degth = 1024 ∧ (s.port p).auto = true ∧ (s.port p).lanes = 0 ∧
    (s.port p).retry = 0 ∧ (s.port p).negfail = false) ∧
  (∀ k, getF (s.hbmOf k).bud 36 12 = 4095 ∧ getF (s.hbmOf k).bud 24 12 = 1024 ∧ getF (s.hbmOf k).bud 12 12 = 256 ∧
    getF (s.hbmOf k).bud 0 12 = 64 ∧ getF (s.hbmOf k).ctl 32 16 = 64 ∧ getF (s.hbmOf k).ctl 16 16 = 256 ∧
    getF (s.hbmOf k).ctl 8 8 = 16 ∧ (s.hbmOf k).cecnt = 0 ∧ (s.hbmOf k).parcnt = 0 ∧ (s.hbmOf k).out = 0 ∧ (s.hbmOf k).deg = 0) ∧
  (∀ k, (s.cluster k).cqbase = 0) ∧ (∀ n, mapGet .service s.slices n = .service) ∧ (∀ m, s.routed m = false) ∧
  ∀ id, s.agent id = none

/-- Memory keeps its canonical form at every step. -/
def Obligations.StepKeepsMemory : Prop := ∀ s t : State, Memory.wf s.mem = true → step s = .next t → Memory.wf t.mem = true

/-- Every step goes on: no word and no event stops the machine. -/
def Obligations.NoStepStops : Prop := ∀ s : State, ∃ t, step s = .next t
end

