-- ==== Sys2Proof/Laws/Dispatch.lean ====
section
/-! SUPPORT. The meaning of each instruction: `exec` calls it and does nothing else. -/

namespace Sys2Proof.Machine

variable (s : State)

@[simp] theorem exec_nop (sb u : Bool) :
    exec (.nop sb u) s = execNop sb u s := rfl
@[simp] theorem exec_pfx (m : BitVec 3) (z : Bool) (r : BitVec 3) (c : Opd) (x : BitVec 10) :
    exec (.pfx m z r c x) s = execPfx m z r c x s := rfl
@[simp] theorem exec_dictPairWord (w : Word) :
    exec (.dictPairWord w) s = execDictPairWord w s := rfl
@[simp] theorem exec_clauseFetch  :
    exec (.clauseFetch) s = execClauseFetch s := rfl
@[simp] theorem exec_add (sb u q : Bool) (t : BitVec 3) (d a b : Opd) :
    exec (.add sb u q t d a b) s = execAdd sb u q t d a b s := rfl
@[simp] theorem exec_sub (sb u q : Bool) (t : BitVec 3) (d a b : Opd) :
    exec (.sub sb u q t d a b) s = execSub sb u q t d a b s := rfl
@[simp] theorem exec_mul (sb u q : Bool) (t : BitVec 3) (d a b : Opd) :
    exec (.mul sb u q t d a b) s = execMul sb u q t d a b s := rfl
@[simp] theorem exec_mulh (sb u : Bool) (t : BitVec 3) (d a b : Opd) :
    exec (.mulh sb u t d a b) s = execMulh sb u t d a b s := rfl
@[simp] theorem exec_mad (sb u q : Bool) (t : BitVec 3) (d a b : Opd) :
    exec (.mad sb u q t d a b) s = execMad sb u q t d a b s := rfl
@[simp] theorem exec_min (sb u : Bool) (t : BitVec 3) (d a b : Opd) :
    exec (.min sb u t d a b) s = execMin sb u t d a b s := rfl
@[simp] theorem exec_max (sb u : Bool) (t : BitVec 3) (d a b : Opd) :
    exec (.max sb u t d a b) s = execMax sb u t d a b s := rfl
@[simp] theorem exec_absd (sb u : Bool) (t : BitVec 3) (d a b : Opd) :
    exec (.absd sb u t d a b) s = execAbsd sb u t d a b s := rfl
@[simp] theorem exec_div (sb u : Bool) (t : BitVec 3) (d a b : Opd) :
    exec (.div sb u t d a b) s = execDiv sb u t d a b s := rfl
@[simp] theorem exec_rem (sb u : Bool) (t : BitVec 3) (d a b : Opd) :
    exec (.rem sb u t d a b) s = execRem sb u t d a b s := rfl
@[simp] theorem exec_logic (sb u : Bool) (f : BitVec 5) (d a b : Opd) :
    exec (.logic sb u f d a b) s = execLogic sb u f d a b s := rfl
@[simp] theorem exec_shift (sb u : Bool) (e : BitVec 3) (p : BitVec 2) (d a b : Opd) :
    exec (.shift sb u e p d a b) s = execShift sb u e p d a b s := rfl
@[simp] theorem exec_bits (sb u : Bool) (f : BitVec 5) (d a : Opd) :
    exec (.bits sb u f d a) s = execBits sb u f d a s := rfl
@[simp] theorem exec_bfx (sb u e : Bool) (d a b : Opd) :
    exec (.bfx sb u e d a b) s = execBfx sb u e d a b s := rfl
@[simp] theorem exec_bfi (sb u : Bool) (d a b : Opd) :
    exec (.bfi sb u d a b) s = execBfi sb u d a b s := rfl
@[simp] theorem exec_perm (sb u : Bool) (d a b : Opd) :
    exec (.perm sb u d a b) s = execPerm sb u d a b s := rfl
@[simp] theorem exec_sel (sb : Bool) (m : BitVec 3) (d a b : Opd) :
    exec (.sel sb m d a b) s = execSel sb m d a b s := rfl
@[simp] theorem exec_cmp (sb u : Bool) (c : BitVec 3) (y : BitVec 2) (d a b : Opd) :
    exec (.cmp sb u c y d a b) s = execCmp sb u c y d a b s := rfl
@[simp] theorem exec_fclass (sb u : Bool) (t : BitVec 3) (d a : Opd) :
    exec (.fclass sb u t d a) s = execFclass sb u t d a s := rfl
@[simp] theorem exec_fsgn (sb u : Bool) (o : BitVec 2) (t : BitVec 3) (d a b : Opd) :
    exec (.fsgn sb u o t d a b) s = execFsgn sb u o t d a b s := rfl
@[simp] theorem exec_sfu (sb h : Bool) (f : BitVec 3) (d a : Opd) :
    exec (.sfu sb h f d a) s = execSfu sb h f d a s := rfl
@[simp] theorem exec_dot (sb : Bool) (f : BitVec 5) (d a b : Opd) :
    exec (.dot sb f d a b) s = execDot sb f d a b s := rfl
@[simp] theorem exec_mov (sb u : Bool) (d a : Opd) :
    exec (.mov sb u d a) s = execMov sb u d a s := rfl
@[simp] theorem exec_bcast (sb : Bool) (d : Opd) (g : BitVec 5) :
    exec (.bcast sb d g) s = execBcast sb d g s := rfl
@[simp] theorem exec_movi (sb u : Bool) (d : Opd) (i : BitVec 17) :
    exec (.movi sb u d i) s = execMovi sb u d i s := rfl
@[simp] theorem exec_movh (sb u : Bool) (d : Opd) (i : BitVec 17) :
    exec (.movh sb u d i) s = execMovh sb u d i s := rfl
@[simp] theorem exec_addi (sb u : Bool) (d a : Opd) (i : BitVec 11) :
    exec (.addi sb u d a i) s = execAddi sb u d a i s := rfl
@[simp] theorem exec_lea (sb u : Bool) (h : BitVec 3) (d a b : Opd) :
    exec (.lea sb u h d a b) s = execLea sb u h d a b s := rfl
@[simp] theorem exec_cvt (sb u : Bool) (n : BitVec 3) (d a : Opd) (t y : BitVec 4) :
    exec (.cvt sb u n d a t y) s = execCvt sb u n d a t y s := rfl
@[simp] theorem exec_qscl (sb : Bool) (e : BitVec 4) (d a : Opd) :
    exec (.qscl sb e d a) s = execQscl sb e d a s := rfl
@[simp] theorem exec_qenc (sb : Bool) (e : BitVec 4) (d a b : Opd) :
    exec (.qenc sb e d a b) s = execQenc sb e d a b s := rfl
@[simp] theorem exec_qdec (sb : Bool) (e : BitVec 4) (d a b : Opd) :
    exec (.qdec sb e d a b) s = execQdec sb e d a b s := rfl
@[simp] theorem exec_ald (sb : Bool) (l : BitVec 2) (a : Opd) :
    exec (.ald sb l a) s = execAld sb l a s := rfl
@[simp] theorem exec_rget (sb : Bool) (l : BitVec 2) (d a b : Opd) :
    exec (.rget sb l d a b) s = execRget sb l d a b s := rfl
@[simp] theorem exec_rset (sb : Bool) (l : BitVec 2) (d a b : Opd) :
    exec (.rset sb l d a b) s = execRset sb l d a b s := rfl
@[simp] theorem exec_runpk (sb : Bool) (l : BitVec 2) (d a b : Opd) :
    exec (.runpk sb l d a b) s = execRunpk sb l d a b s := rfl
@[simp] theorem exec_rpack (sb : Bool) (l : BitVec 2) (d a b : Opd) :
    exec (.rpack sb l d a b) s = execRpack sb l d a b s := rfl
@[simp] theorem exec_rdot (sb q : Bool) (y x : BitVec 2) (d a b : Opd) :
    exec (.rdot sb q y x d a b) s = execRdot sb q y x d a b s := rfl
@[simp] theorem exec_rsum (sb : Bool) (l : BitVec 2) (d a b : Opd) :
    exec (.rsum sb l d a b) s = execRsum sb l d a b s := rfl
@[simp] theorem exec_rchk (sb : Bool) (l : BitVec 2) (d a : Opd) :
    exec (.rchk sb l d a) s = execRchk sb l d a s := rfl
@[simp] theorem exec_rmap (sb : Bool) (l : BitVec 2) (d a : Opd) (k : BitVec 2) :
    exec (.rmap sb l d a k) s = execRmap sb l d a k s := rfl
@[simp] theorem exec_rcnt (sb : Bool) (l : BitVec 2) (d a b : Opd) :
    exec (.rcnt sb l d a b) s = execRcnt sb l d a b s := rfl
@[simp] theorem exec_symld (sb : Bool) (l o c : BitVec 2) (d : Opd) (b x : BitVec 5) :
    exec (.symld sb l o c d b x) s = execSymld sb l o c d b x s := rfl
@[simp] theorem exec_symst (sb : Bool) (l o c : BitVec 2) (d : Opd) (b x : BitVec 5) :
    exec (.symst sb l o c d b x) s = execSymst sb l o c d b x s := rfl
@[simp] theorem exec_shfl (sb : Bool) (f : BitVec 5) (d a b : Opd) :
    exec (.shfl sb f d a b) s = execShfl sb f d a b s := rfl
@[simp] theorem exec_bfly (sb : Bool) (w : BitVec 2) (k : BitVec 3) (d a : Opd) :
    exec (.bfly sb w k d a) s = execBfly sb w k d a s := rfl
@[simp] theorem exec_vote (sb : Bool) (f : BitVec 5) (d a : Opd) :
    exec (.vote sb f d a) s = execVote sb f d a s := rfl
@[simp] theorem exec_redg (sb : Bool) (o : BitVec 3) (d a : Opd) :
    exec (.redg sb o d a) s = execRedg sb o d a s := rfl
@[simp] theorem exec_scang (sb e : Bool) (o : BitVec 3) (d a : Opd) :
    exec (.scang sb e o d a) s = execScang sb e o d a s := rfl
@[simp] theorem exec_lane (sb : Bool) (d : BitVec 5) (a : Opd) (b : BitVec 5) :
    exec (.lane sb d a b) s = execLane sb d a b s := rfl
@[simp] theorem exec_lmap (sb : Bool) (f : BitVec 5) (d a b : Opd) :
    exec (.lmap sb f d a b) s = execLmap sb f d a b s := rfl
@[simp] theorem exec_br (sb : Bool) (k : BitVec 3) (a : BitVec 5) (o : BitVec 15) :
    exec (.br sb k a o) s = execBr sb k a o s := rfl
@[simp] theorem exec_brd (sb : Bool) (t m : BitVec 3) (o : BitVec 15) :
    exec (.brd sb t m o) s = execBrd sb t m o s := rfl
@[simp] theorem exec_jmp (sb : Bool) (a : Opd) :
    exec (.jmp sb a) s = execJmp sb a s := rfl
@[simp] theorem exec_jmpd (sb : Bool) (t : BitVec 3) (a : Opd) (b : BitVec 5) :
    exec (.jmpd sb t a b) s = execJmpd sb t a b s := rfl
@[simp] theorem exec_call (sb : Bool) (d a : Opd) :
    exec (.call sb d a) s = execCall sb d a s := rfl
@[simp] theorem exec_loop (sb : Bool) (d a : Opd) :
    exec (.loop sb d a) s = execLoop sb d a s := rfl
@[simp] theorem exec_ctlYield (sb : Bool) :
    exec (.ctlYield sb) s = execCtlYield sb s := rfl
@[simp] theorem exec_ctlExit (sb : Bool) :
    exec (.ctlExit sb) s = execCtlExit sb s := rfl
@[simp] theorem exec_ctlJoinp (sb : Bool) :
    exec (.ctlJoinp sb) s = execCtlJoinp sb s := rfl
@[simp] theorem exec_ctlTrap (sb : Bool) (a : Opd) :
    exec (.ctlTrap sb a) s = execCtlTrap sb a s := rfl
@[simp] theorem exec_ctlBkpt (sb : Bool) :
    exec (.ctlBkpt sb) s = execCtlBkpt sb s := rfl
@[simp] theorem exec_ld (sb u : Bool) (z : BitVec 3) (o c : BitVec 2) (d : Opd) (b x : BitVec 5) :
    exec (.ld sb u z o c d b x) s = execLd sb u z o c d b x s := rfl
@[simp] theorem exec_st (sb u : Bool) (z : BitVec 3) (o c : BitVec 2) (d : Opd) (b x : BitVec 5) :
    exec (.st sb u z o c d b x) s = execSt sb u z o c d b x s := rfl
@[simp] theorem exec_atom (sb u : Bool) (p : BitVec 3) (o c : BitVec 2) (d : Opd) (b x : BitVec 5) :
    exec (.atom sb u p o c d b x) s = execAtom sb u p o c d b x s := rfl
@[simp] theorem exec_atom64 (sb u : Bool) (p : BitVec 3) (o c : BitVec 2) (d : Opd) (b x : BitVec 5) :
    exec (.atom64 sb u p o c d b x) s = execAtom64 sb u p o c d b x s := rfl
@[simp] theorem exec_atomf (sb u : Bool) (p : BitVec 3) (o c : BitVec 2) (d : Opd) (b x : BitVec 5) :
    exec (.atomf sb u p o c d b x) s = execAtomf sb u p o c d b x s := rfl
@[simp] theorem exec_lr (sb u : Bool) (o c : BitVec 2) (d : Opd) (b x : BitVec 5) :
    exec (.lr sb u o c d b x) s = execLr sb u o c d b x s := rfl
@[simp] theorem exec_sc (sb u : Bool) (m : BitVec 3) (o c : BitVec 2) (d : Opd) (b x : BitVec 5) :
    exec (.sc sb u m o c d b x) s = execSc sb u m o c d b x s := rfl
@[simp] theorem exec_fence (sb : Bool) (o c : BitVec 2) :
    exec (.fence sb o c) s = execFence sb o c s := rfl
@[simp] theorem exec_pref (sb u : Bool) (c : BitVec 2) (b x : BitVec 5) :
    exec (.pref sb u c b x) s = execPref sb u c b x s := rfl
@[simp] theorem exec_ldc (sb u : Bool) (z : BitVec 3) (o c : BitVec 2) (d : Opd) (b x : BitVec 5) :
    exec (.ldc sb u z o c d b x) s = execLdc sb u z o c d b x s := rfl
@[simp] theorem exec_stc (sb u : Bool) (z : BitVec 3) (o c : BitVec 2) (d : Opd) (b x : BitVec 5) :
    exec (.stc sb u z o c d b x) s = execStc sb u z o c d b x s := rfl
@[simp] theorem exec_cntw (sb : Bool) (f : BitVec 4) :
    exec (.cntw sb f) s = execCntw sb f s := rfl
@[simp] theorem exec_bari (sb : Bool) (d a b : Opd) :
    exec (.bari sb d a b) s = execBari sb d a b s := rfl
@[simp] theorem exec_bara (sb : Bool) (d a : Opd) :
    exec (.bara sb d a) s = execBara sb d a s := rfl
@[simp] theorem exec_barw (sb : Bool) (d a b : Opd) :
    exec (.barw sb d a b) s = execBarw sb d a b s := rfl
@[simp] theorem exec_bars (sb : Bool) (d a : Opd) :
    exec (.bars sb d a) s = execBars sb d a s := rfl
@[simp] theorem exec_barq (sb : Bool) (d a : Opd) :
    exec (.barq sb d a) s = execBarq sb d a s := rfl
@[simp] theorem exec_sigr (sb : Bool) (a b : Opd) :
    exec (.sigr sb a b) s = execSigr sb a b s := rfl
@[simp] theorem exec_sigw (sb : Bool) (d : Opd) :
    exec (.sigw sb d) s = execSigw sb d s := rfl
@[simp] theorem exec_spawn (sb : Bool) (a b : BitVec 5) :
    exec (.spawn sb a b) s = execSpawn sb a b s := rfl
@[simp] theorem exec_joinc (sb : Bool) (d a b : BitVec 5) :
    exec (.joinc sb d a b) s = execJoinc sb d a b s := rfl
@[simp] theorem exec_cdec (sb : Bool) (d a : BitVec 5) :
    exec (.cdec sb d a) s = execCdec sb d a s := rfl
@[simp] theorem exec_cr (sb : Bool) (d : Opd) (r : BitVec 3) :
    exec (.cr sb d r) s = execCr sb d r s := rfl
@[simp] theorem exec_crW (sb : Bool) (a : Opd) (r : BitVec 3) :
    exec (.crW sb a r) s = execCrW sb a r s := rfl
@[simp] theorem exec_tdef (sb : Bool) (d : BitVec 6) (a : BitVec 5) :
    exec (.tdef sb d a) s = execTdef sb d a s := rfl
@[simp] theorem exec_tsetEmpty (sb : Bool) (d : BitVec 6) :
    exec (.tsetEmpty sb d) s = execTsetEmpty sb d s := rfl
@[simp] theorem exec_tsetReady (sb : Bool) (d : BitVec 6) :
    exec (.tsetReady sb d) s = execTsetReady sb d s := rfl
@[simp] theorem exec_tld (sb t : Bool) (d : BitVec 6) (a b : BitVec 5) :
    exec (.tld sb t d a b) s = execTld sb t d a b s := rfl
@[simp] theorem exec_tst (sb : Bool) (d : BitVec 6) (a b : BitVec 5) :
    exec (.tst sb d a b) s = execTst sb d a b s := rfl
@[simp] theorem exec_mmq (sb : Bool) (l : BitVec 2) (f : BitVec 3) (d : BitVec 6) (a b : BitVec 5) :
    exec (.mmq sb l f d a b) s = execMmq sb l f d a b s := rfl
@[simp] theorem exec_mmt (sb : Bool) (d : BitVec 6) (a : BitVec 5) :
    exec (.mmt sb d a) s = execMmt sb d a s := rfl
@[simp] theorem exec_mms (sb : Bool) (d : BitVec 6) (a : BitVec 5) :
    exec (.mms sb d a) s = execMms sb d a s := rfl
@[simp] theorem exec_mnorm (sb : Bool) (d : BitVec 6) (a : BitVec 5) :
    exec (.mnorm sb d a) s = execMnorm sb d a s := rfl
@[simp] theorem exec_aliasTab (sb : Bool) (d : BitVec 6) (a : BitVec 5) :
    exec (.aliasTab sb d a) s = execAliasTab sb d a s := rfl
@[simp] theorem exec_accz (sb : Bool) (d : BitVec 6) :
    exec (.accz sb d) s = execAccz sb d s := rfl
@[simp] theorem exec_accr (sb : Bool) (d : BitVec 5) (a : BitVec 6) (b : BitVec 2) :
    exec (.accr sb d a b) s = execAccr sb d a b s := rfl
@[simp] theorem exec_drain (sb : Bool) (r : BitVec 3) (d : BitVec 6) (a b : BitVec 5) :
    exec (.drain sb r d a b) s = execDrain sb r d a b s := rfl
@[simp] theorem exec_txp (sb : Bool) (d a : BitVec 6) :
    exec (.txp sb d a) s = execTxp sb d a s := rfl
@[simp] theorem exec_varr (sb : Bool) (d : BitVec 5) (a : BitVec 6) :
    exec (.varr sb d a) s = execVarr sb d a s := rfl
@[simp] theorem exec_tq (sb : Bool) (d : BitVec 6) (q : BitVec 3) :
    exec (.tq sb d q) s = execTq sb d q s := rfl
@[simp] theorem exec_itnew (sb : Bool) (f : BitVec 5) (d : BitVec 2) (a : BitVec 5) :
    exec (.itnew sb f d a) s = execItnew sb f d a s := rfl
@[simp] theorem exec_itadd (sb : Bool) (f : BitVec 5) (d : BitVec 2) (a : BitVec 5) (b : BitVec 2) :
    exec (.itadd sb f d a b) s = execItadd sb f d a b s := rfl
@[simp] theorem exec_next (sb f : Bool) (c : BitVec 3) (a : BitVec 2) (m : BitVec 3) :
    exec (.next sb f c a m) s = execNext sb f c a m s := rfl
@[simp] theorem exec_enough (sb : Bool) (d : BitVec 2) :
    exec (.enough sb d) s = execEnough sb d s := rfl
@[simp] theorem exec_itsave (sb : Bool) (d : BitVec 5) (a : BitVec 2) (b : BitVec 5) :
    exec (.itsave sb d a b) s = execItsave sb d a b s := rfl
@[simp] theorem exec_itload (sb : Bool) (d : BitVec 2) (a : BitVec 5) :
    exec (.itload sb d a) s = execItload sb d a s := rfl
@[simp] theorem exec_itq (sb : Bool) (d : BitVec 5) (a : BitVec 2) :
    exec (.itq sb d a) s = execItq sb d a s := rfl
@[simp] theorem exec_cpy (sb : Bool) (k q : BitVec 3) (g : BitVec 5) :
    exec (.cpy sb k q g) s = execCpy sb k q g s := rfl
@[simp] theorem exec_qfence (sb : Bool) (m : BitVec 8) :
    exec (.qfence sb m) s = execQfence sb m s := rfl
@[simp] theorem exec_qwait (sb : Bool) (d a b : Opd) :
    exec (.qwait sb d a b) s = execQwait sb d a b s := rfl
@[simp] theorem exec_coll (sb : Bool) (k q : BitVec 3) (g : BitVec 5) :
    exec (.coll sb k q g) s = execColl sb k q g s := rfl
@[simp] theorem exec_snapFreeze (sb : Bool) (d a b : BitVec 5) :
    exec (.snapFreeze sb d a b) s = execSnapFreeze sb d a b s := rfl
@[simp] theorem exec_snapQuery (sb : Bool) (d : BitVec 5) :
    exec (.snapQuery sb d) s = execSnapQuery sb d s := rfl
@[simp] theorem exec_snapRelease (sb : Bool) (d : BitVec 5) :
    exec (.snapRelease sb d) s = execSnapRelease sb d s := rfl
@[simp] theorem exec_sysCsrr (sb : Bool) (d : BitVec 5) (r : BitVec 4) :
    exec (.sysCsrr sb d r) s = execSysCsrr sb d r s := rfl
@[simp] theorem exec_sysCsrw (sb : Bool) (a : BitVec 5) (r : BitVec 4) :
    exec (.sysCsrw sb a r) s = execSysCsrw sb a r s := rfl
@[simp] theorem exec_sysEret (sb : Bool) :
    exec (.sysEret sb) s = execSysEret sb s := rfl
@[simp] theorem exec_sysTlbinv (sb : Bool) (a b : BitVec 5) :
    exec (.sysTlbinv sb a b) s = execSysTlbinv sb a b s := rfl
@[simp] theorem exec_sysXtinv (sb : Bool) (a b : BitVec 5) :
    exec (.sysXtinv sb a b) s = execSysXtinv sb a b s := rfl
@[simp] theorem exec_sysFrame (sb : Bool) (a b : BitVec 5) :
    exec (.sysFrame sb a b) s = execSysFrame sb a b s := rfl
@[simp] theorem exec_sysHaltg (sb : Bool) (d a : BitVec 5) :
    exec (.sysHaltg sb d a) s = execSysHaltg sb d a s := rfl
@[simp] theorem exec_sysDictld (sb : Bool) (a : BitVec 5) :
    exec (.sysDictld sb a) s = execSysDictld sb a s := rfl
@[simp] theorem exec_trapEntry (a : AgentId) :
    exec (.trapEntry a) s = execTrapEntry a s := rfl
@[simp] theorem exec_preempt (a : AgentId) :
    exec (.preempt a) s = execPreempt a s := rfl
@[simp] theorem exec_park (a : AgentId) :
    exec (.park a) s = execPark a s := rfl
@[simp] theorem exec_faultRequest (ctx va kind : Nat) (from_ : FaultFrom) :
    exec (.faultRequest ctx va kind from_) s = execFaultRequest ctx va kind from_ s := rfl
@[simp] theorem exec_faultReplyResolved (ctx gran : Nat) (leaf : Word64) :
    exec (.faultReplyResolved ctx gran leaf) s = execFaultReplyResolved ctx gran leaf s := rfl
@[simp] theorem exec_faultReplyRefused (ctx gran : Nat) :
    exec (.faultReplyRefused ctx gran) s = execFaultReplyRefused ctx gran s := rfl
@[simp] theorem exec_faultNak (w : Asker) (ctx va : Nat) :
    exec (.faultNak w ctx va) s = execFaultNak w ctx va s := rfl
@[simp] theorem exec_forwardedAccess (src tag ctx va n : Nat) (h : Rights) (code x c r : Nat) :
    exec (.forwardedAccess src tag ctx va n h code x c r) s = execForwardedAccess src tag ctx va n h code x c r s := rfl
@[simp] theorem exec_retired (ctx gran : Nat) :
    exec (.retired ctx gran) s = execRetired ctx gran s := rfl
@[simp] theorem exec_remoteAccessTimeout (w : Asker) :
    exec (.remoteAccessTimeout w) s = execRemoteAccessTimeout w s := rfl
@[simp] theorem exec_extentRetranslate (core lctx vpn : Nat) :
    exec (.extentRetranslate core lctx vpn) s = execExtentRetranslate core lctx vpn s := rfl
@[simp] theorem exec_accessReply (a : AgentId) (tag : Nat) (ans : Answer) :
    exec (.accessReply a tag ans) s = execAccessReply a tag ans s := rfl
@[simp] theorem exec_storeAck (a : AgentId) (lctx tcb tag n : Nat) (ok : Bool) :
    exec (.storeAck a lctx tcb tag n ok) s = execStoreAck a lctx tcb tag n ok s := rfl
@[simp] theorem exec_recordPop (cluster : Nat) :
    exec (.recordPop cluster) s = execRecordPop cluster s := rfl
@[simp] theorem exec_wheySpawn (cluster : Nat) :
    exec (.wheySpawn cluster) s = execWheySpawn cluster s := rfl
@[simp] theorem exec_idle (cluster bin : Nat) :
    exec (.idle cluster bin) s = execIdle cluster bin s := rfl
@[simp] theorem exec_flush (cluster : Nat) :
    exec (.flush cluster) s = execFlush cluster s := rfl
@[simp] theorem exec_dispatching (tcb : Nat) :
    exec (.dispatching tcb) s = execDispatching tcb s := rfl
@[simp] theorem exec_dispatchComplete (tcb : Nat) :
    exec (.dispatchComplete tcb) s = execDispatchComplete tcb s := rfl
@[simp] theorem exec_launchRecordQueue (tcb : Nat) :
    exec (.launchRecordQueue tcb) s = execLaunchRecordQueue tcb s := rfl
@[simp] theorem exec_taskRetirement (tcb : Nat) :
    exec (.taskRetirement tcb) s = execTaskRetirement tcb s := rfl
@[simp] theorem exec_rcbFold  :
    exec (.rcbFold) s = execRcbFold s := rfl
@[simp] theorem exec_queueEntryActivate (core q : Nat) :
    exec (.queueEntryActivate core q) s = execQueueEntryActivate core q s := rfl
@[simp] theorem exec_engineElement (core q : Nat) :
    exec (.engineElement core q) s = execEngineElement core q s := rfl
@[simp] theorem exec_completionWrite (core q : Nat) :
    exec (.completionWrite core q) s = execCompletionWrite core q s := rfl
@[simp] theorem exec_engineTimeout (core q : Nat) :
    exec (.engineTimeout core q) s = execEngineTimeout core q s := rfl
@[simp] theorem exec_tileRowArrival (core tile : Nat) :
    exec (.tileRowArrival core tile) s = execTileRowArrival core tile s := rfl
@[simp] theorem exec_tileDrainDone (core tag : Nat) :
    exec (.tileDrainDone core tag) s = execTileDrainDone core tag s := rfl
@[simp] theorem exec_iteratorPrefetch (core slot : Nat) :
    exec (.iteratorPrefetch core slot) s = execIteratorPrefetch core slot s := rfl
@[simp] theorem exec_signalReceive (w : SigFrom) (msg : BitVec 256) :
    exec (.signalReceive w msg) s = execSignalReceive w msg s := rfl
@[simp] theorem exec_collDataFlit (f : Flit) :
    exec (.collDataFlit f) s = execCollDataFlit f s := rfl
@[simp] theorem exec_holdFlit (core q : Nat) :
    exec (.holdFlit core q) s = execHoldFlit core q s := rfl
@[simp] theorem exec_hopTimeout (core q pos : Nat) :
    exec (.hopTimeout core q pos) s = execHopTimeout core q pos s := rfl
@[simp] theorem exec_abortFlit (key : CollKey) (src orig suspect : Nat) :
    exec (.abortFlit key src orig suspect) s = execAbortFlit key src orig suspect s := rfl
@[simp] theorem exec_abortFlitExpiry (key : CollKey) :
    exec (.abortFlitExpiry key) s = execAbortFlitExpiry key s := rfl
@[simp] theorem exec_shadowCopy (ctx gran : Nat) :
    exec (.shadowCopy ctx gran) s = execShadowCopy ctx gran s := rfl
@[simp] theorem exec_drainStart  :
    exec (.drainStart) s = execDrainStart s := rfl
@[simp] theorem exec_granuleAck (tag : Nat) :
    exec (.granuleAck tag) s = execGranuleAck tag s := rfl
@[simp] theorem exec_enable (port : Nat) :
    exec (.enable port) s = execEnable port s := rfl
@[simp] theorem exec_use (port : Nat) :
    exec (.use port) s = execUse port s := rfl
@[simp] theorem exec_portDrain (port : Nat) :
    exec (.portDrain port) s = execPortDrain port s := rfl
@[simp] theorem exec_disable (port : Nat) :
    exec (.disable port) s = execDisable port s := rfl
@[simp] theorem exec_linkup (port lanes : Nat) :
    exec (.linkup port lanes) s = execLinkup port lanes s := rfl
@[simp] theorem exec_trainingTimeout (port : Nat) :
    exec (.trainingTimeout port) s = execTrainingTimeout port s := rfl
@[simp] theorem exec_joined (port : Nat) (ok : Bool) :
    exec (.joined port ok) s = execJoined port ok s := rfl
@[simp] theorem exec_negotiationRetry (port : Nat) (ok : Bool) :
    exec (.negotiationRetry port ok) s = execNegotiationRetry port ok s := rfl
@[simp] theorem exec_degraded (port retries : Nat) :
    exec (.degraded port retries) s = execDegraded port retries s := rfl
@[simp] theorem exec_degradedRecovery (port retries : Nat) :
    exec (.degradedRecovery port retries) s = execDegradedRecovery port retries s := rfl
@[simp] theorem exec_portDrainDone (port : Nat) :
    exec (.portDrainDone port) s = execPortDrainDone port s := rfl
@[simp] theorem exec_linkLoss (port : Nat) :
    exec (.linkLoss port) s = execLinkLoss port s := rfl
@[simp] theorem exec_inboundRdma (src tag ctx addr n code x c r : Nat) (held : Bool) :
    exec (.inboundRdma src tag ctx addr n code x c r held) s = execInboundRdma src tag ctx addr n code x c r held s := rfl
@[simp] theorem exec_attestationRequest (req : Option (Nat × BitVec 256)) :
    exec (.attestationRequest req) s = execAttestationRequest req s := rfl
@[simp] theorem exec_go (x : Word64) :
    exec (.go x) s = execGo x s := rfl
@[simp] theorem exec_resetSend (src : Nat) :
    exec (.resetSend src) s = execResetSend src s := rfl
@[simp] theorem exec_load (ctx : Nat) (desc : BitVec 50) :
    exec (.load ctx desc) s = execLoad ctx desc s := rfl
@[simp] theorem exec_activate (ctx : Nat) :
    exec (.activate ctx) s = execActivate ctx s := rfl
@[simp] theorem exec_quiesce (ctx : Nat) :
    exec (.quiesce ctx) s = execQuiesce ctx s := rfl
@[simp] theorem exec_quiesceComplete (ctx : Nat) :
    exec (.quiesceComplete ctx) s = execQuiesceComplete ctx s := rfl
@[simp] theorem exec_kill (ctx : Nat) :
    exec (.kill ctx) s = execKill ctx s := rfl
@[simp] theorem exec_done (ctx : Nat) :
    exec (.done ctx) s = execDone ctx s := rfl
@[simp] theorem exec_free (ctx : Nat) :
    exec (.free ctx) s = execFree ctx s := rfl
@[simp] theorem exec_ctxctlClearErr (ctx : Nat) :
    exec (.ctxctlClearErr ctx) s = execCtxctlClearErr ctx s := rfl
@[simp] theorem exec_cmdbaseWrite (x : Word64) :
    exec (.cmdbaseWrite x) s = execCmdbaseWrite x s := rfl
@[simp] theorem exec_cqbaseWrite (cluster : Nat) (x : Word64) :
    exec (.cqbaseWrite cluster x) s = execCqbaseWrite cluster x s := rfl
@[simp] theorem exec_snpoolWrite (x : Word64) :
    exec (.snpoolWrite x) s = execSnpoolWrite x s := rfl
@[simp] theorem exec_varianceRecordWrite (core acc : Nat) (x : BitVec 256) :
    exec (.varianceRecordWrite core acc x) s = execVarianceRecordWrite core acc x s := rfl
@[simp] theorem exec_feataccWrite (x : Word64) :
    exec (.feataccWrite x) s = execFeataccWrite x s := rfl
@[simp] theorem exec_minverWrite (x : Word) :
    exec (.minverWrite x) s = execMinverWrite x s := rfl
@[simp] theorem exec_confirm (slice : Nat) :
    exec (.confirm slice) s = execConfirm slice s := rfl
@[simp] theorem exec_hotremove (slice : Nat) :
    exec (.hotremove slice) s = execHotremove slice s := rfl
@[simp] theorem exec_evheadWrite (x : BitVec 16) :
    exec (.evheadWrite x) s = execEvheadWrite x s := rfl
@[simp] theorem exec_ovfClear  :
    exec (.ovfClear) s = execOvfClear s := rfl
@[simp] theorem exec_bootcmdReset  :
    exec (.bootcmdReset) s = execBootcmdReset s := rfl
@[simp] theorem exec_registerWrite (off n x : Nat) :
    exec (.registerWrite off n x) s = execRegisterWrite off n x s := rfl
@[simp] theorem exec_refresh (stack chan : Nat) :
    exec (.refresh stack chan) s = execRefresh stack chan s := rfl
@[simp] theorem exec_selfRefresh (stack pc idle : Nat) :
    exec (.selfRefresh stack pc idle) s = execSelfRefresh stack pc idle s := rfl
@[simp] theorem exec_parityAlert (stack chan : Nat) (again : Bool) :
    exec (.parityAlert stack chan again) s = execParityAlert stack chan again s := rfl
@[simp] theorem exec_chanout (stack chan : Nat) :
    exec (.chanout stack chan) s = execChanout stack chan s := rfl
@[simp] theorem exec_scrub (addr : Nat) (fixed lost : BitVec 8) (failing : Bool) :
    exec (.scrub addr fixed lost failing) s = execScrub addr fixed lost failing s := rfl
@[simp] theorem exec_strike (core : Nat) :
    exec (.strike core) s = execStrike core s := rfl
@[simp] theorem exec_resultCommit (core : Nat) :
    exec (.resultCommit core) s = execResultCommit core s := rfl
@[simp] theorem exec_replay (beat : Nat × Nat) (bad late : Bool) :
    exec (.replay beat bad late) s = execReplay beat bad late s := rfl
@[simp] theorem exec_powerLimit (still : Bool) :
    exec (.powerLimit still) s = execPowerLimit still s := rfl
@[simp] theorem exec_powerGood  :
    exec (.powerGood) s = execPowerGood s := rfl
@[simp] theorem exec_fwload  :
    exec (.fwload) s = execFwload s := rfl
@[simp] theorem exec_hbminit (ok : Bool) :
    exec (.hbminit ok) s = execHbminit ok s := rfl
@[simp] theorem exec_links  :
    exec (.links) s = execLinks s := rfl
@[simp] theorem exec_fatal (cause : Nat) :
    exec (.fatal cause) s = execFatal cause s := rfl
@[simp] theorem exec_linkLevelRetry (port : Nat) :
    exec (.linkLevelRetry port) s = execLinkLevelRetry port s := rfl
@[simp] theorem exec_matUpdateWritten (a : AgentId) (tag : Nat) :
    exec (.matUpdateWritten a tag) s = execMatUpdateWritten a tag s := rfl
@[simp] theorem exec_remoteAtomf (src : Nat) (tag : Ticket) (addr op x rnd : Nat) :
    exec (.remoteAtomf src tag addr op x rnd) s = execRemoteAtomf src tag addr op x rnd s := rfl
@[simp] theorem exec_channelRetrainDone (stack chan : Nat) :
    exec (.channelRetrainDone stack chan) s = execChannelRetrainDone stack chan s := rfl

end Sys2Proof.Machine
end

