-- ==== Sys2Proof/Laws/Maps.lean ====
section
/-! SUPPORT. Laws of the sparse tables: what a read finds after a write, and that writes keep the
canonical form. -/

namespace Sys2Proof.Machine

variable {α : Type}

theorem mapFind_mapPut_same (k : Nat) (a : α) (m : SMap α) : mapFind k (mapPut k a m) = some a := by
  induction m with
  | nil => simp [mapPut, mapFind]
  | cons p t ih =>
    obtain ⟨j, b⟩ := p
    unfold mapPut
    split
    · simp [mapFind]
    · split
      · simp [mapFind]
      · simp [mapFind, *]

theorem mapFind_mapPut_ne {k l : Nat} (h : l ≠ k) (a : α) (m : SMap α) :
    mapFind l (mapPut k a m) = mapFind l m := by
  induction m with
  | nil => simp [mapPut, mapFind, h.symm]
  | cons p t ih =>
    obtain ⟨j, b⟩ := p
    unfold mapPut
    split
    · simp [mapFind, h.symm]
    · split
      · rename_i h1 h2
        subst h2
        simp [mapFind, h.symm]
      · simp only [mapFind]
        split <;> simp_all

theorem mapFind_mapErase_same (k : Nat) (m : SMap α) : mapFind k (mapErase k m) = none := by
  induction m with
  | nil => rfl
  | cons p t ih =>
    obtain ⟨j, b⟩ := p
    simp only [mapErase, List.filter_cons] at ih ⊢
    split
    · rename_i h
      have : j ≠ k := by simpa using h
      simpa [mapFind, this] using ih
    · exact ih

theorem mapFind_mapErase_ne {k l : Nat} (h : l ≠ k) (m : SMap α) :
    mapFind l (mapErase k m) = mapFind l m := by
  induction m with
  | nil => rfl
  | cons p t ih =>
    obtain ⟨j, b⟩ := p
    simp only [mapErase, List.filter_cons] at ih ⊢
    split
    · simp only [mapFind, ih]
    · rename_i h1
      have : j = k := by simpa using h1
      subst this
      rw [ih]
      simp [mapFind, h.symm]

theorem mapGet_mapPut_same (d : α) (k : Nat) (a : α) (m : SMap α) : mapGet d (mapPut k a m) k = a := by
  simp [mapGet, mapFind_mapPut_same]

theorem mapGet_mapPut_ne (d : α) {k l : Nat} (h : l ≠ k) (a : α) (m : SMap α) :
    mapGet d (mapPut k a m) l = mapGet d m l := by
  simp [mapGet, mapFind_mapPut_ne h]

theorem mapGet_mapSet_same [DecidableEq α] (d : α) (m : SMap α) (k : Nat) (a : α) :
    mapGet d (mapSet d m k a) k = a := by
  unfold mapSet
  split
  · rename_i h
    simp [mapGet, mapFind_mapErase_same, h]
  · exact mapGet_mapPut_same d k a m

theorem mapGet_mapSet_ne [DecidableEq α] (d : α) (m : SMap α) {k l : Nat} (h : l ≠ k) (a : α) :
    mapGet d (mapSet d m k a) l = mapGet d m l := by
  unfold mapSet
  split
  · simp [mapGet, mapFind_mapErase_ne h]
  · exact mapGet_mapPut_ne d h a m

/-- Both cases of a read after a write. -/
theorem mapGet_mapSet [DecidableEq α] (d : α) (m : SMap α) (k l : Nat) (a : α) :
    mapGet d (mapSet d m k a) l = if l = k then a else mapGet d m l := by
  split
  · rename_i h
    subst h
    exact mapGet_mapSet_same d m l a
  · rename_i h
    exact mapGet_mapSet_ne d m h a

/-! ## The canonical form -/

theorem mem_mapPut {k : Nat} {a : α} {m : SMap α} {p : Nat × α} (h : p ∈ mapPut k a m) :
    p = (k, a) ∨ p ∈ m := by
  induction m with
  | nil => simpa [mapPut] using h
  | cons q t ih =>
    obtain ⟨j, b⟩ := q
    unfold mapPut at h
    split at h
    · simpa using h
    · split at h
      · rcases List.mem_cons.1 h with h | h
        · exact .inl h
        · exact .inr (List.mem_cons_of_mem _ h)
      · rcases List.mem_cons.1 h with h | h
        · exact .inr (by simp [h])
        · rcases ih h with h | h
          · exact .inl h
          · exact .inr (List.mem_cons_of_mem _ h)

theorem mapWf_cons [DecidableEq α] {d : α} {j : Nat} {a : α} {t : SMap α} :
    mapWf d ((j, a) :: t) = true ↔ a ≠ d ∧ (∀ p ∈ t, j < p.1) ∧ mapWf d t = true := by
  simp [mapWf, and_assoc]

theorem mapWf_mapPut [DecidableEq α] {d : α} {k : Nat} {a : α} {m : SMap α} (ha : a ≠ d)
    (h : mapWf d m = true) : mapWf d (mapPut k a m) = true := by
  induction m with
  | nil => simp [mapPut, mapWf, ha]
  | cons p t ih =>
    obtain ⟨j, b⟩ := p
    obtain ⟨hb, hj, ht⟩ := mapWf_cons.1 h
    unfold mapPut
    split
    · rename_i hk
      refine mapWf_cons.2 ⟨ha, fun p hp => ?_, h⟩
      rcases List.mem_cons.1 hp with hp | hp
      · subst hp; exact hk
      · exact lt_trans hk (hj p hp)
    · split
      · rename_i h1 h2
        subst h2
        exact mapWf_cons.2 ⟨ha, hj, ht⟩
      · rename_i h1 h2
        refine mapWf_cons.2 ⟨hb, fun p hp => ?_, ih ht⟩
        rcases mem_mapPut hp with hp | hp
        · subst hp; show j < k; omega
        · exact hj p hp

theorem mapWf_mapErase [DecidableEq α] {d : α} {k : Nat} {m : SMap α} (h : mapWf d m = true) :
    mapWf d (mapErase k m) = true := by
  induction m with
  | nil => rfl
  | cons p t ih =>
    obtain ⟨j, b⟩ := p
    obtain ⟨hb, hj, ht⟩ := mapWf_cons.1 h
    simp only [mapErase, List.filter_cons] at ih ⊢
    split
    · exact mapWf_cons.2 ⟨hb, fun p hp => hj p (List.mem_filter.1 hp).1, ih ht⟩
    · exact ih ht

theorem mapWf_mapSet [DecidableEq α] {d : α} {k : Nat} {a : α} {m : SMap α} (h : mapWf d m = true) :
    mapWf d (mapSet d m k a) = true := by
  unfold mapSet
  split
  · exact mapWf_mapErase h
  · rename_i ha
    exact mapWf_mapPut ha h

end Sys2Proof.Machine
end

