-- ==== Sys2Proof/Laws/State.lean ====
section
/-! SUPPORT. What each update of the state, of a core and of an agent leaves alone, one lemma for each field,
and what an agent, a core and a register read as after an update. -/

namespace Sys2Proof.Machine

/-! ## State.setCore -/

@[simp] theorem State.setCore_mem (s : State) (c : Nat) (k : Core) :
    (s.setCore c k).mem = s.mem := rfl
@[simp] theorem State.setCore_poison (s : State) (c : Nat) (k : Core) :
    (s.setCore c k).poison = s.poison := rfl
@[simp] theorem State.setCore_uo (s : State) (c : Nat) (k : Core) :
    (s.setCore c k).uo = s.uo := rfl
@[simp] theorem State.setCore_stale (s : State) (c : Nat) (k : Core) :
    (s.setCore c k).stale = s.stale := rfl
@[simp] theorem State.setCore_clock (s : State) (c : Nat) (k : Core) :
    (s.setCore c k).clock = s.clock := rfl
@[simp] theorem State.setCore_owed (s : State) (c : Nat) (k : Core) :
    (s.setCore c k).owed = s.owed := rfl
@[simp] theorem State.setCore_resvs (s : State) (c : Nat) (k : Core) :
    (s.setCore c k).resvs = s.resvs := rfl
@[simp] theorem State.setCore_arrays (s : State) (c : Nat) (k : Core) :
    (s.setCore c k).arrays = s.arrays := rfl
@[simp] theorem State.setCore_clusters (s : State) (c : Nat) (k : Core) :
    (s.setCore c k).clusters = s.clusters := rfl
@[simp] theorem State.setCore_tasks (s : State) (c : Nat) (k : Core) :
    (s.setCore c k).tasks = s.tasks := rfl
@[simp] theorem State.setCore_ctxs (s : State) (c : Nat) (k : Core) :
    (s.setCore c k).ctxs = s.ctxs := rfl
@[simp] theorem State.setCore_faults (s : State) (c : Nat) (k : Core) :
    (s.setCore c k).faults = s.faults := rfl
@[simp] theorem State.setCore_homeReqs (s : State) (c : Nat) (k : Core) :
    (s.setCore c k).homeReqs = s.homeReqs := rfl
@[simp] theorem State.setCore_withdrawn (s : State) (c : Nat) (k : Core) :
    (s.setCore c k).withdrawn = s.withdrawn := rfl
@[simp] theorem State.setCore_cmdbase (s : State) (c : Nat) (k : Core) :
    (s.setCore c k).cmdbase = s.cmdbase := rfl
@[simp] theorem State.setCore_csteps (s : State) (c : Nat) (k : Core) :
    (s.setCore c k).csteps = s.csteps := rfl
@[simp] theorem State.setCore_tcbVa (s : State) (c : Nat) (k : Core) :
    (s.setCore c k).tcbVa = s.tcbVa := rfl
@[simp] theorem State.setCore_slices (s : State) (c : Nat) (k : Core) :
    (s.setCore c k).slices = s.slices := rfl
@[simp] theorem State.setCore_outstk (s : State) (c : Nat) (k : Core) :
    (s.setCore c k).outstk = s.outstk := rfl
@[simp] theorem State.setCore_snaps (s : State) (c : Nat) (k : Core) :
    (s.setCore c k).snaps = s.snaps := rfl
@[simp] theorem State.setCore_frozen (s : State) (c : Nat) (k : Core) :
    (s.setCore c k).frozen = s.frozen := rfl
@[simp] theorem State.setCore_snapEnds (s : State) (c : Nat) (k : Core) :
    (s.setCore c k).snapEnds = s.snapEnds := rfl
@[simp] theorem State.setCore_snpool (s : State) (c : Nat) (k : Core) :
    (s.setCore c k).snpool = s.snpool := rfl
@[simp] theorem State.setCore_snshare (s : State) (c : Nat) (k : Core) :
    (s.setCore c k).snshare = s.snshare := rfl
@[simp] theorem State.setCore_flits (s : State) (c : Nat) (k : Core) :
    (s.setCore c k).flits = s.flits := rfl
@[simp] theorem State.setCore_aborts (s : State) (c : Nat) (k : Core) :
    (s.setCore c k).aborts = s.aborts := rfl
@[simp] theorem State.setCore_doneKeys (s : State) (c : Nat) (k : Core) :
    (s.setCore c k).doneKeys = s.doneKeys := rfl
@[simp] theorem State.setCore_ports (s : State) (c : Nat) (k : Core) :
    (s.setCore c k).ports = s.ports := rfl
@[simp] theorem State.setCore_hbm (s : State) (c : Nat) (k : Core) :
    (s.setCore c k).hbm = s.hbm := rfl
@[simp] theorem State.setCore_boot (s : State) (c : Nat) (k : Core) :
    (s.setCore c k).boot = s.boot := rfl
@[simp] theorem State.setCore_slot (s : State) (c : Nat) (k : Core) :
    (s.setCore c k).slot = s.slot := rfl
@[simp] theorem State.setCore_cause (s : State) (c : Nat) (k : Core) :
    (s.setCore c k).cause = s.cause := rfl
@[simp] theorem State.setCore_loaded (s : State) (c : Nat) (k : Core) :
    (s.setCore c k).loaded = s.loaded := rfl
@[simp] theorem State.setCore_flashA (s : State) (c : Nat) (k : Core) :
    (s.setCore c k).flashA = s.flashA := rfl
@[simp] theorem State.setCore_flashB (s : State) (c : Nat) (k : Core) :
    (s.setCore c k).flashB = s.flashB := rfl
@[simp] theorem State.setCore_prov (s : State) (c : Nat) (k : Core) :
    (s.setCore c k).prov = s.prov := rfl
@[simp] theorem State.setCore_minver (s : State) (c : Nat) (k : Core) :
    (s.setCore c k).minver = s.minver := rfl
@[simp] theorem State.setCore_events (s : State) (c : Nat) (k : Core) :
    (s.setCore c k).events = s.events := rfl
@[simp] theorem State.setCore_evhead (s : State) (c : Nat) (k : Core) :
    (s.setCore c k).evhead = s.evhead := rfl
@[simp] theorem State.setCore_evtail (s : State) (c : Nat) (k : Core) :
    (s.setCore c k).evtail = s.evtail := rfl
@[simp] theorem State.setCore_evovf (s : State) (c : Nat) (k : Core) :
    (s.setCore c k).evovf = s.evovf := rfl
@[simp] theorem State.setCore_evseq (s : State) (c : Nat) (k : Core) :
    (s.setCore c k).evseq = s.evseq := rfl
@[simp] theorem State.setCore_evendpt (s : State) (c : Nat) (k : Core) :
    (s.setCore c k).evendpt = s.evendpt := rfl
@[simp] theorem State.setCore_attnonce (s : State) (c : Nat) (k : Core) :
    (s.setCore c k).attnonce = s.attnonce := rfl
@[simp] theorem State.setCore_attendpt (s : State) (c : Nat) (k : Core) :
    (s.setCore c k).attendpt = s.attendpt := rfl
@[simp] theorem State.setCore_attreqs (s : State) (c : Nat) (k : Core) :
    (s.setCore c k).attreqs = s.attreqs := rfl
@[simp] theorem State.setCore_modmap (s : State) (c : Nat) (k : Core) :
    (s.setCore c k).modmap = s.modmap := rfl
@[simp] theorem State.setCore_endpts (s : State) (c : Nat) (k : Core) :
    (s.setCore c k).endpts = s.endpts := rfl
@[simp] theorem State.setCore_outbox (s : State) (c : Nat) (k : Core) :
    (s.setCore c k).outbox = s.outbox := rfl
@[simp] theorem State.setCore_agenda (s : State) (c : Nat) (k : Core) :
    (s.setCore c k).agenda = s.agenda := rfl
@[simp] theorem State.setCore_runq (s : State) (c : Nat) (k : Core) :
    (s.setCore c k).runq = s.runq := rfl
@[simp] theorem State.setCore_featacc (s : State) (c : Nat) (k : Core) :
    (s.setCore c k).featacc = s.featacc := rfl
@[simp] theorem State.setCore_ferr (s : State) (c : Nat) (k : Core) :
    (s.setCore c k).ferr = s.ferr := rfl
@[simp] theorem State.setCore_modid (s : State) (c : Nat) (k : Core) :
    (s.setCore c k).modid = s.modid := rfl
@[simp] theorem State.setCore_ntag (s : State) (c : Nat) (k : Core) :
    (s.setCore c k).ntag = s.ntag := rfl
@[simp] theorem State.setCore_freeCtr (s : State) (c : Nat) (k : Core) :
    (s.setCore c k).freeCtr = s.freeCtr := rfl

/-! ## State.setAgent -/

@[simp] theorem State.setAgent_mem (s : State) (id : AgentId) (a : Agent) :
    (s.setAgent id a).mem = s.mem := rfl
@[simp] theorem State.setAgent_poison (s : State) (id : AgentId) (a : Agent) :
    (s.setAgent id a).poison = s.poison := rfl
@[simp] theorem State.setAgent_uo (s : State) (id : AgentId) (a : Agent) :
    (s.setAgent id a).uo = s.uo := rfl
@[simp] theorem State.setAgent_stale (s : State) (id : AgentId) (a : Agent) :
    (s.setAgent id a).stale = s.stale := rfl
@[simp] theorem State.setAgent_clock (s : State) (id : AgentId) (a : Agent) :
    (s.setAgent id a).clock = s.clock := rfl
@[simp] theorem State.setAgent_owed (s : State) (id : AgentId) (a : Agent) :
    (s.setAgent id a).owed = s.owed := rfl
@[simp] theorem State.setAgent_resvs (s : State) (id : AgentId) (a : Agent) :
    (s.setAgent id a).resvs = s.resvs := rfl
@[simp] theorem State.setAgent_arrays (s : State) (id : AgentId) (a : Agent) :
    (s.setAgent id a).arrays = s.arrays := rfl
@[simp] theorem State.setAgent_clusters (s : State) (id : AgentId) (a : Agent) :
    (s.setAgent id a).clusters = s.clusters := rfl
@[simp] theorem State.setAgent_tasks (s : State) (id : AgentId) (a : Agent) :
    (s.setAgent id a).tasks = s.tasks := rfl
@[simp] theorem State.setAgent_ctxs (s : State) (id : AgentId) (a : Agent) :
    (s.setAgent id a).ctxs = s.ctxs := rfl
@[simp] theorem State.setAgent_faults (s : State) (id : AgentId) (a : Agent) :
    (s.setAgent id a).faults = s.faults := rfl
@[simp] theorem State.setAgent_homeReqs (s : State) (id : AgentId) (a : Agent) :
    (s.setAgent id a).homeReqs = s.homeReqs := rfl
@[simp] theorem State.setAgent_withdrawn (s : State) (id : AgentId) (a : Agent) :
    (s.setAgent id a).withdrawn = s.withdrawn := rfl
@[simp] theorem State.setAgent_cmdbase (s : State) (id : AgentId) (a : Agent) :
    (s.setAgent id a).cmdbase = s.cmdbase := rfl
@[simp] theorem State.setAgent_csteps (s : State) (id : AgentId) (a : Agent) :
    (s.setAgent id a).csteps = s.csteps := rfl
@[simp] theorem State.setAgent_tcbVa (s : State) (id : AgentId) (a : Agent) :
    (s.setAgent id a).tcbVa = s.tcbVa := rfl
@[simp] theorem State.setAgent_slices (s : State) (id : AgentId) (a : Agent) :
    (s.setAgent id a).slices = s.slices := rfl
@[simp] theorem State.setAgent_outstk (s : State) (id : AgentId) (a : Agent) :
    (s.setAgent id a).outstk = s.outstk := rfl
@[simp] theorem State.setAgent_snaps (s : State) (id : AgentId) (a : Agent) :
    (s.setAgent id a).snaps = s.snaps := rfl
@[simp] theorem State.setAgent_frozen (s : State) (id : AgentId) (a : Agent) :
    (s.setAgent id a).frozen = s.frozen := rfl
@[simp] theorem State.setAgent_snapEnds (s : State) (id : AgentId) (a : Agent) :
    (s.setAgent id a).snapEnds = s.snapEnds := rfl
@[simp] theorem State.setAgent_snpool (s : State) (id : AgentId) (a : Agent) :
    (s.setAgent id a).snpool = s.snpool := rfl
@[simp] theorem State.setAgent_snshare (s : State) (id : AgentId) (a : Agent) :
    (s.setAgent id a).snshare = s.snshare := rfl
@[simp] theorem State.setAgent_flits (s : State) (id : AgentId) (a : Agent) :
    (s.setAgent id a).flits = s.flits := rfl
@[simp] theorem State.setAgent_aborts (s : State) (id : AgentId) (a : Agent) :
    (s.setAgent id a).aborts = s.aborts := rfl
@[simp] theorem State.setAgent_doneKeys (s : State) (id : AgentId) (a : Agent) :
    (s.setAgent id a).doneKeys = s.doneKeys := rfl
@[simp] theorem State.setAgent_ports (s : State) (id : AgentId) (a : Agent) :
    (s.setAgent id a).ports = s.ports := rfl
@[simp] theorem State.setAgent_hbm (s : State) (id : AgentId) (a : Agent) :
    (s.setAgent id a).hbm = s.hbm := rfl
@[simp] theorem State.setAgent_boot (s : State) (id : AgentId) (a : Agent) :
    (s.setAgent id a).boot = s.boot := rfl
@[simp] theorem State.setAgent_slot (s : State) (id : AgentId) (a : Agent) :
    (s.setAgent id a).slot = s.slot := rfl
@[simp] theorem State.setAgent_cause (s : State) (id : AgentId) (a : Agent) :
    (s.setAgent id a).cause = s.cause := rfl
@[simp] theorem State.setAgent_loaded (s : State) (id : AgentId) (a : Agent) :
    (s.setAgent id a).loaded = s.loaded := rfl
@[simp] theorem State.setAgent_flashA (s : State) (id : AgentId) (a : Agent) :
    (s.setAgent id a).flashA = s.flashA := rfl
@[simp] theorem State.setAgent_flashB (s : State) (id : AgentId) (a : Agent) :
    (s.setAgent id a).flashB = s.flashB := rfl
@[simp] theorem State.setAgent_prov (s : State) (id : AgentId) (a : Agent) :
    (s.setAgent id a).prov = s.prov := rfl
@[simp] theorem State.setAgent_minver (s : State) (id : AgentId) (a : Agent) :
    (s.setAgent id a).minver = s.minver := rfl
@[simp] theorem State.setAgent_events (s : State) (id : AgentId) (a : Agent) :
    (s.setAgent id a).events = s.events := rfl
@[simp] theorem State.setAgent_evhead (s : State) (id : AgentId) (a : Agent) :
    (s.setAgent id a).evhead = s.evhead := rfl
@[simp] theorem State.setAgent_evtail (s : State) (id : AgentId) (a : Agent) :
    (s.setAgent id a).evtail = s.evtail := rfl
@[simp] theorem State.setAgent_evovf (s : State) (id : AgentId) (a : Agent) :
    (s.setAgent id a).evovf = s.evovf := rfl
@[simp] theorem State.setAgent_evseq (s : State) (id : AgentId) (a : Agent) :
    (s.setAgent id a).evseq = s.evseq := rfl
@[simp] theorem State.setAgent_evendpt (s : State) (id : AgentId) (a : Agent) :
    (s.setAgent id a).evendpt = s.evendpt := rfl
@[simp] theorem State.setAgent_attnonce (s : State) (id : AgentId) (a : Agent) :
    (s.setAgent id a).attnonce = s.attnonce := rfl
@[simp] theorem State.setAgent_attendpt (s : State) (id : AgentId) (a : Agent) :
    (s.setAgent id a).attendpt = s.attendpt := rfl
@[simp] theorem State.setAgent_attreqs (s : State) (id : AgentId) (a : Agent) :
    (s.setAgent id a).attreqs = s.attreqs := rfl
@[simp] theorem State.setAgent_modmap (s : State) (id : AgentId) (a : Agent) :
    (s.setAgent id a).modmap = s.modmap := rfl
@[simp] theorem State.setAgent_endpts (s : State) (id : AgentId) (a : Agent) :
    (s.setAgent id a).endpts = s.endpts := rfl
@[simp] theorem State.setAgent_outbox (s : State) (id : AgentId) (a : Agent) :
    (s.setAgent id a).outbox = s.outbox := rfl
@[simp] theorem State.setAgent_agenda (s : State) (id : AgentId) (a : Agent) :
    (s.setAgent id a).agenda = s.agenda := rfl
@[simp] theorem State.setAgent_runq (s : State) (id : AgentId) (a : Agent) :
    (s.setAgent id a).runq = s.runq := rfl
@[simp] theorem State.setAgent_featacc (s : State) (id : AgentId) (a : Agent) :
    (s.setAgent id a).featacc = s.featacc := rfl
@[simp] theorem State.setAgent_ferr (s : State) (id : AgentId) (a : Agent) :
    (s.setAgent id a).ferr = s.ferr := rfl
@[simp] theorem State.setAgent_modid (s : State) (id : AgentId) (a : Agent) :
    (s.setAgent id a).modid = s.modid := rfl
@[simp] theorem State.setAgent_ntag (s : State) (id : AgentId) (a : Agent) :
    (s.setAgent id a).ntag = s.ntag := rfl
@[simp] theorem State.setAgent_freeCtr (s : State) (id : AgentId) (a : Agent) :
    (s.setAgent id a).freeCtr = s.freeCtr := rfl

/-! ## State.setPlaced -/

@[simp] theorem State.setPlaced_mem (s : State) (c l : Nat) (p : Placed) :
    (s.setPlaced c l p).mem = s.mem := rfl
@[simp] theorem State.setPlaced_poison (s : State) (c l : Nat) (p : Placed) :
    (s.setPlaced c l p).poison = s.poison := rfl
@[simp] theorem State.setPlaced_uo (s : State) (c l : Nat) (p : Placed) :
    (s.setPlaced c l p).uo = s.uo := rfl
@[simp] theorem State.setPlaced_stale (s : State) (c l : Nat) (p : Placed) :
    (s.setPlaced c l p).stale = s.stale := rfl
@[simp] theorem State.setPlaced_clock (s : State) (c l : Nat) (p : Placed) :
    (s.setPlaced c l p).clock = s.clock := rfl
@[simp] theorem State.setPlaced_owed (s : State) (c l : Nat) (p : Placed) :
    (s.setPlaced c l p).owed = s.owed := rfl
@[simp] theorem State.setPlaced_resvs (s : State) (c l : Nat) (p : Placed) :
    (s.setPlaced c l p).resvs = s.resvs := rfl
@[simp] theorem State.setPlaced_arrays (s : State) (c l : Nat) (p : Placed) :
    (s.setPlaced c l p).arrays = s.arrays := rfl
@[simp] theorem State.setPlaced_clusters (s : State) (c l : Nat) (p : Placed) :
    (s.setPlaced c l p).clusters = s.clusters := rfl
@[simp] theorem State.setPlaced_tasks (s : State) (c l : Nat) (p : Placed) :
    (s.setPlaced c l p).tasks = s.tasks := rfl
@[simp] theorem State.setPlaced_ctxs (s : State) (c l : Nat) (p : Placed) :
    (s.setPlaced c l p).ctxs = s.ctxs := rfl
@[simp] theorem State.setPlaced_faults (s : State) (c l : Nat) (p : Placed) :
    (s.setPlaced c l p).faults = s.faults := rfl
@[simp] theorem State.setPlaced_homeReqs (s : State) (c l : Nat) (p : Placed) :
    (s.setPlaced c l p).homeReqs = s.homeReqs := rfl
@[simp] theorem State.setPlaced_withdrawn (s : State) (c l : Nat) (p : Placed) :
    (s.setPlaced c l p).withdrawn = s.withdrawn := rfl
@[simp] theorem State.setPlaced_cmdbase (s : State) (c l : Nat) (p : Placed) :
    (s.setPlaced c l p).cmdbase = s.cmdbase := rfl
@[simp] theorem State.setPlaced_csteps (s : State) (c l : Nat) (p : Placed) :
    (s.setPlaced c l p).csteps = s.csteps := rfl
@[simp] theorem State.setPlaced_tcbVa (s : State) (c l : Nat) (p : Placed) :
    (s.setPlaced c l p).tcbVa = s.tcbVa := rfl
@[simp] theorem State.setPlaced_slices (s : State) (c l : Nat) (p : Placed) :
    (s.setPlaced c l p).slices = s.slices := rfl
@[simp] theorem State.setPlaced_outstk (s : State) (c l : Nat) (p : Placed) :
    (s.setPlaced c l p).outstk = s.outstk := rfl
@[simp] theorem State.setPlaced_snaps (s : State) (c l : Nat) (p : Placed) :
    (s.setPlaced c l p).snaps = s.snaps := rfl
@[simp] theorem State.setPlaced_frozen (s : State) (c l : Nat) (p : Placed) :
    (s.setPlaced c l p).frozen = s.frozen := rfl
@[simp] theorem State.setPlaced_snapEnds (s : State) (c l : Nat) (p : Placed) :
    (s.setPlaced c l p).snapEnds = s.snapEnds := rfl
@[simp] theorem State.setPlaced_snpool (s : State) (c l : Nat) (p : Placed) :
    (s.setPlaced c l p).snpool = s.snpool := rfl
@[simp] theorem State.setPlaced_snshare (s : State) (c l : Nat) (p : Placed) :
    (s.setPlaced c l p).snshare = s.snshare := rfl
@[simp] theorem State.setPlaced_flits (s : State) (c l : Nat) (p : Placed) :
    (s.setPlaced c l p).flits = s.flits := rfl
@[simp] theorem State.setPlaced_aborts (s : State) (c l : Nat) (p : Placed) :
    (s.setPlaced c l p).aborts = s.aborts := rfl
@[simp] theorem State.setPlaced_doneKeys (s : State) (c l : Nat) (p : Placed) :
    (s.setPlaced c l p).doneKeys = s.doneKeys := rfl
@[simp] theorem State.setPlaced_ports (s : State) (c l : Nat) (p : Placed) :
    (s.setPlaced c l p).ports = s.ports := rfl
@[simp] theorem State.setPlaced_hbm (s : State) (c l : Nat) (p : Placed) :
    (s.setPlaced c l p).hbm = s.hbm := rfl
@[simp] theorem State.setPlaced_boot (s : State) (c l : Nat) (p : Placed) :
    (s.setPlaced c l p).boot = s.boot := rfl
@[simp] theorem State.setPlaced_slot (s : State) (c l : Nat) (p : Placed) :
    (s.setPlaced c l p).slot = s.slot := rfl
@[simp] theorem State.setPlaced_cause (s : State) (c l : Nat) (p : Placed) :
    (s.setPlaced c l p).cause = s.cause := rfl
@[simp] theorem State.setPlaced_loaded (s : State) (c l : Nat) (p : Placed) :
    (s.setPlaced c l p).loaded = s.loaded := rfl
@[simp] theorem State.setPlaced_flashA (s : State) (c l : Nat) (p : Placed) :
    (s.setPlaced c l p).flashA = s.flashA := rfl
@[simp] theorem State.setPlaced_flashB (s : State) (c l : Nat) (p : Placed) :
    (s.setPlaced c l p).flashB = s.flashB := rfl
@[simp] theorem State.setPlaced_prov (s : State) (c l : Nat) (p : Placed) :
    (s.setPlaced c l p).prov = s.prov := rfl
@[simp] theorem State.setPlaced_minver (s : State) (c l : Nat) (p : Placed) :
    (s.setPlaced c l p).minver = s.minver := rfl
@[simp] theorem State.setPlaced_events (s : State) (c l : Nat) (p : Placed) :
    (s.setPlaced c l p).events = s.events := rfl
@[simp] theorem State.setPlaced_evhead (s : State) (c l : Nat) (p : Placed) :
    (s.setPlaced c l p).evhead = s.evhead := rfl
@[simp] theorem State.setPlaced_evtail (s : State) (c l : Nat) (p : Placed) :
    (s.setPlaced c l p).evtail = s.evtail := rfl
@[simp] theorem State.setPlaced_evovf (s : State) (c l : Nat) (p : Placed) :
    (s.setPlaced c l p).evovf = s.evovf := rfl
@[simp] theorem State.setPlaced_evseq (s : State) (c l : Nat) (p : Placed) :
    (s.setPlaced c l p).evseq = s.evseq := rfl
@[simp] theorem State.setPlaced_evendpt (s : State) (c l : Nat) (p : Placed) :
    (s.setPlaced c l p).evendpt = s.evendpt := rfl
@[simp] theorem State.setPlaced_attnonce (s : State) (c l : Nat) (p : Placed) :
    (s.setPlaced c l p).attnonce = s.attnonce := rfl
@[simp] theorem State.setPlaced_attendpt (s : State) (c l : Nat) (p : Placed) :
    (s.setPlaced c l p).attendpt = s.attendpt := rfl
@[simp] theorem State.setPlaced_attreqs (s : State) (c l : Nat) (p : Placed) :
    (s.setPlaced c l p).attreqs = s.attreqs := rfl
@[simp] theorem State.setPlaced_modmap (s : State) (c l : Nat) (p : Placed) :
    (s.setPlaced c l p).modmap = s.modmap := rfl
@[simp] theorem State.setPlaced_endpts (s : State) (c l : Nat) (p : Placed) :
    (s.setPlaced c l p).endpts = s.endpts := rfl
@[simp] theorem State.setPlaced_outbox (s : State) (c l : Nat) (p : Placed) :
    (s.setPlaced c l p).outbox = s.outbox := rfl
@[simp] theorem State.setPlaced_agenda (s : State) (c l : Nat) (p : Placed) :
    (s.setPlaced c l p).agenda = s.agenda := rfl
@[simp] theorem State.setPlaced_runq (s : State) (c l : Nat) (p : Placed) :
    (s.setPlaced c l p).runq = s.runq := rfl
@[simp] theorem State.setPlaced_featacc (s : State) (c l : Nat) (p : Placed) :
    (s.setPlaced c l p).featacc = s.featacc := rfl
@[simp] theorem State.setPlaced_ferr (s : State) (c l : Nat) (p : Placed) :
    (s.setPlaced c l p).ferr = s.ferr := rfl
@[simp] theorem State.setPlaced_modid (s : State) (c l : Nat) (p : Placed) :
    (s.setPlaced c l p).modid = s.modid := rfl
@[simp] theorem State.setPlaced_ntag (s : State) (c l : Nat) (p : Placed) :
    (s.setPlaced c l p).ntag = s.ntag := rfl
@[simp] theorem State.setPlaced_freeCtr (s : State) (c l : Nat) (p : Placed) :
    (s.setPlaced c l p).freeCtr = s.freeCtr := rfl

/-! ## State.setCluster -/

@[simp] theorem State.setCluster_mem (s : State) (c : Nat) (k : Cluster) :
    (s.setCluster c k).mem = s.mem := rfl
@[simp] theorem State.setCluster_poison (s : State) (c : Nat) (k : Cluster) :
    (s.setCluster c k).poison = s.poison := rfl
@[simp] theorem State.setCluster_uo (s : State) (c : Nat) (k : Cluster) :
    (s.setCluster c k).uo = s.uo := rfl
@[simp] theorem State.setCluster_stale (s : State) (c : Nat) (k : Cluster) :
    (s.setCluster c k).stale = s.stale := rfl
@[simp] theorem State.setCluster_clock (s : State) (c : Nat) (k : Cluster) :
    (s.setCluster c k).clock = s.clock := rfl
@[simp] theorem State.setCluster_owed (s : State) (c : Nat) (k : Cluster) :
    (s.setCluster c k).owed = s.owed := rfl
@[simp] theorem State.setCluster_resvs (s : State) (c : Nat) (k : Cluster) :
    (s.setCluster c k).resvs = s.resvs := rfl
@[simp] theorem State.setCluster_arrays (s : State) (c : Nat) (k : Cluster) :
    (s.setCluster c k).arrays = s.arrays := rfl
@[simp] theorem State.setCluster_cores (s : State) (c : Nat) (k : Cluster) :
    (s.setCluster c k).cores = s.cores := rfl
@[simp] theorem State.setCluster_tasks (s : State) (c : Nat) (k : Cluster) :
    (s.setCluster c k).tasks = s.tasks := rfl
@[simp] theorem State.setCluster_ctxs (s : State) (c : Nat) (k : Cluster) :
    (s.setCluster c k).ctxs = s.ctxs := rfl
@[simp] theorem State.setCluster_faults (s : State) (c : Nat) (k : Cluster) :
    (s.setCluster c k).faults = s.faults := rfl
@[simp] theorem State.setCluster_homeReqs (s : State) (c : Nat) (k : Cluster) :
    (s.setCluster c k).homeReqs = s.homeReqs := rfl
@[simp] theorem State.setCluster_withdrawn (s : State) (c : Nat) (k : Cluster) :
    (s.setCluster c k).withdrawn = s.withdrawn := rfl
@[simp] theorem State.setCluster_cmdbase (s : State) (c : Nat) (k : Cluster) :
    (s.setCluster c k).cmdbase = s.cmdbase := rfl
@[simp] theorem State.setCluster_csteps (s : State) (c : Nat) (k : Cluster) :
    (s.setCluster c k).csteps = s.csteps := rfl
@[simp] theorem State.setCluster_tcbVa (s : State) (c : Nat) (k : Cluster) :
    (s.setCluster c k).tcbVa = s.tcbVa := rfl
@[simp] theorem State.setCluster_slices (s : State) (c : Nat) (k : Cluster) :
    (s.setCluster c k).slices = s.slices := rfl
@[simp] theorem State.setCluster_outstk (s : State) (c : Nat) (k : Cluster) :
    (s.setCluster c k).outstk = s.outstk := rfl
@[simp] theorem State.setCluster_snaps (s : State) (c : Nat) (k : Cluster) :
    (s.setCluster c k).snaps = s.snaps := rfl
@[simp] theorem State.setCluster_frozen (s : State) (c : Nat) (k : Cluster) :
    (s.setCluster c k).frozen = s.frozen := rfl
@[simp] theorem State.setCluster_snapEnds (s : State) (c : Nat) (k : Cluster) :
    (s.setCluster c k).snapEnds = s.snapEnds := rfl
@[simp] theorem State.setCluster_snpool (s : State) (c : Nat) (k : Cluster) :
    (s.setCluster c k).snpool = s.snpool := rfl
@[simp] theorem State.setCluster_snshare (s : State) (c : Nat) (k : Cluster) :
    (s.setCluster c k).snshare = s.snshare := rfl
@[simp] theorem State.setCluster_flits (s : State) (c : Nat) (k : Cluster) :
    (s.setCluster c k).flits = s.flits := rfl
@[simp] theorem State.setCluster_aborts (s : State) (c : Nat) (k : Cluster) :
    (s.setCluster c k).aborts = s.aborts := rfl
@[simp] theorem State.setCluster_doneKeys (s : State) (c : Nat) (k : Cluster) :
    (s.setCluster c k).doneKeys = s.doneKeys := rfl
@[simp] theorem State.setCluster_ports (s : State) (c : Nat) (k : Cluster) :
    (s.setCluster c k).ports = s.ports := rfl
@[simp] theorem State.setCluster_hbm (s : State) (c : Nat) (k : Cluster) :
    (s.setCluster c k).hbm = s.hbm := rfl
@[simp] theorem State.setCluster_boot (s : State) (c : Nat) (k : Cluster) :
    (s.setCluster c k).boot = s.boot := rfl
@[simp] theorem State.setCluster_slot (s : State) (c : Nat) (k : Cluster) :
    (s.setCluster c k).slot = s.slot := rfl
@[simp] theorem State.setCluster_cause (s : State) (c : Nat) (k : Cluster) :
    (s.setCluster c k).cause = s.cause := rfl
@[simp] theorem State.setCluster_loaded (s : State) (c : Nat) (k : Cluster) :
    (s.setCluster c k).loaded = s.loaded := rfl
@[simp] theorem State.setCluster_flashA (s : State) (c : Nat) (k : Cluster) :
    (s.setCluster c k).flashA = s.flashA := rfl
@[simp] theorem State.setCluster_flashB (s : State) (c : Nat) (k : Cluster) :
    (s.setCluster c k).flashB = s.flashB := rfl
@[simp] theorem State.setCluster_prov (s : State) (c : Nat) (k : Cluster) :
    (s.setCluster c k).prov = s.prov := rfl
@[simp] theorem State.setCluster_minver (s : State) (c : Nat) (k : Cluster) :
    (s.setCluster c k).minver = s.minver := rfl
@[simp] theorem State.setCluster_events (s : State) (c : Nat) (k : Cluster) :
    (s.setCluster c k).events = s.events := rfl
@[simp] theorem State.setCluster_evhead (s : State) (c : Nat) (k : Cluster) :
    (s.setCluster c k).evhead = s.evhead := rfl
@[simp] theorem State.setCluster_evtail (s : State) (c : Nat) (k : Cluster) :
    (s.setCluster c k).evtail = s.evtail := rfl
@[simp] theorem State.setCluster_evovf (s : State) (c : Nat) (k : Cluster) :
    (s.setCluster c k).evovf = s.evovf := rfl
@[simp] theorem State.setCluster_evseq (s : State) (c : Nat) (k : Cluster) :
    (s.setCluster c k).evseq = s.evseq := rfl
@[simp] theorem State.setCluster_evendpt (s : State) (c : Nat) (k : Cluster) :
    (s.setCluster c k).evendpt = s.evendpt := rfl
@[simp] theorem State.setCluster_attnonce (s : State) (c : Nat) (k : Cluster) :
    (s.setCluster c k).attnonce = s.attnonce := rfl
@[simp] theorem State.setCluster_attendpt (s : State) (c : Nat) (k : Cluster) :
    (s.setCluster c k).attendpt = s.attendpt := rfl
@[simp] theorem State.setCluster_attreqs (s : State) (c : Nat) (k : Cluster) :
    (s.setCluster c k).attreqs = s.attreqs := rfl
@[simp] theorem State.setCluster_modmap (s : State) (c : Nat) (k : Cluster) :
    (s.setCluster c k).modmap = s.modmap := rfl
@[simp] theorem State.setCluster_endpts (s : State) (c : Nat) (k : Cluster) :
    (s.setCluster c k).endpts = s.endpts := rfl
@[simp] theorem State.setCluster_outbox (s : State) (c : Nat) (k : Cluster) :
    (s.setCluster c k).outbox = s.outbox := rfl
@[simp] theorem State.setCluster_agenda (s : State) (c : Nat) (k : Cluster) :
    (s.setCluster c k).agenda = s.agenda := rfl
@[simp] theorem State.setCluster_runq (s : State) (c : Nat) (k : Cluster) :
    (s.setCluster c k).runq = s.runq := rfl
@[simp] theorem State.setCluster_featacc (s : State) (c : Nat) (k : Cluster) :
    (s.setCluster c k).featacc = s.featacc := rfl
@[simp] theorem State.setCluster_ferr (s : State) (c : Nat) (k : Cluster) :
    (s.setCluster c k).ferr = s.ferr := rfl
@[simp] theorem State.setCluster_modid (s : State) (c : Nat) (k : Cluster) :
    (s.setCluster c k).modid = s.modid := rfl
@[simp] theorem State.setCluster_ntag (s : State) (c : Nat) (k : Cluster) :
    (s.setCluster c k).ntag = s.ntag := rfl
@[simp] theorem State.setCluster_freeCtr (s : State) (c : Nat) (k : Cluster) :
    (s.setCluster c k).freeCtr = s.freeCtr := rfl

/-! ## State.dropAgent -/

@[simp] theorem State.dropAgent_mem (s : State) (id : AgentId) :
    (s.dropAgent id).mem = s.mem := rfl
@[simp] theorem State.dropAgent_poison (s : State) (id : AgentId) :
    (s.dropAgent id).poison = s.poison := rfl
@[simp] theorem State.dropAgent_uo (s : State) (id : AgentId) :
    (s.dropAgent id).uo = s.uo := rfl
@[simp] theorem State.dropAgent_stale (s : State) (id : AgentId) :
    (s.dropAgent id).stale = s.stale := rfl
@[simp] theorem State.dropAgent_clock (s : State) (id : AgentId) :
    (s.dropAgent id).clock = s.clock := rfl
@[simp] theorem State.dropAgent_owed (s : State) (id : AgentId) :
    (s.dropAgent id).owed = s.owed := rfl
@[simp] theorem State.dropAgent_resvs (s : State) (id : AgentId) :
    (s.dropAgent id).resvs = s.resvs := rfl
@[simp] theorem State.dropAgent_clusters (s : State) (id : AgentId) :
    (s.dropAgent id).clusters = s.clusters := rfl
@[simp] theorem State.dropAgent_tasks (s : State) (id : AgentId) :
    (s.dropAgent id).tasks = s.tasks := rfl
@[simp] theorem State.dropAgent_ctxs (s : State) (id : AgentId) :
    (s.dropAgent id).ctxs = s.ctxs := rfl
@[simp] theorem State.dropAgent_faults (s : State) (id : AgentId) :
    (s.dropAgent id).faults = s.faults := rfl
@[simp] theorem State.dropAgent_homeReqs (s : State) (id : AgentId) :
    (s.dropAgent id).homeReqs = s.homeReqs := rfl
@[simp] theorem State.dropAgent_withdrawn (s : State) (id : AgentId) :
    (s.dropAgent id).withdrawn = s.withdrawn := rfl
@[simp] theorem State.dropAgent_cmdbase (s : State) (id : AgentId) :
    (s.dropAgent id).cmdbase = s.cmdbase := rfl
@[simp] theorem State.dropAgent_csteps (s : State) (id : AgentId) :
    (s.dropAgent id).csteps = s.csteps := rfl
@[simp] theorem State.dropAgent_tcbVa (s : State) (id : AgentId) :
    (s.dropAgent id).tcbVa = s.tcbVa := rfl
@[simp] theorem State.dropAgent_slices (s : State) (id : AgentId) :
    (s.dropAgent id).slices = s.slices := rfl
@[simp] theorem State.dropAgent_outstk (s : State) (id : AgentId) :
    (s.dropAgent id).outstk = s.outstk := rfl
@[simp] theorem State.dropAgent_snaps (s : State) (id : AgentId) :
    (s.dropAgent id).snaps = s.snaps := rfl
@[simp] theorem State.dropAgent_frozen (s : State) (id : AgentId) :
    (s.dropAgent id).frozen = s.frozen := rfl
@[simp] theorem State.dropAgent_snapEnds (s : State) (id : AgentId) :
    (s.dropAgent id).snapEnds = s.snapEnds := rfl
@[simp] theorem State.dropAgent_snpool (s : State) (id : AgentId) :
    (s.dropAgent id).snpool = s.snpool := rfl
@[simp] theorem State.dropAgent_snshare (s : State) (id : AgentId) :
    (s.dropAgent id).snshare = s.snshare := rfl
@[simp] theorem State.dropAgent_flits (s : State) (id : AgentId) :
    (s.dropAgent id).flits = s.flits := rfl
@[simp] theorem State.dropAgent_aborts (s : State) (id : AgentId) :
    (s.dropAgent id).aborts = s.aborts := rfl
@[simp] theorem State.dropAgent_doneKeys (s : State) (id : AgentId) :
    (s.dropAgent id).doneKeys = s.doneKeys := rfl
@[simp] theorem State.dropAgent_ports (s : State) (id : AgentId) :
    (s.dropAgent id).ports = s.ports := rfl
@[simp] theorem State.dropAgent_hbm (s : State) (id : AgentId) :
    (s.dropAgent id).hbm = s.hbm := rfl
@[simp] theorem State.dropAgent_boot (s : State) (id : AgentId) :
    (s.dropAgent id).boot = s.boot := rfl
@[simp] theorem State.dropAgent_slot (s : State) (id : AgentId) :
    (s.dropAgent id).slot = s.slot := rfl
@[simp] theorem State.dropAgent_cause (s : State) (id : AgentId) :
    (s.dropAgent id).cause = s.cause := rfl
@[simp] theorem State.dropAgent_loaded (s : State) (id : AgentId) :
    (s.dropAgent id).loaded = s.loaded := rfl
@[simp] theorem State.dropAgent_flashA (s : State) (id : AgentId) :
    (s.dropAgent id).flashA = s.flashA := rfl
@[simp] theorem State.dropAgent_flashB (s : State) (id : AgentId) :
    (s.dropAgent id).flashB = s.flashB := rfl
@[simp] theorem State.dropAgent_prov (s : State) (id : AgentId) :
    (s.dropAgent id).prov = s.prov := rfl
@[simp] theorem State.dropAgent_minver (s : State) (id : AgentId) :
    (s.dropAgent id).minver = s.minver := rfl
@[simp] theorem State.dropAgent_events (s : State) (id : AgentId) :
    (s.dropAgent id).events = s.events := rfl
@[simp] theorem State.dropAgent_evhead (s : State) (id : AgentId) :
    (s.dropAgent id).evhead = s.evhead := rfl
@[simp] theorem State.dropAgent_evtail (s : State) (id : AgentId) :
    (s.dropAgent id).evtail = s.evtail := rfl
@[simp] theorem State.dropAgent_evovf (s : State) (id : AgentId) :
    (s.dropAgent id).evovf = s.evovf := rfl
@[simp] theorem State.dropAgent_evseq (s : State) (id : AgentId) :
    (s.dropAgent id).evseq = s.evseq := rfl
@[simp] theorem State.dropAgent_evendpt (s : State) (id : AgentId) :
    (s.dropAgent id).evendpt = s.evendpt := rfl
@[simp] theorem State.dropAgent_attnonce (s : State) (id : AgentId) :
    (s.dropAgent id).attnonce = s.attnonce := rfl
@[simp] theorem State.dropAgent_attendpt (s : State) (id : AgentId) :
    (s.dropAgent id).attendpt = s.attendpt := rfl
@[simp] theorem State.dropAgent_attreqs (s : State) (id : AgentId) :
    (s.dropAgent id).attreqs = s.attreqs := rfl
@[simp] theorem State.dropAgent_modmap (s : State) (id : AgentId) :
    (s.dropAgent id).modmap = s.modmap := rfl
@[simp] theorem State.dropAgent_endpts (s : State) (id : AgentId) :
    (s.dropAgent id).endpts = s.endpts := rfl
@[simp] theorem State.dropAgent_outbox (s : State) (id : AgentId) :
    (s.dropAgent id).outbox = s.outbox := rfl
@[simp] theorem State.dropAgent_agenda (s : State) (id : AgentId) :
    (s.dropAgent id).agenda = s.agenda := rfl
@[simp] theorem State.dropAgent_featacc (s : State) (id : AgentId) :
    (s.dropAgent id).featacc = s.featacc := rfl
@[simp] theorem State.dropAgent_ferr (s : State) (id : AgentId) :
    (s.dropAgent id).ferr = s.ferr := rfl
@[simp] theorem State.dropAgent_modid (s : State) (id : AgentId) :
    (s.dropAgent id).modid = s.modid := rfl
@[simp] theorem State.dropAgent_ntag (s : State) (id : AgentId) :
    (s.dropAgent id).ntag = s.ntag := rfl
@[simp] theorem State.dropAgent_freeCtr (s : State) (id : AgentId) :
    (s.dropAgent id).freeCtr = s.freeCtr := rfl

/-! ## Agent.setV -/

@[simp] theorem Agent.setV_lead (a : Agent) (n : Nat) (r : VReg) :
    (a.setV n r).lead = a.lead := rfl
@[simp] theorem Agent.setV_ctx (a : Agent) (n : Nat) (r : VReg) :
    (a.setV n r).ctx = a.ctx := rfl
@[simp] theorem Agent.setV_tcb (a : Agent) (n : Nat) (r : VReg) :
    (a.setV n r).tcb = a.tcb := rfl
@[simp] theorem Agent.setV_lctx (a : Agent) (n : Nat) (r : VReg) :
    (a.setV n r).lctx = a.lctx := rfl
@[simp] theorem Agent.setV_origin (a : Agent) (n : Nat) (r : VReg) :
    (a.setV n r).origin = a.origin := rfl
@[simp] theorem Agent.setV_part (a : Agent) (n : Nat) (r : VReg) :
    (a.setV n r).part = a.part := rfl
@[simp] theorem Agent.setV_x (a : Agent) (n : Nat) (r : VReg) :
    (a.setV n r).x = a.x := rfl
@[simp] theorem Agent.setV_m (a : Agent) (n : Nat) (r : VReg) :
    (a.setV n r).m = a.m := rfl
@[simp] theorem Agent.setV_al (a : Agent) (n : Nat) (r : VReg) :
    (a.setV n r).al = a.al := rfl
@[simp] theorem Agent.setV_chans (a : Agent) (n : Nat) (r : VReg) :
    (a.setV n r).chans = a.chans := rfl
@[simp] theorem Agent.setV_its (a : Agent) (n : Nat) (r : VReg) :
    (a.setV n r).its = a.its := rfl
@[simp] theorem Agent.setV_cld (a : Agent) (n : Nat) (r : VReg) :
    (a.setV n r).cld = a.cld := rfl
@[simp] theorem Agent.setV_cst (a : Agent) (n : Nat) (r : VReg) :
    (a.setV n r).cst = a.cst := rfl
@[simp] theorem Agent.setV_cmat (a : Agent) (n : Nat) (r : VReg) :
    (a.setV n r).cmat = a.cmat := rfl
@[simp] theorem Agent.setV_cchn (a : Agent) (n : Nat) (r : VReg) :
    (a.setV n r).cchn = a.cchn := rfl
@[simp] theorem Agent.setV_gate (a : Agent) (n : Nat) (r : VReg) :
    (a.setV n r).gate = a.gate := rfl
@[simp] theorem Agent.setV_present (a : Agent) (n : Nat) (r : VReg) :
    (a.setV n r).present = a.present := rfl
@[simp] theorem Agent.setV_tids (a : Agent) (n : Nat) (r : VReg) :
    (a.setV n r).tids = a.tids := rfl
@[simp] theorem Agent.setV_paths (a : Agent) (n : Nat) (r : VReg) :
    (a.setV n r).paths = a.paths := rfl
@[simp] theorem Agent.setV_cur (a : Agent) (n : Nat) (r : VReg) :
    (a.setV n r).cur = a.cur := rfl
@[simp] theorem Agent.setV_joins (a : Agent) (n : Nat) (r : VReg) :
    (a.setV n r).joins = a.joins := rfl
@[simp] theorem Agent.setV_outst (a : Agent) (n : Nat) (r : VReg) :
    (a.setV n r).outst = a.outst := rfl
@[simp] theorem Agent.setV_clause (a : Agent) (n : Nat) (r : VReg) :
    (a.setV n r).clause = a.clause := rfl
@[simp] theorem Agent.setV_fetchChk (a : Agent) (n : Nat) (r : VReg) :
    (a.setV n r).fetchChk = a.fetchChk := rfl
@[simp] theorem Agent.setV_pfx (a : Agent) (n : Nat) (r : VReg) :
    (a.setV n r).pfx = a.pfx := rfl
@[simp] theorem Agent.setV_pairw (a : Agent) (n : Nat) (r : VReg) :
    (a.setV n r).pairw = a.pairw := rfl
@[simp] theorem Agent.setV_pend (a : Agent) (n : Nat) (r : VReg) :
    (a.setV n r).pend = a.pend := rfl
@[simp] theorem Agent.setV_preq (a : Agent) (n : Nat) (r : VReg) :
    (a.setV n r).preq = a.preq := rfl
@[simp] theorem Agent.setV_perf (a : Agent) (n : Nat) (r : VReg) :
    (a.setV n r).perf = a.perf := rfl
@[simp] theorem Agent.setV_got (a : Agent) (n : Nat) (r : VReg) :
    (a.setV n r).got = a.got := rfl
@[simp] theorem Agent.setV_gotFl (a : Agent) (n : Nat) (r : VReg) :
    (a.setV n r).gotFl = a.gotFl := rfl
@[simp] theorem Agent.setV_rem (a : Agent) (n : Nat) (r : VReg) :
    (a.setV n r).rem = a.rem := rfl
@[simp] theorem Agent.setV_far (a : Agent) (n : Nat) (r : VReg) :
    (a.setV n r).far = a.far := rfl
@[simp] theorem Agent.setV_late (a : Agent) (n : Nat) (r : VReg) :
    (a.setV n r).late = a.late := rfl
@[simp] theorem Agent.setV_now (a : Agent) (n : Nat) (r : VReg) :
    (a.setV n r).now = a.now := rfl
@[simp] theorem Agent.setV_sigs (a : Agent) (n : Nat) (r : VReg) :
    (a.setV n r).sigs = a.sigs := rfl
@[simp] theorem Agent.setV_told (a : Agent) (n : Nat) (r : VReg) :
    (a.setV n r).told = a.told := rfl
@[simp] theorem Agent.setV_bwait (a : Agent) (n : Nat) (r : VReg) :
    (a.setV n r).bwait = a.bwait := rfl
@[simp] theorem Agent.setV_cursor (a : Agent) (n : Nat) (r : VReg) :
    (a.setV n r).cursor = a.cursor := rfl
@[simp] theorem Agent.setV_otag (a : Agent) (n : Nat) (r : VReg) :
    (a.setV n r).otag = a.otag := rfl
@[simp] theorem Agent.setV_inHandler (a : Agent) (n : Nat) (r : VReg) :
    (a.setV n r).inHandler = a.inHandler := rfl
@[simp] theorem Agent.setV_tcause (a : Agent) (n : Nat) (r : VReg) :
    (a.setV n r).tcause = a.tcause := rfl
@[simp] theorem Agent.setV_tpc (a : Agent) (n : Nat) (r : VReg) :
    (a.setV n r).tpc = a.tpc := rfl
@[simp] theorem Agent.setV_tclause (a : Agent) (n : Nat) (r : VReg) :
    (a.setV n r).tclause = a.tclause := rfl
@[simp] theorem Agent.setV_tmask (a : Agent) (n : Nat) (r : VReg) :
    (a.setV n r).tmask = a.tmask := rfl
@[simp] theorem Agent.setV_tinfo (a : Agent) (n : Nat) (r : VReg) :
    (a.setV n r).tinfo = a.tinfo := rfl
@[simp] theorem Agent.setV_frame (a : Agent) (n : Nat) (r : VReg) :
    (a.setV n r).frame = a.frame := rfl
@[simp] theorem Agent.setV_own (a : Agent) (n : Nat) (r : VReg) :
    (a.setV n r).own = a.own := rfl
@[simp] theorem Agent.setV_tsave0 (a : Agent) (n : Nat) (r : VReg) :
    (a.setV n r).tsave0 = a.tsave0 := rfl
@[simp] theorem Agent.setV_tsave1 (a : Agent) (n : Nat) (r : VReg) :
    (a.setV n r).tsave1 = a.tsave1 := rfl
@[simp] theorem Agent.setV_ppriv (a : Agent) (n : Nat) (r : VReg) :
    (a.setV n r).ppriv = a.ppriv := rfl
@[simp] theorem Agent.setV_priv (a : Agent) (n : Nat) (r : VReg) :
    (a.setV n r).priv = a.priv := rfl
@[simp] theorem Agent.setV_feat (a : Agent) (n : Nat) (r : VReg) :
    (a.setV n r).feat = a.feat := rfl
@[simp] theorem Agent.setV_born (a : Agent) (n : Nat) (r : VReg) :
    (a.setV n r).born = a.born := rfl
@[simp] theorem Agent.setV_seen (a : Agent) (n : Nat) (r : VReg) :
    (a.setV n r).seen = a.seen := rfl
@[simp] theorem Agent.setV_fences (a : Agent) (n : Nat) (r : VReg) :
    (a.setV n r).fences = a.fences := rfl
@[simp] theorem Agent.setV_floors (a : Agent) (n : Nat) (r : VReg) :
    (a.setV n r).floors = a.floors := rfl

/-! ## Agent.setAl -/

@[simp] theorem Agent.setAl_lead (a : Agent) (n : Nat) (x : Word64) :
    (a.setAl n x).lead = a.lead := rfl
@[simp] theorem Agent.setAl_ctx (a : Agent) (n : Nat) (x : Word64) :
    (a.setAl n x).ctx = a.ctx := rfl
@[simp] theorem Agent.setAl_tcb (a : Agent) (n : Nat) (x : Word64) :
    (a.setAl n x).tcb = a.tcb := rfl
@[simp] theorem Agent.setAl_lctx (a : Agent) (n : Nat) (x : Word64) :
    (a.setAl n x).lctx = a.lctx := rfl
@[simp] theorem Agent.setAl_origin (a : Agent) (n : Nat) (x : Word64) :
    (a.setAl n x).origin = a.origin := rfl
@[simp] theorem Agent.setAl_part (a : Agent) (n : Nat) (x : Word64) :
    (a.setAl n x).part = a.part := rfl
@[simp] theorem Agent.setAl_x (a : Agent) (n : Nat) (x : Word64) :
    (a.setAl n x).x = a.x := rfl
@[simp] theorem Agent.setAl_v (a : Agent) (n : Nat) (x : Word64) :
    (a.setAl n x).v = a.v := rfl
@[simp] theorem Agent.setAl_m (a : Agent) (n : Nat) (x : Word64) :
    (a.setAl n x).m = a.m := rfl
@[simp] theorem Agent.setAl_chans (a : Agent) (n : Nat) (x : Word64) :
    (a.setAl n x).chans = a.chans := rfl
@[simp] theorem Agent.setAl_its (a : Agent) (n : Nat) (x : Word64) :
    (a.setAl n x).its = a.its := rfl
@[simp] theorem Agent.setAl_cld (a : Agent) (n : Nat) (x : Word64) :
    (a.setAl n x).cld = a.cld := rfl
@[simp] theorem Agent.setAl_cst (a : Agent) (n : Nat) (x : Word64) :
    (a.setAl n x).cst = a.cst := rfl
@[simp] theorem Agent.setAl_cmat (a : Agent) (n : Nat) (x : Word64) :
    (a.setAl n x).cmat = a.cmat := rfl
@[simp] theorem Agent.setAl_cchn (a : Agent) (n : Nat) (x : Word64) :
    (a.setAl n x).cchn = a.cchn := rfl
@[simp] theorem Agent.setAl_gate (a : Agent) (n : Nat) (x : Word64) :
    (a.setAl n x).gate = a.gate := rfl
@[simp] theorem Agent.setAl_present (a : Agent) (n : Nat) (x : Word64) :
    (a.setAl n x).present = a.present := rfl
@[simp] theorem Agent.setAl_tids (a : Agent) (n : Nat) (x : Word64) :
    (a.setAl n x).tids = a.tids := rfl
@[simp] theorem Agent.setAl_paths (a : Agent) (n : Nat) (x : Word64) :
    (a.setAl n x).paths = a.paths := rfl
@[simp] theorem Agent.setAl_cur (a : Agent) (n : Nat) (x : Word64) :
    (a.setAl n x).cur = a.cur := rfl
@[simp] theorem Agent.setAl_joins (a : Agent) (n : Nat) (x : Word64) :
    (a.setAl n x).joins = a.joins := rfl
@[simp] theorem Agent.setAl_outst (a : Agent) (n : Nat) (x : Word64) :
    (a.setAl n x).outst = a.outst := rfl
@[simp] theorem Agent.setAl_clause (a : Agent) (n : Nat) (x : Word64) :
    (a.setAl n x).clause = a.clause := rfl
@[simp] theorem Agent.setAl_fetchChk (a : Agent) (n : Nat) (x : Word64) :
    (a.setAl n x).fetchChk = a.fetchChk := rfl
@[simp] theorem Agent.setAl_pfx (a : Agent) (n : Nat) (x : Word64) :
    (a.setAl n x).pfx = a.pfx := rfl
@[simp] theorem Agent.setAl_pairw (a : Agent) (n : Nat) (x : Word64) :
    (a.setAl n x).pairw = a.pairw := rfl
@[simp] theorem Agent.setAl_pend (a : Agent) (n : Nat) (x : Word64) :
    (a.setAl n x).pend = a.pend := rfl
@[simp] theorem Agent.setAl_preq (a : Agent) (n : Nat) (x : Word64) :
    (a.setAl n x).preq = a.preq := rfl
@[simp] theorem Agent.setAl_perf (a : Agent) (n : Nat) (x : Word64) :
    (a.setAl n x).perf = a.perf := rfl
@[simp] theorem Agent.setAl_got (a : Agent) (n : Nat) (x : Word64) :
    (a.setAl n x).got = a.got := rfl
@[simp] theorem Agent.setAl_gotFl (a : Agent) (n : Nat) (x : Word64) :
    (a.setAl n x).gotFl = a.gotFl := rfl
@[simp] theorem Agent.setAl_rem (a : Agent) (n : Nat) (x : Word64) :
    (a.setAl n x).rem = a.rem := rfl
@[simp] theorem Agent.setAl_far (a : Agent) (n : Nat) (x : Word64) :
    (a.setAl n x).far = a.far := rfl
@[simp] theorem Agent.setAl_late (a : Agent) (n : Nat) (x : Word64) :
    (a.setAl n x).late = a.late := rfl
@[simp] theorem Agent.setAl_now (a : Agent) (n : Nat) (x : Word64) :
    (a.setAl n x).now = a.now := rfl
@[simp] theorem Agent.setAl_sigs (a : Agent) (n : Nat) (x : Word64) :
    (a.setAl n x).sigs = a.sigs := rfl
@[simp] theorem Agent.setAl_told (a : Agent) (n : Nat) (x : Word64) :
    (a.setAl n x).told = a.told := rfl
@[simp] theorem Agent.setAl_bwait (a : Agent) (n : Nat) (x : Word64) :
    (a.setAl n x).bwait = a.bwait := rfl
@[simp] theorem Agent.setAl_cursor (a : Agent) (n : Nat) (x : Word64) :
    (a.setAl n x).cursor = a.cursor := rfl
@[simp] theorem Agent.setAl_otag (a : Agent) (n : Nat) (x : Word64) :
    (a.setAl n x).otag = a.otag := rfl
@[simp] theorem Agent.setAl_inHandler (a : Agent) (n : Nat) (x : Word64) :
    (a.setAl n x).inHandler = a.inHandler := rfl
@[simp] theorem Agent.setAl_tcause (a : Agent) (n : Nat) (x : Word64) :
    (a.setAl n x).tcause = a.tcause := rfl
@[simp] theorem Agent.setAl_tpc (a : Agent) (n : Nat) (x : Word64) :
    (a.setAl n x).tpc = a.tpc := rfl
@[simp] theorem Agent.setAl_tclause (a : Agent) (n : Nat) (x : Word64) :
    (a.setAl n x).tclause = a.tclause := rfl
@[simp] theorem Agent.setAl_tmask (a : Agent) (n : Nat) (x : Word64) :
    (a.setAl n x).tmask = a.tmask := rfl
@[simp] theorem Agent.setAl_tinfo (a : Agent) (n : Nat) (x : Word64) :
    (a.setAl n x).tinfo = a.tinfo := rfl
@[simp] theorem Agent.setAl_frame (a : Agent) (n : Nat) (x : Word64) :
    (a.setAl n x).frame = a.frame := rfl
@[simp] theorem Agent.setAl_own (a : Agent) (n : Nat) (x : Word64) :
    (a.setAl n x).own = a.own := rfl
@[simp] theorem Agent.setAl_tsave0 (a : Agent) (n : Nat) (x : Word64) :
    (a.setAl n x).tsave0 = a.tsave0 := rfl
@[simp] theorem Agent.setAl_tsave1 (a : Agent) (n : Nat) (x : Word64) :
    (a.setAl n x).tsave1 = a.tsave1 := rfl
@[simp] theorem Agent.setAl_ppriv (a : Agent) (n : Nat) (x : Word64) :
    (a.setAl n x).ppriv = a.ppriv := rfl
@[simp] theorem Agent.setAl_priv (a : Agent) (n : Nat) (x : Word64) :
    (a.setAl n x).priv = a.priv := rfl
@[simp] theorem Agent.setAl_feat (a : Agent) (n : Nat) (x : Word64) :
    (a.setAl n x).feat = a.feat := rfl
@[simp] theorem Agent.setAl_born (a : Agent) (n : Nat) (x : Word64) :
    (a.setAl n x).born = a.born := rfl
@[simp] theorem Agent.setAl_seen (a : Agent) (n : Nat) (x : Word64) :
    (a.setAl n x).seen = a.seen := rfl
@[simp] theorem Agent.setAl_fences (a : Agent) (n : Nat) (x : Word64) :
    (a.setAl n x).fences = a.fences := rfl
@[simp] theorem Agent.setAl_floors (a : Agent) (n : Nat) (x : Word64) :
    (a.setAl n x).floors = a.floors := rfl

/-! ## Agent.setPath -/

@[simp] theorem Agent.setPath_lead (a : Agent) (p : Path) :
    (a.setPath p).lead = a.lead := rfl
@[simp] theorem Agent.setPath_ctx (a : Agent) (p : Path) :
    (a.setPath p).ctx = a.ctx := rfl
@[simp] theorem Agent.setPath_tcb (a : Agent) (p : Path) :
    (a.setPath p).tcb = a.tcb := rfl
@[simp] theorem Agent.setPath_lctx (a : Agent) (p : Path) :
    (a.setPath p).lctx = a.lctx := rfl
@[simp] theorem Agent.setPath_origin (a : Agent) (p : Path) :
    (a.setPath p).origin = a.origin := rfl
@[simp] theorem Agent.setPath_part (a : Agent) (p : Path) :
    (a.setPath p).part = a.part := rfl
@[simp] theorem Agent.setPath_x (a : Agent) (p : Path) :
    (a.setPath p).x = a.x := rfl
@[simp] theorem Agent.setPath_v (a : Agent) (p : Path) :
    (a.setPath p).v = a.v := rfl
@[simp] theorem Agent.setPath_m (a : Agent) (p : Path) :
    (a.setPath p).m = a.m := rfl
@[simp] theorem Agent.setPath_al (a : Agent) (p : Path) :
    (a.setPath p).al = a.al := rfl
@[simp] theorem Agent.setPath_chans (a : Agent) (p : Path) :
    (a.setPath p).chans = a.chans := rfl
@[simp] theorem Agent.setPath_its (a : Agent) (p : Path) :
    (a.setPath p).its = a.its := rfl
@[simp] theorem Agent.setPath_cld (a : Agent) (p : Path) :
    (a.setPath p).cld = a.cld := rfl
@[simp] theorem Agent.setPath_cst (a : Agent) (p : Path) :
    (a.setPath p).cst = a.cst := rfl
@[simp] theorem Agent.setPath_cmat (a : Agent) (p : Path) :
    (a.setPath p).cmat = a.cmat := rfl
@[simp] theorem Agent.setPath_cchn (a : Agent) (p : Path) :
    (a.setPath p).cchn = a.cchn := rfl
@[simp] theorem Agent.setPath_gate (a : Agent) (p : Path) :
    (a.setPath p).gate = a.gate := rfl
@[simp] theorem Agent.setPath_present (a : Agent) (p : Path) :
    (a.setPath p).present = a.present := rfl
@[simp] theorem Agent.setPath_tids (a : Agent) (p : Path) :
    (a.setPath p).tids = a.tids := rfl
@[simp] theorem Agent.setPath_cur (a : Agent) (p : Path) :
    (a.setPath p).cur = a.cur := rfl
@[simp] theorem Agent.setPath_joins (a : Agent) (p : Path) :
    (a.setPath p).joins = a.joins := rfl
@[simp] theorem Agent.setPath_outst (a : Agent) (p : Path) :
    (a.setPath p).outst = a.outst := rfl
@[simp] theorem Agent.setPath_clause (a : Agent) (p : Path) :
    (a.setPath p).clause = a.clause := rfl
@[simp] theorem Agent.setPath_fetchChk (a : Agent) (p : Path) :
    (a.setPath p).fetchChk = a.fetchChk := rfl
@[simp] theorem Agent.setPath_pfx (a : Agent) (p : Path) :
    (a.setPath p).pfx = a.pfx := rfl
@[simp] theorem Agent.setPath_pairw (a : Agent) (p : Path) :
    (a.setPath p).pairw = a.pairw := rfl
@[simp] theorem Agent.setPath_pend (a : Agent) (p : Path) :
    (a.setPath p).pend = a.pend := rfl
@[simp] theorem Agent.setPath_preq (a : Agent) (p : Path) :
    (a.setPath p).preq = a.preq := rfl
@[simp] theorem Agent.setPath_perf (a : Agent) (p : Path) :
    (a.setPath p).perf = a.perf := rfl
@[simp] theorem Agent.setPath_got (a : Agent) (p : Path) :
    (a.setPath p).got = a.got := rfl
@[simp] theorem Agent.setPath_gotFl (a : Agent) (p : Path) :
    (a.setPath p).gotFl = a.gotFl := rfl
@[simp] theorem Agent.setPath_rem (a : Agent) (p : Path) :
    (a.setPath p).rem = a.rem := rfl
@[simp] theorem Agent.setPath_far (a : Agent) (p : Path) :
    (a.setPath p).far = a.far := rfl
@[simp] theorem Agent.setPath_late (a : Agent) (p : Path) :
    (a.setPath p).late = a.late := rfl
@[simp] theorem Agent.setPath_now (a : Agent) (p : Path) :
    (a.setPath p).now = a.now := rfl
@[simp] theorem Agent.setPath_sigs (a : Agent) (p : Path) :
    (a.setPath p).sigs = a.sigs := rfl
@[simp] theorem Agent.setPath_told (a : Agent) (p : Path) :
    (a.setPath p).told = a.told := rfl
@[simp] theorem Agent.setPath_bwait (a : Agent) (p : Path) :
    (a.setPath p).bwait = a.bwait := rfl
@[simp] theorem Agent.setPath_cursor (a : Agent) (p : Path) :
    (a.setPath p).cursor = a.cursor := rfl
@[simp] theorem Agent.setPath_otag (a : Agent) (p : Path) :
    (a.setPath p).otag = a.otag := rfl
@[simp] theorem Agent.setPath_inHandler (a : Agent) (p : Path) :
    (a.setPath p).inHandler = a.inHandler := rfl
@[simp] theorem Agent.setPath_tcause (a : Agent) (p : Path) :
    (a.setPath p).tcause = a.tcause := rfl
@[simp] theorem Agent.setPath_tpc (a : Agent) (p : Path) :
    (a.setPath p).tpc = a.tpc := rfl
@[simp] theorem Agent.setPath_tclause (a : Agent) (p : Path) :
    (a.setPath p).tclause = a.tclause := rfl
@[simp] theorem Agent.setPath_tmask (a : Agent) (p : Path) :
    (a.setPath p).tmask = a.tmask := rfl
@[simp] theorem Agent.setPath_tinfo (a : Agent) (p : Path) :
    (a.setPath p).tinfo = a.tinfo := rfl
@[simp] theorem Agent.setPath_frame (a : Agent) (p : Path) :
    (a.setPath p).frame = a.frame := rfl
@[simp] theorem Agent.setPath_own (a : Agent) (p : Path) :
    (a.setPath p).own = a.own := rfl
@[simp] theorem Agent.setPath_tsave0 (a : Agent) (p : Path) :
    (a.setPath p).tsave0 = a.tsave0 := rfl
@[simp] theorem Agent.setPath_tsave1 (a : Agent) (p : Path) :
    (a.setPath p).tsave1 = a.tsave1 := rfl
@[simp] theorem Agent.setPath_ppriv (a : Agent) (p : Path) :
    (a.setPath p).ppriv = a.ppriv := rfl
@[simp] theorem Agent.setPath_priv (a : Agent) (p : Path) :
    (a.setPath p).priv = a.priv := rfl
@[simp] theorem Agent.setPath_feat (a : Agent) (p : Path) :
    (a.setPath p).feat = a.feat := rfl
@[simp] theorem Agent.setPath_born (a : Agent) (p : Path) :
    (a.setPath p).born = a.born := rfl
@[simp] theorem Agent.setPath_seen (a : Agent) (p : Path) :
    (a.setPath p).seen = a.seen := rfl
@[simp] theorem Agent.setPath_fences (a : Agent) (p : Path) :
    (a.setPath p).fences = a.fences := rfl
@[simp] theorem Agent.setPath_floors (a : Agent) (p : Path) :
    (a.setPath p).floors = a.floors := rfl

/-! ## Agent.setX -/

@[simp] theorem Agent.setX_lead (a : Agent) (n : Nat) (x : Word64) : (a.setX n x).lead = a.lead := by
  unfold Agent.setX; split <;> rfl
@[simp] theorem Agent.setX_ctx (a : Agent) (n : Nat) (x : Word64) : (a.setX n x).ctx = a.ctx := by
  unfold Agent.setX; split <;> rfl
@[simp] theorem Agent.setX_tcb (a : Agent) (n : Nat) (x : Word64) : (a.setX n x).tcb = a.tcb := by
  unfold Agent.setX; split <;> rfl
@[simp] theorem Agent.setX_lctx (a : Agent) (n : Nat) (x : Word64) : (a.setX n x).lctx = a.lctx := by
  unfold Agent.setX; split <;> rfl
@[simp] theorem Agent.setX_origin (a : Agent) (n : Nat) (x : Word64) : (a.setX n x).origin = a.origin := by
  unfold Agent.setX; split <;> rfl
@[simp] theorem Agent.setX_part (a : Agent) (n : Nat) (x : Word64) : (a.setX n x).part = a.part := by
  unfold Agent.setX; split <;> rfl
@[simp] theorem Agent.setX_v (a : Agent) (n : Nat) (x : Word64) : (a.setX n x).v = a.v := by
  unfold Agent.setX; split <;> rfl
@[simp] theorem Agent.setX_m (a : Agent) (n : Nat) (x : Word64) : (a.setX n x).m = a.m := by
  unfold Agent.setX; split <;> rfl
@[simp] theorem Agent.setX_al (a : Agent) (n : Nat) (x : Word64) : (a.setX n x).al = a.al := by
  unfold Agent.setX; split <;> rfl
@[simp] theorem Agent.setX_chans (a : Agent) (n : Nat) (x : Word64) : (a.setX n x).chans = a.chans := by
  unfold Agent.setX; split <;> rfl
@[simp] theorem Agent.setX_its (a : Agent) (n : Nat) (x : Word64) : (a.setX n x).its = a.its := by
  unfold Agent.setX; split <;> rfl
@[simp] theorem Agent.setX_cld (a : Agent) (n : Nat) (x : Word64) : (a.setX n x).cld = a.cld := by
  unfold Agent.setX; split <;> rfl
@[simp] theorem Agent.setX_cst (a : Agent) (n : Nat) (x : Word64) : (a.setX n x).cst = a.cst := by
  unfold Agent.setX; split <;> rfl
@[simp] theorem Agent.setX_cmat (a : Agent) (n : Nat) (x : Word64) : (a.setX n x).cmat = a.cmat := by
  unfold Agent.setX; split <;> rfl
@[simp] theorem Agent.setX_cchn (a : Agent) (n : Nat) (x : Word64) : (a.setX n x).cchn = a.cchn := by
  unfold Agent.setX; split <;> rfl
@[simp] theorem Agent.setX_gate (a : Agent) (n : Nat) (x : Word64) : (a.setX n x).gate = a.gate := by
  unfold Agent.setX; split <;> rfl
@[simp] theorem Agent.setX_present (a : Agent) (n : Nat) (x : Word64) : (a.setX n x).present = a.present := by
  unfold Agent.setX; split <;> rfl
@[simp] theorem Agent.setX_tids (a : Agent) (n : Nat) (x : Word64) : (a.setX n x).tids = a.tids := by
  unfold Agent.setX; split <;> rfl
@[simp] theorem Agent.setX_paths (a : Agent) (n : Nat) (x : Word64) : (a.setX n x).paths = a.paths := by
  unfold Agent.setX; split <;> rfl
@[simp] theorem Agent.setX_cur (a : Agent) (n : Nat) (x : Word64) : (a.setX n x).cur = a.cur := by
  unfold Agent.setX; split <;> rfl
@[simp] theorem Agent.setX_joins (a : Agent) (n : Nat) (x : Word64) : (a.setX n x).joins = a.joins := by
  unfold Agent.setX; split <;> rfl
@[simp] theorem Agent.setX_outst (a : Agent) (n : Nat) (x : Word64) : (a.setX n x).outst = a.outst := by
  unfold Agent.setX; split <;> rfl
@[simp] theorem Agent.setX_clause (a : Agent) (n : Nat) (x : Word64) : (a.setX n x).clause = a.clause := by
  unfold Agent.setX; split <;> rfl
@[simp] theorem Agent.setX_fetchChk (a : Agent) (n : Nat) (x : Word64) : (a.setX n x).fetchChk = a.fetchChk := by
  unfold Agent.setX; split <;> rfl
@[simp] theorem Agent.setX_pfx (a : Agent) (n : Nat) (x : Word64) : (a.setX n x).pfx = a.pfx := by
  unfold Agent.setX; split <;> rfl
@[simp] theorem Agent.setX_pairw (a : Agent) (n : Nat) (x : Word64) : (a.setX n x).pairw = a.pairw := by
  unfold Agent.setX; split <;> rfl
@[simp] theorem Agent.setX_pend (a : Agent) (n : Nat) (x : Word64) : (a.setX n x).pend = a.pend := by
  unfold Agent.setX; split <;> rfl
@[simp] theorem Agent.setX_preq (a : Agent) (n : Nat) (x : Word64) : (a.setX n x).preq = a.preq := by
  unfold Agent.setX; split <;> rfl
@[simp] theorem Agent.setX_perf (a : Agent) (n : Nat) (x : Word64) : (a.setX n x).perf = a.perf := by
  unfold Agent.setX; split <;> rfl
@[simp] theorem Agent.setX_got (a : Agent) (n : Nat) (x : Word64) : (a.setX n x).got = a.got := by
  unfold Agent.setX; split <;> rfl
@[simp] theorem Agent.setX_gotFl (a : Agent) (n : Nat) (x : Word64) : (a.setX n x).gotFl = a.gotFl := by
  unfold Agent.setX; split <;> rfl
@[simp] theorem Agent.setX_rem (a : Agent) (n : Nat) (x : Word64) : (a.setX n x).rem = a.rem := by
  unfold Agent.setX; split <;> rfl
@[simp] theorem Agent.setX_far (a : Agent) (n : Nat) (x : Word64) : (a.setX n x).far = a.far := by
  unfold Agent.setX; split <;> rfl
@[simp] theorem Agent.setX_late (a : Agent) (n : Nat) (x : Word64) : (a.setX n x).late = a.late := by
  unfold Agent.setX; split <;> rfl
@[simp] theorem Agent.setX_now (a : Agent) (n : Nat) (x : Word64) : (a.setX n x).now = a.now := by
  unfold Agent.setX; split <;> rfl
@[simp] theorem Agent.setX_sigs (a : Agent) (n : Nat) (x : Word64) : (a.setX n x).sigs = a.sigs := by
  unfold Agent.setX; split <;> rfl
@[simp] theorem Agent.setX_told (a : Agent) (n : Nat) (x : Word64) : (a.setX n x).told = a.told := by
  unfold Agent.setX; split <;> rfl
@[simp] theorem Agent.setX_bwait (a : Agent) (n : Nat) (x : Word64) : (a.setX n x).bwait = a.bwait := by
  unfold Agent.setX; split <;> rfl
@[simp] theorem Agent.setX_cursor (a : Agent) (n : Nat) (x : Word64) : (a.setX n x).cursor = a.cursor := by
  unfold Agent.setX; split <;> rfl
@[simp] theorem Agent.setX_otag (a : Agent) (n : Nat) (x : Word64) : (a.setX n x).otag = a.otag := by
  unfold Agent.setX; split <;> rfl
@[simp] theorem Agent.setX_inHandler (a : Agent) (n : Nat) (x : Word64) : (a.setX n x).inHandler = a.inHandler := by
  unfold Agent.setX; split <;> rfl
@[simp] theorem Agent.setX_tcause (a : Agent) (n : Nat) (x : Word64) : (a.setX n x).tcause = a.tcause := by
  unfold Agent.setX; split <;> rfl
@[simp] theorem Agent.setX_tpc (a : Agent) (n : Nat) (x : Word64) : (a.setX n x).tpc = a.tpc := by
  unfold Agent.setX; split <;> rfl
@[simp] theorem Agent.setX_tclause (a : Agent) (n : Nat) (x : Word64) : (a.setX n x).tclause = a.tclause := by
  unfold Agent.setX; split <;> rfl
@[simp] theorem Agent.setX_tmask (a : Agent) (n : Nat) (x : Word64) : (a.setX n x).tmask = a.tmask := by
  unfold Agent.setX; split <;> rfl
@[simp] theorem Agent.setX_tinfo (a : Agent) (n : Nat) (x : Word64) : (a.setX n x).tinfo = a.tinfo := by
  unfold Agent.setX; split <;> rfl
@[simp] theorem Agent.setX_frame (a : Agent) (n : Nat) (x : Word64) : (a.setX n x).frame = a.frame := by
  unfold Agent.setX; split <;> rfl
@[simp] theorem Agent.setX_own (a : Agent) (n : Nat) (x : Word64) : (a.setX n x).own = a.own := by
  unfold Agent.setX; split <;> rfl
@[simp] theorem Agent.setX_tsave0 (a : Agent) (n : Nat) (x : Word64) : (a.setX n x).tsave0 = a.tsave0 := by
  unfold Agent.setX; split <;> rfl
@[simp] theorem Agent.setX_tsave1 (a : Agent) (n : Nat) (x : Word64) : (a.setX n x).tsave1 = a.tsave1 := by
  unfold Agent.setX; split <;> rfl
@[simp] theorem Agent.setX_ppriv (a : Agent) (n : Nat) (x : Word64) : (a.setX n x).ppriv = a.ppriv := by
  unfold Agent.setX; split <;> rfl
@[simp] theorem Agent.setX_priv (a : Agent) (n : Nat) (x : Word64) : (a.setX n x).priv = a.priv := by
  unfold Agent.setX; split <;> rfl
@[simp] theorem Agent.setX_feat (a : Agent) (n : Nat) (x : Word64) : (a.setX n x).feat = a.feat := by
  unfold Agent.setX; split <;> rfl
@[simp] theorem Agent.setX_born (a : Agent) (n : Nat) (x : Word64) : (a.setX n x).born = a.born := by
  unfold Agent.setX; split <;> rfl
@[simp] theorem Agent.setX_seen (a : Agent) (n : Nat) (x : Word64) : (a.setX n x).seen = a.seen := by
  unfold Agent.setX; split <;> rfl
@[simp] theorem Agent.setX_fences (a : Agent) (n : Nat) (x : Word64) : (a.setX n x).fences = a.fences := by
  unfold Agent.setX; split <;> rfl
@[simp] theorem Agent.setX_floors (a : Agent) (n : Nat) (x : Word64) : (a.setX n x).floors = a.floors := by
  unfold Agent.setX; split <;> rfl

/-! ## Agent.setM -/

@[simp] theorem Agent.setM_lead (a : Agent) (n : Nat) (x : Word) : (a.setM n x).lead = a.lead := by
  unfold Agent.setM; split <;> rfl
@[simp] theorem Agent.setM_ctx (a : Agent) (n : Nat) (x : Word) : (a.setM n x).ctx = a.ctx := by
  unfold Agent.setM; split <;> rfl
@[simp] theorem Agent.setM_tcb (a : Agent) (n : Nat) (x : Word) : (a.setM n x).tcb = a.tcb := by
  unfold Agent.setM; split <;> rfl
@[simp] theorem Agent.setM_lctx (a : Agent) (n : Nat) (x : Word) : (a.setM n x).lctx = a.lctx := by
  unfold Agent.setM; split <;> rfl
@[simp] theorem Agent.setM_origin (a : Agent) (n : Nat) (x : Word) : (a.setM n x).origin = a.origin := by
  unfold Agent.setM; split <;> rfl
@[simp] theorem Agent.setM_part (a : Agent) (n : Nat) (x : Word) : (a.setM n x).part = a.part := by
  unfold Agent.setM; split <;> rfl
@[simp] theorem Agent.setM_x (a : Agent) (n : Nat) (x : Word) : (a.setM n x).x = a.x := by
  unfold Agent.setM; split <;> rfl
@[simp] theorem Agent.setM_v (a : Agent) (n : Nat) (x : Word) : (a.setM n x).v = a.v := by
  unfold Agent.setM; split <;> rfl
@[simp] theorem Agent.setM_al (a : Agent) (n : Nat) (x : Word) : (a.setM n x).al = a.al := by
  unfold Agent.setM; split <;> rfl
@[simp] theorem Agent.setM_chans (a : Agent) (n : Nat) (x : Word) : (a.setM n x).chans = a.chans := by
  unfold Agent.setM; split <;> rfl
@[simp] theorem Agent.setM_its (a : Agent) (n : Nat) (x : Word) : (a.setM n x).its = a.its := by
  unfold Agent.setM; split <;> rfl
@[simp] theorem Agent.setM_cld (a : Agent) (n : Nat) (x : Word) : (a.setM n x).cld = a.cld := by
  unfold Agent.setM; split <;> rfl
@[simp] theorem Agent.setM_cst (a : Agent) (n : Nat) (x : Word) : (a.setM n x).cst = a.cst := by
  unfold Agent.setM; split <;> rfl
@[simp] theorem Agent.setM_cmat (a : Agent) (n : Nat) (x : Word) : (a.setM n x).cmat = a.cmat := by
  unfold Agent.setM; split <;> rfl
@[simp] theorem Agent.setM_cchn (a : Agent) (n : Nat) (x : Word) : (a.setM n x).cchn = a.cchn := by
  unfold Agent.setM; split <;> rfl
@[simp] theorem Agent.setM_gate (a : Agent) (n : Nat) (x : Word) : (a.setM n x).gate = a.gate := by
  unfold Agent.setM; split <;> rfl
@[simp] theorem Agent.setM_present (a : Agent) (n : Nat) (x : Word) : (a.setM n x).present = a.present := by
  unfold Agent.setM; split <;> rfl
@[simp] theorem Agent.setM_tids (a : Agent) (n : Nat) (x : Word) : (a.setM n x).tids = a.tids := by
  unfold Agent.setM; split <;> rfl
@[simp] theorem Agent.setM_paths (a : Agent) (n : Nat) (x : Word) : (a.setM n x).paths = a.paths := by
  unfold Agent.setM; split <;> rfl
@[simp] theorem Agent.setM_cur (a : Agent) (n : Nat) (x : Word) : (a.setM n x).cur = a.cur := by
  unfold Agent.setM; split <;> rfl
@[simp] theorem Agent.setM_joins (a : Agent) (n : Nat) (x : Word) : (a.setM n x).joins = a.joins := by
  unfold Agent.setM; split <;> rfl
@[simp] theorem Agent.setM_outst (a : Agent) (n : Nat) (x : Word) : (a.setM n x).outst = a.outst := by
  unfold Agent.setM; split <;> rfl
@[simp] theorem Agent.setM_clause (a : Agent) (n : Nat) (x : Word) : (a.setM n x).clause = a.clause := by
  unfold Agent.setM; split <;> rfl
@[simp] theorem Agent.setM_fetchChk (a : Agent) (n : Nat) (x : Word) : (a.setM n x).fetchChk = a.fetchChk := by
  unfold Agent.setM; split <;> rfl
@[simp] theorem Agent.setM_pfx (a : Agent) (n : Nat) (x : Word) : (a.setM n x).pfx = a.pfx := by
  unfold Agent.setM; split <;> rfl
@[simp] theorem Agent.setM_pairw (a : Agent) (n : Nat) (x : Word) : (a.setM n x).pairw = a.pairw := by
  unfold Agent.setM; split <;> rfl
@[simp] theorem Agent.setM_pend (a : Agent) (n : Nat) (x : Word) : (a.setM n x).pend = a.pend := by
  unfold Agent.setM; split <;> rfl
@[simp] theorem Agent.setM_preq (a : Agent) (n : Nat) (x : Word) : (a.setM n x).preq = a.preq := by
  unfold Agent.setM; split <;> rfl
@[simp] theorem Agent.setM_perf (a : Agent) (n : Nat) (x : Word) : (a.setM n x).perf = a.perf := by
  unfold Agent.setM; split <;> rfl
@[simp] theorem Agent.setM_got (a : Agent) (n : Nat) (x : Word) : (a.setM n x).got = a.got := by
  unfold Agent.setM; split <;> rfl
@[simp] theorem Agent.setM_gotFl (a : Agent) (n : Nat) (x : Word) : (a.setM n x).gotFl = a.gotFl := by
  unfold Agent.setM; split <;> rfl
@[simp] theorem Agent.setM_rem (a : Agent) (n : Nat) (x : Word) : (a.setM n x).rem = a.rem := by
  unfold Agent.setM; split <;> rfl
@[simp] theorem Agent.setM_far (a : Agent) (n : Nat) (x : Word) : (a.setM n x).far = a.far := by
  unfold Agent.setM; split <;> rfl
@[simp] theorem Agent.setM_late (a : Agent) (n : Nat) (x : Word) : (a.setM n x).late = a.late := by
  unfold Agent.setM; split <;> rfl
@[simp] theorem Agent.setM_now (a : Agent) (n : Nat) (x : Word) : (a.setM n x).now = a.now := by
  unfold Agent.setM; split <;> rfl
@[simp] theorem Agent.setM_sigs (a : Agent) (n : Nat) (x : Word) : (a.setM n x).sigs = a.sigs := by
  unfold Agent.setM; split <;> rfl
@[simp] theorem Agent.setM_told (a : Agent) (n : Nat) (x : Word) : (a.setM n x).told = a.told := by
  unfold Agent.setM; split <;> rfl
@[simp] theorem Agent.setM_bwait (a : Agent) (n : Nat) (x : Word) : (a.setM n x).bwait = a.bwait := by
  unfold Agent.setM; split <;> rfl
@[simp] theorem Agent.setM_cursor (a : Agent) (n : Nat) (x : Word) : (a.setM n x).cursor = a.cursor := by
  unfold Agent.setM; split <;> rfl
@[simp] theorem Agent.setM_otag (a : Agent) (n : Nat) (x : Word) : (a.setM n x).otag = a.otag := by
  unfold Agent.setM; split <;> rfl
@[simp] theorem Agent.setM_inHandler (a : Agent) (n : Nat) (x : Word) : (a.setM n x).inHandler = a.inHandler := by
  unfold Agent.setM; split <;> rfl
@[simp] theorem Agent.setM_tcause (a : Agent) (n : Nat) (x : Word) : (a.setM n x).tcause = a.tcause := by
  unfold Agent.setM; split <;> rfl
@[simp] theorem Agent.setM_tpc (a : Agent) (n : Nat) (x : Word) : (a.setM n x).tpc = a.tpc := by
  unfold Agent.setM; split <;> rfl
@[simp] theorem Agent.setM_tclause (a : Agent) (n : Nat) (x : Word) : (a.setM n x).tclause = a.tclause := by
  unfold Agent.setM; split <;> rfl
@[simp] theorem Agent.setM_tmask (a : Agent) (n : Nat) (x : Word) : (a.setM n x).tmask = a.tmask := by
  unfold Agent.setM; split <;> rfl
@[simp] theorem Agent.setM_tinfo (a : Agent) (n : Nat) (x : Word) : (a.setM n x).tinfo = a.tinfo := by
  unfold Agent.setM; split <;> rfl
@[simp] theorem Agent.setM_frame (a : Agent) (n : Nat) (x : Word) : (a.setM n x).frame = a.frame := by
  unfold Agent.setM; split <;> rfl
@[simp] theorem Agent.setM_own (a : Agent) (n : Nat) (x : Word) : (a.setM n x).own = a.own := by
  unfold Agent.setM; split <;> rfl
@[simp] theorem Agent.setM_tsave0 (a : Agent) (n : Nat) (x : Word) : (a.setM n x).tsave0 = a.tsave0 := by
  unfold Agent.setM; split <;> rfl
@[simp] theorem Agent.setM_tsave1 (a : Agent) (n : Nat) (x : Word) : (a.setM n x).tsave1 = a.tsave1 := by
  unfold Agent.setM; split <;> rfl
@[simp] theorem Agent.setM_ppriv (a : Agent) (n : Nat) (x : Word) : (a.setM n x).ppriv = a.ppriv := by
  unfold Agent.setM; split <;> rfl
@[simp] theorem Agent.setM_priv (a : Agent) (n : Nat) (x : Word) : (a.setM n x).priv = a.priv := by
  unfold Agent.setM; split <;> rfl
@[simp] theorem Agent.setM_feat (a : Agent) (n : Nat) (x : Word) : (a.setM n x).feat = a.feat := by
  unfold Agent.setM; split <;> rfl
@[simp] theorem Agent.setM_born (a : Agent) (n : Nat) (x : Word) : (a.setM n x).born = a.born := by
  unfold Agent.setM; split <;> rfl
@[simp] theorem Agent.setM_seen (a : Agent) (n : Nat) (x : Word) : (a.setM n x).seen = a.seen := by
  unfold Agent.setM; split <;> rfl
@[simp] theorem Agent.setM_fences (a : Agent) (n : Nat) (x : Word) : (a.setM n x).fences = a.fences := by
  unfold Agent.setM; split <;> rfl
@[simp] theorem Agent.setM_floors (a : Agent) (n : Nat) (x : Word) : (a.setM n x).floors = a.floors := by
  unfold Agent.setM; split <;> rfl

/-! ## State.rotate -/

@[simp] theorem State.rotate_mem (s : State) : s.rotate.mem = s.mem := by
  unfold State.rotate; split <;> rfl
@[simp] theorem State.rotate_poison (s : State) : s.rotate.poison = s.poison := by
  unfold State.rotate; split <;> rfl
@[simp] theorem State.rotate_uo (s : State) : s.rotate.uo = s.uo := by
  unfold State.rotate; split <;> rfl
@[simp] theorem State.rotate_stale (s : State) : s.rotate.stale = s.stale := by
  unfold State.rotate; split <;> rfl
@[simp] theorem State.rotate_clock (s : State) : s.rotate.clock = s.clock := by
  unfold State.rotate; split <;> rfl
@[simp] theorem State.rotate_owed (s : State) : s.rotate.owed = s.owed := by
  unfold State.rotate; split <;> rfl
@[simp] theorem State.rotate_resvs (s : State) : s.rotate.resvs = s.resvs := by
  unfold State.rotate; split <;> rfl
@[simp] theorem State.rotate_arrays (s : State) : s.rotate.arrays = s.arrays := by
  unfold State.rotate; split <;> rfl
@[simp] theorem State.rotate_cores (s : State) : s.rotate.cores = s.cores := by
  unfold State.rotate; split <;> rfl
@[simp] theorem State.rotate_clusters (s : State) : s.rotate.clusters = s.clusters := by
  unfold State.rotate; split <;> rfl
@[simp] theorem State.rotate_tasks (s : State) : s.rotate.tasks = s.tasks := by
  unfold State.rotate; split <;> rfl
@[simp] theorem State.rotate_ctxs (s : State) : s.rotate.ctxs = s.ctxs := by
  unfold State.rotate; split <;> rfl
@[simp] theorem State.rotate_faults (s : State) : s.rotate.faults = s.faults := by
  unfold State.rotate; split <;> rfl
@[simp] theorem State.rotate_homeReqs (s : State) : s.rotate.homeReqs = s.homeReqs := by
  unfold State.rotate; split <;> rfl
@[simp] theorem State.rotate_withdrawn (s : State) : s.rotate.withdrawn = s.withdrawn := by
  unfold State.rotate; split <;> rfl
@[simp] theorem State.rotate_cmdbase (s : State) : s.rotate.cmdbase = s.cmdbase := by
  unfold State.rotate; split <;> rfl
@[simp] theorem State.rotate_csteps (s : State) : s.rotate.csteps = s.csteps := by
  unfold State.rotate; split <;> rfl
@[simp] theorem State.rotate_tcbVa (s : State) : s.rotate.tcbVa = s.tcbVa := by
  unfold State.rotate; split <;> rfl
@[simp] theorem State.rotate_slices (s : State) : s.rotate.slices = s.slices := by
  unfold State.rotate; split <;> rfl
@[simp] theorem State.rotate_outstk (s : State) : s.rotate.outstk = s.outstk := by
  unfold State.rotate; split <;> rfl
@[simp] theorem State.rotate_snaps (s : State) : s.rotate.snaps = s.snaps := by
  unfold State.rotate; split <;> rfl
@[simp] theorem State.rotate_frozen (s : State) : s.rotate.frozen = s.frozen := by
  unfold State.rotate; split <;> rfl
@[simp] theorem State.rotate_snapEnds (s : State) : s.rotate.snapEnds = s.snapEnds := by
  unfold State.rotate; split <;> rfl
@[simp] theorem State.rotate_snpool (s : State) : s.rotate.snpool = s.snpool := by
  unfold State.rotate; split <;> rfl
@[simp] theorem State.rotate_snshare (s : State) : s.rotate.snshare = s.snshare := by
  unfold State.rotate; split <;> rfl
@[simp] theorem State.rotate_flits (s : State) : s.rotate.flits = s.flits := by
  unfold State.rotate; split <;> rfl
@[simp] theorem State.rotate_aborts (s : State) : s.rotate.aborts = s.aborts := by
  unfold State.rotate; split <;> rfl
@[simp] theorem State.rotate_doneKeys (s : State) : s.rotate.doneKeys = s.doneKeys := by
  unfold State.rotate; split <;> rfl
@[simp] theorem State.rotate_ports (s : State) : s.rotate.ports = s.ports := by
  unfold State.rotate; split <;> rfl
@[simp] theorem State.rotate_hbm (s : State) : s.rotate.hbm = s.hbm := by
  unfold State.rotate; split <;> rfl
@[simp] theorem State.rotate_boot (s : State) : s.rotate.boot = s.boot := by
  unfold State.rotate; split <;> rfl
@[simp] theorem State.rotate_slot (s : State) : s.rotate.slot = s.slot := by
  unfold State.rotate; split <;> rfl
@[simp] theorem State.rotate_cause (s : State) : s.rotate.cause = s.cause := by
  unfold State.rotate; split <;> rfl
@[simp] theorem State.rotate_loaded (s : State) : s.rotate.loaded = s.loaded := by
  unfold State.rotate; split <;> rfl
@[simp] theorem State.rotate_flashA (s : State) : s.rotate.flashA = s.flashA := by
  unfold State.rotate; split <;> rfl
@[simp] theorem State.rotate_flashB (s : State) : s.rotate.flashB = s.flashB := by
  unfold State.rotate; split <;> rfl
@[simp] theorem State.rotate_prov (s : State) : s.rotate.prov = s.prov := by
  unfold State.rotate; split <;> rfl
@[simp] theorem State.rotate_minver (s : State) : s.rotate.minver = s.minver := by
  unfold State.rotate; split <;> rfl
@[simp] theorem State.rotate_events (s : State) : s.rotate.events = s.events := by
  unfold State.rotate; split <;> rfl
@[simp] theorem State.rotate_evhead (s : State) : s.rotate.evhead = s.evhead := by
  unfold State.rotate; split <;> rfl
@[simp] theorem State.rotate_evtail (s : State) : s.rotate.evtail = s.evtail := by
  unfold State.rotate; split <;> rfl
@[simp] theorem State.rotate_evovf (s : State) : s.rotate.evovf = s.evovf := by
  unfold State.rotate; split <;> rfl
@[simp] theorem State.rotate_evseq (s : State) : s.rotate.evseq = s.evseq := by
  unfold State.rotate; split <;> rfl
@[simp] theorem State.rotate_evendpt (s : State) : s.rotate.evendpt = s.evendpt := by
  unfold State.rotate; split <;> rfl
@[simp] theorem State.rotate_attnonce (s : State) : s.rotate.attnonce = s.attnonce := by
  unfold State.rotate; split <;> rfl
@[simp] theorem State.rotate_attendpt (s : State) : s.rotate.attendpt = s.attendpt := by
  unfold State.rotate; split <;> rfl
@[simp] theorem State.rotate_attreqs (s : State) : s.rotate.attreqs = s.attreqs := by
  unfold State.rotate; split <;> rfl
@[simp] theorem State.rotate_modmap (s : State) : s.rotate.modmap = s.modmap := by
  unfold State.rotate; split <;> rfl
@[simp] theorem State.rotate_endpts (s : State) : s.rotate.endpts = s.endpts := by
  unfold State.rotate; split <;> rfl
@[simp] theorem State.rotate_outbox (s : State) : s.rotate.outbox = s.outbox := by
  unfold State.rotate; split <;> rfl
@[simp] theorem State.rotate_agenda (s : State) : s.rotate.agenda = s.agenda := by
  unfold State.rotate; split <;> rfl
@[simp] theorem State.rotate_featacc (s : State) : s.rotate.featacc = s.featacc := by
  unfold State.rotate; split <;> rfl
@[simp] theorem State.rotate_ferr (s : State) : s.rotate.ferr = s.ferr := by
  unfold State.rotate; split <;> rfl
@[simp] theorem State.rotate_modid (s : State) : s.rotate.modid = s.modid := by
  unfold State.rotate; split <;> rfl
@[simp] theorem State.rotate_ntag (s : State) : s.rotate.ntag = s.ntag := by
  unfold State.rotate; split <;> rfl
@[simp] theorem State.rotate_freeCtr (s : State) : s.rotate.freeCtr = s.freeCtr := by
  unfold State.rotate; split <;> rfl

/-! ## Cores and agents read after an update -/

@[simp] theorem State.core_setCore_same (s : State) (c : Nat) (k : Core) : (s.setCore c k).core c = k :=
  mapGet_mapSet_same _ _ _ _

theorem State.core_setCore_ne (s : State) {c d : Nat} (h : d ≠ c) (k : Core) : (s.setCore c k).core d = s.core d :=
  mapGet_mapSet_ne _ _ h _

/-- A state with the same cores reads the same core. -/
theorem State.core_congr {s t : State} (h : s.cores = t.cores) (c : Nat) : s.core c = t.core c := by
  simp [State.core, h]

theorem State.agent_congr {s t : State} (h : s.cores = t.cores) (id : AgentId) : s.agent id = t.agent id := by
  simp [State.agent, State.core, h]

@[simp] theorem State.rotate_core (s : State) (c : Nat) : s.rotate.core c = s.core c :=
  State.core_congr (State.rotate_cores s) c

@[simp] theorem State.rotate_agent (s : State) (id : AgentId) : s.rotate.agent id = s.agent id :=
  State.agent_congr (State.rotate_cores s) id

@[simp] theorem Core.agent_setAgent_same (k : Core) (i : Nat) (a : Agent) : (k.setAgent i a).agent i = some a := by
  unfold Core.setAgent Core.agent
  split <;> exact mapFind_mapPut_same _ _ _

theorem Core.agent_setAgent_ne (k : Core) {i j : Nat} (h : j ≠ i) (a : Agent) :
    (k.setAgent i a).agent j = k.agent j := by
  unfold Core.setAgent Core.agent
  by_cases hi : i < 64 <;> by_cases hj : j < 64 <;> simp only [hi, hj, if_true, if_false]
  · exact mapFind_mapPut_ne h _ _
  · exact mapFind_mapPut_ne (by omega) _ _

@[simp] theorem State.agent_setAgent_same (s : State) (id : AgentId) (a : Agent) :
    (s.setAgent id a).agent id = some a := by
  simp [State.setAgent, State.agent]

theorem State.agent_setAgent_ne (s : State) {id jd : AgentId} (h : jd ≠ id) (a : Agent) :
    (s.setAgent id a).agent jd = s.agent jd := by
  unfold State.setAgent State.agent
  by_cases hc : jd.core = id.core
  · rw [hc, State.core_setCore_same]
    refine Core.agent_setAgent_ne _ (fun hi => h ?_) _
    cases id; cases jd; simp_all
  · rw [State.core_setCore_ne _ hc]

@[simp] theorem Core.setAgent_placed (k : Core) (i : Nat) (a : Agent) : (k.setAgent i a).placed = k.placed := by
  unfold Core.setAgent; split <;> rfl

@[simp] theorem State.setAgent_placed (s : State) (id : AgentId) (a : Agent) (c : Nat) :
    ((s.setAgent id a).core c).placed = (s.core c).placed := by
  unfold State.setAgent
  by_cases h : c = id.core
  · subst h; simp
  · rw [State.core_setCore_ne _ h]

/-- The agent whose turn it is stands at the head of the run queue. -/
theorem State.current_agent {s : State} {id : AgentId} {a : Agent} (h : s.current = some (id, a)) :
    s.agent id = some a := by
  unfold State.current at h
  split at h
  · simp at h
  · simp only [Option.map_eq_some_iff, Prod.mk.injEq] at h
    obtain ⟨b, hb, hid, hab⟩ := h
    rw [← hid, ← hab]; exact hb

/-! ## Registers read after a write (R20) -/

@[simp] theorem Agent.getX_zero (a : Agent) : a.getX 0 = 0 := rfl
@[simp] theorem Agent.getM_zero (a : Agent) : a.getM 0 = 0xFFFFFFFF := rfl

theorem Agent.getX_setX (a : Agent) (n k : Nat) (x : Word64) :
    (a.setX n x).getX k = if k = n ∧ n ≠ 0 then x else a.getX k := by
  unfold Agent.setX Agent.getX
  by_cases hn : n = 0
  · simp [hn]
  · by_cases hk : k = 0
    · subst hk; simp [hn, Ne.symm hn]
    · simp [hn, hk, mapGet_mapSet]

theorem Agent.getM_setM (a : Agent) (n k : Nat) (x : Word) :
    (a.setM n x).getM k = if k = n ∧ n ≠ 0 then x else a.getM k := by
  unfold Agent.setM Agent.getM
  by_cases hn : n = 0
  · simp [hn]
  · by_cases hk : k = 0
    · subst hk; simp [hn, Ne.symm hn]
    · simp [hn, hk, mapGet_mapSet]

theorem Agent.getV_setV (a : Agent) (n k : Nat) (r : VReg) :
    (a.setV n r).getV k = if k = n then r else a.getV k :=
  mapGet_mapSet _ _ _ _ _

theorem Agent.getAl_setAl (a : Agent) (n k : Nat) (x : Word64) :
    (a.setAl n x).getAl k = if k = n then x else a.getAl k :=
  mapGet_mapSet _ _ _ _ _

theorem laneOf_mkV (f : Nat → Word) (t : Nat) (h : t < 32) : laneOf (mkV f) t = f t := by
  simp [laneOf, mkV, List.getD, h]

end Sys2Proof.Machine
end

