-- ==== Sys2Proof/Laws/Issue.lean ====
section
/-! SUPPORT. What the issue of a word does (R36, R40, R399), stated once: a word that issues goes on
to its own effect, and a word with an effect leaves everything but its agent alone. -/

namespace Sys2Proof.Machine

/-! ## Only the agent -/

theorem OnlyAgent.refl (s : State) (id : AgentId) (l : Nat) : OnlyAgent s s id l :=
  ⟨rfl, fun _ => rfl, fun _ => rfl, fun _ _ => rfl, fun _ _ _ => rfl⟩

theorem OnlyAgent.trans {s t u : State} {id : AgentId} {l : Nat} (h : OnlyAgent s t id l)
    (k : OnlyAgent t u id l) : OnlyAgent s u id l :=
  ⟨k.units.trans h.units, fun n => (k.tasks n).trans (h.tasks n), fun c => (k.cores c).trans (h.cores c),
    fun j hj => (k.agents j hj).trans (h.agents j hj), fun c n hn => (k.placed c n hn).trans (h.placed c n hn)⟩

/-- Memory and every other unit of the module stay. -/
theorem OnlyAgent.mem {s t : State} {id : AgentId} {l : Nat} (h : OnlyAgent s t id l) : t.mem = s.mem := by
  have := congrArg State.mem h.units
  simpa [State.units] using this

theorem OnlyAgent.setAgent (s : State) (id : AgentId) (a : Agent) (l : Nat) : OnlyAgent s (s.setAgent id a) id l where
  units := rfl
  tasks _ := rfl
  cores c := by
    unfold State.setAgent
    by_cases h : c = id.core
    · subst h
      simp only [State.core_setCore_same, Core.setAgent, Core.units]
      split <;> rfl
    · rw [State.core_setCore_ne _ h]
  agents j hj := State.agent_setAgent_ne _ hj _
  placed c n _ := by simp

theorem OnlyAgent.rotate (s : State) (id : AgentId) (l : Nat) : OnlyAgent s s.rotate id l where
  units := by unfold State.rotate; split <;> rfl
  tasks _ := by simp
  cores c := by simp
  agents j _ := by simp
  placed c n _ := by simp

theorem State.spent_of_tasks (s : State) (tcb n k : Nat) :
    (mapFind k (s.spent tcb n).tasks).map Task.unmetered = (mapFind k s.tasks).map Task.unmetered := by
  unfold State.spent
  split
  · rename_i t ht
    by_cases h : k = tcb
    · subst h
      simp [mapFind_mapPut_same, ht, Task.unmetered]
    · simp [mapFind_mapPut_ne h]
  · rfl

theorem State.spent_cores (s : State) (tcb n : Nat) : (s.spent tcb n).cores = s.cores := by
  unfold State.spent; split <;> rfl

theorem State.spent_agent (s : State) (tcb n : Nat) (id : AgentId) : (s.spent tcb n).agent id = s.agent id :=
  State.agent_congr (State.spent_cores s tcb n) id

theorem State.spent_core (s : State) (tcb n c : Nat) : (s.spent tcb n).core c = s.core c :=
  State.core_congr (State.spent_cores s tcb n) c

theorem OnlyAgent.spent (s : State) (id : AgentId) (l tcb n : Nat) : OnlyAgent s (s.spent tcb n) id l where
  units := by unfold State.spent; split <;> rfl
  tasks k := State.spent_of_tasks s tcb n k
  cores c := by rw [State.spent_core]
  agents j _ := State.spent_agent s tcb n j
  placed c k _ := by rw [State.spent_core]

theorem OnlyAgent.setPlaced (s : State) (id : AgentId) (l : Nat) (p : Placed) :
    OnlyAgent s (s.setPlaced id.core l p) id l where
  units := rfl
  tasks _ := rfl
  cores c := by
    unfold State.setPlaced
    by_cases h : c = id.core
    · subst h; simp [Core.units]
    · rw [State.core_setCore_ne _ h]
  agents j _ := by
    unfold State.setPlaced State.agent
    by_cases h : j.core = id.core
    · rw [h, State.core_setCore_same]; unfold Core.agent; rfl
    · rw [State.core_setCore_ne _ h]
  placed c k h := by
    unfold State.setPlaced
    by_cases hc : c = id.core
    · subst hc
      have hk : k ≠ l := by rcases h with h | h
                            · exact absurd rfl h
                            · exact h
      simp [mapFind_mapPut_ne hk]
    · rw [State.core_setCore_ne _ hc]

@[simp] theorem State.setPlaced_agent (s : State) (c l : Nat) (p : Placed) (id : AgentId) :
    (s.setPlaced c l p).agent id = s.agent id := by
  unfold State.setPlaced State.agent
  by_cases h : id.core = c
  · subst h; rw [State.core_setCore_same]; unfold Core.agent; rfl
  · rw [State.core_setCore_ne _ h]

theorem State.placed_setPlaced (s : State) (c l : Nat) (p : Placed) :
    mapFind l ((s.setPlaced c l p).core c).placed = some p := by
  simp [State.setPlaced, mapFind_mapPut_same]

theorem OnlyAgent.raiseFlags (s : State) (id : AgentId) (a : Agent) (f : BitVec 9) :
    OnlyAgent s (s.raiseFlags id a f) id a.lctx := by
  unfold State.raiseFlags
  split
  · exact OnlyAgent.refl _ _ _
  · split
    · exact OnlyAgent.setPlaced _ _ _ _
    · exact OnlyAgent.refl _ _ _

@[simp] theorem State.raiseFlags_agent (s : State) (id jd : AgentId) (a : Agent) (f : BitVec 9) :
    (s.raiseFlags id a f).agent jd = s.agent jd := by
  unfold State.raiseFlags
  split
  · rfl
  · split
    · simp
    · rfl

/-- Flags join those of the agent's task (R126). -/
theorem State.raiseFlags_placedOf (s : State) (id : AgentId) (a : Agent) (f : BitVec 9) :
    (s.raiseFlags id a f).placedOf id a = (s.placedOf id a).map fun p => p.flagged id a f := by
  unfold State.raiseFlags
  split
  · rename_i h
    subst h
    cases hp : s.placedOf id a <;> simp [Placed.flagged]
  · rename_i h
    cases hp : s.placedOf id a with
    | none => simp [hp]
    | some p =>
      have e : p.flagged id a f = p.raised id a f := if_neg h
      simp [State.placedOf, State.placed_setPlaced, e]

/-! ## Replay queues (R465) -/

theorem OnlyAgent.queueBeats (s : State) (id : AgentId) (a : Agent) (i : Instr) (r : Rules) (l : Nat) :
    OnlyAgent s (s.queueBeats id a i r) id l := by
  unfold State.queueBeats
  split
  · exact OnlyAgent.refl _ _ _
  · refine ⟨rfl, fun _ => rfl, fun c => ?_, fun j _ => ?_, fun c k _ => ?_⟩
    · by_cases h : c = id.core
      · subst h; simp [Core.units]
      · rw [State.core_setCore_ne _ h]
    · unfold State.agent
      by_cases h : j.core = id.core
      · rw [h, State.core_setCore_same]; unfold Core.agent; rfl
      · rw [State.core_setCore_ne _ h]
    · by_cases h : c = id.core
      · subst h; simp
      · rw [State.core_setCore_ne _ h]

@[simp] theorem State.queueBeats_agent (s : State) (id jd : AgentId) (a : Agent) (i : Instr) (r : Rules) :
    (s.queueBeats id a i r).agent jd = s.agent jd := by
  unfold State.queueBeats
  split
  · rfl
  · unfold State.agent
    by_cases h : jd.core = id.core
    · rw [h, State.core_setCore_same]; unfold Core.agent; rfl
    · rw [State.core_setCore_ne _ h]

theorem State.queueBeats_placed (s : State) (id : AgentId) (a : Agent) (i : Instr) (r : Rules) (c k : Nat) :
    mapFind k ((s.queueBeats id a i r).core c).placed = mapFind k (s.core c).placed := by
  unfold State.queueBeats
  split
  · rfl
  · by_cases h : c = id.core
    · subst h; simp
    · rw [State.core_setCore_ne _ h]

/-- Without the strike sensor, or in uniform form, or of another class, no beat is queued. -/
theorem State.queueBeats_of_not_replays (s : State) (id : AgentId) (a : Agent) {i : Instr} (r : Rules) (h : replays i = false) :
    s.queueBeats id a i r = s := by
  simp [State.queueBeats, h]

/-- Where nothing is poisoned a word has its own effect. -/
theorem guarded_of_sound {s : State} {id : AgentId} (h : (s.core id.core).lost = []) (i : Instr) (r : Rules)
    (body : State → AgentId → Agent → Pfx → Res) (a : Agent) (p : Pfx) : guarded i r body s id a p = body s id a p := by
  simp [guarded, h]

/-! ## The issue of a word -/

/-- What stands after a word that issues and comes to `res`: its slots are counted if it has ended (R399), it is set aside
if it has issued and waits (R35), and one whose agent would be gone waits for what has issued before it. -/
def State.after (s : State) (id : AgentId) (a : Agent) (i : Instr) (sb : Bool) (r : Rules) (res : Res) : State :=
  if res.leaves && !a.late.isEmpty then s.rotate
  else
    let s' : State := finish s id a (a.marker sb) res
    if res.issues then res.beats (s'.spent a.tcb (a.slots r.u)) id a i r
    else match res with
      | .hold t => if r.late && !waitsHere i then match t.agent id with
          | some b => t.setAside id b i sb r
          | none => s'
        else s'
      | _ => s'

/-- A word that issues goes on to its own effect. -/
theorem issue_eq {s : State} {id : AgentId} {a : Agent} {i : Instr} {r : Rules} (h : Issues s id a i r)
    (sb : Bool) (body : State → AgentId → Agent → Pfx → Res) :
    issue i sb r body s = .next (s.after id a i sb r (body s id a a.prefixOf)) := by
  unfold issue
  simp only [h.turn, h.fresh, h.gate, h.accepted, h.first, h.room, h.free, guarded_of_sound h.sound, Bool.not_true, Bool.false_eq_true, if_false]
  unfold State.after
  split <;> rfl

/-- Whatever a word comes to, the machine goes on unless no agent stands in turn. -/
theorem issue_next {s : State} {id : AgentId} {a : Agent} (h : s.current = some (id, a)) (i : Instr) (sb : Bool)
    (r : Rules) (body : State → AgentId → Agent → Pfx → Res) : ∃ t, issue i sb r body s = .next t := by
  unfold issue
  simp only [h]
  repeat' first
    | exact ⟨_, rfl⟩
    | split

theorem Agent.passed_still (b a : Agent) (sb : Bool) : (b.passed a sb).still = b.still := by
  simp [Agent.passed, Agent.advance, Agent.still, Agent.setPath]

/-- The step of a word with an effect. -/
theorem after_done_eq (s e : State) (id : AgentId) (a : Agent) (i : Instr) (sb : Bool) (r : Rules) :
    s.after id a i sb r (.done e) = (e.passes id a sb r.u).queueBeats id a i r := by
  simp only [State.after, Res.leaves, Bool.false_and, Bool.false_eq_true, if_false, Res.issues, if_true, finish,
    State.passes, Agent.passed, Res.beats]
  cases e.agent id <;> rfl

/-- The step of a word with an effect that is a switch point. -/
theorem after_switched_eq (s e : State) (id : AgentId) (a : Agent) (i : Instr) (sb : Bool) (r : Rules) :
    s.after id a i sb r (.switched e) = e.switches id a sb r.u := by
  simp only [State.after, Res.leaves, Bool.false_and, Bool.false_eq_true, if_false, Res.issues, if_true, finish,
    State.switches, Res.beats]
  cases e.agent id <;> rfl

/-- The step of a word that has set the position itself. -/
theorem after_moved_eq (s e : State) (id : AgentId) (a : Agent) (i : Instr) (sb : Bool) (r : Rules) :
    s.after id a i sb r (.moved e) = e.lands id a sb r.u := by
  simp only [State.after, Res.leaves, Bool.false_and, Bool.false_eq_true, if_false, Res.issues, if_true, finish,
    State.lands, Agent.landed, Res.beats]
  cases e.agent id <;> rfl

/-- The step of a word whose agent is gone from its slot. -/
theorem after_left_eq (s e : State) (id : AgentId) (a : Agent) (i : Instr) (sb : Bool) (r : Rules) (h : a.late = []) :
    s.after id a i sb r (.left e) = e.spent a.tcb (a.slots r.u) := by
  simp [State.after, Res.leaves, h, Res.issues, finish, Res.beats]

/-- What a word with an effect leaves: the effect, its agent past the word, and the next turn. -/
theorem after_done {s s2 : State} {id : AgentId} {a b : Agent} (i : Instr) (sb : Bool) (r : Rules)
    (hb : s2.agent id = some b) (l : Nat) :
    OnlyAgent s2 (s.after id a i sb r (.done s2)) id l ∧
      (s.after id a i sb r (.done s2)).agent id = some (b.passed a sb) ∧
      ∀ c k, mapFind k ((s.after id a i sb r (.done s2)).core c).placed = mapFind k (s2.core c).placed := by
  rw [after_done_eq]
  have e : s2.passes id a sb r.u =
      ((s2.setAgent id (b.passed a sb)).rotate).spent a.tcb (a.slots r.u) := by
    simp [State.passes, hb]
  rw [e]
  refine ⟨(((OnlyAgent.setAgent s2 id _ l).trans (OnlyAgent.rotate _ id l)).trans (OnlyAgent.spent _ id l _ _)).trans
    (OnlyAgent.queueBeats _ id a i r l), ?_, ?_⟩
  · simp [State.spent_agent]
  · intro c k
    simp [State.queueBeats_placed, State.spent_core]

/-- A word whose body has an effect completes with it. -/
theorem completes_of_body {i : Instr} {sb : Bool} {r : Rules} {pre : State → AgentId → Agent → Prop}
    {eff : State → AgentId → Agent → State} {body : State → AgentId → Agent → Pfx → Res}
    (he : ∀ s, exec i s = issue i sb r body s)
    (hb : ∀ s id a, Issues s id a i r → pre s id a → body s id a a.prefixOf = .done (eff s id a)) :
    Completes i sb r pre eff := by
  intro s id a h hp
  rw [he, issue_eq h, hb s id a h hp, after_done_eq]

/-- A word whose body traps takes the trap. -/
theorem traps_of_body {i : Instr} {sb : Bool} {r : Rules} {pre : State → AgentId → Agent → Prop} {code : Nat}
    {info : State → AgentId → Agent → Word64} {body : State → AgentId → Agent → Pfx → Res}
    (he : ∀ s, exec i s = issue i sb r body s)
    (hb : ∀ s id a, Issues s id a i r → pre s id a → body s id a a.prefixOf = .trap s code (info s id a)) :
    Traps i r pre code info := by
  intro s id a h hp
  rw [he, issue_eq h, hb s id a h hp]
  simp [State.after, Res.leaves, Res.issues, finish, State.current_agent h.turn, Res.beats]

end Sys2Proof.Machine
end

