-- ==== Sys2Proof/Laws/Memory.lean ====
section
/-! SUPPORT. Laws of memory: a read after a write, and the canonical form that every memory
operation keeps. -/

namespace Sys2Proof.Machine

theorem byteAt_setByte (m : Memory) (a b : Nat) (x : Byte) :
    byteAt (setByte m a x) b = if b = a then x else byteAt m b :=
  mapGet_mapSet blankByte m a b x

theorem setByte_wf {m : Memory} (h : Memory.wf m = true) (a : Nat) (x : Byte) :
    Memory.wf (setByte m a x) = true :=
  mapWf_mapSet h

/-- Writing keeps the canonical form. -/
theorem writeN_wf {m : Memory} (h : Memory.wf m = true) (a n x : Nat) :
    Memory.wf (writeN m a n x) = true := by
  induction n generalizing m a x with
  | zero => exact h
  | succ n ih => exact ih (setByte_wf h _ _) _ _

/-- A write leaves every byte outside its own alone. -/
theorem byteAt_writeN_out (m : Memory) (a n x b : Nat) (h : b < a ∨ a + n ≤ b) :
    byteAt (writeN m a n x) b = byteAt m b := by
  induction n generalizing m a x with
  | zero => rfl
  | succ n ih =>
    rw [writeN, ih _ _ _ (by omega), byteAt_setByte, if_neg (by omega)]

/-- A byte of a write, the lowest at the lowest address. -/
theorem byteAt_writeN_in (m : Memory) (a n x i : Nat) (h : i < n) :
    byteAt (writeN m a n x) (a + i) = BitVec.ofNat 8 (x / 256 ^ i) := by
  induction n generalizing m a x i with
  | zero => omega
  | succ n ih =>
    rw [writeN]
    cases i with
    | zero => rw [byteAt_writeN_out _ _ _ _ _ (by omega), byteAt_setByte]; simp
    | succ i =>
      rw [show a + (i + 1) = (a + 1) + i by omega, ih _ _ _ _ (by omega), Nat.div_div_eq_div_mul, pow_succ,
        Nat.mul_comm 256]

/-- Reads agree where the bytes do. -/
theorem readN_congr (m m' : Memory) (a n : Nat) (h : ∀ i, i < n → byteAt m (a + i) = byteAt m' (a + i)) :
    readN m a n = readN m' a n := by
  induction n generalizing a with
  | zero => rfl
  | succ n ih =>
    rw [readN, readN, ih (a + 1) fun i hi => by simpa [Nat.add_assoc, Nat.add_comm 1] using h (i + 1) (by omega)]
    have := h 0 (by omega)
    simp at this
    rw [this]

/-- A read elsewhere is not changed by a write. -/
theorem readN_writeN_out (m : Memory) (a n x b k : Nat) (h : b + k ≤ a ∨ a + n ≤ b) :
    readN (writeN m a n x) b k = readN m b k :=
  readN_congr _ _ _ _ fun i hi => byteAt_writeN_out _ _ _ _ _ (by omega)

/-- A read gives back what was written. -/
theorem readN_writeN (m : Memory) (a n x : Nat) : readN (writeN m a n x) a n = x % 256 ^ n := by
  induction n generalizing m a x with
  | zero => simp [readN, Nat.mod_one]
  | succ n ih =>
    rw [readN, writeN, ih, byteAt_writeN_out _ _ _ _ _ (by omega), byteAt_setByte]
    simp only [if_true, BitVec.toNat_ofNat]
    show x % 256 + 256 * (x / 256 % 256 ^ n) = x % 256 ^ (n + 1)
    rw [show 256 ^ (n + 1) = 256 * 256 ^ n from by rw [Nat.pow_succ, Nat.mul_comm], Nat.mod_mul]

theorem readN_lt (m : Memory) (a n : Nat) : readN m a n < 256 ^ n := by
  induction n generalizing a with
  | zero => simp [readN]
  | succ n ih =>
    have h := ih (a + 1)
    have hb := (byteAt m a).isLt
    rw [readN, pow_succ]
    omega

/-- Reset memory is in the canonical form. -/
theorem reset_mem_wf : Memory.wf State.reset.mem = true := rfl

end Sys2Proof.Machine
end

