-- ==== Sys2Proof/Laws/Operands.lean ====
section
/-! SUPPORT. What the shared bodies of register words do (R41 to R43, R50, R126), stated once for
each. -/

namespace Sys2Proof.Machine

theorem laneOf_blend (act live : Word) (z : Bool) (old : VReg) (f : Nat → Word) {l : Nat} (h : l < 32) :
    laneOf (blend act live z old f) l =
      if act.getLsbD l then f l else if live.getLsbD l && z then 0 else laneOf old l :=
  laneOf_mkV _ _ h

/-- The results of all lanes, folded, raise the flags of the active ones. -/
theorem foldl_flags (act : Word) (f : Nat → Out 32) (l : List Nat) (m : BitVec 9) :
    ((l.map fun t => if act.getLsbD t then f t else (0, 0)).map Prod.snd).foldl (· ||| ·) m =
      l.foldl (fun m t => if act.getLsbD t then m ||| (f t).2 else m) m := by
  induction l generalizing m with
  | nil => rfl
  | cons t l ih =>
    simp only [List.map_cons, List.foldl_cons]
    rw [ih]
    by_cases h : act.getLsbD t <;> simp [h]

/-- A vector result in a destination with room. -/
theorem writeV_some {s : State} {id : AgentId} {a1 : Agent} (ha : s.agent id = some a1) (act : Word) (z : Bool)
    (d : Opd) (f : Nat → Word) (hr : chanRoom s id d) :
    ∃ b, writeV s id act z d f = some (s.setAgent id b) ∧
      b.still = { a1.still with v := b.v, chans := b.chans } ∧
      match d with
      | .reg n => b.chans = a1.chans ∧ (∀ k, k ≠ n.toNat → b.getV k = a1.getV k) ∧
          ∀ l, l < 32 → laneOf (b.getV n.toNat) l =
            if act.getLsbD l then f l else if a1.live.getLsbD l && z then 0 else laneOf (a1.getV n.toNat) l
      | .chan _ c => b.v = a1.v ∧ (∀ k, k ≠ c.toNat → mapFind k b.chans = mapFind k a1.chans) ∧
          ∀ ch, mapFind c.toNat a1.chans = some ch → mapFind c.toNat b.chans = some { ch with
            elems := ch.elems ++ [mkV fun l => if act.getLsbD l then f l else 0] } := by
  cases d with
  | reg n =>
    refine ⟨a1.setV n.toNat (blend act a1.live z (a1.getV n.toNat) f), ?_, rfl, rfl, ?_, ?_⟩
    · simp [writeV, ha]
    · intro k hk; simp [Agent.getV_setV, hk]
    · intro l hl; simp [Agent.getV_setV, laneOf_blend _ _ _ _ _ hl]
  | chan p c =>
    obtain ⟨a', ch, h1, h2, h3⟩ := hr
    rw [ha] at h1
    cases h1
    refine ⟨{ a1 with chans := mapPut c.toNat { ch with elems := ch.elems ++
      [mkV fun l => if act.getLsbD l then f l else 0] } a1.chans }, ?_, rfl, rfl, ?_, ?_⟩
    · simp [writeV, ha, h2, push, h3]
    · intro k hk; exact mapFind_mapPut_ne hk _ _
    · intro ch' hc
      rw [h2] at hc
      cases hc
      exact mapFind_mapPut_same _ _ _

/-- A word that issues has taken nothing yet. -/
theorem Agent.taken_fresh {a : Agent} (h : a.now = none) (p : Bool) (c : Nat) : a.taken p c = none := by
  simp [Agent.taken, h]

/-- Reading a vector source keeps the agent but for the channel that is popped, and everything
else. -/
theorem readV_only {s s1 : State} {id : AgentId} {o : Opd} {v : VReg} {a0 : Agent} (h0 : s.agent id = some a0)
    (hn : a0.now = none) (h : readV s id o = some (v, s1)) (l : Nat) :
    OnlyAgent s s1 id l ∧ (∀ c k, mapFind k (s1.core c).placed = mapFind k (s.core c).placed) ∧
      ∃ a a1, s.agent id = some a ∧ s1.agent id = some a1 ∧ a1 = { a with chans := a1.chans } := by
  unfold readV at h
  cases ha : s.agent id with
  | none => simp [ha] at h
  | some a =>
    rw [h0] at ha
    cases ha
    rename' a0 => a
    have ha := h0
    simp only [ha, Option.bind_some] at h
    cases o with
    | reg n =>
      simp only [Option.some.injEq, Prod.mk.injEq] at h
      obtain ⟨-, rfl⟩ := h
      exact ⟨OnlyAgent.refl _ _ _, fun _ _ => rfl, a, a, rfl, ha, rfl⟩
    | chan p c =>
      simp only [Agent.taken_fresh hn, popV] at h
      split at h
      · split at h
        · split at h
          · simp only [Option.some.injEq, Prod.mk.injEq] at h
            obtain ⟨-, rfl⟩ := h
            exact ⟨OnlyAgent.refl _ _ _, fun _ _ => rfl, a, a, rfl, ha, rfl⟩
          · simp only [Option.some.injEq, Prod.mk.injEq] at h
            obtain ⟨-, rfl⟩ := h
            exact ⟨OnlyAgent.setAgent _ _ _ _, by simp, a, _, rfl, State.agent_setAgent_same _ _ _, rfl⟩
        · cases h
      · cases h

theorem readVs_only {s s1 : State} {id : AgentId} {os : List Opd} {vs : List VReg} {a : Agent}
    (ha : s.agent id = some a) (hn : a.now = none) (h : readVs s id os = some (vs, s1)) (l : Nat) :
    OnlyAgent s s1 id l ∧ (∀ c k, mapFind k (s1.core c).placed = mapFind k (s.core c).placed) ∧
      ∃ a1, s1.agent id = some a1 ∧ a1 = { a with chans := a1.chans } := by
  induction os generalizing s vs a with
  | nil =>
    simp only [readVs, Option.some.injEq, Prod.mk.injEq] at h
    obtain ⟨-, rfl⟩ := h
    exact ⟨OnlyAgent.refl _ _ _, fun _ _ => rfl, a, ha, rfl⟩
  | cons o os ih =>
    simp only [readVs] at h
    cases h1 : readV s id o with
    | none => simp [h1] at h
    | some p =>
      obtain ⟨v, s2⟩ := p
      simp only [h1, Option.bind_some] at h
      cases h2 : readVs s2 id os with
      | none => simp [h2] at h
      | some q =>
        obtain ⟨ws, s3⟩ := q
        simp only [h2, Option.map_some, Option.some.injEq, Prod.mk.injEq] at h
        obtain ⟨-, rfl⟩ := h
        obtain ⟨o1, p1, a', b1, e1, e2, e3⟩ := readV_only ha hn h1 l
        rw [ha] at e1
        cases e1
        obtain ⟨o2, p2, c1, f1, f2⟩ := ih e2 (by rw [e3]; exact hn) h2
        exact ⟨o1.trans o2, fun c k => (p2 c k).trans (p1 c k), c1, f1, by rw [f2, e3]⟩

/-- A vector register word with readable sources and a destination with room completes. -/
theorem issue_vecBody {s s1 : State} {id : AgentId} {a : Agent} {i : Instr} {r : Rules} {d : Opd}
    {src : List Opd} {vs : List VReg} (h : Issues s id a i r) (hv : readVs s id src = some (vs, s1))
    (hr : chanRoom s1 id d) (sb : Bool) (f : List Word → Nat → Out 32)
    (body : State → AgentId → Agent → Pfx → Res)
    (hb : body s id a a.prefixOf = vecBody d src f s id a a.prefixOf) :
    ∃ t, issue i sb r body s = .next t ∧ VectorDone s1 t id a a.prefixOf.z d (fun l => f (vs.map fun v => laneOf v l) l) := by
  have ha := State.current_agent h.turn
  obtain ⟨-, hpl, a1, ha1, he⟩ := readVs_only ha h.fresh hv a.lctx
  have hlive : a1.live = a.live := by rw [he]; rfl
  have hget : a1.getV = a.getV := by rw [he]; rfl
  rw [issue_eq h sb body, hb]
  refine ⟨_, rfl, ?_⟩
  let g : Nat → Out 32 := fun l => f (vs.map fun v => laneOf v l) l
  let out := (List.range 32).map fun t => if (a.active a.prefixOf).getLsbD t then g t else (0, 0)
  obtain ⟨b, hw, hs, hm⟩ := writeV_some ha1 (a.active a.prefixOf) a.prefixOf.z d (fun t => (out.getD t (0, 0)).1) hr
  have hout : ∀ l, l < 32 → (a.active a.prefixOf).getLsbD l = true → out.getD l (0, 0) = g l := by
    intro l hl hact
    simp only [out, List.getD_eq_getElem?_getD, List.getElem?_map]
    rw [List.getElem?_range hl]
    simp [hact]
  have hbody : vecBody d src f s id a a.prefixOf = .done ((s1.setAgent id b).raiseFlags id a
      (flagsOf (a.active a.prefixOf) g)) := by
    unfold vecBody
    simp only [hv]
    have : writeV s1 id (a.active a.prefixOf) a.prefixOf.z d (fun t => ((List.map
        (fun t => if (a.active a.prefixOf).getLsbD t = true then f (List.map (fun v => laneOf v t) vs) t else (0, 0))
        (List.range 32)).getD t (0, 0)).1) = some (s1.setAgent id b) := hw
    simp only [this]
    rw [foldl_flags]
    rfl
  rw [hbody]
  have hag : ((s1.setAgent id b).raiseFlags id a (flagsOf (a.active a.prefixOf) g)).agent id = some b := by simp
  obtain ⟨o1, g1, p1⟩ := after_done (s := s) (a := a) i sb r hag a.lctx
  refine ⟨(OnlyAgent.setAgent _ _ _ _).trans ((OnlyAgent.raiseFlags _ _ _ _).trans o1), ⟨a1, _, ha1, g1, ?_, ?_⟩, ?_⟩
  · rw [Agent.passed_still, hs]
  · cases d with
    | reg n =>
      obtain ⟨h1, h2, h3⟩ := hm
      refine ⟨?_, ?_, ?_⟩
      · rw [← h1]; simp [Agent.passed, Agent.advance, Agent.setPath]
      · intro k hk; rw [← h2 k hk]; simp [Agent.passed, Agent.advance, Agent.setPath, Agent.getV]
      · intro l hl
        have := h3 l hl
        rw [hlive, hget] at this
        have hp : (b.passed a sb).getV n.toNat = b.getV n.toNat := by
          simp [Agent.passed, Agent.advance, Agent.setPath, Agent.getV]
        rw [hp, this]
        by_cases hact : (a.active a.prefixOf).getLsbD l
        · rw [if_pos hact, if_pos hact, hout l hl hact]
        · rw [if_neg hact, if_neg hact]
    | chan p c =>
      obtain ⟨h1, h2, h3⟩ := hm
      refine ⟨?_, ?_, ?_⟩
      · rw [← h1]; simp [Agent.passed, Agent.advance, Agent.setPath]
      · intro k hk; rw [← h2 k hk]; simp [Agent.passed, Agent.advance, Agent.setPath]
      · intro ch hc
        have hp : (b.passed a sb).chans = b.chans := by simp [Agent.passed, Agent.advance, Agent.setPath]
        rw [hp, h3 ch hc]
        have : (mkV fun l => if (a.active a.prefixOf).getLsbD l then (out.getD l (0, 0)).1 else 0) =
            mkV fun l => if (a.active a.prefixOf).getLsbD l then (g l).1 else 0 := by
          unfold mkV
          refine List.map_congr_left fun l hl => ?_
          by_cases hact : (a.active a.prefixOf).getLsbD l
          · rw [if_pos hact, if_pos hact, hout l (List.mem_range.1 hl) hact]
          · rw [if_neg hact, if_neg hact]
        rw [this]
  · have e : ∀ t : State, t.placedOf id a = mapFind a.lctx (t.core id.core).placed := fun _ => rfl
    rw [e, p1, ← e, State.raiseFlags_placedOf, e, e, State.setAgent_placed]

/-- Reading a task channel keeps the agent but for its decision cursor. -/
theorem readU_agent {s s1 : State} {id : AgentId} {a : Agent} {o : Opd} {x : Word64} (ha : s.agent id = some a)
    (hn : a.now = none) (h : readU s id o = some (x, s1)) :
    ∃ a1, s1.agent id = some a1 ∧ a1 = { a with cursor := a1.cursor, seen := a1.seen, floors := a1.floors } := by
  unfold readU at h
  simp only [ha, Option.bind_some] at h
  cases o with
  | reg n =>
    simp only [Option.some.injEq, Prod.mk.injEq] at h
    obtain ⟨-, rfl⟩ := h
    exact ⟨a, ha, rfl⟩
  | chan p c =>
    simp only [Agent.taken_fresh hn, readTask] at h
    cases hp : s.placedOf id a with
    | none => simp [hp] at h
    | some q =>
      simp only [hp, Option.bind_some] at h
      cases hc : mapFind c.toNat q.chans with
      | none => simp [hc] at h
      | some ch =>
        simp only [hc, Option.bind_some] at h
        split at h
        · cases he : ch.elems[a.cursor.getD 0 - q.decBase]? with
          | none => simp [he] at h
          | some e =>
            simp only [he, Option.map_some, Option.some.injEq] at h
            split at h
            · cases h; exact ⟨_, State.agent_setAgent_same _ _ _, rfl⟩
            · cases h; exact ⟨_, State.agent_setAgent_same _ _ _, rfl⟩
        · split at h
          · split at h
            · cases h; exact ⟨_, State.agent_setAgent_same _ _ _, rfl⟩
            · split at h
              · split at h
                · cases h
                  refine ⟨a.acquired s, ?_, rfl⟩
                  unfold State.ackSignal
                  split
                  · exact (State.agent_congr rfl id).trans (State.agent_setAgent_same _ _ _)
                  · exact (State.agent_congr rfl id).trans (State.agent_setAgent_same _ _ _)
                · cases h; exact ⟨_, State.agent_setAgent_same _ _ _, rfl⟩
              · cases h; exact ⟨_, State.agent_setAgent_same _ _ _, rfl⟩
          · cases h

theorem readUs_agent {s s1 : State} {id : AgentId} {a : Agent} {os : List Opd} {xs : List Word64}
    (ha : s.agent id = some a) (hn : a.now = none) (h : readUs s id os = some (xs, s1)) :
    ∃ a1, s1.agent id = some a1 ∧ a1 = { a with cursor := a1.cursor, seen := a1.seen, floors := a1.floors } := by
  induction os generalizing s xs a with
  | nil =>
    simp only [readUs, Option.some.injEq, Prod.mk.injEq] at h
    obtain ⟨-, rfl⟩ := h
    exact ⟨a, ha, rfl⟩
  | cons o os ih =>
    simp only [readUs] at h
    cases h1 : readU s id o with
    | none => simp [h1] at h
    | some p =>
      obtain ⟨v, s2⟩ := p
      simp only [h1, Option.bind_some] at h
      cases h2 : readUs s2 id os with
      | none => simp [h2] at h
      | some q =>
        obtain ⟨ws, s3⟩ := q
        simp only [h2, Option.map_some, Option.some.injEq, Prod.mk.injEq] at h
        obtain ⟨-, rfl⟩ := h
        obtain ⟨b, e1, e2⟩ := readU_agent ha hn h1
        obtain ⟨c, f1, f2⟩ := ih e1 (by rw [e2]; exact hn) h2
        exact ⟨c, f1, by rw [f2, e2]⟩

/-- A uniform register word with readable sources and a destination with room completes. -/
theorem issue_uniBody {s s1 : State} {id : AgentId} {a : Agent} {i : Instr} {r : Rules} {d : Opd}
    {src : List Opd} {xs : List Word64} (h : Issues s id a i r) (hv : readUs s id src = some (xs, s1))
    (hr : taskRoom s1 id d) (sb : Bool) (f : List Word64 → Out 64)
    (body : State → AgentId → Agent → Pfx → Res)
    (hb : body s id a a.prefixOf = uniBody d src f s id a a.prefixOf) :
    ∃ t, issue i sb r body s = .next t ∧ UniformDone s1 t id a d (f xs).1 (f xs).2 := by
  have ha := State.current_agent h.turn
  obtain ⟨a1, ha1, he⟩ := readUs_agent ha h.fresh hv
  have hl : a1.lctx = a.lctx := by rw [he]
  have e : ∀ t : State, t.placedOf id a = mapFind a.lctx (t.core id.core).placed := fun _ => rfl
  rw [issue_eq h sb body, hb]
  refine ⟨_, rfl, ?_⟩
  cases d with
  | reg n =>
    have hbody : uniBody (.reg n) src f s id a a.prefixOf =
        .done ((s1.setAgent id (a1.setX n.toNat (f xs).1)).raiseFlags id a (f xs).2) := by
      simp [uniBody, hv, writeU, ha1]
    rw [hbody]
    have hag : ((s1.setAgent id (a1.setX n.toNat (f xs).1)).raiseFlags id a (f xs).2).agent id =
        some (a1.setX n.toNat (f xs).1) := by simp
    obtain ⟨o1, g1, p1⟩ := after_done (s := s) (a := a) i sb r hag a.lctx
    refine ⟨a1, _, ha1, g1, ?_, ?_, ?_, ?_⟩
    · rw [Agent.passed_still]; unfold Agent.setX; split <;> rfl
    · intro k
      have : ((a1.setX n.toNat (f xs).1).passed a sb).getX k = (a1.setX n.toNat (f xs).1).getX k := by
        simp [Agent.passed, Agent.advance, Agent.setPath, Agent.getX]
      rw [this, Agent.getX_setX]
      by_cases hk : k = n.toNat
      · subst hk; rfl
      · simp [hk]
    · exact (OnlyAgent.setAgent _ _ _ _).trans ((OnlyAgent.raiseFlags _ _ _ _).trans o1)
    · rw [e, p1, ← e, State.raiseFlags_placedOf, e, e, State.setAgent_placed]
  | chan q c =>
    obtain ⟨a', p, ch, k1, k2, k3, k4⟩ := hr
    rw [ha1] at k1
    cases k1
    obtain ⟨s2, hs2⟩ : ∃ s2, pushTask s1 id.core a1.lctx (s1.decides a1) c.toNat (f xs).1 = some s2 := by
      have : mapFind a1.lctx (s1.core id.core).placed = some p := k2
      exact ⟨_, by simp [pushTask, this, k3, push, k4]; rfl⟩
    have hs2a : s2.agent id = some a1 := by
      unfold pushTask at hs2
      simp only [Option.bind_eq_some_iff, Option.map_eq_some_iff] at hs2
      obtain ⟨p', -, ch', -, ch'', -, rfl⟩ := hs2
      rw [State.setPlaced_agent, ha1]
    have hbody : uniBody (.chan q c) src f s id a a.prefixOf = .done (s2.raiseFlags id a (f xs).2) := by
      simp [uniBody, hv, writeU, ha1, hs2]
    rw [hbody]
    have hag : (s2.raiseFlags id a (f xs).2).agent id = some a1 := by simp [hs2a]
    obtain ⟨o1, g1, p1⟩ := after_done (s := s) (a := a) i sb r hag a.lctx
    refine ⟨a1, _, ha1, g1, ?_, ?_, s2, hs2, ?_, ?_⟩
    · rw [Agent.passed_still]
    · simp [Agent.passed, Agent.advance, Agent.setPath]
    · exact (OnlyAgent.raiseFlags _ _ _ _).trans o1
    · rw [e, p1, ← e, State.raiseFlags_placedOf]

/-! ## The forms of a shared body -/

variable {d x y : Opd} {s : State} {id : AgentId} {a : Agent} {p : Pfx}

@[simp] theorem alu2_vector (f : Word → Word → Out 32) (g : Word64 → Word64 → Out 64) :
    alu2 false d x y f g s id a p = vecBody d [x, y] (fun xs _ => f (arg xs 0) (arg xs 1)) s id a p := by
  simp only [alu2, Bool.false_eq_true, if_false]

@[simp] theorem alu2_uniform (f : Word → Word → Out 32) (g : Word64 → Word64 → Out 64) :
    alu2 true d x y f g s id a p = uniBody d [x, y] (fun xs => g (arg xs 0) (arg xs 1)) s id a p := by
  simp only [alu2, if_true]

@[simp] theorem alu1_vector (f : Word → Out 32) (g : Word64 → Out 64) :
    alu1 false d x f g s id a p = vecBody d [x] (fun xs _ => f (arg xs 0)) s id a p := by
  simp only [alu1, Bool.false_eq_true, if_false]

@[simp] theorem alu1_uniform (f : Word → Out 32) (g : Word64 → Out 64) :
    alu1 true d x f g s id a p = uniBody d [x] (fun xs => g (arg xs 0)) s id a p := by
  simp only [alu1, if_true]

/-- With a prefix the fourth operand is what it names. -/
theorem alu3_prefixed (u : Bool) (f : Word → Word → Word → Nat → Out 32) (g : Word64 → Word64 → Word64 → Nat → Out 64)
    (h : a.pfx.isSome = true) : alu3 u d x y f g s id a p =
      if u then uniBody d [x, y, p.c] (fun xs => g (arg xs 0) (arg xs 1) (arg xs 2) p.rnd.toNat) s id a p
      else vecBody d [x, y, p.c] (fun xs _ => f (arg xs 0) (arg xs 1) (arg xs 2) p.rnd.toNat) s id a p := by
  simp only [alu3, fourth, h, if_true]

/-- Without one it is the old destination. -/
theorem alu3_bare (u : Bool) (f : Word → Word → Word → Nat → Out 32) (g : Word64 → Word64 → Word64 → Nat → Out 64)
    (h : a.pfx = none) : alu3 u d x y f g s id a p =
      if u then uniBody d [x, y, d] (fun xs => g (arg xs 0) (arg xs 1) (arg xs 2) p.rnd.toNat) s id a p
      else vecBody d [x, y, d] (fun xs _ => f (arg xs 0) (arg xs 1) (arg xs 2) p.rnd.toNat) s id a p := by
  simp only [alu3, fourth, h, Option.isSome_none, Bool.false_eq_true, if_false]

end Sys2Proof.Machine
end

