-- ==== Sys2Proof/Tests/Slice0.lean ====
section
/-! SUPPORT. Tests of the model on fixed values taken from the manual, and for every statement that has
hypotheses a state and operands that meet them. -/

namespace Sys2Proof.Tests

set_option Elab.async false
open Sys2Proof Sys2Proof.Machine

/-! ## Ill-formed terms, one for each check -/

/-- `TY` 7, and `TY` in uniform form above 2 (R64). -/
theorem test_wf_types : Instr.wf (.add false false false 7 (.reg 1) (.reg 2) (.reg 3)) = false ∧
    Instr.wf (.add false true false 3 (.reg 1) (.reg 2) (.reg 3)) = false ∧
    Instr.wf (.max false true 5 (.reg 1) (.reg 2) (.reg 3)) = false ∧
    Instr.wf (.absd false false 7 (.reg 1) (.reg 2) (.reg 3)) = false := by decide

/-- `SAT` with a float type; MULH, DIV and REM with a type that they do not take (R64). -/
theorem test_wf_arith : Instr.wf (.sub false false true 2 (.reg 1) (.reg 2) (.reg 3)) = false ∧
    Instr.wf (.mul false false true 3 (.reg 1) (.reg 2) (.reg 3)) = false ∧
    Instr.wf (.mad false false true 4 (.reg 1) (.reg 2) (.reg 3)) = false ∧
    Instr.wf (.mulh false false 2 (.reg 1) (.reg 2) (.reg 3)) = false ∧
    Instr.wf (.mulh false true 6 (.reg 1) (.reg 2) (.reg 3)) = false ∧
    Instr.wf (.div false false 5 (.reg 3) (.reg 1) (.reg 2)) = false ∧
    Instr.wf (.rem false false 2 (.reg 1) (.reg 2) (.reg 3)) = false ∧
    Instr.wf (.min false false 7 (.reg 1) (.reg 2) (.reg 3)) = false := by decide

/-- Function codes that the map does not list (R66, R67). -/
theorem test_wf_functions : Instr.wf (.logic false false 6 (.reg 1) (.reg 2) (.reg 3)) = false ∧
    Instr.wf (.shift false false 3 0 (.reg 1) (.reg 2) (.reg 3)) = false ∧
    Instr.wf (.shift false true 1 0 (.reg 1) (.reg 2) (.reg 3)) = false ∧
    Instr.wf (.bits false false 5 (.reg 1) (.reg 2)) = false ∧
    Instr.wf (.dot false 5 (.reg 1) (.reg 2) (.reg 3)) = false ∧
    Instr.wf (.shfl false 4 (.reg 1) (.reg 2) (.reg 3)) = false ∧
    Instr.wf (.bfly false 3 0 (.reg 0) (.reg 0)) = false ∧ Instr.wf (.bfly false 2 5 (.reg 0) (.reg 0)) = false ∧
    Instr.wf (.vote false 3 (.reg 1) (.reg 2)) = false ∧
    Instr.wf (.itnew false 6 0 5) = false ∧ Instr.wf (.itadd false 8 0 7 1) = false ∧
    Instr.wf (.drain false 6 0 5 6) = false ∧ Instr.wf (.cpy false 5 0 4) = false ∧ Instr.wf (.coll false 5 0 4) = false ∧
    Instr.wf (.qfence false 0) = false := by decide

/-- CMP of type 3, of `.un` on integers, and into `m0` or a number above 7 (R66, R140). -/
theorem test_wf_cmp : Instr.wf (.cmp false false 2 3 (.reg 2) (.reg 1) (.reg 2)) = false ∧
    Instr.wf (.cmp false false 6 0 (.reg 2) (.reg 1) (.reg 2)) = false ∧
    Instr.wf (.cmp false false 2 2 (.reg 0) (.reg 1) (.reg 2)) = false ∧
    Instr.wf (.cmp false false 2 2 (.reg 8) (.reg 1) (.reg 2)) = false := by decide

/-- Float words: types, the third function code of FSGN, its unused operand; formats of CVT, QSCL, QENC and
QDEC; the pair registers (R43, R153, R158, R160). -/
theorem test_wf_float : Instr.wf (.fclass false false 0 (.reg 1) (.reg 2)) = false ∧
    Instr.wf (.fsgn false false 3 2 (.reg 1) (.reg 2) (.reg 3)) = false ∧
    Instr.wf (.fsgn false true 0 3 (.reg 1) (.reg 2) (.reg 0)) = false ∧
    Instr.wf (.fsgn false false 0 2 (.reg 1) (.reg 2) (.reg 3)) = false ∧
    Instr.wf (.cvt false false 6 (.reg 1) (.reg 2) 0 2) = false ∧ Instr.wf (.cvt false false 0 (.reg 1) (.reg 2) 3 3) = false ∧
    Instr.wf (.cvt false false 0 (.reg 1) (.reg 2) 12 2) = false ∧
    Instr.wf (.cvt false false 0 (.reg 1) (.reg 3) 2 13) = false ∧ Instr.wf (.cvt false false 0 (.reg 1) (.reg 2) 13 2) = false ∧
    Instr.wf (.cvt false true 0 (.reg 1) (.reg 2) 0 3) = false ∧
    Instr.wf (.qscl false 8 (.reg 1) (.reg 2)) = false ∧ Instr.wf (.qenc false 3 (.reg 1) (.reg 2) (.reg 3)) = false ∧
    Instr.wf (.qdec false 0 (.reg 1) (.reg 2) (.reg 3)) = false := by decide

/-- Fields that must be 0: the operands of LMAP and BR that their function does not use (R220, R242). -/
theorem test_wf_zero_fields : Instr.wf (.lmap false 3 (.reg 2) (.reg 0) (.reg 0)) = false ∧
    Instr.wf (.lmap false 0 (.reg 2) (.reg 1) (.reg 0)) = false ∧ Instr.wf (.lmap false 1 (.reg 2) (.reg 0) (.reg 1)) = false ∧
    Instr.wf (.lmap false 2 (.reg 2) (.reg 1) (.reg 0)) = false ∧ Instr.wf (.lmap false 2 (.reg 0) (.reg 1) (.reg 0)) = true ∧
    Instr.wf (.br false 5 0 0) = false ∧ Instr.wf (.br false 0 3 0) = false := by decide

/-- Transfers through a channel (R221, R224, R226). -/
theorem test_wf_targets : Instr.wf (.jmp false (.chan false 8)) = false ∧ Instr.wf (.jmpd false 0 (.chan false 0) 0) = false ∧
    Instr.wf (.call false (.reg 1) (.chan false 8)) = false ∧ Instr.wf (.loop false (.chan false 8) (.reg 1)) = false ∧
    Instr.wf (.ctlTrap false (.chan false 8)) = false := by decide

/-- Memory words: sizes, an index in uniform form, pair and quad registers, channels of more than one element, SC without a
mask, CAS without a result, `.h2` in uniform form, base 31 with a bound (R43, R68, R189, R196 to R200, R208). -/
theorem test_wf_memory : Instr.wf (.ld false false 7 0 0 (.reg 1) 2 31) = false ∧ Instr.wf (.st false false 5 0 0 (.reg 1) 2 31) = false ∧
    Instr.wf (.ld false true 2 0 0 (.reg 1) 2 3) = false ∧ Instr.wf (.ld false false 3 0 0 (.reg 1) 2 31) = false ∧
    Instr.wf (.ld false false 4 0 0 (.reg 2) 2 31) = false ∧ Instr.wf (.st false false 3 0 0 (.chan false 1) 2 31) = false ∧
    Instr.wf (.ldc false false 2 0 0 (.reg 1) 31 3) = false ∧ Instr.wf (.stc false false 2 0 0 (.reg 1) 31 3) = false ∧
    Instr.wf (.sc false false 0 0 0 (.reg 1) 2 3) = false ∧ Instr.wf (.sc false true 0 0 0 (.reg 1) 2 31) = false ∧
    Instr.wf (.lr false false 0 0 (.chan false 1) 2 3) = false ∧ Instr.wf (.atom false true 7 0 0 (.reg 0) 2 31) = false ∧
    Instr.wf (.atom64 false false 0 0 0 (.reg 1) 2 3) = false ∧ Instr.wf (.atomf false false 4 0 0 (.reg 1) 2 3) = false ∧
    Instr.wf (.atomf false true 1 0 0 (.reg 1) 2 31) = false ∧ Instr.wf (.fence false 3 0) = false ∧
    Instr.wf (.pref false true 0 2 3) = false := by decide

/-- Register numbers of CR and SYS that are not listed or are read-only (R70), and the alphabet of MMQ (R69). -/
theorem test_wf_registers : Instr.wf (.cr false (.reg 1) 7) = false ∧ Instr.wf (.crW false (.reg 1) 5) = false ∧
    Instr.wf (.sysCsrr false 1 11) = false ∧ Instr.wf (.sysCsrw false 1 9) = false ∧
    Instr.wf (.mmq false 1 0 0 8 9) = false ∧ Instr.wf (.pfx 0 false 6 (.reg 0) 0) = false := by decide
/-! ## Words written out in the manual -/

/-- ADD, ADDI, DIV and the float MAD (R44, R45, R128 to R134). -/
theorem test_decode_arith : decodeWord 0x00803042 = .ok (.add false false false 0 (.reg 3) (.reg 1) (.reg 2)) ∧
    decodeWord 0x0D081FFB = .ok (.addi false false (.reg 4) (.reg 3) (-5)) ∧
    decodeWord 0x04883042 = .ok (.div false false 2 (.reg 3) (.reg 1) (.reg 2)) ∧
    decodeWord 0x02885042 = .ok (.mad false false false 2 (.reg 5) (.reg 1) (.reg 2)) := by decide

/-- CMP, SEL and the pair MOVI, MOVH (R46, R140, R143, R144). -/
theorem test_decode_select : decodeWord 0x09282042 = .ok (.cmp false false 2 2 (.reg 2) (.reg 1) (.reg 2)) ∧
    decodeWord 0x088C530A = .ok (.sel false 3 (.reg 5) (.reg 12) (.reg 10)) ∧
    decodeWord 0x0C0F79B9 = .ok (.movi false false (.reg 7) 0x179B9) ∧
    decodeWord 0x0C8F3C6E = .ok (.movh false false (.reg 7) 0x13C6E) := by decide

/-- CVT between single formats, and from f32 to a packed pair (R157 to R159). -/
theorem test_decode_cvt : decodeWord 0x0E510324 = .ok (.cvt false false 5 (.reg 4) (.reg 3) 2 4) ∧
    decodeWord 0x0E0184D2 = .ok (.cvt false false 0 (.reg 6) (.reg 4) 13 2) := by decide

/-- SHFL, BFLY, VOTE, REDG, SCANG, LANE and LMAP (R232 to R243). -/
theorem test_decode_crosslane : decodeWord 0x18043085 = .ok (.shfl false 1 (.reg 3) (.reg 2) (.reg 5)) ∧
    decodeWord 0x18848200 = .ok (.bfly false 0 1 (.reg 8) (.reg 8)) ∧ decodeWord 0x18AD0000 = .ok (.bfly false 1 3 (.reg 16) (.reg 0)) ∧
    decodeWord 0x190840C0 = .ok (.vote false 2 (.reg 4) (.reg 3)) ∧ decodeWord 0x19846140 = .ok (.redg false 1 (.reg 6) (.reg 5)) ∧
    decodeWord 0x1A207140 = .ok (.scang false true 0 (.reg 7) (.reg 5)) ∧ decodeWord 0x1A80910A = .ok (.lane false 9 (.reg 4) 10) ∧
    decodeWord 0x1B042000 = .ok (.lmap false 1 (.reg 2) (.reg 0) (.reg 0)) := by decide

/-- BR, JMP, CALL, LOOP, BRD, JMPD and CTL (R218 to R226). -/
theorem test_decode_control : decodeWord 0x5C22FFFA = .ok (.br false 2 5 (-6)) ∧ decodeWord 0x5C160003 = .ok (.br false 1 12 3) ∧
    decodeWord 0x5D000780 = .ok (.jmp false (.reg 30)) ∧ decodeWord 0x5E01E180 = .ok (.call false (.reg 30) (.reg 6)) ∧
    decodeWord 0x5E805180 = .ok (.loop false (.reg 5) (.reg 6)) ∧ decodeWord 0x1C82000D = .ok (.brd false 0 1 13) ∧
    decodeWord 0x1D980107 = .ok (.jmpd false 6 (.reg 4) 7) ∧ decodeWord 0x5F040000 = .ok (.ctlExit false) ∧
    decodeWord 0x5F080000 = .ok (.ctlJoinp false) ∧ decodeWord 0x5F0C0140 = .ok (.ctlTrap false (.reg 5)) := by decide

/-- ALD, RCHK, SYMLD and SYMST (R271 to R284). -/
theorem test_decode_alphabet : decodeWord 0x50040140 = .ok (.ald false 1 (.reg 5)) ∧
    decodeWord 0x1380E340 = .ok (.rchk false 0 (.reg 14) (.reg 13)) ∧ decodeWord 0x15005152 = .ok (.symld false 0 0 0 (.reg 10) 5 9) ∧
    decodeWord 0x15205952 = .ok (.symld false 1 0 0 (.reg 11) 5 9) ∧
    decodeWord 0x15A06152 = .ok (.symst false 1 0 0 (.reg 12) 5 9) := by decide

/-- Loads, stores, atomics and fences; `.rel` is 01 on a store and 10 on FENCE (R75, R188 to R202). -/
theorem test_decode_memory : decodeWord 0x60A420BF = .ok (.st false true 2 1 0 (.reg 8) 5 31) ∧
    decodeWord 0xE02624BF = .ok (.ld true true 2 1 2 (.reg 9) 5 31) ∧
    decodeWord 0xA16010A6 = .ok (.atom true false 6 0 0 (.reg 4) 5 6) ∧ decodeWord 0x6142213F = .ok (.atom false true 4 0 2 (.reg 8) 9 31) ∧
    decodeWord 0x63830000 = .ok (.fence false 0 3) ∧ decodeWord 0x638A0000 = .ok (.fence false 2 2) ∧
    decodeWord 0x65940000 = .ok (.cntw false 5) := by decide

/-- Tile and matrix words (R314 to R352). -/
theorem test_decode_tiles : decodeWord 0x70003140 = .ok (.tdef false 3 5) ∧ decodeWord 0x70843000 = .ok (.tsetReady false 3) ∧
    decodeWord 0x71043146 = .ok (.tld false true 3 5 6) ∧ decodeWord 0x71803146 = .ok (.tst false 3 5 6) ∧
    decodeWord 0x32008204 = .ok (.mmq false 0 0 8 8 4) ∧ decodeWord 0x72809140 = .ok (.mmt false 9 5) ∧
    decodeWord 0x73008140 = .ok (.mms false 8 5) ∧ decodeWord 0x73808140 = .ok (.mnorm false 8 5) ∧
    decodeWord 0x74008140 = .ok (.aliasTab false 8 5) ∧ decodeWord 0x74808000 = .ok (.accz false 8) ∧
    decodeWord 0x75948146 = .ok (.drain false 5 8 5 6) ∧ decodeWord 0x760040C0 = .ok (.txp false 4 3) ∧
    decodeWord 0x76807200 = .ok (.varr false 7 8) ∧ decodeWord 0x77003002 = .ok (.tq false 3 2) := by decide

/-- Iterator and engine words (R301 to R309, R363 to R372, R442). -/
theorem test_decode_engines : decodeWord 0x78000140 = .ok (.itnew false 0 0 5) ∧ decodeWord 0x789001C1 = .ok (.itadd false 4 0 7 1) ∧
    decodeWord 0x79000001 = .ok (.next false false 0 0 1) ∧ decodeWord 0x79800000 = .ok (.enough false 0) ∧
    decodeWord 0x7A00C04D = .ok (.itsave false 12 1 13) ∧ decodeWord 0x7A801340 = .ok (.itload false 1 13) ∧
    decodeWord 0x7B00B000 = .ok (.itq false 11 0) ∧ decodeWord 0x7C02B000 = .ok (.cpy false 0 1 11) ∧
    decodeWord 0x7C328000 = .ok (.cpy false 3 1 8) ∧ decodeWord 0x7C818000 = .ok (.qfence false 3) ∧
    decodeWord 0x7D00A1C9 = .ok (.qwait false (.reg 10) (.reg 7) (.reg 9)) ∧ decodeWord 0x7DC06000 = .ok (.coll false 4 0 6) := by decide

/-- System words, snapshots, records, barriers and channels (R291 to R299, R391, R393, R418 to R420, R427). -/
theorem test_decode_system : decodeWord 0x7E880000 = .ok (.sysEret false) ∧ decodeWord 0x7E8C0105 = .ok (.sysTlbinv false 4 5) ∧
    decodeWord 0x7E900105 = .ok (.sysXtinv false 4 5) ∧ decodeWord 0x7E985180 = .ok (.sysHaltg false 5 6) ∧
    decodeWord 0x7E940700 = .ok (.sysFrame false 28 0) ∧ decodeWord 0x7E046000 = .ok (.snapQuery false 6) ∧
    decodeWord 0x7E086000 = .ok (.snapRelease false 6) ∧ decodeWord 0x6D006000 = .ok (.cr false (.reg 6) 0) ∧
    decodeWord 0x6D00E001 = .ok (.cr false (.reg 14) 1) ∧
    decodeWord 0x6980D140 = .ok (.bars false (.reg 13) (.reg 5)) ∧
    decodeWord 0xCB80AA00 = .ok (.mov true true (.reg 10) (.chan false 8)) ∧
    decodeWord 0x4B82F2C0 = .ok (.mov false true (.chan false 15) (.reg 11)) := by decide

/-- A prefix, clause headers, and the two pair codes of one word (R28, R44, R47, R53). -/
theorem test_decode_forms : decodeWord 0x3F802400 = .ok (.pfx 0 false 0 (.reg 9) 0) ∧
    (decodeHeader 0x10000056).isSome ∧ (decodeHeader 0x1A000016).isSome ∧ (decodeHeader 0x8E000016).isSome := by decide

/-- Words of no instruction: an unassigned opcode, DIV with a type it does not take, `SAT` with f32, and
a stage that no butterfly has (R61, R64, R66). -/
theorem test_decode_illegal : (decodeWord 0x16000000).toOption = none ∧
    (decodeWord 0x04943042).toOption.map Instr.wf ≠ some true ∧ (decodeWord 0x00C83042).toOption.map Instr.wf ≠ some true ∧
    (decodeWord 0x18D43040).toOption.map Instr.wf ≠ some true := by decide

/-! ## Small states, and what makes a word issue -/

/-- The first group slot and the first lead context of core 0. -/
def idG : AgentId := { core := 0, idx := 0 }
def idL : AgentId := { core := 0, idx := 64 }
def idH : AgentId := { core := 0, idx := 1 }

/-- A vector register by lane. -/
def vec (f : Nat → Word) : VReg := (List.range 32).map f

/-- A group of the task 0x1000 of context 0, with values in some registers, and its lead. -/
def grp : Agent := { freshAgent false 0 0x1000 0 0x20000 0xFF with
  x := [(2, 2), (3, 0x30000), (4, 0x30040), (5, 0x30080), (6, 6), (7, 0x229), (8, 0x20100), (9, 0x20102), (10, 1),
    (11, 0x1000000000000000), (12, 0x100), (13, 0xFFFFFFFFFFFFFFFF), (14, 0x2500), (15, 0x2501)]
  v := [(1, vec fun l => BitVec.ofNat 32 l), (2, vec fun l => BitVec.ofNat 32 (3 * l + 1)), (3, vec fun l => BitVec.ofNat 32 (4 * l)),
        (4, vec fun l => BitVec.ofNat 32 (100 * l))]
  m := [(1, 0xF0F0)], al := [(0, 0x229), (1, 0x429), (2, 0x1000000000229)], frame := 0x80000, clause := some (clauseOf 2 0) }
def ldr : Agent := { freshAgent true 0 0x1000 0 0x20000 0xFF with
  x := [(2, 2), (3, 0x30000), (4, 0x30040), (5, 0x30080), (6, 6), (7, 0x229), (8, 0x20100), (9, 0x20102), (10, 1), (12, 0x100)]
  frame := 0x86000, clause := some (clauseOf 2 0) }

/-- The task on core 0, with 1 MiB from address 0 up in one extent. -/
def extent : Extent :=
  { vbase := 0, pbase := 0, npg := 16, d := true, sup := false, x := true, w := true, r := true, ord := 0, stale := false
    leaves := [], decl := 3, win := [] }
def place : Placed := { freshPlaced 0 0x1000 with exts := [extent] }

/-- The machine with that agent in turn, its task RUNNING and its context ACTIVE. -/
def run (a : Agent) : State :=
  let id := if a.lead then idL else idG
  let s := (State.reset.setPlaced 0 0 place).setAgent id a
  let s : State := { s with runq := [id], tasks := [(0x1000, { freshTask 0 0 with st := .running, cores := [(0, 0)] })] }
  s.setCtx 0 { CtxSlot.new with st := .active, image := BitVec.ofNat 1024 (0x80000 * 2 ^ 576 + 4 * 2 ^ 640) }

/-- A clause header of one word that is a landing point, and the machine with one at 0x20100. -/
def header : Header := { n := 1, ecls := 0, w := 0, pair := 0, l := true }
def runM (a : Agent) : State := { run a with mem := writeN [] 0x20100 4 (encodeHeader header) }

/-- Whether a word comes to its sources, and whether it issues, as tests. -/
def tries (s : State) (p : Instr × Rules) : Bool :=
  match s.current with
  | some (_, a) => a.now.isNone && a.clear a.gate && accepts s a p.1 p.2
  | none => false
def issues (s : State) (p : Instr × Rules) : Bool :=
  tries s p && match s.current with
  | some (id, a) => (p.2.first a).isNone && !s.closed id a p.2 &&
      !s.held id a p.1 p.2 a.late (p.2.pops a.prefixOf) && (s.core id.core).lost.isEmpty
  | none => false

theorem tries_of {s : State} {id : AgentId} {a : Agent} (h : s.current = some (id, a)) {i : Instr} {r : Rules}
    (k : tries s (i, r) = true) : Tries s id a i r := by
  simp only [tries, h, Bool.and_eq_true, Option.isNone_iff_eq_none] at k
  exact ⟨h, k.1.1, k.1.2, k.2⟩

theorem issues_of {s : State} {id : AgentId} {a : Agent} (h : s.current = some (id, a)) {i : Instr} {r : Rules}
    (k : issues s (i, r) = true) : Issues s id a i r := by
  simp only [issues, h, Bool.and_eq_true, Bool.not_eq_true', Option.isNone_iff_eq_none, List.isEmpty_iff] at k
  exact ⟨tries_of h k.1, k.2.1.1.1, k.2.1.1.2, k.2.1.2, k.2.2⟩

/-- Whether the header at `t` reads well, as a test. -/
def lands (s : State) (id : AgentId) (t : Word64) : Bool :=
  t.toNat % 4 == 0 && match s.fetchWords id headNo t.toNat 1 with
    | (_, .ok [w]) => (decodeHeader w).isSome
    | _ => false

theorem lands_of {s : State} {id : AgentId} {t : Word64} (h : lands s id t = true) :
    Lands s (s.fetchWords id headNo t.toNat 1).1 id t := by
  unfold lands at h
  simp only [Bool.and_eq_true, beq_iff_eq] at h
  refine ⟨h.1, ?_⟩
  rcases hf : s.fetchWords id headNo t.toNat 1 with ⟨s1, r⟩
  rw [hf] at h
  match r, h.2 with
  | .ok [w], k =>
    obtain ⟨x, hx⟩ := Option.isSome_iff_exists.mp k
    exact ⟨w, x, rfl, hx⟩

theorem tries_all {s : State} {id : AgentId} {a : Agent} (h : s.current = some (id, a)) {l : List (Instr × Rules)}
    (k : l.all (tries s) = true) : ∀ p ∈ l, Tries s id a p.1 p.2 :=
  fun p hp => tries_of h (List.all_eq_true.mp k p hp)

theorem issues_all {s : State} {id : AgentId} {a : Agent} (h : s.current = some (id, a)) {l : List (Instr × Rules)}
    (k : l.all (issues s) = true) : ∀ p ∈ l, Issues s id a p.1 p.2 :=
  fun p hp => issues_of h (List.all_eq_true.mp k p hp)

/-! ## States and operands that meet the hypotheses of the statements -/

/-- A group with the prefix `p` in force. -/
def pre (p : Pfx) : Agent := { grp with pfx := some p }
def pfxC (c : Opd) : Pfx := { m := 0, z := false, rnd := 0, c := c, x := 0 }

/-- The two registers that most words read, and room in the destination. -/
theorem wit_operands : readVs (run grp) idG [.reg 1, .reg 2] = some ([grp.getV 1, grp.getV 2], run grp) ∧
    readVs (run grp) idG [.reg 1] = some ([grp.getV 1], run grp) ∧ chanRoom (run grp) idG (.reg 3) ∧
    readUs (run grp) idG [.reg 2, .reg 6] = some ([2, 6], run grp) ∧ taskRoom (run grp) idG (.reg 3) :=
  ⟨rfl, rfl, trivial, rfl, trivial⟩

theorem wit_IntegerWords : ∀ p ∈ ([
    (.add false false true 0 (.reg 3) (.reg 1) (.reg 2), regRules false (.reg 3) [.reg 1, .reg 2] 0),
    (.sub false false false 1 (.reg 3) (.reg 1) (.reg 2), regRules false (.reg 3) [.reg 1, .reg 2] 0),
    (.mul false false false 5 (.reg 3) (.reg 1) (.reg 2), regRules false (.reg 3) [.reg 1, .reg 2] 0),
    (.min false false 6 (.reg 3) (.reg 1) (.reg 2), regRules false (.reg 3) [.reg 1, .reg 2] 0),
    (.max false false 0 (.reg 3) (.reg 1) (.reg 2), regRules false (.reg 3) [.reg 1, .reg 2] 0),
    (.absd false false 1 (.reg 3) (.reg 1) (.reg 2), regRules false (.reg 3) [.reg 1, .reg 2] 0),
    (.div false false 2 (.reg 3) (.reg 1) (.reg 2), regRules false (.reg 3) [.reg 1, .reg 2] (rndOf 2)),
    (.rem false false 1 (.reg 3) (.reg 1) (.reg 2), regRules false (.reg 3) [.reg 1, .reg 2] 0),
    (.shift false false 2 3 (.reg 3) (.reg 1) (.reg 2), regRules false (.reg 3) [.reg 1, .reg 2] 0),
    (.bits false false 4 (.reg 3) (.reg 1), regRules false (.reg 3) [.reg 1] 0),
    (.bfx false false true (.reg 3) (.reg 1) (.reg 2), regRules false (.reg 3) [.reg 1, .reg 2] 0),
    (.bfi false false (.reg 3) (.reg 1) (.reg 2), regRules false (.reg 3) [.reg 1, .reg 2] 0),
    (.sel false 1 (.reg 3) (.reg 1) (.reg 2), vecRules (.reg 3) [.reg 1, .reg 2] 0),
    (.mov false false (.reg 3) (.reg 1), regRules false (.reg 3) [.reg 1] 0),
    (.bcast false (.reg 3) 2, vecRules (.reg 3) [] 0),
    (.add false true true 0 (.reg 3) (.reg 2) (.reg 6), regRules true (.reg 3) [.reg 2, .reg 6] 0),
    (.sub false true false 1 (.reg 3) (.reg 2) (.reg 6), regRules true (.reg 3) [.reg 2, .reg 6] 0),
    (.mul false true false 2 (.reg 3) (.reg 2) (.reg 6), regRules true (.reg 3) [.reg 2, .reg 6] (rndOf 2)),
    (.min false true 0 (.reg 3) (.reg 2) (.reg 6), regRules true (.reg 3) [.reg 2, .reg 6] 0),
    (.max false true 0 (.reg 3) (.reg 2) (.reg 6), regRules true (.reg 3) [.reg 2, .reg 6] 0),
    (.absd false true 1 (.reg 3) (.reg 2) (.reg 6), regRules true (.reg 3) [.reg 2, .reg 6] 0),
    (.div false true 0 (.reg 3) (.reg 2) (.reg 6), regRules true (.reg 3) [.reg 2, .reg 6] 0),
    (.rem false true 1 (.reg 3) (.reg 2) (.reg 6), regRules true (.reg 3) [.reg 2, .reg 6] 0),
    (.shift false true 0 2 (.reg 3) (.reg 2) (.reg 6), regRules true (.reg 3) [.reg 2, .reg 6] 0),
    (.bits false true 1 (.reg 3) (.reg 2), regRules true (.reg 3) [.reg 2] 0),
    (.bfx false true false (.reg 3) (.reg 2) (.reg 6), regRules true (.reg 3) [.reg 2, .reg 6] 0),
    (.bfi false true (.reg 3) (.reg 2) (.reg 6), regRules true (.reg 3) [.reg 2, .reg 6] 0),
    (.mov false true (.reg 3) (.reg 2), regRules true (.reg 3) [.reg 2] 0)] : List (Instr × Rules)),
    Issues (run grp) idG grp p.1 p.2 := issues_all rfl (by decide +kernel)

theorem wit_ImmediateAndFourthOperandWords :
    (∀ p ∈ ([(.movi false false (.reg 3) 7, { regRules false (.reg 3) [] 0 with okX := true }),
      (.movi false true (.reg 3) 7, { regRules true (.reg 3) [] 0 with okX := true }),
      (.movh false false (.reg 3) 7, regRules false (.reg 3) [] 0),
      (.movh false true (.reg 3) 7, { regRules true (.reg 3) [] 0 with okX := true }),
      (.mad false false false 2 (.reg 3) (.reg 1) (.reg 2), { regRules false (.reg 3) [.reg 1, .reg 2] (rndOf 2) with okC := true, first := addendFirst (.reg 3) }),
      (.mad false true true 0 (.reg 3) (.reg 2) (.reg 6), { regRules true (.reg 3) [.reg 2, .reg 6] 0 with okC := true, first := addendFirst (.reg 3) }),
      (.perm false false (.reg 3) (.reg 1) (.reg 2), { regRules false (.reg 3) [.reg 1, .reg 2] 0 with okC := true }),
      (.perm false true (.reg 3) (.reg 2) (.reg 6), { regRules true (.reg 3) [.reg 2, .reg 6] 0 with okC := true })] :
        List (Instr × Rules)), Issues (run grp) idG grp p.1 p.2) ∧ grp.pfx = none ∧
    (∀ p ∈ ([(.movi false false (.reg 3) 7, { regRules false (.reg 3) [] 0 with okX := true }),
      (.movh false true (.reg 3) 7, { regRules true (.reg 3) [] 0 with okX := true })] : List (Instr × Rules)),
      Issues (run (pre { pfxC (.reg 0) with x := 5 })) idG (pre { pfxC (.reg 0) with x := 5 }) p.1 p.2) ∧
    (∀ p ∈ ([(.mad false false false 2 (.reg 3) (.reg 1) (.reg 2), { regRules false (.reg 3) [.reg 1, .reg 2] (rndOf 2) with okC := true, first := addendFirst (.reg 3) }),
      (.mad false true true 0 (.reg 3) (.reg 2) (.reg 6), { regRules true (.reg 3) [.reg 2, .reg 6] 0 with okC := true, first := addendFirst (.reg 3) }),
      (.perm false false (.reg 3) (.reg 1) (.reg 2), { regRules false (.reg 3) [.reg 1, .reg 2] 0 with okC := true }),
      (.perm false true (.reg 3) (.reg 2) (.reg 6), { regRules true (.reg 3) [.reg 2, .reg 6] 0 with okC := true })] :
        List (Instr × Rules)), Issues (run (pre (pfxC (.reg 4)))) idG (pre (pfxC (.reg 4))) p.1 p.2) ∧
    (pre (pfxC (.reg 4))).prefixOf.c = .reg 4 :=
  ⟨issues_all rfl (by decide +kernel), rfl, issues_all rfl (by decide +kernel), issues_all rfl (by decide +kernel), rfl⟩

theorem wit_CompareWords :
    Issues (run grp) idG grp (.cmp false true 2 0 (.reg 3) (.reg 2) (.reg 6))
      { regRules true (.reg 3) [.reg 2, .reg 6] 0 with dst := some (.reg 3) } ∧
    Issues (run grp) idG grp (.cmp false false 2 2 (.reg 2) (.reg 1) (.reg 2))
      { regRules false (.reg 2) [.reg 1, .reg 2] 0 with dst := none } :=
  ⟨issues_of rfl (by decide +kernel), issues_of rfl (by decide +kernel)⟩

theorem wit_FloatWords :
    (∀ p ∈ ([(.fclass false false 2 (.reg 3) (.reg 1), regRules false (.reg 3) [.reg 1] 0),
      (.fclass false true 2 (.reg 3) (.reg 2), regRules true (.reg 3) [.reg 2] 0),
      (.fsgn false false 2 2 (.reg 3) (.reg 1) (.reg 2), regRules false (.reg 3) [.reg 1, .reg 2] 0),
      (.fsgn false true 2 2 (.reg 3) (.reg 2) (.reg 6), regRules true (.reg 3) [.reg 2, .reg 6] 0),
      (.sfu false true 2 (.reg 3) (.reg 1), vecRules (.reg 3) [.reg 1] 4),
      (.dot false 3 (.reg 3) (.reg 1) (.reg 2), { vecRules (.reg 3) [.reg 1, .reg 2] 0 with okC := true, first := addendFirst (.reg 3) })] :
        List (Instr × Rules)), Issues (run grp) idG grp p.1 p.2) ∧
    Issues (run (pre (pfxC (.reg 4)))) idG (pre (pfxC (.reg 4))) (.dot false 0 (.reg 3) (.reg 1) (.reg 2))
      { vecRules (.reg 3) [.reg 1, .reg 2] 4 with okC := true, first := addendFirst (.reg 3) } :=
  ⟨issues_all rfl (by decide +kernel), issues_of rfl (by decide +kernel)⟩

theorem wit_ConversionWords :
    (∀ p ∈ ([(.cvt false true 0 (.reg 3) (.reg 2) 0 2, { regRules true (.reg 3) [.reg 2] 0 with okC := false, first := cvtFirst 0 true 0 2 }),
      (.cvt false false 0 (.reg 3) (.reg 1) 2 4, { regRules false (.reg 3) [.reg 1] 0 with okC := false, first := cvtFirst 0 false 2 4 }),
      (.cvt false false 0 (.reg 3) (.reg 2) 2 13, { regRules false (.reg 3) [.reg 2] 0 with okC := false, first := cvtFirst 0 false 2 13 }),
      (.cvt false false 0 (.reg 3) (.reg 1) 13 14, { regRules false (.reg 3) [.reg 1] 0 with okC := false, first := cvtFirst 0 false 13 14 }),
      (.cvt false false 0 (.reg 6) (.reg 4) 13 2, { regRules false (.reg 6) [.reg 4] 0 with okC := false, first := cvtFirst 0 false 13 2 })] :
        List (Instr × Rules)), Issues (run grp) idG grp p.1 p.2) ∧
    (∀ p ∈ ([(.cvt false false 5 (.reg 4) (.reg 3) 2 4, { regRules false (.reg 4) [.reg 3] 0 with okC := true, first := cvtFirst 5 false 2 4 }),
      (.cvt false true 5 (.reg 3) (.reg 2) 0 2, { regRules true (.reg 3) [.reg 2] 0 with okC := true, first := cvtFirst 5 true 0 2 }),
      (.cvt false false 5 (.reg 3) (.reg 2) 2 13, { regRules false (.reg 3) [.reg 2] 0 with okC := true, first := cvtFirst 5 false 2 13 })] :
        List (Instr × Rules)), Issues (run (pre (pfxC (.reg 1)))) idG (pre (pfxC (.reg 1))) p.1 p.2) ∧
    readVs (run grp) idG [.reg 2, .reg (BitVec.ofNat 5 ((Opd.reg 2).code + 1)), .reg 0] =
      some ([grp.getV 2, grp.getV 3, grp.getV 0], run grp) :=
  ⟨issues_all rfl (by decide +kernel), issues_all rfl (by decide +kernel), rfl⟩

theorem wit_BlockScaleWords :
    Issues (run grp) idG grp (.qdec false 7 (.reg 3) (.reg 1) (.reg 2)) (vecRules (.reg 3) [.reg 1, .reg 2] 4) ∧
    Issues (run grp) idG grp (.qscl false 7 (.reg 3) (.reg 1)) { vecRules (.reg 3) [.reg 1] 0 with first := convergedFirst } ∧ grp.converged = true ∧
    Issues (run grp) idG grp (.qenc false 11 (.reg 3) (.reg 1) (.reg 2))
      { vecRules (.reg 3) [.reg 1, .reg 2] 5 with okC := true, first := qencFirst 11 } ∧ grp.prefixOf.rnd ≠ 5 ∧ grp.prefixOf.c = .reg 0 ∧
    Issues (run (pre { pfxC (.reg 4) with rnd := 5 })) idG (pre { pfxC (.reg 4) with rnd := 5 })
      (.qenc false 7 (.reg 3) (.reg 1) (.reg 2)) { vecRules (.reg 3) [.reg 1, .reg 2] 5 with okC := true, first := qencFirst 7 } ∧
    readVs (run grp) idG [.reg 1, .reg 2, .reg 0] = some ([grp.getV 1, grp.getV 2, grp.getV 0], run grp) :=
  ⟨issues_of rfl (by decide +kernel), issues_of rfl (by decide +kernel), by decide +kernel, issues_of rfl (by decide +kernel),
    by decide +kernel, rfl, issues_of rfl (by decide +kernel), rfl⟩

theorem wit_AlphabetWords :
    (∀ p ∈ ([(.rget false 0 (.reg 3) (.reg 1) (.reg 2), alRules 0 (.reg 3) [.reg 1, .reg 2]),
      (.rset false 2 (.reg 3) (.reg 1) (.reg 2), { alRules 2 (.reg 3) [.reg 1, .reg 2] with legal := true }),
      (.runpk false 2 (.reg 3) (.reg 1) (.reg 2), alRules 2 (.reg 3) [.reg 1, .reg 2]),
      (.rpack false 0 (.reg 3) (.reg 1) (.reg 2), { alRules 0 (.reg 3) [.reg 1, .reg 2] with legal := true }),
      (.rsum false 2 (.reg 3) (.reg 1) (.reg 2), alRules 2 (.reg 3) [.reg 1, .reg 2]),
      (.rcnt false 1 (.reg 3) (.reg 1) (.reg 2), alRules 1 (.reg 3) [.reg 1, .reg 2]),
      (.rchk false 0 (.reg 3) (.reg 1), alRules 0 (.reg 3) [.reg 1]),
      (.rmap false 0 (.reg 3) (.reg 1) 1, { alRules 0 (.reg 3) [.reg 1] with first := emptyFirst [0, 1] }),
      (.rdot false true 0 1 (.reg 3) (.reg 1) (.reg 2), { vecRules (.reg 3) [.reg 1, .reg 2] 0 with
          okC := true, traps := true, first := rdotFirst 0 1 (.reg 3) })] :
        List (Instr × Rules)), Issues (run grp) idG grp p.1 p.2) ∧
    grp.getAl 0 ≠ 0 ∧ grp.getAl 1 ≠ 0 ∧ grp.getAl 2 ≠ 0 ∧ alTrap (grp.getAl 2) = true ∧ alN (grp.getAl 1) = alN (grp.getAl 0) ∧
    (∀ l, l < 32 → let v := [laneOf (grp.getV 1) l, laneOf (grp.getV 2) l, laneOf (grp.getV 3) l]
      (rgetOf (grp.getAl 0) v).isSome ∧ (rsetOf (grp.getAl 2) v).isSome ∧ (runpkOf (grp.getAl 2) v).isSome ∧
      (rpackOf (grp.getAl 0) v).isSome ∧ (rsumOf (grp.getAl 2) v).isSome ∧ (rcntOf (grp.getAl 1) v).isSome ∧
      (rmapOf (grp.getAl 0) (grp.getAl 1) v).isSome ∧ (rdotOf true (grp.getAl 1) (grp.getAl 0) v).isSome) :=
  ⟨issues_all rfl (by decide +kernel), by decide +kernel⟩

theorem wit_AlphabetChecks :
    Issues (run grp) idG grp (.ald false 3 (.reg 7)) { form := .u, u := true, src := [.reg 7], regs := true, traps := true, late := true } ∧ alValid (grp.getX 7) = true ∧
    Issues (run grp) idG grp (.ald false 3 (.reg 2)) { form := .u, u := true, src := [.reg 2], regs := true, traps := true, late := true } ∧ alValid (grp.getX 2) = false ∧
    (let s := (run grp).setPlaced 0 0 { place with chans := [(8, { depth := 2, elems := [0x229] })] }
     Issues s idG grp (.ald false 3 (.chan false 8)) { form := .u, u := true, src := [.chan false 8], regs := true, traps := true, late := true } ∧
       (readU s idG (.chan false 8)).map Prod.fst = some 0x229) ∧
    Issues (run grp) idG grp (.rsum false 2 (.reg 3) (.reg 4) (.reg 2)) (alRules 2 (.reg 3) [.reg 4, .reg 2]) ∧
    ((grp.active grp.prefixOf).getLsbD 3 && alTrap (grp.getAl 2) &&
      decide (alP (grp.getAl 2) ≤ (laneOf (grp.getV 4) 3).toNat)) = true :=
  ⟨issues_of rfl (by decide +kernel), by decide +kernel, issues_of rfl (by decide +kernel), by decide +kernel,
    ⟨issues_of rfl (by decide +kernel), by decide +kernel⟩, issues_of rfl (by decide +kernel), by decide +kernel⟩

/-- A group with two paths that both go on. -/
def two : Agent := { grp with paths := [{ grp.path with mask := 0xFFFF }, { grp.path with mask := 0xFFFF0000 }] }

theorem wit_CrossLaneWords :
    (∀ p ∈ ([(.shfl false 1 (.reg 3) (.reg 1) (.reg 2), laneRules (.reg 3) [.reg 1, .reg 2] 0),
      (.vote false 2 (.reg 3) (.reg 1), laneRules (.reg 3) [.reg 1] 0),
      (.redg false 1 (.reg 3) (.reg 1), laneRules (.reg 3) [.reg 1] (redRnd 1)),
      (.scang false true 0 (.reg 3) (.reg 1), laneRules (.reg 3) [.reg 1] (redRnd 0)),
      (.lane false 9 (.reg 1) 2, { form := .v, u := false, src := [.reg 1], regs := true, late := true, first := convergedFirst }),
      (.bfly false 1 3 (.reg 16) (.reg 0), { laneRules (.reg 16) [.reg 0] 0 with legal := bflyLegal 2 (.reg 16) (.reg 0) }),
      (.lmap false 0 (.reg 3) (.reg 0) (.reg 0), vecRules (.reg 3) [] 0), (.lmap false 1 (.reg 3) (.reg 0) (.reg 0), vecRules (.reg 3) [] 0),
      (.lmap false 2 (.reg 0) (.reg 1) (.reg 0), { vecRules (.reg 0) [.reg 1] 0 with okM := true })] :
        List (Instr × Rules)), Issues (run grp) idG grp p.1 p.2) ∧ grp.converged = true ∧
    (∀ p ∈ ([(.shfl false 1 (.reg 3) (.reg 1) (.reg 2), laneRules (.reg 3) [.reg 1, .reg 2] 0),
      (.vote false 2 (.reg 3) (.reg 1), laneRules (.reg 3) [.reg 1] 0), (.redg false 1 (.reg 3) (.reg 1), laneRules (.reg 3) [.reg 1] (redRnd 1)),
      (.scang false true 0 (.reg 3) (.reg 1), laneRules (.reg 3) [.reg 1] (redRnd 0)),
      (.lane false 9 (.reg 1) 2, { form := .v, u := false, src := [.reg 1], regs := true, late := true, first := convergedFirst })] :
        List (Instr × Rules)), Tries (run two) idG two p.1 p.2) ∧ two.converged = false :=
  ⟨issues_all rfl (by decide +kernel), by decide +kernel, tries_all rfl (by decide +kernel), by decide +kernel⟩

/-- What a reading gives, as a test. -/
def okVals (r : Except Got (List Nat)) : Option (List Nat) := r.toOption

/-- The header at 0x20100 reads well. -/
theorem lands_grp : Lands (runM grp) ((runM grp).fetchWords idG headNo 0x20100 1).1 idG 0x20100 :=
  lands_of (s := runM grp) (id := idG) (t := 0x20100) (by decide +kernel)

theorem wit_UniformTransfers :
    (∀ p ∈ ([(.br false 0 0 63, ctlRules true), (.br false 1 0 63, ctlRules true), (.br false 2 2 63, ctlRules true),
      (.br false 3 13 63, ctlRules true), (.br false 4 2 63, ctlRules true), (.br false 1 2 63, ctlRules true),
      (.jmp false (.reg 8), ctlRules false), (.call false (.reg 1) (.reg 8), ctlRules false),
      (.loop false (.reg 2) (.reg 8), ctlRules false), (.loop false (.reg 10) (.reg 8), ctlRules false),
      (.jmp false (.reg 9), ctlRules false), (.call false (.reg 1) (.reg 9), ctlRules false),
      (.loop false (.reg 2) (.reg 9), ctlRules false)] : List (Instr × Rules)), Issues (runM grp) idG grp p.1 p.2) ∧
    (let w := grp.path.pc + BitVec.ofNat 64 (4 * (grp.path.wix + 1)) + (63 : BitVec 15).signExtend 64 * 4
     w = 0x20100 ∧ grp.getX 8 = 0x20100 ∧ Lands (runM grp) ((runM grp).fetchWords idG headNo 0x20100 1).1 idG 0x20100) ∧
    grp.getX 2 - 1 ≠ 0 ∧ grp.getX 10 - 1 = 0 ∧ (grp.getX 9).toNat % 4 ≠ 0 ∧ grp.live ≠ 0 ∧ grp.cur < grp.paths.length ∧
    grp.wordAddr.toNat < 0x20100 ∧ (0x20000 : Word64).toNat ≤ grp.wordAddr.toNat ∧ ({ grp with inHandler := true } : Agent).inHandler = true :=
  ⟨issues_all rfl (by decide +kernel), ⟨by decide +kernel, by decide +kernel, lands_grp⟩, by decide +kernel⟩

/-- What the issue stage asks of BRD. -/
def brdRules : Rules := { form := .v, u := false, okX := true, regs := true, fixed := true }

theorem wit_DivergentTransfers :
    (∀ p ∈ ([(.brd false 5 3 63, brdRules), (.brd false 1 0 63, brdRules), (.brd false 0 1 63, brdRules),
      (.jmpd false 6 (.reg 0) 8, { form := .v, u := false, regs := true, fixed := true }), (.brd false 7 1 63, brdRules)] : List (Instr × Rules)), Issues (runM grp) idG grp p.1 p.2) ∧
    grp.live &&& grp.getM 3 = 0 ∧ grp.live &&& ~~~ grp.getM 0 = 0 ∧ grp.live &&& grp.getM 1 ≠ 0 ∧ grp.live &&& ~~~ grp.getM 1 ≠ 0 ∧
    grp.target 63 = 0x20100 ∧ Lands (runM grp) ((runM grp).fetchWords idG headNo 0x20100 1).1 idG 0x20100 ∧
    jmpdTargets grp 8 (.reg 0) = [(0x20100, 0xFFFFFFFF)] ∧ grp.paths.length < 4 ∧
    okVals ((runM grp).fetchWords idG headNo 0x20100 1).2 = some [encodeHeader header] ∧
    decodeHeader (encodeHeader header) = some header ∧ header.l = true ∧ grp.clear 13 = true ∧ grp.late = [] ∧ (runM grp).drains grp = false ∧
    ((runM grp).cluster 0).slots + (lanes (grp.live &&& grp.getM 1)).length ≤ 8192 :=
  ⟨issues_all rfl (by decide +kernel), by decide +kernel, by decide +kernel, by decide +kernel, by decide +kernel, by decide +kernel,
    lands_grp, by decide +kernel⟩

theorem wit_ControlWords :
    (∀ p ∈ ([(.ctlYield false, ctlRules false), (.ctlJoinp false, ctlRules false), (.ctlExit false, ctlRules false),
      (.ctlTrap false (.reg 2), ctlRules false), (.ctlBkpt false, ctlRules false)] : List (Instr × Rules)),
      Issues (run grp) idG grp p.1 p.2 ∧ Issues (run two) idG two p.1 p.2) ∧ grp.paths.length ≤ 1 ∧ grp.paths = [grp.path] ∧
    grp.cur = 0 ∧ two.lead = false ∧ two.inHandler = false ∧ 1 < two.paths.length ∧
    (∃ p ∈ two.paths.eraseIdx two.cur, p.waiting = false) :=
  ⟨fun p hp => ⟨issues_all rfl (by decide +kernel) p hp, issues_all rfl (by decide +kernel) p hp⟩, by decide +kernel, rfl, rfl, rfl, rfl,
    by decide +kernel, _, List.mem_singleton.mpr rfl, rfl⟩

/-- A group that has to trap, one with a result outstanding, and one in a handler. -/
def trapping : Agent := { grp with pend := .trap 9 7 }
def busy : Agent := { trapping with cld := 1, outst := [{ tag := 3, cls := .ld, writes := [], flags := 0, left := 0, sent := 0, more := false }] }
def handler : Agent := { grp with inHandler := true, priv := true, tpc := 0x20000, tclause := 1, tcause := 5 }
def saving : Agent := { handler with tcause := BitVec.ofNat 64 trPreempt }

theorem wit_TrapEntry :
    (run trapping).agent idG = some trapping ∧ trapping.inHandler = false ∧ ((run trapping).core idG.core).turns = [] ∧
    trapping.cur < trapping.paths.length ∧ trapping.cld = 0 ∧ trapping.cst = 0 ∧ trapping.cmat = 0 ∧ trapping.cchn = 0 ∧
    trapping.outst = [] ∧ (run busy).agent idG = some busy ∧ busy.outst ≠ [] ∧ ((run busy).core idG.core).turns = [] ∧
    trapping.late = [] ∧ trapping.settled = true ∧ busy.settled = false ∧ trapping.pend = .trap 9 7 ∧ busy.pend = .trap 9 7 ∧ handler.inHandler = true := by decide +kernel

theorem wit_HandlerReturn : Issues (run handler) idG handler (.sysEret false) sysRules ∧ handler.priv = true ∧
    handler.tcause.toNat % 256 ≠ trPreempt ∧ handler.tcause.toNat % 256 ≠ trSwTrap ∧ handler.tcause.toNat % 256 ≠ trBkpt ∧
    handler.cur < handler.paths.length ∧
    Issues (run saving) idG saving (.sysEret false) sysRules ∧ saving.tcause.toNat % 256 = trPreempt ∧ saving.tinfo.getLsbD 0 = false ∧
    (run saving).drains saving = false ∧ saving.late = [] ∧
    (let out := { grp with priv := true }
     Issues (run out) idG out (.sysEret false) sysRules ∧ out.inHandler = false) :=
  ⟨issues_of rfl (by decide +kernel), by decide +kernel, by decide +kernel, by decide +kernel, by decide +kernel, by decide +kernel,
    issues_of rfl (by decide +kernel), by decide +kernel, by decide +kernel, by decide +kernel, rfl, issues_of rfl (by decide +kernel), by decide +kernel⟩

theorem wit_SupervisorRegisters : ∀ p ∈ ([(.sysCsrr false 3 0, sysRules), (.sysCsrr false 3 1, sysRules), (.sysCsrr false 3 2, sysRules),
    (.sysCsrr false 3 3, sysRules), (.sysCsrr false 3 4, sysRules), (.sysCsrr false 3 5, sysRules), (.sysCsrr false 3 6, sysRules),
    (.sysCsrr false 3 7, sysRules), (.sysCsrr false 3 8, sysRules), (.sysCsrr false 3 9, sysRules), (.sysCsrr false 3 10, sysRules),
    (.sysCsrw false 2 0, sysRules), (.sysCsrw false 2 1, sysRules), (.sysCsrw false 2 2, sysRules), (.sysCsrw false 2 3, sysRules),
    (.sysCsrw false 2 4, sysRules), (.sysCsrw false 2 5, sysRules), (.sysCsrw false 2 6, sysRules), (.sysCsrw false 2 7, sysRules),
    (.sysCsrw false 2 8, sysRules)] : List (Instr × Rules)), Issues (run handler) idG handler p.1 p.2 ∧ handler.priv = true :=
  fun p hp => ⟨issues_all rfl (by decide +kernel) p hp, rfl⟩

theorem wit_RefusedWords :
    (run grp).current = some (idG, grp) ∧ grp.clear grp.gate = true ∧ grp.now = none ∧ grp.lead = false ∧
    accepts (run grp) grp (.add false false false 7 (.reg 3) (.reg 1) (.reg 2)) (regRules false (.reg 3) [.reg 1, .reg 2] (rndOf 7)) = false ∧
    (pre { pfxC (.reg 0) with m := 1 }).prefixOf.m ≠ 0 ∧ (pre (pfxC (.reg 1))).prefixOf.c ≠ .reg 0 ∧
    (pre { pfxC (.reg 0) with x := 1 }).prefixOf.x ≠ 0 ∧ grp.priv = false ∧
    (∀ p ∈ ([(.sysCsrr false 3 0, sysRules), (.sysCsrw false 2 1, sysRules), (.sysEret false, sysRules), (.sysTlbinv false 3 4, sysRules),
      (.sysXtinv false 3 4, sysRules), (.sysFrame false 3 0, sysRules), (.sysHaltg false 3 2, sysRules), (.sysDictld false 2, sysRules)] :
        List (Instr × Rules)), Issues (run grp) idG grp p.1 p.2) :=
  ⟨rfl, by decide +kernel, rfl, rfl, by decide +kernel, by decide +kernel, by decide +kernel, by decide +kernel, rfl,
    issues_all rfl (by decide +kernel)⟩

theorem wit_HeldWords : (let a := { busy with gate := 1 }; (run a).current = some (idG, a) ∧ a.clear a.gate = false ∧ a.now = none) ∧
    (let r := regRules false (.reg 3) [.chan false 2, .reg 2] (rndOf 0)
     Tries (run grp) idG grp (.add false false false 0 (.reg 3) (.chan false 2) (.reg 2)) r ∧ (run grp).closed idG grp r = false ∧
       (run grp).stays idG grp (.add false false false 0 (.reg 3) (.chan false 2) (.reg 2)) r = false ∧ mapFind 2 grp.chans = some { depth := 2, elems := [] }) :=
  ⟨by decide +kernel, tries_of rfl (by decide +kernel), by decide +kernel, by decide +kernel⟩

/-- A context whose group has an access out that no answer has come to, and a handler that has waited for one. -/
def asking : Agent := { grp with rem := some { tag := 0, lane := 0, va := 0, info := 0, dst := 1, soft := false, cnt := false, patient := false, ans := none } }
def waited : Agent := { handler with got := [(invKey, 0)] }

theorem wit_InvalidationWords :
    (∀ p ∈ ([(.sysTlbinv false 3 4, sysRules), (.sysXtinv false 3 0, sysRules), (.sysTlbinv false 11 4, sysRules),
      (.sysXtinv false 11 4, sysRules)] : List (Instr × Rules)), Issues (run handler) idG handler p.1 p.2 ∧
        Issues (run waited) idG waited p.1 p.2) ∧ handler.priv = true ∧
    (handler.getX 3).toNat < 2 ^ 60 ∧ 2 ^ 60 ≤ (handler.getX 11).toNat ∧ handler.getX 0 = 0 ∧ mapFind invKey handler.got = none ∧
    (∃ x ∈ place.exts, 0 < x.vbase + x.npg ∧ x.vbase < 4 ∧ mapFind 0 ((run grp).core 0).placed = some place) ∧
    (let l := (run handler).invalidate 0 (3, 4)
     l.inFlight 0 l.ntag = false ∧ (l.markStale 0 (3, 4)).wake.inFlight 0 l.ntag = false) ∧
    (let l := ({ (run handler).setAgent idH asking with ntag := 5 } : State).invalidate 0 (3, 4)
     l.inFlight 0 l.ntag = true ∧ issues ({ (run handler).setAgent idH asking with ntag := 5 } : State) (.sysXtinv false 3 4, sysRules) = true) ∧
    mapFind invKey waited.got = some 0 ∧ (run waited).inFlight 0 0 = false :=
  ⟨fun p hp => ⟨issues_all rfl (by decide +kernel) p hp, issues_all rfl (by decide +kernel) p hp⟩, rfl, by decide +kernel, by decide +kernel,
    rfl, rfl, ⟨_, List.mem_singleton.mpr rfl, by decide +kernel⟩, by decide +kernel, by decide +kernel, by decide +kernel⟩

/-- A sequence of accesses of the hardware comes to its end, and what it gives meets `f`, as a test. -/
def hwIf {α : Type} (x : Hw α) (f : α → State → Bool) : Bool :=
  match x with
  | .ok a s => f a s
  | _ => false

/-- What a reading gives meets `f`, as a test. -/
def then_ {α : Type} (p : State × Except Got α) (f : State → α → Bool) : Bool :=
  match p with
  | (s, .ok x) => f s x
  | _ => false

/-- A lead in the routine of its own saving, and a group beside the first. -/
def savingL : Agent := { ldr with
  inHandler := true, priv := true, tcause := BitVec.ofNat 64 trPreempt, x := mapPut 15 0x90000 (mapPut 14 0x6100 ldr.x) }
def beside (a : Agent) : State := (run a).setAgent idH { grp with frame := 0x8C000 }

theorem wit_FrameHaltAndDictionaryWords :
    (∀ p ∈ ([(.sysFrame false 14 0, sysRules), (.sysFrame false 15 0, sysRules), (.sysHaltg false 3 13, sysRules), (.sysHaltg false 3 12, sysRules),
      (.sysHaltg false 3 7, sysRules), (.sysDictld false 3, sysRules), (.sysFrame false 7 0, sysRules)] : List (Instr × Rules)),
      Issues (run saving) idG saving p.1 p.2) ∧
    (saving.priv = true ∧ saving.inHandler = true ∧ saving.tcause.toNat % 256 = trPreempt ∧ frameCtlBad false 0x2500 = false ∧
      frameCtlBad false 0x2501 = false ∧ (saving.getX 14).toNat = 0x2500 ∧ (saving.getX 15).toNat = 0x2501 ∧
      hwIf ((run saving).saveParts idG saving (savedParts (run saving) idG saving 0x2500)) (fun _ _ => true) = true ∧
      hwIf (loadParts (run saving) idG saving 0x2501) (fun _ s1 => (s1.agent idG).isSome) = true ∧ frameCtlBad false (saving.getX 7).toNat = true) ∧
    (Issues (run savingL) idL savingL (.sysFrame false 14 15) sysRules ∧ frameCtlBad true 0x6100 = false ∧
      (savingL.getX 14).toNat = 0x6100 ∧ (savingL.getX 15).toNat % 4096 = 0 ∧
      hwIf ((run savingL).saveParts idL savingL (savedParts (run savingL) idL savingL 0x6100)) (fun _ s1 =>
        !(s1.core 0).tilesBusy ((s1.core 0).tilesOf 0 0) &&
          (s1.storeParts idL 0 ((joinParts (coreParts s1 idL savingL)).map fun p => (0x90000 + p.1, p.2))).2.isNone) = true) ∧
    haltTarget idG (saving.getX 13).toNat = some idG ∧ haltTarget idG (saving.getX 12).toNat = some { core := 256, idx := 0 } ∧
    (run saving).agent { core := 256, idx := 0 } = none ∧ haltTarget idG (saving.getX 7).toNat = none ∧
    (let a := { saving with x := mapPut 12 0x10000 saving.x }
     haltTarget idG (a.getX 12).toNat = some idH ∧ ((beside a).agent idH).map Agent.ctx = some a.ctx ∧
       issues (beside a) (.sysHaltg false 3 12, sysRules) = true) ∧
    (let s : State := { run saving with mem := writeN (writeN [] 0x30000 4 1) 0x30004 4 0x00803042 }
     (saving.getX 3).toNat = 0x30000 ∧ issues s (.sysDictld false 3, sysRules) = true ∧
       then_ (s.reads idG { plain := true } 0 [(0x30000, 4)]) (fun s1 l => l == [1] &&
         then_ (s1.reads idG { plain := true } 1 [(0x30004, 4)]) fun _ ws => !ws.any dictForbids) = true) :=
  ⟨issues_all rfl (by decide +kernel), by decide +kernel, ⟨issues_of rfl (by decide +kernel), by decide +kernel⟩, by decide +kernel⟩

/-- A group that parks. -/
def parking : Agent := { grp with pend := .park 0x500000 0 0 none false }

theorem wit_LeavingEvents :
    (run parking).agent idG = some parking ∧ parking.clear 0xF = true ∧ parking.outst = [] ∧ parking.cur < parking.paths.length ∧
    parking.pend = .park 0x500000 0 0 none false ∧ parking.lead = false ∧ parking.sigs = [] ∧ parking.inHandler = false ∧
    ((run handler).agent idG = some handler ∧ handler.settled = true ∧ handler.sigs = [] ∧ handler.inHandler = true) ∧
    parking.settled = true ∧ parking.told = none ∧ ((run parking).leaveTurns 0 parking.key).drains { parking with pend := .none } = false ∧
    (let s0 := (((run grp).fenceUo idG 3).flushUo idG).leaveTurns 0 grp.key
     grp.sigs = [] ∧ grp.inHandler = false ∧ (run grp).agent idG = some grp ∧ grp.settled = true ∧ (run grp).drains grp = false ∧
       hwIf (s0.saveParts idG grp (frameHead s0 idG { grp with ppriv := grp.priv } 2 0 0 (s0.pins grp)))
         (fun _ s1 => (s1.agent idG).any fun c => decide (c.cur < c.paths.length)) = true) := by decide +kernel

/-- The machine with a dictionary of one entry, and with a clause of one word at the group's position. -/
def runD : State :=
  let s := (run grp).setPlaced 0 0 { place with dictN := 1 }
  s.setCore 0 { s.core 0 with dict := mapSet 0 (s.core 0).dict 0 0x00803042 }
def runC : State := { run grp with mem := writeN (writeN [] 0x20000 4 (encodeHeader header)) 0x20004 4 0x00803042 }

theorem wit_WordsBeforeWords :
    Issues (run grp) idG grp (.nop false false) { form := .any, u := false, regs := true } ∧
    Issues (run ldr) idL ldr (.nop false true) { form := .any, u := true, regs := true } ∧
    Instr.wf (.pfx 1 true 4 (.reg 3) 5) = true ∧ runD.current = some (idG, grp) ∧ grp.clear grp.gate = true ∧
    runD.dictEntry idG grp (decodePair 0).idx.toNat = some 0x00803042 ∧
    (let p := runC.fetchWords idG fetchNo 0x20000 1
     let q := p.1.fetchWords idG (fetchNo + 1) 0x20004 1
     okVals p.2 = some [encodeHeader header] ∧ decodeHeader (encodeHeader header) = some header ∧ p.1.agent idG = some grp ∧
       okVals q.2 = some [0x00803042] ∧ q.1.agent idG = some grp ∧ grp.fetched = grp ∧
       clauseBad header [0x00803042] (q.1.dictEntry idG grp.fetched) = none) ∧ headerBad header = false ∧ grp.fetchChk = .plain ∧ grp.path.wix < header.n.toNat ∧
    runC.current = some (idG, grp) ∧ grp.path.pc = 0x20000 :=
  ⟨issues_of rfl (by decide +kernel), issues_of rfl (by decide +kernel), by decide +kernel⟩

theorem wit_WordOrder :
    grp.cur < grp.paths.length ∧ grp.clause = some (clauseOf 2 0) ∧ grp.path.wix + 1 < (clauseOf 2 0).hdr.n.toNat ∧
    (clauseOf 2 0).hdr.n.toNat ≤ (pre (pfxC (.reg 0))).path.wix + 2 ∧ grp.pairw = none ∧ grp.path.h = false ∧
    ({ grp with pairw := some { ins := none, s := true } } : Agent).pairw.isSome ∧
    (run grp).agent idG = some grp ∧ (run grp).runq = [idG] ∧ (mapFind grp.tcb (run grp).tasks).isSome := by decide +kernel

/-- Whether the threads of a memory word are aligned and all complete, as a test. -/
def performs (s : State) (id : AgentId) (md : Mode) (n : Nat) (addr : Nat → Word64) (acc : Nat → Acc) (ls : List Nat)
    (marks : List (Nat × Nat) → Word) : Bool :=
  badLanes n addr ls == 0 && (runLanes id md n addr acc ls s).2 == none &&
    (((runLanes id md n addr acc ls s).1.agent id).map fun b => marks b.got) == some 0

/-- The group with four threads present. -/
def four : Agent := { grp with present := 0xF, paths := [{ grp.path with mask := 0xF }] }

theorem wit_LoadWords :
    (∀ p ∈ ([(.ld false false 2 0 0 (.reg 6) 3 3, { memRules false .ld with dst := some (.reg 6) }),
      (.ld false true 3 0 0 (.reg 9) 3 31, { memRules true .ld with dst := some (.reg 9) }),
      (.ld false false 2 0 0 (.chan false 2) 3 3, { memRules false .ld with dst := some (.chan false 2) }),
      (.ldc false false 2 0 0 (.reg 6) 3 1, { memRules false .ld with dst := some (.reg 6) }),
      (.ldc false false 2 0 0 (.reg 6) 15 1, { memRules false .ld with dst := some (.reg 6) }),
      (.lr false false 0 0 (.reg 6) 3 3, { memRules false .ld with dst := some (.reg 6), sw := true }),
      (.lr false true 0 0 (.reg 6) 3 31, { memRules true .ld with dst := some (.reg 6), sw := true }),
      (.symld false 0 0 0 (.reg 10) 3 1, { form := .v, u := false, cls := some .ld, okM := true, okX := true, first := emptyFirst [0], late := true, dst := some (.reg 10) }),
      (.symld false 2 0 0 (.reg 10) 3 1, { form := .v, u := false, cls := some .ld, okM := true, okX := true, first := emptyFirst [2], late := false, dst := some (.reg 10) })] :
        List (Instr × Rules)), Issues (run four) idG four p.1 p.2) ∧
    roomFor (run four) idG four false (.chan false 2) = true ∧ four.getX 4 ≠ 0 ∧ four.getX 16 = 0 ∧ four.getAl 0 ≠ 0 ∧ alTrap (four.getAl 0) = false ∧ alTrap (four.getAl 2) = true ∧ four.getAl 2 ≠ 0 ∧
    performs (run four) idG { plain := true, win := true } 4 (eaOf four false 3 3 four.prefixOf) (fun _ => .load) (memLanes false four four.prefixOf) (fun _ => 0) = true ∧
    performs (run four) idG { plain := true, win := true } 8 (eaOf four true 3 31 four.prefixOf) (fun _ => .load) [0] (fun _ => 0) = true ∧
    performs (run four) idG { plain := true } 4
      (fun t => four.getX 3 + BitVec.ofInt 64 (min (max (idxOf four false 1 t).toInt 0) ((four.getX 4).toNat - 1) * 4) + four.prefixOf.off)
      (fun _ => .load) (memLanes false four four.prefixOf) (fun _ => 0) = true ∧
    performs (run four) idG { plain := false, near := true } 4 (eaOf four false 3 3 four.prefixOf) (fun _ => .lr) (memLanes false four four.prefixOf) (fun _ => 0) = true ∧
    performs (run four) idG { plain := true } 4
      (fun t => four.getX 3 + BitVec.ofNat 64 (4 * ((laneOf (four.getV 1) t).toNat / alN (four.getAl 0))) + four.prefixOf.off)
      (fun _ => .load) (memLanes false four four.prefixOf) (symMarks (four.getAl 0)) = true ∧
    performs (run four) idG { plain := true } 4
      (fun t => four.getX 3 + BitVec.ofNat 64 (4 * ((laneOf (four.getV 1) t).toNat / alN (four.getAl 2))) + four.prefixOf.off)
      (fun _ => .load) (memLanes false four four.prefixOf) (symMarks (four.getAl 2)) = true :=
  ⟨issues_all rfl (by decide +kernel), by decide +kernel⟩

theorem wit_StoreWords :
    (∀ p ∈ ([(.st false false 2 0 0 (.reg 1) 3 3, { memRules false .st with src := [.reg 1], legal := true }),
      (.st false true 3 0 0 (.reg 6) 3 31, { memRules true .st with src := [.reg 6], legal := true }),
      (.stc false false 2 0 0 (.reg 1) 3 1, { memRules false .st with src := [.reg 1], legal := true }),
      (.symst false 0 0 0 (.reg 0) 3 1, { form := .v, u := false, cls := some .st, okM := true, okX := true, first := emptyFirst [0], late := true, legal := true }),
      (.symst false 2 0 0 (.reg 0) 3 1, { form := .v, u := false, cls := some .st, okM := true, okX := true, first := emptyFirst [2], late := false, legal := true })] :
        List (Instr × Rules)), Issues (run four) idG four p.1 p.2) ∧
    (storeData (run four) idG four false 2 (.reg 1)).isSome ∧ (storeData (run four) idG four true 3 (.reg 6)).isSome ∧
    performs (run four) idG { plain := true, win := true, posted := true } 4 (eaOf four false 3 3 four.prefixOf)
      (fun t => .store (laneOf (four.getV 1) t).toNat) (memLanes false four four.prefixOf) (fun _ => 0) = true ∧
    performs (run four) idG { plain := true, posted := true } 4
      (fun t => four.getX 3 + BitVec.ofInt 64 ((idxOf four false 1 t).toInt * 4) + four.prefixOf.off) (fun t => .store (laneOf (four.getV 1) t).toNat)
      ((memLanes false four four.prefixOf).filter fun t => decide (0 ≤ (idxOf four false 1 t).toInt ∧ (idxOf four false 1 t).toInt < ((four.getX 4).toNat : Int)))
      (fun _ => 0) = true ∧
    performs (run four) idG { plain := true, near := true } 4
      (fun t => four.getX 3 + BitVec.ofNat 64 (4 * ((laneOf (four.getV 1) t).toNat / alN (four.getAl 0))) + four.prefixOf.off)
      (fun t => .sym (four.getAl 0) ((laneOf (four.getV 1) t).toNat % alN (four.getAl 0)) 0) (memLanes false four four.prefixOf)
      (fun got => got.foldl (fun m g => if g.2 = 1 then m ||| BitVec.twoPow 32 g.1 else m) 0) = true :=
  ⟨issues_all rfl (by decide +kernel), by decide +kernel⟩

theorem wit_AtomicWords :
    (∀ p ∈ ([(.atom false false 0 0 0 (.reg 1) 3 3, atomRules false false 4 0 (.reg 1) (.reg 0)),
      (.atom64 false true 6 0 0 (.reg 6) 3 31, atomRules true false 8 0 (.reg 6) (.reg 0)),
      (.atomf false false 0 0 0 (.reg 1) 3 3, atomRules false false 4 4 (.reg 1) (.reg 0)),
      (.sc false false 1 0 0 (.reg 1) 3 3, { memRules false .ld with sw := true }),
      (.sc false true 1 0 0 (.reg 6) 3 31, { memRules true .ld with sw := true })] :
        List (Instr × Rules)), Issues (run four) idG four p.1 p.2) ∧ four.prefixOf.c = .reg 0 ∧
    (fourthData (run four) idG four false 4 (.reg 0)).isSome ∧ (fourthData (run four) idG four true 8 (.reg 0)).isSome ∧
    (∀ p ∈ ([(.atom false true 5 0 0 (.reg 0) 3 31, atomRules true false 4 0 (.reg 0) (.reg 6)),
      (.atom false false 7 0 0 (.reg 1) 3 3, atomRules false true 4 0 (.reg 1) (.reg 6))] : List (Instr × Rules)),
      Issues (run (pre (pfxC (.reg 6)))) idG (pre (pfxC (.reg 6))) p.1 p.2) ∧
    (fourthData (run (pre (pfxC (.reg 6)))) idG (pre (pfxC (.reg 6))) true 4 (.reg 6)).isSome ∧
    performs (run four) idG { plain := false } 4 (eaOf four false 3 3 four.prefixOf)
      (fun t => .rmw 0 0 (laneOf (four.getV 1) t).toNat 0) (memLanes false four four.prefixOf) (fun _ => 0) = true ∧
    performs (run four) idG { plain := false } 8 (eaOf four true 3 31 four.prefixOf) (fun _ => .rmw 6 0 6 0) [0] (fun _ => 0) = true ∧
    performs (run four) idG { plain := false } 4 (eaOf four false 3 3 four.prefixOf)
      (fun t => .rmw 8 0 (laneOf (four.getV 1) t).toNat 0) (memLanes false four four.prefixOf) (fun _ => 0) = true ∧
    performs (run four) idG { plain := false, near := true } 4 (eaOf four false 3 3 four.prefixOf)
      (fun t => .sc (laneOf (four.getV 1) t).toNat) (memLanes false four four.prefixOf) (fun _ => 0) = true :=
  ⟨issues_all rfl (by decide +kernel), rfl, by decide +kernel, by decide +kernel, issues_all rfl (by decide +kernel), by decide +kernel⟩

theorem wit_ThreadAddresses :
    (∀ p ∈ ([(.ld false false 2 0 0 (.reg 6) 3 1, { memRules false .ld with dst := some (.reg 6) }),
      (.st false false 2 0 0 (.reg 6) 3 1, { memRules false .st with src := [.reg 6] }), (.lr false false 0 0 (.reg 6) 3 1, { memRules false .ld with dst := some (.reg 6), sw := true }),
      (.sc false false 1 0 0 (.reg 1) 3 1, { memRules false .ld with sw := true }),
      (.atom false false 0 0 0 (.reg 1) 3 1, atomRules false false 4 0 (.reg 1) (.reg 0))] : List (Instr × Rules)),
      Issues (run grp) idG grp p.1 p.2) ∧ badLanes 4 (eaOf grp false 3 1 grp.prefixOf) (memLanes false grp grp.prefixOf) ≠ 0 ∧
    grp.pfx = none ∧ (pre { pfxC (.reg 0) with x := 0x3FC }).pfx = some { pfxC (.reg 0) with x := 0x3FC } :=
  ⟨issues_all rfl (by decide +kernel), by decide +kernel⟩

theorem wit_OrderingWords :
    (∀ p ∈ ([(.fence false 0 3, { form := .u, u := true, okX := true, late := true }), (.fence false 2 2, { form := .u, u := true, okX := true, late := true }),
      (.pref false false 0 3 3, { form := .vu, u := false, okM := true, okX := true, regs := true }), (.cntw false 5, { form := .u, u := true, regs := true })] :
        List (Instr × Rules)), Issues (run grp) idG grp p.1 p.2) ∧ grp.clear 5 = true ∧
    (let a := { busy with pend := .none }
     Issues (run a) idG a (.cntw false 5) { form := .u, u := true, regs := true } ∧ a.clear 5 = false) :=
  ⟨issues_all rfl (by decide +kernel), by decide +kernel, issues_of rfl (by decide +kernel), by decide +kernel⟩

/-- An armed barrier of two arrivals in phase 0, and a configuration that arms one. -/
def barrier : Nat := 2 ^ 120 + 2 * 2 ^ 64 + 2 ^ 122
def barCfg : Word64 := 2 + 2 ^ 24
def barred (a : Agent) : State := { run a with mem := writeN [] 0x30000 32 barrier }
def withCfg : Agent := { grp with x := grp.x ++ [(16, barCfg)] }
def fullJoins : Agent := { grp with joins := [1, 2, 3, 4, 5, 6, 7, 8] }

/-- The access of a barrier word, and what it answers. -/
def object (s : State) (a : Agent) (op : ObjOp) : State × Got := s.access idG a 0 0x30000 32 barMode (.obj op)
def polled (s : State) (a : Agent) (op : ObjOp) : State × Got := s.access idG a 0 0x30000 32 waitMode (.obj op)

theorem wit_BarrierWords :
    (∀ p ∈ ([(.bari false (.reg 1) (.reg 3) (.reg 16), barRules true (.reg 1) [.reg 3, .reg 16]), (.bara false (.reg 1) (.reg 3), barRules true (.reg 1) [.reg 3]),
      (.barw false (.reg 1) (.reg 3) (.reg 16), barRules false (.reg 1) [.reg 3, .reg 16]), (.barw false (.reg 1) (.reg 3) (.reg 0), barRules false (.reg 1) [.reg 3, .reg 0]),
      (.bars false (.reg 1) (.reg 3), barRules false (.reg 1) [.reg 3]), (.barq false (.reg 1) (.reg 3), barRules true (.reg 1) [.reg 3])] :
        List (Instr × Rules)), Issues (barred withCfg) idG withCfg p.1 p.2 ∧ Issues (run withCfg) idG withCfg p.1 p.2) ∧
    (barred withCfg).hasU idG [.reg 3, .reg 16] [0x30000, barCfg] ∧ (barred withCfg).hasU idG [.reg 3] [0x30000] ∧
    (getF barCfg 26 38 = 0 ∧ getF barCfg 0 24 ≠ 0 ∧ getF barCfg 24 2 ≠ 0 ∧ ¬ getF (0 : Word64) 0 24 ≠ 0) ∧
    (barBad barrier = false ∧ barSt barrier = 0 ∧ barSt 0 ≠ 0 ∧ barPhase barrier = (0 : Word64).toNat % 2 ^ 32 ∧
      barPhase barrier ≠ barCfg.toNat % 2 ^ 32) ∧
    ((object (barred withCfg) withCfg (.bari barCfg)).2 = .val barrier 0 ∧ (object (barred withCfg) withCfg .bara).2 = .val barrier 0 ∧
      (object (barred withCfg) withCfg .probe).2 = .val barrier 0 ∧ (object (run withCfg) withCfg .bara).2 = .val 0 0 ∧
      (polled (barred withCfg) withCfg .probe).2 = .val barrier 0 ∧ (polled (run withCfg) withCfg .bara).2 = .val 0 0 ∧
      (polled (run withCfg) withCfg .probe).2 = .val 0 0 ∧
      withCfg.joinsFull 0x30000 = false) ∧
    (issues (barred fullJoins) (.bara false (.reg 1) (.reg 3), barRules true (.reg 1) [.reg 3]) = true ∧ fullJoins.joinsFull 0x30000 = true ∧
      object (barred fullJoins) fullJoins .probe = (barred fullJoins, .val barrier 0)) ∧
    (let a := { grp with bwait := some 5 }
     issues (barred a) (.bars false (.reg 1) (.reg 3), barRules false (.reg 1) [.reg 3]) = true ∧ barPhase barrier ≠ (5 : Word).toNat ∧
       (polled (barred a) a .probe).2 = .val barrier 0) ∧
    (let s1 := (polled (barred withCfg) withCfg .bara).1
     let c := { withCfg.join 0x30000 with bwait := some (BitVec.ofNat 32 (barPhase barrier)), got := mapPut waitKey 1 withCfg.got }
     (polled (barred withCfg) withCfg .bara).2 = .val barrier 0 ∧ s1.agent idG = some withCfg ∧ withCfg.bwait = none ∧ (polled (s1.setAgent idG c) c .probe).2 = .val (barrier + 1) 0 ∧ barSt (barrier + 1) = 0 ∧
       barPhase (barrier + 1) = barPhase barrier) ∧
    (bitsOf barrier 23 0 + 1 < bitsOf barrier 87 64 ∧ bitsOf (barrier + 1) 23 0 + 1 = bitsOf (barrier + 1) 87 64 ∧
      barBad (barrier - 2 ^ 122) = true ∧ bitsOf (barrier - 2 ^ 122) 120 120 = 1 ∧ bitsOf (barrier - 2 ^ 122) 123 122 = 0) :=
  ⟨fun p hp => ⟨issues_all rfl (by decide +kernel) p hp, issues_all rfl (by decide +kernel) p hp⟩, ⟨_, rfl⟩, ⟨_, rfl⟩,
    by decide +kernel⟩

/-- The machine with the command area at 0, a peer 9, and a page of it at the address 0x100000. -/
def linked (a : Agent) : State :=
  let far : Extent := { extent with vbase := 16, pbase := 9 * 2 ^ 24, npg := 1 }
  let s := (run a).setPlaced 0 0 { place with exts := place.exts ++ [far] }
  { s with cmdbase := 1, modmap := [(9, 0x80000001)], endpts := [(1, 7 * 2 ^ 128)] }
def sender (va : Word64) : Agent := { grp with x := grp.x ++ [(17, va)] }

/-- The task channel 14 with the elements `l`. -/
def inboxed (s : State) (l : List Word64) (held : List HeldSignal) : State :=
  s.setPlaced 0 0 { place with chans := [(14, { depth := 2, elems := l })], inbox := held }

theorem wit_SignalWords :
    Issues (linked (sender 0x1000)) idG (sender 0x1000) (.sigr false (.reg 17) (.reg 6)) { form := .u, u := true, okC := true, src := [.reg 17, .reg 6], late := true } ∧
    Issues (linked (sender 0x101000)) idG (sender 0x101000) (.sigr false (.reg 17) (.reg 6)) { form := .u, u := true, okC := true, src := [.reg 17, .reg 6], late := true } ∧
    (linked (sender 0x1000)).hasU idG [.reg 17, .reg 6, .reg 0] [0x1000, 6, 0] ∧
    Issues (inboxed (run grp) [5] []) idG grp (.sigw false (.reg 1)) { form := .u, u := true, src := [.chan false 14], legal := true, regs := true } ∧
    Issues (run grp) idG grp (.sigw false (.reg 1)) { form := .u, u := true, src := [.chan false 14], legal := true, regs := true } ∧
    ((readTask (inboxed (run grp) [5] []) idG grp false 14).map Prod.fst = some 5 ∧ readTask (run grp) idG grp false 14 = none) ∧
    (match ((linked (sender 0x1000)).translate (reqOf idG (sender 0x1000)) 0x1000 .load).2 with
      | .ok t => t.win.isNone && t.pa == 0x1000
      | _ => false) = true ∧
    (match ((linked (sender 0x101000)).translate (reqOf idG (sender 0x101000)) 0x101000 .load).2 with
      | .ok t => t.win.isNone && t.pa / 2 ^ 40 == 9
      | _ => false) = true ∧ (linked grp).routed 9 = true ∧ (linked grp).modid = 0 ∧
    ((linked grp).isTcb 0x1000 = true ∧ ((mapFind 0x1000 (linked grp).tasks).map fun t => (t.st, t.cores)) = some (.running, [(0, 0)]) ∧
      (pushTask (inboxed (linked grp) [] []) 0 0 false 14 7).isSome ∧ pushTask (inboxed (linked grp) [1, 2] []) 0 0 false 14 7 = none) :=
  ⟨issues_of rfl (by decide +kernel), issues_of rfl (by decide +kernel), ⟨_, rfl⟩, issues_of rfl (by decide +kernel),
    issues_of rfl (by decide +kernel), by decide +kernel⟩

theorem wit_RecordWords :
    (∀ p ∈ ([(.cr false (.reg 1) 0, { form := .u, u := true, dst := some (.reg 1), regs := true }), (.cr false (.reg 1) 6, { form := .u, u := true, dst := some (.reg 1), regs := true }),
      (.spawn false 8 6, { form := .u, u := true }), (.spawn false 9 6, { form := .u, u := true }), (.cdec false 1 3, { form := .u, u := true }),
      (.cdec false 0 3, { form := .u, u := true })] : List (Instr × Rules)), Issues (run grp) idG grp p.1 p.2) ∧
    (∀ p ∈ ([(.crW false (.reg 6) 0, { form := .l, u := true, src := [.reg 6], regs := true, late := true, fixed := true }),
      (.crW false (.reg 6) 4, { form := .l, u := true, src := [.reg 6], regs := true, late := true, fixed := true })] :
      List (Instr × Rules)), Issues (run ldr) idL ldr p.1 p.2) ∧
    (run grp).placedOf idG grp = some place ∧ (run ldr).placedOf idL ldr = some place ∧ readU (run ldr) idL (.reg 6) = some (6, run ldr) ∧
    (writeU (run grp) idG (.reg 1) 5).isSome ∧ ((grp.getX 8).toNat % 4 = 0 ∧ (grp.getX 8).toNat / 2 ^ 60 = 0 ∧ (grp.getX 9).toNat % 4 ≠ 0) ∧
    ((run grp).cluster 0).room = true ∧
    (let r : Record := { kind := .spawn, ctx := 0, tcb := 0x1000, frame := 0, code := 0, pin := false, home := 0, part := none }
     let s := (run grp).setCluster 0 { (run grp).cluster 0 with cqbase := 1, queue := List.replicate 256 r }
     issues s (.spawn false 8 6, { form := .u, u := true }) = true ∧ (s.cluster 0).room = false) ∧
    (let a := pre (pfxC (.reg 2))
     let x : Rules := { form := .u, u := true, okC := true, legal := true }
     issues (run a) (.joinc false 3 8 6, x) = true ∧ (run a).pfxC.isReg = true ∧ (a.getX a.prefixOf.c.code).toNat = 2 ∧
       ((run a).access idG a 0 0x30000 32 { plain := true } (.store 7)).2 = .val 0 0) ∧
    ((run grp).access idG grp 0 0x30000 32 barMode (.obj .cdec)).2 = .val 0 0 ∧
    (((run grp).access idG grp 0 0x30000 32 barMode (.obj .cdec)).1.placedOf idG grp).isSome ∧ 0 < bitsOf (1 + 0x10 * 2 ^ 32) 31 0 :=
  ⟨issues_all rfl (by decide +kernel), issues_all rfl (by decide +kernel), by decide +kernel, by decide +kernel, rfl, by decide +kernel,
    by decide +kernel, by decide +kernel, by decide +kernel, by decide +kernel, by decide +kernel⟩

/-- An entry of the tile table that the task owns. -/
def entry (kind rows cols fmt base pitch state : Nat) : BitVec 512 :=
  BitVec.ofNat 512 (state + 8 + kind * 2 ^ 64 + rows * 2 ^ 69 + cols * 2 ^ 75 + fmt * 2 ^ 83 + base * 2 ^ 128 + pitch * 2 ^ 192)

/-- Tiles in the scratchpad (1 and 2 READY, 3 and 4 EMPTY) and accumulators (8 and 9 READY). -/
def tileTable : SMap (BitVec 512) :=
  [(1, entry 0 1 1 2 0 4 2), (2, entry 0 1 1 2 64 4 2), (3, entry 0 1 1 2 128 4 0), (4, entry 0 2 1 2 192 4 0),
   (8, entry 1 1 1 2 0 0 2), (9, entry 1 32 32 2 1 0 2)]

/-- A layout descriptor, a DRAIN descriptor that names it, and a tile image, at 0x30000, 0x30040 and 0x30080. -/
def tensor : Nat := 0x31000 + 4 * 2 ^ 64 + 4 * 2 ^ 96 + 16 * 2 ^ 128
def drainDesc : Nat := 0x30000 + 2 * 2 ^ 216
def image : Nat := 1 * 2 ^ 69 + 1 * 2 ^ 75 + 2 * 2 ^ 83 + 256 * 2 ^ 128 + 4 * 2 ^ 192
def tiled (a : Agent) : State :=
  let s := (run a).setPlaced 0 0 { place with spt := 4096 }
  let s := s.setCore 0 { s.core 0 with tiles := tileTable }
  { s with mem := writeN (writeN (writeN [] 0x30000 32 tensor) 0x30040 64 drainDesc) 0x30080 64 image }

/-- What a structure read leaves, its value, and the agent then. -/
def struct (s : State) (id : AgentId) (i : Nat) (va : Word64) (n : Nat) : State × Option Nat :=
  match s.readStruct id i va n with
  | (t, .ok x) => (t, some x)
  | (t, .error _) => (t, none)
def agentOf (s : State) (id : AgentId) : Agent := (s.agent id).getD grp

/-- Whether the turn of a word has come once it stands in the order of a tile. -/
def turn (s : State) (b : Agent) (t op : Nat) (fill reader : Bool) : Bool :=
  turnNow ((s.joinTurn 0 t b op fill reader).turns 0 t) b.key

theorem wit_TileWords :
    (∀ p ∈ ([(.tsetEmpty false 1, tileRules), (.tsetReady false 1, tileRules), (.tsetEmpty false 5, tileRules), (.tld false false 3 3 0, tileRules),
      (.tst false 1 3 0, tileRules), (.drain false 0 8 4 0, tileRules), (.txp false 1 2, tileRules), (.tq false 3 0, tileRules)] :
        List (Instr × Rules)), Issues (tiled grp) idG grp p.1 p.2) ∧
    (let s := tiled ldr
     let p := struct s idL 0 0x30080 8
     let b := agentOf p.1 idL
     issues s (.tdef false 3 5, { form := .l, u := true }) = true ∧ p.2 = some image ∧ imageBad (BitVec.ofNat 512 image) = false ∧
       (p.1.tile 0 3).ownedBy ldr = true ∧ (p.1.placedOf idL ldr).any (tileInside (BitVec.ofNat 512 image)) = true ∧
       turn p.1 b 3 0x60 false false = true ∧
       ((p.1.joinTurn 0 3 b 0x60 false false).core 0).accTaken 3 (BitVec.ofNat 512 image) = false) ∧
    (((tiled grp).tile 0 1).ownedBy grp = true ∧ ((tiled grp).tile 0 5).ownedBy grp = false ∧ ((tiled grp).tile 0 3).ownedBy grp = true ∧
      ((tiled grp).tile 0 8).ownedBy grp = true ∧ ((tiled grp).tile 0 8).kind = kACC ∧
      turn (tiled grp) grp 1 0x61 false false = true ∧ turn (tiled grp) grp 1 0x62 false false = true ∧
      turn ((tiled grp).setTurns 0 1 [{ tag := 0, frame := 0x8C000, op := 0x61, fill := false, reader := false, st := .running }]) grp 1 0x61
        false false = false) ∧
    (let p := struct (tiled grp) idG 0 0x30000 4
     let b := agentOf p.1 idG
     p.2 = some tensor ∧ tensorBad tensor = false ∧ (tensorOf tensor).aligned 2 1 [0] = true ∧ turn p.1 b 3 0x62 true false = true ∧
       (let f := fillRow idG 3 false (tensorOf tensor) (origin 0) (beginFill (p.1.joinTurn 0 3 b 0x62 true false) 0 3 b)
        f.2 = none ∧ fillRows ((tiled grp).tile 0 3) false ≤ (f.1.tile 0 3).prog) ∧
       (let f := fillRow idG 4 false (tensorOf tensor) (origin 0) (beginFill (p.1.joinTurn 0 4 b 0x62 true false) 0 4 b)
        f.2 = none ∧ (f.1.tile 0 4).prog < fillRows ((tiled grp).tile 0 4) false) ∧
       turn p.1 b 1 0x63 false false = true ∧ (tensorOf tensor).aligned 2 1 ((outPlaces ((tiled grp).tile 0 1) 1 1 (origin 0) (tensorOf tensor)).map
         fun p => p.1.1) = true ∧ ((p.1.joinTurn 0 1 b 0x63 false false).tile 0 1).state = tReady ∧
       (p.1.joinTurn 0 1 b 0x63 false false).tileReadBad 0 ((tiled grp).tile 0 1) = none) ∧
    (let p := struct (tiled grp) idG 0 0x30040 8
     let q := struct p.1 idG 8 0x30000 4
     let b := agentOf q.1 idG
     let ds : BitVec 512 := BitVec.ofNat 512 drainDesc
     p.2 = some drainDesc ∧ q.2 = some tensor ∧ drainBad drainDesc = false ∧ getF ds 0 64 = 0x30000 ∧ getF ds 64 64 = 0 ∧ getF ds 216 4 = 2 ∧
       getF ds 220 4 = 0 ∧ turn q.1 b 8 0x6B false false = true ∧ ((q.1.joinTurn 0 8 b 0x6B false false).tile 0 8).state = tReady) ∧
    (let s := tiled grp
     let j := joinTurns s 0 grp 0x6C [(2, false, true), (1, true, false)]
     txpOk (s.tile 0 1) (s.tile 0 2) = true ∧ (s.tile 0 2).ownedBy grp = true ∧ emptyTurn j 0 grp [2] = none ∧ allTurns j 0 grp [2] = true ∧
       turnNow (j.turns 0 1) grp.key = true ∧ j.tileReadBad 0 (s.tile 0 2) = none ∧ (j.tileWrite 0 (s.tile 0 1) [(0, 0, 7)]).2 = none) ∧
    (let j := (tiled grp).joinTurn 0 3 grp 0x6E true false
     let w := ((j.setTile 0 3 (((((j.tile 0 3).setPend ((j.tile 0 3).pend + 1)).setState tFilling).setProg 0).setArrv 0)).turnFills
       0 3 grp).markTurn 0 3 grp (some .running)
     turn (tiled grp) grp 3 0x6E true false = true ∧ begun j 0 3 grp = false ∧ w.queueRoom 0 0 = true) ∧
    (let f := fun (t : Nat) => ({ tile := t, row := 0, trans := false, vals := [7] } : TileFill)
     let s := tiled grp
     (s.tileWrite 0 (s.tile 0 3) (arrivals (f 3))).2 = none ∧ (s.tileWrite 0 (s.tile 0 4) (arrivals (f 4))).2 = none ∧
       ((s.tile 0 3).setArrv ((s.tile 0 3).arrv ||| 2 ^ 0)).arrv = 2 ^ fillRows (s.tile 0 3) false - 1 ∧
       ((s.tile 0 4).setArrv ((s.tile 0 4).arrv ||| 2 ^ 0)).arrv ≠ 2 ^ fillRows (s.tile 0 4) false - 1) ∧
    (let j := newJob idG grp 1 2 0 tensor 0
     j.todo = [] ∧ j.held = false ∧ j.rem = none ∧ ({ j with todo := [(0, 0, 7)] } : TileJob).todo ≠ []) :=
  ⟨issues_all rfl (by decide +kernel), by decide +kernel, by decide +kernel, by decide +kernel, by decide +kernel, by decide +kernel,
    by decide +kernel, by decide +kernel, by decide +kernel⟩

/-- Descriptors of MMT (of length 0, 1 and 64) and of the sampled words at 0x30080. -/
def mmtDesc (len : Nat) : Nat := 0x30000 + 0x30000 * 2 ^ 64 + len * 2 ^ 256 + 6 * 2 ^ 288
def sampDesc : Nat :=
  0x30000 + 0x30000 * 2 ^ 64 + 4 * 2 ^ 256 + 6 * 2 ^ 288 + 4 * 2 ^ 576 + 16 * 2 ^ 592 + 0x3D800000 * 2 ^ 608 + 0x32000 * 2 ^ 704 +
    0x32100 * 2 ^ 768 + 0x32200 * 2 ^ 832

/-- The tiles with a B operand on tile 0, and a descriptor. -/
def multiplying (desc : Nat) : State :=
  let s := tiled grp
  let s := s.setCore 0 { s.core 0 with tiles := (0, entry 0 1 1 (pairB 0) 1024 1 2) :: tileTable }
  { s with mem := writeN (writeN [] 0x30000 32 tensor) 0x30080 128 desc }

/-- Both layout descriptors behind the descriptor at 0x30080, and the state and the agent that their reading leaves. -/
def pairRead (s : State) : State × Bool :=
  let p := struct s idG 16 0x30000 4
  let q := struct p.1 idG 20 0x30000 4
  (q.1, p.2 == some tensor && q.2 == some tensor && !tensorBad tensor)

theorem wit_MatrixWords :
    (∀ p ∈ ([(.mmq false 0 0 8 8 31, { form := .v, u := false, cls := some .mat, okM := true }), (.mmt false 8 5, tileRules),
      (.mnorm false 8 5, tileRules), (.mms false 8 5, tileRules), (.aliasTab false 8 5, tileRules), (.accz false 8, tileRules),
      (.accr false 8 8 0, { form := .v, u := false, cls := some .mat }), (.varr false 7 8, tileRules)] : List (Instr × Rules)),
      Issues (multiplying (mmtDesc 1)) idG grp p.1 p.2 ∧ Issues (multiplying sampDesc) idG grp p.1 p.2) ∧
    (let s := multiplying 0
     let j := joinTurns s 0 grp 0x64 [(8, false, false), (0, false, true)]
     (∀ i, i < 4 → quarterTile grp (grp.active grp.prefixOf) 31 i = .ok (some 0)) ∧ 8 + mmqRun 0 0 ≤ 32 ∧ bTileBad 0 (s.tile 0 0) = false ∧
       (s.tile 0 0).ownedBy grp = true ∧ (s.tile 0 8).kind = kACC ∧ (s.tile 0 8).ownedBy grp = true ∧ grp.converged = true ∧
       emptyTurn j 0 grp [8, 0] = none ∧ allTurns j 0 grp [8, 0] = true ∧ j.tileReadBad 0 (j.tile 0 0) = none ∧
       then_ (sideReads idG [0] 100 j) (fun _ _ => true) = true) ∧
    (∀ len, len = 0 ∨ len = 1 ∨ len = 64 →
      let s := multiplying (mmtDesc len)
      let p := struct s idG 0 0x30080 16
      let q := pairRead p.1
      let b := agentOf q.1 idG
      let ds : BitVec 1024 := BitVec.ofNat 1024 (mmtDesc len)
      let j := q.1.joinTurn 0 8 b 0x65 false false
      let m := beginMacro j 0 8 b
      let o : Operand := { t := tensorOf tensor, fmt := 3, al := 0, plane := 0, kcols := true }
      p.2 = some (mmtDesc len) ∧ q.2 = true ∧ mmtBad ds = false ∧ getF ds 256 32 = len ∧ getF ds 0 64 = 0x30000 ∧ getF ds 64 64 = 0x30000 ∧
        (pairA 6).1 = 3 ∧ pairB 6 = 3 ∧ o.t.aligned 3 o.pack (o.span (intF ds 128) 1) = true ∧
        o.t.aligned 3 o.pack (o.span (intF ds 192) len) = true ∧ turnNow (j.turns 0 8) b.key = true ∧ (j.tile 0 8).state = tReady ∧
        (m.tile 0 8).arrv = 0 ∧ then_ (mmtStep m idG (m.tile 0 8) ds { o with fmt := 3 } { o with fmt := 3, kcols := false } 0) (fun _ _ => true) = true) ∧
    (let s := multiplying sampDesc
     let ds : BitVec 1024 := BitVec.ofNat 1024 sampDesc
     let p := struct s idG 0 0x30080 16
     let q := pairRead p.1
     let b := agentOf q.1 idG
     let oa := sampA ds tensor
     let ob := sampB ds tensor
     let j := q.1.joinTurn 0 8 b 0x66 false false
     let on := fun (x : Nat) => j.setVar 0 0 (BitVec.ofNat 256 (2 ^ 115 + x))
     p.2 = some sampDesc ∧ q.2 = true ∧ sampBad ds = false ∧ sampUneven ds = false ∧
       oa.t.aligned oa.fmt oa.pack (oa.span (intF ds 128) 1) = true ∧ ob.t.aligned ob.fmt ob.pack (ob.span (intF ds 192) 4) = true ∧
       (let w := q.1.atArrays idG b (SampDesc.norms ds)
        (normsFrom idG (SampDesc.overlaps ds [oa.t, ob.t] || w.2) (p.1.tile 0 8) ds oa ob 4 w.1).2 = none) ∧
       (q.1.tile 0 8).ownedBy b = true ∧ turnNow (j.turns 0 8) b.key = true ∧ (j.tile 0 8).state = tReady ∧
       ((on 0).varOf 0 0).getLsbD 115 = true ∧
       (match mmsTurn (on 0) idG b 8 ds oa ob with
         | .done _ => true
         | _ => false) = true ∧
       (match mmsTurn (on 0x3F800000) idG b 8 ds oa ob with
         | .hold _ => true
         | _ => false) = true) ∧
    (let s := multiplying sampDesc
     let ds : BitVec 1024 := BitVec.ofNat 1024 sampDesc
     let p := struct s idG 0 0x30080 16
     let b := agentOf p.1 idG
     let j := (p.1.joinTurn 0 8 b 0x68 false false).atArrays idG b (SampDesc.table ds :: SampDesc.norms ds)
     turn p.1 b 8 0x68 false false = true ∧ then_ (normArrays j.1 idG ds) (fun s2 n =>
       let undef := j.2 || SampDesc.overlaps ds (s2.seenTensor idG b (getF ds 0 64) ++ s2.seenTensor idG b (getF ds 64 64))
       let fa := s2.orFrees undef 32 n.1
       let fb := fa.2.orFrees undef 32 n.2
       (tableFrom idG undef ds (aliasOf fa.1 fb.1).1 4 fb.2).2 == none) = true ∧
       p.2 = some sampDesc ∧ (p.1.tile 0 8).ownedBy b = true) ∧
    (let s := multiplying 0
     turn s grp 8 0x69 false false = true ∧ turn s grp 8 0x6A false true = true ∧ turn s grp 8 0x6D false false = true ∧
       ((s.joinTurn 0 8 grp 0x6A false true).tile 0 8).state = tReady ∧ (s.core 0).sampling 3 = false) ∧
    (0 < ([(0 : Nat)].length) ∧ [(0 : Nat)].length ≤ 8 ∧ (List.replicate 8 (0 : Nat)).length % 8 = 0) :=
  ⟨fun p hp => ⟨issues_all rfl (by decide +kernel) p hp, issues_all rfl (by decide +kernel) p hp⟩, by decide +kernel,
    fun len h => by rcases h with h | h | h <;> subst h <;> decide +kernel, by decide +kernel, by decide +kernel, by decide +kernel,
    by decide⟩

/-- A range of five elements, an affine map and a ZIP with slot 4, as iterator objects. -/
def rangeObj : Nat := 1 + 5 * 2 ^ 96
def mapObj : Nat := 0x10 + (3 + 2 ^ 32) * 2 ^ 64
def zipObj : Nat := 0x14
def held (st : Nat) (rdy : Bool) : ItSlot :=
  { st := st, linked := false, rdy := rdy, pulls := 0, ctx := 0, otag := 0, feed := 0, objs := [BitVec.ofNat 512 rangeObj], bcnt := 0, buf := []
    frame := grp.key }

/-- A group with `it0` on slot 3 and `it1` on slot 4, and an image at 0x30080. -/
def iterating : Agent := { grp with its := [(0, 3), (1, 4)] }
def pulling (x : ItSlot) (img : Nat) : State :=
  let s := run iterating
  { s.setCore 0 { s.core 0 with slots := [(3, x), (4, held itOpen false)] } with mem := writeN [] 0x30080 64 img }

/-- Whether an object at 0x30080 reads well as one of a kind. -/
def imageOk (s : State) (img kind : Nat) : Bool :=
  let o : BitVec 512 := BitVec.ofNat 512 img
  (struct s idG 0 0x30080 8).2 == some img && objKind o == kind && !objBad o && !objWorked o && !objUneven o

theorem wit_IteratorWords :
    (∀ p ∈ ([(.itnew false 0 0 5, itRules), (.itadd false 0 0 5 0, { itRules with legal := true }), (.itadd false 4 0 5 1, { itRules with legal := true }),
      (.next false false 0 0 1, { itRules with cls := some .chn, legal := true }), (.enough false 0, itRules), (.itq false 11 0, itRules),
      (.itq false 11 2, itRules), (.itsave false 12 0 5, itRules), (.itload false 2 5, itRules)] : List (Instr × Rules)),
      Issues (pulling (held itOpen false) rangeObj) idG iterating p.1 p.2 ∧ Issues (pulling (held itOpen false) mapObj) idG iterating p.1 p.2 ∧
        Issues (pulling (held itOpen false) zipObj) idG iterating p.1 p.2) ∧
    (let s := pulling (held itOpen false) rangeObj
     nameLinked s idG iterating 0 = false ∧ imageOk s rangeObj 1 = true ∧
       (let s1 := (struct s idG 0 0x30080 8).1
        slotsFit s1 idG iterating (oldSlots s1 idG iterating 0) 1 = true ∧
          ((releaseSlots s1 idG (oldSlots s1 idG iterating 0)).agent idG).isSome) ∧
       boundSlot s idG iterating 0 = some (3, held itOpen false) ∧ (held itOpen false).objs.length < 8 ∧
       imageOk (pulling (held itOpen false) mapObj) mapObj 0x10 = true ∧ imageOk (pulling (held itOpen false) zipObj) zipObj 0x14 = true ∧
       getF (BitVec.ofNat 512 zipObj) 64 6 = 0 ∧ feederOf (pulling (held itOpen false) zipObj) idG iterating 3 1 = some 4 ∧
       boundSlot s idG iterating 2 = none) ∧
    (let s := pulling (held itOpen false) rangeObj
     let s0 := s.onSlot 0 3 fun z => { z with st := itInpull }
     let s2 := (fillSlot idG 3 false pullFuel s0).1.onSlot 0 3 fun z => { z with rdy := true }
     iterating.converged = true ∧ (fillSlot idG 3 false pullFuel s0).2 = none ∧ (s2.agent idG).isSome ∧ (mapFind 3 (s2.slots 0)).isSome ∧
       roomFor s2 idG (agentOf s2 idG) false (.chan false 0) = true ∧ roomFor s2 idG (agentOf s2 idG) false (.chan false 1) = true) ∧
    (let full := { iterating with chans := [(0, { depth := 1, elems := [vec fun _ => 0] }), (1, { depth := 1, elems := [] })] }
     let s := { pulling (held itOpen true) rangeObj with runq := [idG] }.setAgent idG full
     issues s (.next false false 0 0 1, { itRules with cls := some .chn, legal := true }) = true ∧
       roomFor s idG full false (.chan false 0) = false ∧ boundSlot s idG full 0 = some (3, held itOpen true)) ∧
    (let s := pulling (held itOpen false) 0
     let order := itTree (s.slots 0) 4 3
     let s1 := storeAll idG 100 ((List.range 128).map fun i => (0x30080 + BitVec.ofNat 64 (8 * i), 8,
       savedBlock order (held itOpen false) / 2 ^ (64 * i) % 2 ^ 64)) s
     order = [3] ∧ s1.2 = none ∧ ((releaseSlots s1.1 idG order).agent idG).isSome) ∧
    (let s := { pulling (held itOpen false) 0 with mem := writeN [] 0x30080 1024 (savedBlock [3] (held itOpen false)) }
     nameLinked s idG iterating 2 = false ∧ then_ (loadBlocks idG 0x30080 4096 [0] [] s) (fun s1 bs =>
       let l := bs.filterMap fun p => (loadedBlock (p.1 == 0) p.2).map fun z => (p.1, z)
       bs.length == 1 && l.length == 1 && blocksFit l && slotsFit s1 idG iterating (oldSlots s1 idG iterating 2) 1) = true) ∧
    (let s := pulling (held itActive false) rangeObj
     mapFind 3 (s.slots 0) = some (held itActive false) ∧
       (s.core 0).groups.find? (fun e => e.2.key == (held itActive false).frame) = some (0, iterating)) :=
  ⟨fun p hp => ⟨issues_all rfl (by decide +kernel) p hp, issues_all rfl (by decide +kernel) p hp, issues_all rfl (by decide +kernel) p hp⟩,
    by decide +kernel, by decide +kernel, by decide +kernel, by decide +kernel, by decide +kernel, by decide +kernel⟩

/-- A copy descriptor of two words, with and without a completion, and an entry at the head of queue 0. -/
def copyDesc (cpl : Nat) : Nat := 0x31000 + 0x32000 * 2 ^ 64 + 2 * 2 ^ 128 + 2 * 2 ^ 176 + cpl * 2 ^ 320 + 2 ^ 384
def qEntry (kind : QKind) (st : QState) (desc prog : Nat) : QEntry :=
  { kind := kind, tag := 0, ctx := 0, tcb := 0x1000, lctx := 0, priv := false, desc := BitVec.ofNat 512 desc, st := st, prog := prog, vals := []
    rem := none, code := 0, coll := none, poster := idG }
def queued (l : List QEntry) : State :=
  { (run grp).setQueue 0 0 l with mem := writeN [] 0x30080 64 (copyDesc 0) }

theorem wit_QueueWords :
    (∀ p ∈ ([(.cpy false 0 0 5, tileRules), (.coll false 4 0 5, tileRules), (.qfence false 3, tileRules),
      (.qwait false (.reg 1) (.reg 3) (.reg 0), { tileRules with src := [.reg 3, .reg 0], legal := true }),
      (.qwait false (.reg 1) (.reg 3) (.reg 6), { tileRules with src := [.reg 3, .reg 6], legal := true })] : List (Instr × Rules)),
      Issues (queued []) idG grp p.1 p.2) ∧
    ((struct (queued []) idG 0 0x30080 8).2 = some (copyDesc 0) ∧ ((struct (queued []) idG 0 0x30080 8).1.agent idG).isSome ∧
      (struct (queued []) idG 0 0x30080 8).1.queueRoom 0 0 = true ∧ (∀ i ∈ [0, 1], (queued []).queueRoom 0 i = true) ∧
      (let s := queued (List.replicate 32 (qEntry (.cpy 0) .posted 0 0))
       issues s (.cpy false 0 0 5, tileRules) = true ∧ (struct s idG 0 0x30080 8).1.queueRoom 0 0 = false)) ∧
    ((queued []).hasU idG [.reg 3, .reg 0] [0x30000, 0] ∧ (queued []).hasU idG [.reg 3, .reg 6] [0x30000, 6]) ∧
    (((queued []).access idG grp 0 0x30000 16 { plain := true, patient := true } .load).2 = .val 0 0 ∧ bitsOf 0 95 64 = 0 ∧ (0 : Word64).toNat ≤ bitsOf 0 63 0 ∧
      bitsOf 0 63 0 < (6 : Word64).toNat ∧ (queued []).placedOf idG grp = some place) ∧
    (let d := fun (x : Nat) => (BitVec.ofNat 512 x : BitVec 512)
     copyBad 0 (d (copyDesc 0)) = false ∧ copyBad 0 (d 2) = false ∧ copyBad 0 (d (copyDesc 8)) = true ∧ copyCount 0 (d (copyDesc 0)) ≤ 2 ∧
       0 < copyCount 0 (d (copyDesc 0)) ∧ cpCpl (d (copyDesc 0)) = 0 ∧ cpCpl (d (copyDesc 0x33000)) ≠ 0 ∧ cpCpl (d (copyDesc 0x33000)) % 16 = 0 ∧
       cpSize (d (copyDesc 0)) = 4) ∧
    (let e := qEntry (.cpy 0) .active (copyDesc 0) 0
     let s := queued [e]
     let p := s.perform (e.req 0 0) 0 0x31000 4 true true .load
     s.queue 0 0 = [e] ∧ p.2 = .val 0 0 ∧ (p.1.perform (e.req 0 0) 0 0x32000 4 true true (.store 0)).2 = .val 0 0) ∧
    (let e := { qEntry (.cpy 0) .done (copyDesc 0x33000) 2 with code := 0 }
     ((queued [e]).perform (e.req 0 0) 0 0x33000 16 false false (.obj (.cpl 1 0))).2 = .val 0 0) ∧
    (let e := qEntry (.fence 7 1) .posted 0 0
     (queued [e]).queue 0 0 = [e] ∧ fenceReady (queued [e]) 0 7 1 = true) ∧
    (let e := { qEntry (.cpy 0) .active (copyDesc 0) 0 with rem := some { tag := 5, ans := none } }
     (queued [e]).queue 0 0 = [e] ∧ e.rem = some { tag := 5, ans := none }) :=
  ⟨issues_all rfl (by decide +kernel), by decide +kernel, ⟨⟨_, rfl⟩, ⟨_, rfl⟩⟩, by decide +kernel, by decide +kernel, by decide +kernel,
    by decide +kernel, by decide +kernel, by decide +kernel⟩

/-- A collective descriptor of two members, and a collective at its operation `ops`. -/
def collDesc : Nat := 0x31000 + 0x32000 * 2 ^ 64 + 0x33000 * 2 ^ 128 + 2 * 2 ^ 320 + 2 * 2 ^ 352
def collAt (ops : List CollOp) : Coll :=
  { members := [0, 9], pos := 0, ops := ops, k := 0, hand := [1, 2], fl := 0, raws := [], sent := [] }
def collective (k : Nat) (st : QState) (co : Option Coll) (prog : Nat) (vals : List Nat) : QEntry :=
  { qEntry (.coll k) st collDesc prog with coll := co, vals := vals }
def joint (e : QEntry) : State :=
  { queued [e] with modmap := [(9, 0x80000001)], endpts := [(1, 7 * 2 ^ 128)], boot := .ready }
def flit : Flit :=
  { key := collKey 0 (BitVec.ofNat 512 collDesc), src := 9, phase := 1, opc := 0, alg := 0, count := 2, nmem := 2, members := [0, 9], elems := [3, 4], flags := 0 }

theorem wit_CollectiveEvents :
    (let e := collective 0 .posted none 0 []
     let s := joint e
     s.queue 0 0 = [e] ∧ s.collsActive 0 < 64 ∧ collBad 0 s.featacc e.desc = false ∧ e.code = 0 ∧ s.sameKey 0 (collKey 0 e.desc) e.tag = []) ∧
    (let e := collective 0 .posted none 0 []
     let s := (joint e).setQueue 0 1 (List.replicate 64 (collective 0 .active none 0 []))
     s.queue 0 0 = [e] ∧ 64 ≤ s.collsActive 0) ∧
    (let e := collective 0 .active none 2 [0, 9]
     let s := joint e
     s.queue 0 0 = [e] ∧ cdNmem e.desc ≤ e.prog ∧ e.vals.count s.modid = 1 ∧ (∀ x ∈ e.vals, x < 2 ^ 18 ∧ (x = s.modid ∨ s.routed x = true)) ∧
       (∀ a ∈ s.aborts, a.key ≠ collKey 0 e.desc)) ∧
    (∀ op ∈ ([[.send 1 1], [.fold 0 2], []] : List (List CollOp)),
      let e := collective 0 .active (some (collAt op)) 2 []
      let s := joint e
      s.queue 0 0 = [e] ∧ s.flits.find? (fun f => f.key == collKey 0 e.desc && flitDiffers e.desc (collAt op) f) = none) ∧
    (let e := collective 0 .active (some (collAt [.recv 1 1])) 2 []
     let s := { joint e with flits := [flit] }
     s.flits.find? (fun f => f.key == collKey 0 e.desc && f.phase == 1 && some f.src == (collAt []).members[1]?) = some flit ∧
       s.flits.find? (fun f => f.key == collKey 0 e.desc && flitDiffers e.desc (collAt [.recv 1 1]) f) = none) ∧
    (let e := collective 0 .active (some (collAt [.fold 0 2])) 2 []
     ((joint e).perform (e.req 0 0) 0 (BitVec.ofNat 64 (cdSbuf e.desc + 0)) (cdSize e.desc) true false .load).2 = .val 0 0) ∧
    (let e := collective 4 .active (some (collAt [])) 2 []
     (joint e).queue 0 0 = [e] ∧ (4 : Nat) = kStepmark) ∧
    (let e := collective 0 .active (some (collAt [])) 2 []
     let s := joint e
     s.routed flit.src = true ∧ s.boot ≠ .bootfail ∧ s.collPosted flit.key = true ∧ cdAlg e.desc = 0 ∧ 1 < (collAt []).members.length ∧
       (s.collsOf flit.key).find? (fun p => p.2.2.coll.isSome) = some (0, 0, e)) ∧
    (let e := collective 0 .posted none 0 []
     ((joint e).collsOf flit.key).find? (fun p => p.2.2.coll.isSome) = none ∧ (joint e).collPosted flit.key = true) ∧
    (queued []).collPosted flit.key = false := by decide +kernel

/-- A snapshot descriptor with its range list, in a context with a storage window. -/
def snapDesc : Nat := 0x31000 + 2 ^ 64 + 0x200000 * 2 ^ 192 + 0x3F0000 * 2 ^ 256
def windowed : State :=
  let m := writeN (writeN (writeN [] 0x30080 128 snapDesc) 0x31000 16 (0x200000 * 2 ^ 64)) 0x60000 32 (5 + 0x20 * 2 ^ 16 + 32 * 2 ^ 64)
  let s := (run grp).setCtx 0 { CtxSlot.new with st := .active, image := BitVec.ofNat 1024 (0x60000 * 2 ^ 128) }
  { s with mem := m, snpool := 0x21 }
def gran (tag : Option Nat) : Gran := { va := 0, parts := [.data 0], kind := 0, shadow := none, tag := tag, crc := 0, free := false }
def snapIn (st : SnapState) (g : List Gran) (m : Option Nat) : State :=
  { (run grp).setSnap 0 { Snap.fresh with st := st, grans := g, manifest := m } with frozen := [0], snpool := 0x21 }

theorem wit_SnapshotWords :
    (∀ p ∈ ([(.snapFreeze false 1 2 5, snapRules), (.snapQuery false 1, snapRules), (.snapRelease false 1, snapRules)] : List (Instr × Rules)),
      Issues windowed idG grp p.1 p.2 ∧ Issues (snapIn .frozen [] none) idG grp p.1 p.2) ∧
    (let p := struct windowed idG 0 0x30080 16
     let q := struct p.1 idG 16 0x31000 2
     p.2 = some snapDesc ∧ snapBad (BitVec.ofNat 1024 snapDesc) = false ∧ q.2 = some (0x200000 * 2 ^ 64) ∧ (q.1.snap 0).st = .none ∧
       q.1.snpool.getLsbD 0 = true ∧ q.1.rangesBad 0 (BitVec.ofNat 1024 snapDesc) [(0, 0x200000)] = false ∧ q.1.late 0 2 = false) ∧
    (∀ st ∈ [SnapState.armed, .complete, .failed, .frozen, .draining, .none, .released], ((snapIn st [] none).snap 0).st = st) ∧
    (let s := snapIn .frozen [gran none] none
     (s.snap 0).freezes = true ∧ (s.snap 0).grans[0]? = some (gran none) ∧ s.poolFree = [0] ∧ s.frozen = [0] ∧ s.snapEnds = [] ∧ s.snshare ≠ 0 ∧
       (s.snap 0).manifest = none ∧ ({ s.snap 0 with st := .draining } : Snap).nextGran = some 0 ∧
       ({ (snapIn .frozen [{ gran none with free := true }] none).snap 0 with st := .draining } : Snap).nextGran = none) ∧
    (let s := snapIn .draining [gran (some 5)] none
     (s.drainOf 5).map (fun p => (p.1, p.2.manifest)) = some (0, none)) ∧
    ((snapIn .draining [] (some 6)).drainOf 6).map (fun p => (p.1, p.2.manifest)) = some (0, some 6) ∧
    (∀ z ∈ (run grp).snaps, z.2.freezes = false) ∧ (∃ z ∈ (snapIn .frozen [] none).snaps, z.2.freezes = true) :=
  ⟨fun p hp => ⟨issues_all rfl (by decide +kernel) p hp, issues_all rfl (by decide +kernel) p hp⟩, by decide +kernel⟩

/-- A group with a load outstanding, and one that waits for another module. -/
def awaiting : Agent := { grp with cld := 1, outst := [{ tag := 3, cls := .ld, writes := [.uni 7 5], flags := 0, left := 0, sent := 0, more := false }] }
def storing : Agent := { grp with cst := 1, outst := [{ tag := 3, cls := .st, writes := [], flags := 0, left := 2, sent := 1, more := false }] }
def mating : Agent := { grp with cmat := 1, outst := [{ tag := 3, cls := .mat, writes := [.lane 7 1 5], flags := 0, left := 0, sent := 0, more := false }] }
def pushing : Agent :=
  { grp with cld := 1, outst := [{ tag := 3, cls := .ld, writes := [.push 0 (vec fun _ => 1)], flags := 0, left := 0, sent := 0, more := false }]
             chans := [(0, { depth := 1, elems := [vec fun _ => 0] })] }
def remote : Agent := { grp with rem := some { tag := 3, lane := 0, va := 0x30000, info := 0, dst := 9, soft := false, cnt := false, patient := false, ans := none } }

/-- A group with a word that has issued and waits for an element of channel 2, and for another module. -/
def wordAside : Instr := .add false false false 0 (.reg 3) (.chan false 2) (.reg 2)
def rulesAside : Rules := regRules false (.reg 3) [.chan false 2, .reg 2] 0
def later : Agent := agentOf ((run grp).setAside idG grp wordAside false rulesAside) idG
def laterRemote : Agent := { later with late := later.late.map fun l => { l with rem := remote.rem } }
def half (left : Nat) : Agent :=
  { grp with cst := 1, outst := [{ tag := 3, cls := .st, writes := [], flags := 1, left := left, sent := 2, more := true }] }

theorem wit_ReplyEvents :
    ((run remote).agent idG = some remote ∧ (run remote).unitReply 0 3 (.value 5 0) = none ∧ (run awaiting).unitReply 0 3 (.value 5 0) = none ∧
      remote.awaits 3 = true ∧ remote.rem.map Rem.tag = some 3 ∧ remote.rem.bind Rem.ans = none) ∧
    ((run laterRemote).agent idG = some laterRemote ∧ laterRemote.late.map (fun l => l.rem.map Rem.tag) = [some 3] ∧
      laterRemote.late.map (fun l => l.rem.bind Rem.ans) = [none]) ∧
    (let o := awaiting.outst.headD { tag := 0, cls := .st, writes := [], flags := 0, left := 0, sent := 0, more := false }
     (run awaiting).agent idG = some awaiting ∧ awaiting.awaits 3 = false ∧
       awaiting.outst.find? (fun o => o.tag == 3 && (o.cls != .st || o.more)) = some o ∧ o.more = false ∧
       ((run awaiting).applyWrites idG o.writes).2 = [] ∧ (((run awaiting).applyWrites idG o.writes).1.agent idG).isSome) ∧
    (let w := RegWrite.push 0 (vec fun _ => 1)
     (run pushing).agent idG = some pushing ∧ pushing.awaits 3 = false ∧ ((run pushing).applyWrites idG [w]).2 = [w] ∧
       (((run pushing).applyWrites idG [w]).1.agent idG).isSome) ∧
    (∀ n ∈ [0, 2], (run (half n)).agent idG = some (half n) ∧ (run (half n)).unitReply 0 3 (.value 5 0) = none ∧ (half n).awaits 3 = false ∧
      (half n).outst.find? (fun o => o.tag == 3 && (o.cls != .st || o.more)) = (half n).outst.head? ∧
      (half n).outst.map Outst.more = [true] ∧ (half n).outst.map Outst.left = [n]) ∧
    ((run storing).agent idG = some storing ∧ (storing.outst.find? fun o => o.tag == 3 && o.cls == .st) = storing.outst.head? ∧
      (storing.outst.map fun o => (o.left, o.more)) = [(2, false)] ∧ (grp.outst.find? fun o => o.tag == 3 && o.cls == .st) = none ∧ idG.core ≠ 512) ∧
    ((run mating).agent idG = some mating ∧ (mating.outst.find? fun o => o.tag == 3 && o.cls == .mat) = mating.outst.head? ∧
      ((run mating).core 0).turns = [] ∧ (((run mating).applyWrites idG [.lane 7 1 5]).1.agent idG).isSome) ∧
    mapFind 0 grp.chans = some { depth := 2, elems := [] } := by decide +kernel

/-- A machine with page tables of four levels for the address 0, with `e` in the last, and a missing page in every other place. -/
def paged (e : Nat) (st : CtxState) : State :=
  let m := writeN (writeN (writeN [] 0x100000 8 (0x104000 + 1)) 0x104000 8 (0x108000 + 1)) 0x108000 8 (0x10C000 + 1)
  let s := (run grp).setCtx 0 { CtxSlot.new with st := st, image := BitVec.ofNat 1024 0x100000 }
  { s with mem := writeN m 0x10C000 8 e, modmap := [(9, 0x80000001)], endpts := [(1, 7 * 2 ^ 128)], boot := .ready }
def leaf : Nat := 1 + 8 + 16 + 2 ^ 12 + 0x40000
def request : FaultReq := { tag := 4, ctx := 0, gran := 5, home := 9, kind := 0, malformed := false, acked := false, waiters := [] }

theorem wit_FaultEvents :
    ((paged 0 .active).withdrawn = [] ∧ (paged leaf .active).walk 0 0 = .leaf leaf 0x10C000 ∧ (paged 0 .active).homeAnswer 0 0 = none ∧ (paged leaf .active).homeAnswer 0 0 = some (some leaf) ∧
      (paged 0 .killed).homeAnswer 0 0 = some none ∧ (paged 0 .active).modid = 0) ∧
    ((paged 0 .active).routed 9 = true ∧ (paged 0 .active).boot ≠ .bootfail ∧ (9 : Nat) ≠ (paged 0 .active).modid) ∧
    (leafV leaf = true ∧ (paged 0 .active).leafSlot 0 (leafSpan leaf) 4 0 ((paged 0 .active).ctx 0).ptroot = some 0x10C000) ∧
    ((run grp).faults.any fun f => f.ctx == 0 && f.gran == 5) = false ∧
    ((run remote).agent idG = some remote ∧ remote.rem.map Rem.tag = some 3 ∧ (remote.rem.bind Rem.ans) = none) ∧
    (let q : Req := { ctx := 0, priv := false, lctx := 0, id := { core := 512, idx := 0 } }
     ((paged leaf .killed).ctx 0).resident = false ∧ ((paged leaf .active).ctx 0).resident = true ∧
       ((paged leaf .active).perform q 0 0x10 4 true false (accOf 0 0 0 0)).2 = .val 0 0 ∧
       (match ((paged 0 .active).perform q 0 0x10 4 true false (accOf 0 0 0 0)).2 with
         | .fault _ _ => true
         | _ => false) = true) ∧
    (remote.patient 3 = false ∧
      (let r : Agent := { remote with rem := remote.rem.map fun r => { r with patient := true } }
       (run r).agent idG = some r ∧ r.patient 3 = true)) ∧
    ((run grp).faults.any fun f => f.ctx == 0 && f.gran == 5 && !f.acked) = false ∧
    ((0, 5) ∉ (paged 0 .active).withdrawn) ∧ (remote.outst.find? fun o => o.tag == 3 && o.cls == .st) = none ∧
    ((run storing).agent idG = some storing ∧ (storing.outst.find? fun o => o.tag == 3 && o.cls == .st) = storing.outst.head?) ∧
    (({ run grp with faults := [request] } : State).faults.any fun f => f.ctx == 0 && f.gran == 5 && !f.acked) = true ∧
    (let x : Extent := { extent with stale := true }
     let s := (run grp).setPlaced 0 0 { place with exts := [x] }
     mapFind 0 (s.core 0).placed = some { place with exts := [x] } ∧ findExtent { place with exts := [x] } 3 = some x) ∧
    ((paged leaf .active).translateAgain 0 64 [(0, 3)] []).2.2 = none ∧
    ((({ paged leaf .active with poison := [0x100000 / 32] } : State).translateAgain 0 64 [(0, 3)] []).2.2).isSome = true := by decide +kernel

theorem pick_some {α : Type} (s : State) (l : List α) (h : l ≠ []) : ∃ x s1, s.pick l = some (x, s1) := by
  have hl : 0 < l.length := List.length_pos_iff.mpr h
  have : Config.freeBits s.freeCtr % l.length < l.length := Nat.mod_lt _ hl
  refine ⟨l[Config.freeBits s.freeCtr % l.length], (s.choose l.length).2, ?_⟩
  simp [State.pick, State.choose, this]

/-- A task of context 0 in one state, with a TCB in memory. -/
def tcbImage : BitVec 2048 := BitVec.ofNat 2048 (2 * 2 ^ 768)
def task (st : TaskState) (cores : List (Nat × Nat)) (prep : Option Prep) : Task :=
  { freshTask 0 0 with st := st, cores := cores, prep := prep, image := tcbImage }
def noPrep : Prep := { dict := [], tiles := [], ranges := [], al := [], depths := [], exts := [], list := [] }
def tasked (t : Task) : State := { run grp with tasks := [(0x1000, t)] }

theorem wit_DispatchEvents :
    (((tasked (task .ready [] none)).ctx 0).st = .active ∧ (task .ready [] none).ending = false ∧ (task .ready [] none).st = .ready ∧
      (tasked (task .ready [] none)).poisonAt 0x1000 256 = false ∧ mapFind 0x1000 (tasked (task .ready [] none)).tasks = some (task .ready [] none)) ∧
    ((task .dispatching [] (some noPrep)).cores = [] ∧ (task .dispatching [] (some noPrep)).prep.isSome) ∧
    (let t := task .dispatching [(0, 0)] (some noPrep)
     let c := (tasked t).ctx 0
     t.cores ≠ [] ∧ t.cores.length ≤ c.nfr - c.frames.length) ∧
    ((task .dispatching [] none).st = .dispatching ∧ (task .dispatching [] none).prep = none ∧ (task .dispatching [] none).ending = false ∧
      ({ tasked (task .ready [] none) with poison := [0x1000 / 32] } : State).poisonAt 0x1000 256 = true ∧
      (ranked (tasked (task .ready [] none)).moduleWork).isEmpty = false) ∧
    (let t := task .running [(0, 0)] none
     let s := tasked t
     t.starts = [] ∧ t.nextGroup < imgNgrp t.image ∧ imgPlace t.image = false ∧
       (t.cores.map Prod.fst).filter (fun k => (s.cluster (k / 32)).room) = [0]) ∧
    (∃ core s1, (tasked (task .running [(0, 0)] none)).pick [0] = some (core, s1)) ∧
    (let t := task .draining [(0, 0)] none
     t.ending = false ∧ (tasked t).outstOf t = 0) ∧
    ({ task .running [(0, 0)] none with chain := [(0x5000, 0x5000)], slots := 3 } : Task).chain = [(0x5000, 0x5000)] :=
  ⟨by decide +kernel, by decide +kernel, by decide +kernel, by decide +kernel, by decide +kernel, pick_some _ _ (by simp), by decide +kernel, by decide⟩

/-- A SPAWN record, and the cluster 0 with it and with a bin of two threads. -/
def spawnRec (tcb : Nat) : Record :=
  { kind := .spawn, ctx := 0, tcb := tcb, frame := 7, code := 0x20100, pin := false, home := 0, part := none }
def spawnedThread : WheyThread := { v := [], m := 0, tid := 5 }
def bin (tcb : Nat) : Bin := { ctx := 0, tcb := tcb, land := 0x20100, threads := [spawnedThread, spawnedThread] }
def clustered (q : List Record) (base : Word64) (bins arrive : List Bin) : State :=
  (tasked (task .running [(0, 0)] none)).setCluster 0 { (run grp).cluster 0 with queue := q, cqbase := base, bins := bins, arrive := arrive }

theorem wit_RecordEvents :
    (let s := clustered [spawnRec 0x9000] 1 [] []
     (s.cluster 0).cqbase.getLsbD 0 = true ∧ s.orphan (spawnRec 0x9000) = true ∧ (s.ctx 0).st = .active ∧
       ((s.cluster 0).queue.zipIdx.map fun p => (p.2, p.1)).find? (fun p => s.orphan p.2 && (s.ctx p.2.ctx).st == .active) = some (0, spawnRec 0x9000)) ∧
    (let s := clustered [spawnRec 0x1000] 1 [bin 0x1000] []
     ((s.cluster 0).queue.zipIdx.map fun p => (p.2, p.1)).find? (fun p => s.orphan p.2 && (s.ctx p.2.ctx).st == .active) = none ∧
       (s.cluster 0).bins[0]? = some (bin 0x1000) ∧ (∀ b ∈ (s.cluster 0).bins, (mapFind b.tcb s.tasks).isSome) ∧
       s.lctxOn 0x1000 0 = some 0 ∧ (s.takeFrame 0).isSome ∧ (s.core 0).freeGroups ≠ [] ∧ (spawnRec 0x1000).home = 0) ∧
    ((clustered [] 0 [] [bin 0x1000]).cluster 0).cqbase.getLsbD 0 = false ∧
    (let s := clustered [spawnRec 0x1000] 1 [] []
     let l := (s.coresOf (spawnRec 0x1000)).filter fun c => s.coreRuns (spawnRec 0x1000) c
     ∃ core s1, s.pick l = some (core, s1) ∧ (mapFind (spawnRec 0x1000).tcb s1.tasks).isSome) ∧
    (∃ i s1, (clustered [] 1 [] []).pick ((clustered [] 1 [] []).core 0).freeGroups = some (i, s1) ∧ (s1.takeFrame 0).isSome) := by
  refine ⟨by decide +kernel, by decide +kernel, by decide +kernel, ?_, ?_⟩
  · obtain ⟨i, s1, h⟩ := pick_some (clustered [spawnRec 0x1000] 1 [] []) (((clustered [spawnRec 0x1000] 1 [] []).coresOf (spawnRec 0x1000)).filter
      fun c => (clustered [spawnRec 0x1000] 1 [] []).coreRuns (spawnRec 0x1000) c) (by decide +kernel)
    refine ⟨i, s1, h, ?_⟩
    simp only [State.pick, Option.map_eq_some_iff] at h
    obtain ⟨_, _, h⟩ := h
    rw [← (Prod.mk.inj h).2]
    decide +kernel
  obtain ⟨i, s1, h⟩ := pick_some (clustered [] 1 [] []) ((clustered [] 1 [] []).core 0).freeGroups (by decide +kernel)
  refine ⟨i, s1, h, ?_⟩
  have hs : s1 = ((clustered [] 1 [] []).choose ((clustered [] 1 [] []).core 0).freeGroups.length).2 := by
    simp only [State.pick, Option.map_eq_some_iff] at h
    obtain ⟨_, _, h⟩ := h
    exact (Prod.mk.inj h).2.symm
  rw [hs]
  decide +kernel

/-- The machine with port 2 in a state, its lanes and its failed negotiation as given. -/
def ported (st : PortState) (lanes : Nat) (neg : Bool) : State :=
  State.reset.setPort 2 { State.reset.port 2 with st := st, lanes := lanes, negfail := neg }

theorem wit_PortEvents :
    (∀ st ∈ [PortState.down, .training, .linkup, .joined, .active, .degraded, .draining], ((ported st 8 false).port 2).st = st) ∧
    ((ported .linkup 8 true).port 2).negfail = true ∧ ((ported .active 4 false).port 2).lanes < 8 ∧
    ((ported .active 8 false).port 2).degth.toNat < 1025 ∧ ((ported .degraded 8 false).port 2).lanes = 8 ∧
    2 * 511 < ((ported .degraded 8 false).port 2).degth.toNat := by decide

/-- A machine with an endpoint 1 of given rights, as a peer 2 with command right 1 and valid 0. -/
def endpoint (rights : Nat) : State := { State.reset with endpts := [(1, BitVec.ofNat 256 (rights * 2 ^ 128))], boot := .ready, cmdbase := 0x1000001 }

theorem wit_InboundEvents :
    (let e := fun (r : Nat) => mapGet (0 : BitVec 256) (endpoint r).endpts 1
     (e 7).getLsbD 128 = true ∧ (e 7).getLsbD 129 = true ∧ (e 7).getLsbD 130 = true ∧ (e 0).getLsbD 128 = false ∧ (e 1).getLsbD 130 = false ∧
       (e 1).getLsbD 129 = false) ∧
    (endpoint 7).boot ≠ .bootfail ∧ (endpoint 7).inHbm 0x100 4 = true ∧ (endpoint 7).cmdbase.getLsbD 0 = true ∧
    ((endpoint 7).atBlocks 0 0x100 4 (accOf 1 5 0 0)).2 = .val 0 0 ∧
    ((accOf 1 5 0 0).kind ≠ .load ∧ (accOf 1 5 0 0).kind ≠ .probe ∧ 0xFE01000000 ≤ 0xFE01000100 ∧ 0xFE01000100 + 4 ≤ 0xFE01F00000) ∧
    (({ endpoint 7 with poison := [8] } : State).atBlocks 0 0x100 4 (accOf 0 0 0 0)).2 = .poisoned ∧
    (let g : Gran := { va := 0, parts := [.data 0], kind := 0, shadow := none, tag := none, crc := 0, free := false }
     ((({ endpoint 7 with snaps := [(0, { Snap.fresh with st := .frozen, grans := [g] })], snpool := 1 } : State).atBlocks 0 0x100 4
       (accOf 1 5 0 0)).2) = .busy ∧
       (({ endpoint 7 with snaps := [(0, { Snap.fresh with st := .frozen, grans := [g] })], snpool := 1 } : State).atBlocks 0 0x100 4
         (.rmw 8 1 5 0)).2 = .busy) ∧
    (match ((endpoint 7).atBlocks 0 0x100 4 (.rmw 8 1 5 0)).2 with
      | .val _ _ => true
      | _ => false) = true ∧
    (((endpoint 7).hbm.all fun h => h.2.out == 0 && h.2.training.isEmpty && h.2.asleep.isEmpty) = true ∧ (endpoint 7).poison = [] ∧
      (endpoint 7).uo = [] ∧ (endpoint 7).stale = [] ∧ (endpoint 7).withdrawn = [] ∧ (endpoint 7).frozenAt 0x100 = none) ∧
    (({ endpoint 7 with attreqs := [(1, 0)] } : State).attreqs = [(1, 0)] ∧ (0x10001 : Word64).getLsbD 16 = true ∧ (1 : Word64).getLsbD 16 = false) ∧
    (endpoint 7).attreqs.length < 4 ∧ 4 ≤ ({ endpoint 7 with attreqs := [(1, 0), (1, 0), (1, 0), (1, 0)] } : State).attreqs.length := by decide +kernel

/-- A context slot in one state, and a descriptor at 0x10000 that LOAD accepts. -/
def ctxIn (st : CtxState) (done : Bool) : State :=
  { State.reset.setCtx 3 { CtxSlot.new with st := st, done := done } with boot := .ready }
def goodDesc : Nat := 0x100000 + 0x200000 * 2 ^ 704 + 4 * 2 ^ 640 + 16 * 2 ^ 768
def loadable (st : CtxState) (x : Nat) : State := { ctxIn st false with mem := writeN [] 0x10000 128 x }

theorem wit_ContextCommands :
    (∀ st ∈ [CtxState.new, .loaded, .active, .quiescing, .killed, .freed], ((ctxIn st false).ctx 3).st = st) ∧
    (let s := loadable .freed goodDesc
     let x : BitVec 1024 := BitVec.ofNat 1024 (readN s.mem 0x10000 128)
     (0x100 : BitVec 50).toNat * 256 = 0x10000 ∧ s.boot = .ready ∧ 0x10000 / 2 ^ 40 = s.modid ∧ s.inHbm 0x10000 128 = true ∧ s.poisonAt 0x10000 128 = false ∧
       getF x 816 208 = 0 ∧ getF x 58 6 = 0 ∧ getF x 0 14 = 0 ∧ getF x 704 64 % 64 = 0 ∧ getF x 576 64 % 65536 = 0 ∧ getF x 512 64 % 4 = 0 ∧
       getF x 256 64 % 128 = 0 ∧ getF x 192 64 % 2 ^ 33 = 0 ∧ getF x 128 64 % 32 = 0 ∧ getF x 64 64 % 16 = 0 ∧ getF x 448 64 = 0 ∧ getF x 384 64 = 0 ∧
       getF x 320 64 = 0 ∧ 1 ≤ getF x 640 32 ∧ getF x 640 32 ≤ 65536 ∧ 1 ≤ getF x 768 32 ∧ getF x 768 32 ≤ 2 ^ 20 ∧
       s.inHbm (getF x 14 44 * 2 ^ 14) (2 ^ 14) = true ∧ s.inHbm (getF x 704 64) (64 * getF x 768 32) = true) ∧
    getF (BitVec.ofNat 1024 (readN (loadable .new 1).mem 0x10000 128)) 0 14 ≠ 0 ∧
    (ctxIn .quiescing false).quiesced 3 = true ∧ (ctxIn .active false).quiesced 3 = false ∧ ((ctxIn .active false).ctx 3).resident = true ∧
    ((ctxIn .active false).ctx 3).frames = [] ∧ (ctxIn .active false).tasks = [] ∧ ((ctxIn .active false).ctx 3).nendpt = 0 ∧
    ((ctxIn .killed true).ctx 3).done = true ∧ ((ctxIn .killed false).ctx 3).resident = false := by decide +kernel

theorem wit_ControlWrites :
    (State.reset.inHbm (getF (0x1000001 : Word64) 24 16 * 2 ^ 24) 0xF00000 = true ∧ (0 : Word64).getLsbD 0 = false ∧
      State.reset.inHbm (getF (0xFFFF000001 : Word64) 24 16 * 2 ^ 24) 0xF00000 = false) ∧
    (let s := clustered [spawnRec 0x1000] 1 [] []
     (s.cluster 0).cqbase.getLsbD 0 = true ∧ (s.cluster 0).queue ≠ [] ∧ (clustered [] 0 [] [] |>.cluster 0).cqbase.getLsbD 0 = false) ∧
    (let v : Word64 := 0x80000000000000D0 &&& 0x7FFFFFFFFFFFFFFF
     (State.reset.ctxs.any fun c => c.2.st != .new && c.2.st != .freed) = false ∧ v &&& ~~~ (0xFF : Word64) = 0 ∧ v.getLsbD 4 = true ∧
       ((ctxIn .active false).ctxs.any fun c => c.2.st != .new && c.2.st != .freed) = true) ∧
    (State.reset.minver.toNat ≤ (5 : Word).toNat ∧ (5 : Word).toNat < ({ State.reset with minver := 6 } : State).minver.toNat) ∧
    (((0 : BitVec 16) - State.reset.evhead).toNat ≤ (State.reset.evtail - State.reset.evhead).toNat ∧
      (State.reset.evtail - State.reset.evhead).toNat < ((1 : BitVec 16) - State.reset.evhead).toNat) := by decide +kernel

/-- Channel 5 of stack 2 after two alerts, in training and retrained. -/
def stacked (h : Hbm → Hbm) : State := State.reset.setHbm 2 (h (State.reset.hbmOf 2))

theorem wit_ReliabilityEvents :
    (getF (State.reset.hbmOf 2).ctl 32 16 ≠ 0 ∧ 256 * getF (State.reset.hbmOf 2).ctl 32 16 ≤ 256 * 64 ∧ 5 ∉ (State.reset.hbmOf 2).asleep) ∧
    (let h := (stacked fun h => { h with fails := [(5, 2)] }).hbmOf 2
     mapGet 0 h.fails 5 = 2 ∧ 5 ∉ h.trained) ∧
    5 ∈ ((stacked fun h => { h with trained := [5] }).hbmOf 2).trained ∧ 5 ∈ ((stacked fun h => { h with training := [5] }).hbmOf 2).training ∧
    (State.reset.inHbm 0x100 1 = true ∧ getF (State.reset.hbmOf (State.reset.stackOf 0x100).1).ctl 8 8 ≠ 0 ∧ State.reset.inHbm 0xA000000000 1 = false) ∧
    (let s : State := { State.reset with slices := [(4, .pending)] }
     mapGet .service s.slices 4 = .pending ∧ mapGet .service State.reset.slices 4 ≠ .pending) ∧
    (let s : State := { State.reset with slices := [(4, .reforming)], outstk := [(4, 2)] }
     mapGet .service s.slices 4 = .reforming ∧ mapGet 0 s.outstk 4 < 8) ∧
    State.reset.featacc.getLsbD 6 = false ∧ ({ State.reset with featacc := 0x50 } : State).featacc.getLsbD 6 = true ∧
    ((run grp).agent idG = some grp ∧ grp.lead = false) := by decide +kernel

def provided : Prov := { modid := 7, own := 0, host := 0 }

/-- Which images are valid is open: the key of the boot ROM is not in the manual. -/
theorem wit_StartUp :
    State.reset.boot = .reset ∧ State.reset.bootSlot = none ∧ State.reset.prov = none ∧
    ({ State.reset with prov := some provided } : State).prov.isSome ∧
    (∀ i : Image, i.valid 0#32 = true → ({ State.reset with flashA := some i } : State).bootSlot = some false) ∧
    (∀ b ∈ [BootState.fwload, .hbminit, .links, .ready], ({ State.reset with boot := b } : State).boot = b ∧ b ≠ .reset) ∧
    (∀ i j : Image, i.valid 0#32 = true → j.valid 0#32 = true → let s : State := { State.reset with flashA := some i, flashB := some j }
      s.flashA = some i ∧ s.flashB = some j ∧ i.valid s.minver = true ∧ j.valid s.minver = true) ∧
    ((ctxIn .active false).ctxs.all fun c => ((ctxIn .active false).ctx c.1).frames.isEmpty) = true ∧ (ctxIn .active false).tasks = [] ∧
    ((ctxIn .active false).ctx 3).resident = true :=
  ⟨rfl, rfl, rfl, rfl, fun i h => by simp [State.bootSlot, State.reset, Option.filter, h], by decide, fun i j h k => ⟨rfl, rfl, h, k⟩, by decide, rfl, by decide⟩

/-- HBM with a word at 0x100, a reservation of lane 0 there, and a TCB that waits for one more predecessor at 0x1000. -/
def req0 : Req := { ctx := 0, priv := false, lctx := 0, id := idG }
def stored : State :=
  { (run grp) with mem := writeN (writeN [] 0x100 4 7) 0x1000 4 1, cmdbase := 1
                   resvs := [{ id := idG, lane := 0, gran := 4, ctx := 0, vpn := 0 }] }

theorem wit_HbmAccesses :
    (∀ h ∈ stored.hbm, h.2.out = 0 ∧ h.2.training = [] ∧ h.2.asleep = []) ∧ stored.poison = [] ∧ stored.uo = [] ∧ stored.stale = [] ∧ stored.withdrawn = [] ∧
    (∃ v ∈ stored.resvs, (v.id = req0.id ∧ v.lane = 0) ∧ v.gran = 0x100 / 64) ∧
    (¬ ∃ v ∈ (run grp).resvs, (v.id = req0.id ∧ v.lane = 0) ∧ v.gran = 0x100 / 64) ∧ stored.isTcb 0x104 = false ∧ (5 : Nat) < 256 ^ 4 ∧
    (stored.isTcb 0x1000 = true ∧ byteAt stored.mem 0x1004 = 0 ∧ readN stored.mem 0x1000 4 = 1 ∧ (1 + 0xFFFFFFFF) % 2 ^ 32 = 0 ∧
      0xFFFFFFFF < 256 ^ 4 ∧ (stored.ctx (readN stored.mem 0x1005 1 % 16)).resident = true) := by decide +kernel

/-- The page tables of `paged` with no extents, and a TLB entry for them. -/
def unplaced (e : Nat) : State := (paged e .active).setPlaced 0 0 { place with exts := [] }
def cached : State :=
  let s := unplaced 0
  s.setCore 0 { s.core 0 with tlb := [.leaf 0 0 (BitVec.ofNat 64 leaf) []] }
def bigLeaf : Nat := 1 + 8 + 16 + 11 * 2 ^ 7 + 2 ^ 12

theorem wit_AddressTranslation :
    (mapFind 0 ((run grp).core 0).placed = some place ∧ place.ctx = 0 ∧ findExtent place 3 = some extent ∧ extent.stale = false ∧ extent.win = [] ∧
      extent.r = true ∧ extent.w = true ∧ extent.x = true ∧ extent.sup = false ∧ extent.d = true) ∧
    (let x := { extent with x := false }
     let s := (paged leaf .active).setPlaced 0 0 { place with exts := [x] }
     mapFind 0 (s.core 0).placed = some { place with exts := [x] } ∧ findExtent { place with exts := [x] } 0 = some x ∧ s.walk 0 0 = .leaf leaf 0x10C000 ∧
       leafX leaf = false ∧ (s.ctx 0).wint = 0) ∧
    (mapFind 0 (cached.core 0).placed = some { place with exts := [] } ∧
      findTlb (cached.core 0).tlb 0 0 = some (.leaf 0 0 (BitVec.ofNat 64 leaf) []) ∧ leafR leaf = true ∧ leafX leaf = false ∧
      leafS leaf = false ∧ leafD leaf = true ∧ leafW leaf = true) ∧
    (let s := unplaced leaf
     let t := s.setCore 0 { s.core 0 with tlb := [.leaf 0 0 (BitVec.ofNat 64 (leaf - 16)) []] }
     leafW (leaf - 16) = false ∧ leafX (leaf - 16) = false ∧ findTlb (t.core 0).tlb 0 0 = some (.leaf 0 0 (BitVec.ofNat 64 (leaf - 16)) []) ∧
       t.walk 0 0 = .leaf leaf 0x10C000 ∧ (t.ctx 0).wint = 0) ∧
    (findTlb ((unplaced leaf).core 0).tlb 0 0 = none ∧ (unplaced leaf).walk 0 0 = .leaf leaf 0x10C000 ∧ leaf < 2 ^ 64 ∧ ((unplaced leaf).ctx 0).wint = 0 ∧
      leafA leaf = false ∧ leafA (leaf + 2 ^ 13) = true ∧ (unplaced (leaf + 2 ^ 13)).walk 0 0 = .leaf (leaf + 2 ^ 13) 0x10C000) ∧
    (let m := (unplaced leaf).mem
     readN m 0x100000 8 % 2 = 1 ∧ readN m 0x100000 8 / 2 % 2 ^ 13 = 0 ∧ readN m 0x100000 8 / 2 ^ 14 % 2 ^ 44 * 2 ^ 14 = 0x104000 ∧
       (unplaced leaf).inService 0x100000 = true ∧ (unplaced leaf).poisonAt 0x100000 8 = false ∧ readN m 0x10C000 8 = leaf ∧ leaf / 2 % 4 ≠ 3 ∧
       leaf / 2 ^ 14 % 4 = 0 ∧ leaf / 2 ^ 7 % 32 ≤ 10) ∧
    (bigLeaf % 2 = 1 ∧ bigLeaf / 2 % 4 ≠ 3 ∧ bigLeaf / 2 ^ 14 % 4 = 0 ∧ bigLeaf / 2 ^ 7 % 32 = 11 ∧ bigLeaf / 8 % 8 ≠ 0) ∧
    (let s : State := { paged 0 .active with mem := [] }
     readN s.mem 0x100000 8 % 2 = 0 ∧ s.homeOf 0 0 = .ok none) ∧
    ((unplaced leaf).trainingAt 0x10C000 = false ∧ (unplaced leaf).frozenAt 0x10C000 = none ∧ (unplaced leaf).outAt 0x10C000 = false) := by decide +kernel

theorem wit_values :
    (∀ p ∈ ([(.lea false false 2 (.reg 3) (.reg 1) (.reg 2), regRules false (.reg 3) [.reg 1, .reg 2] 0),
      (.lea false true 7 (.reg 3) (.reg 2) (.reg 6), regRules true (.reg 3) [.reg 2, .reg 6] 0),
      (.addi false false (.reg 3) (.reg 1) 5, { regRules false (.reg 3) [.reg 1] 0 with okX := true }),
      (.addi false true (.reg 3) (.reg 2) 5, { regRules true (.reg 3) [.reg 2] 0 with okX := true }),
      (.logic false false 5 (.reg 3) (.reg 1) (.reg 2), regRules false (.reg 3) [.reg 1, .reg 2] 0),
      (.logic false true 0 (.reg 3) (.reg 2) (.reg 6), regRules true (.reg 3) [.reg 2, .reg 6] 0),
      (.mulh false false 0 (.reg 3) (.reg 1) (.reg 2), regRules false (.reg 3) [.reg 1, .reg 2] 0),
      (.mulh false false 1 (.reg 3) (.reg 1) (.reg 2), regRules false (.reg 3) [.reg 1, .reg 2] 0),
      (.mulh false false 5 (.reg 3) (.reg 1) (.reg 2), regRules false (.reg 3) [.reg 1, .reg 2] 0),
      (.mulh false false 6 (.reg 3) (.reg 1) (.reg 2), regRules false (.reg 3) [.reg 1, .reg 2] 0),
      (.mulh false true 0 (.reg 3) (.reg 2) (.reg 6), regRules true (.reg 3) [.reg 2, .reg 6] 0),
      (.mulh false true 1 (.reg 3) (.reg 2) (.reg 6), regRules true (.reg 3) [.reg 2, .reg 6] 0)] : List (Instr × Rules)),
      Issues (run grp) idG grp p.1 p.2) ∧
    (run grp).current = some (idG, grp) ∧ grp.clear grp.gate = true ∧ (run grp).drains grp = false ∧
    (0x0DB00000 / 2 ^ 23 % 128 = 0x1B ∧ 0x0DB00000 / 2 ^ 21 % 4 ≠ 0) ∧ (0x02400000 / 2 ^ 23 % 128 = 0x04 ∧ 0x02400000 / 2 ^ 22 % 2 = 1) :=
  ⟨issues_all rfl (by decide +kernel), by decide +kernel⟩

/-- A group with two elements in channel 0, one that fills channel 1, and none in channel 2; and its task channels. -/
def channels : Agent :=
  { grp with chans := [(0, { depth := 2, elems := [vec fun _ => 1, vec fun _ => 2] }), (1, { depth := 1, elems := [vec fun _ => 3] }), (2, { depth := 2, elems := [] })]
             cursor := some 0 }
def deciding : State :=
  let s := (run channels).setPlaced 0 0 { place with chans := [(8, { depth := 2, elems := [5, 6] }), (9, { depth := 2, elems := [] }), (15, { depth := 2, elems := [9] })] }
  { s with tasks := [(0x1000, { freshTask 0 0 with st := .running, cores := [(0, 0)], image := BitVec.ofNat 2048 (2 ^ 825) })] }

theorem wit_OperandForms :
    deciding.agent idG = some channels ∧ mapFind 0 channels.chans = some { depth := 2, elems := [vec fun _ => 1, vec fun _ => 2] } ∧
    mapFind 2 channels.chans = some { depth := 2, elems := [] } ∧ ((deciding.placedOf idG channels).map fun p => p.inbox) = some [] ∧
    ((deciding.placedOf idG channels).bind fun p => mapFind 8 p.chans) = some { depth := 2, elems := [5, 6] } ∧
    ((deciding.placedOf idG channels).bind fun p => mapFind 9 p.chans) = some { depth := 2, elems := [] } ∧
    (deciding.decides channels = true ∧ channels.cursor = some 0 ∧ ((deciding.placedOf idG channels).bind fun p => mapFind 15 p.chans) =
      some { depth := 2, elems := [9] } ∧ place.decBase ≤ 0) ∧
    (tries deciding (.add false false false 0 (.reg 3) (.chan false 2) (.reg 1), regRules false (.reg 3) [.chan false 2, .reg 1] 0) = true ∧
      deciding.closed idG channels (regRules false (.reg 3) [.chan false 2, .reg 1] 0) = false ∧
      deciding.stays idG channels (.add false false false 0 (.reg 3) (.chan false 2) (.reg 1)) (regRules false (.reg 3) [.chan false 2, .reg 1] 0) = false ∧
      readVs deciding idG [.chan false 2, .reg 1] = none) ∧
    (issues deciding (.add false false false 0 (.chan false 1) (.reg 2) (.reg 1), regRules false (.chan false 1) [.reg 2, .reg 1] 0) = true ∧
      (readVs deciding idG [.reg 2, .reg 1]).isSome) := by decide +kernel

theorem wit_StepRunsDecoded :
    (let a := grp
     let c := clauseOf 2 0x00803042
     let s := run { a with clause := some { c with addr := 0x20000 } }
     s.runq = [idG] ∧ s.agenda = [] ∧ (s.agent idG).isSome ∧ a.pend = .none ∧ a.preq = false ∧ a.pairw = none ∧ c.hdr.pair.getLsbD 0 = false ∧
       (decodeWord (c.words.getD 0 0).toNat).toOption = some (.add false false false 0 (.reg 3) (.reg 1) (.reg 2)) ∧ a.path.pc = 0x20000 ∧
       a.clear a.gate = true) ∧
    ((decodeWord 0x16000000).toOption = none) ∧
    ({ grp with pairw := some { ins := some (.nop false false), s := false } } : Agent).pairw = some { ins := some (.nop false false), s := false } ∧
    (let q : Req := { reqOf idG grp with quiet := grp.acked && !(runM grp).drains grp, word := ((runM grp).wordTag grp).1 }
     (runM grp).drainsSo idG grp = false ∧ grp.told = none ∧ grp.rem = none ∧ mapFind fetchNo grp.got = none ∧ (runM grp).drainsAt idG grp 0x20000 4 = false ∧ q.quiet = true ∧
     (match (runM grp).translate q 0x20000 .fetch with
      | (s1, .ok t) => t.pa / 2 ^ 40 == s1.modid && decide (t.pa % 2 ^ 40 < 0xA000000000) && s1.inService (t.pa % 2 ^ 40) && s1.poison.isEmpty && s1.uo.isEmpty && t.win.isNone && t.ord != 1 &&
          (s1.hbm.all fun h => h.2.out == 0 && h.2.training.isEmpty && h.2.asleep.isEmpty)
      | _ => false) = true) ∧
    (let u : State := { State.reset with agenda := [.fwload] }
     u.runq = [] ∧ u.agenda = [.fwload] ∧ Instr.isEvent .fwload = true) ∧
    (let s := run later
     s.runq = [idG] ∧ s.agenda = [] ∧ s.agent idG = some later ∧ later.pend = .none ∧ later.preq = false ∧ later.late.length = 1) := by decide +kernel

/-- Whether the step goes on with the word that waits or takes the next one is its free choice; each of the two is a
hypothesis of the statement, and one of them holds. -/
theorem wit_StepRunsDecoded_turn :
    (∃ z, later.late[((run later).choose (later.late.length + 1)).1]? = some z) ∨
      later.late[((run later).choose (later.late.length + 1)).1]? = none := by
  cases later.late[((run later).choose (later.late.length + 1)).1]? with
  | none => exact .inr rfl
  | some z => exact .inl ⟨z, rfl⟩

theorem wit_WordsRoundTrip :
    Instr.wf (.add true false true 0 (.reg 3) (.chan false 2) (.reg 1)) = true ∧
    Instr.isEvent (.add true false true 0 (.reg 3) (.chan false 2) (.reg 1)) = false ∧
    (decodeWord 0x00803042).toOption = some (.add false false false 0 (.reg 3) (.reg 1) (.reg 2)) ∧ (decodeHeader 0x10000056).isSome := by decide +kernel

theorem wit_IntegerValues : ((0x80000000 : Word) ≠ 0) ∧ ((0 : BitVec 3) = 0 ∨ (0 : BitVec 3) = 1 ∨ (0 : BitVec 3) = 5 ∨ (0 : BitVec 3) = 6) ∧
    (0 : Int) < 2 ^ 31 ∧ ¬ ((0x80000000 : Word).toInt + (0x80000000 : Word).toInt ≥ -2 ^ 31) := by decide

/-! ### The further clauses of the statements above -/

theorem wit_FloatWords_values : ∀ p ∈ [((2 : BitVec 3), Fmt.f32), (3, .f16), (4, .bf16)],
    p ∈ [((2 : BitVec 3), Fmt.f32), (3, .f16), (4, .bf16)] ∧ (4 : Nat) ≤ 4 ∧ ((2 : BitVec 3), Fmt.f32).1 = 2 ∧
      ((2 : BitVec 3), Fmt.f32).2 = .f32 := fun _ h => ⟨h, by decide, rfl, rfl⟩

theorem wit_ConversionWords_values : (5 : Nat) ≤ 5 ∧ (14 : Nat) < 15 ∧ (14 : Nat) ≠ 12 ∧ (2 : Nat) < 3 ∧ (1 : Nat) < 2 := by decide

theorem wit_BlockScaleWords_values : ((11 : Nat) = 7 ∨ (11 : Nat) = 9 ∨ (11 : Nat) = 10 ∨ (11 : Nat) = 11) ∧ (5 : Nat) ≤ 5 ∧
    (31 : Nat) < 32 := by decide

/-- A descriptor with a trap and one without; the boundary words 242 and 243 of five digits of radix 3; digits at, before and
past the end of a word. -/
theorem wit_AlphabetWords_values : alValid 0x229 = true ∧ alValid 0x1000000000229 = true ∧ alValid 0x429 = true ∧
    digitsOf 0x229 = 5 ∧ digitsOf 0x429 = digitsOf 0x229 ∧ weightAt 0x229 (digitsOf 0x229) = 243 ∧
    weightAt 0x1000000000229 (digitsOf 0x1000000000229) ≤ (243 : Word).toNat ∧ (0x1000000000229 : Word64).getLsbD 48 = true ∧
    (0x229 : Word64).getLsbD 48 = false ∧ (242 : Word).toNat < weightAt 0x229 (digitsOf 0x229) ∧
    (digitsOf 0x229 ≤ 5 ∧ digitsOf 0x229 ≤ 4 * (5 % 8) ∧ 4 < digitsOf 0x229 ∧ 4 * (1 % 8) < digitsOf 0x229 ∧ 5 < 2 ^ 32) ∧
    (1 ≠ 4 ∧ 1 < digitsOf 0x229 ∧ 1 < radixAt 0x229 4 ∧ digitValue 0x229 4 1 = clampAt 0x229 4 0) ∧
    ReadsAs 0x229 242 242 0 ∧ ReadsAs 0x429 2568 2568 0 :=
  ⟨by decide +kernel, by decide +kernel, by decide +kernel, by decide +kernel, by decide +kernel, by decide +kernel, by decide +kernel,
    by decide +kernel, by decide +kernel, by decide +kernel, by decide +kernel, by decide +kernel,
    by rw [ReadsAs, if_pos (by decide +kernel)]; exact ⟨rfl, rfl⟩, by rw [ReadsAs, if_pos (by decide +kernel)]; exact ⟨rfl, rfl⟩⟩

/-- A handler whose trap was a breakpoint in the clause at 0x20100, and one that ends a restore. -/
def resuming : Agent := { handler with tcause := BitVec.ofNat 64 trBkpt, tpc := 0x20100, tclause := 0 }
def restoring : Agent := { saving with tinfo := 1 }
def framed : State := { run restoring with mem := writeN [] 0x8000A 1 0x10 }

theorem wit_HandlerReturn_more :
    Issues (runM resuming) idG resuming (.sysEret false) sysRules ∧ resuming.inHandler = true ∧ resuming.priv = true ∧
    (resuming.tcause.toNat % 256 = trSwTrap ∨ resuming.tcause.toNat % 256 = trBkpt) ∧
    okVals ((runM resuming).fetchWords idG (2 * fetchNo) 0x20100 2).2 = some [encodeHeader header, 0] ∧
    decodeHeader (encodeHeader header) = some header ∧
    ((runM resuming).fetchWords idG (2 * fetchNo) 0x20100 2).1.agent idG = some resuming ∧ resuming.cur < resuming.paths.length ∧
    Issues framed idG restoring (.sysEret false) sysRules ∧ restoring.tcause.toNat % 256 = trPreempt ∧
    restoring.tinfo.getLsbD 0 = true ∧ (framed.ctx 0).frameOk restoring.frame = true ∧
    (match framed.hwReads (frameReq idG restoring) restoring.frame.toNat headParts with
      | .ok xs s1 => decide (s1.agent idG = some restoring) && decide ((restoring.loadHead xs).cur < (restoring.loadHead xs).paths.length)
      | _ => false) = true ∧ saving.settled = true ∧ saving.sigs = [] :=
  ⟨issues_of rfl (by decide +kernel), rfl, rfl, by decide +kernel, by decide +kernel, by decide +kernel, by decide +kernel, by decide +kernel,
    issues_of rfl (by decide +kernel), by decide +kernel, by decide +kernel, by decide +kernel, by decide +kernel, by decide +kernel, rfl⟩

/-- A group with an element before an empty channel. -/
def feeding : Agent := { grp with chans := [(2, { depth := 2, elems := [] }), (1, { depth := 2, elems := [vec fun _ => 7] })] }

theorem wit_HeldWords_more :
    (let r := regRules false (.reg 3) [.chan false 1, .chan false 2] (rndOf 0)
     Tries (run feeding) idG feeding (.add false false false 0 (.reg 3) (.chan false 1) (.chan false 2)) r ∧
       (run feeding).closed idG feeding r = false ∧ feeding.late = [] ∧
       mapFind 1 feeding.chans = some { depth := 2, elems := [vec fun _ => 7] } ∧ mapFind 2 feeding.chans = some { depth := 2, elems := [] }) :=
  ⟨tries_of rfl (by decide +kernel), by decide +kernel, rfl, by decide +kernel, by decide +kernel⟩

/-- Poison over the register that the group of slot 0 reads in lane 3. -/
def sick : State :=
  let s := run grp
  s.setCore 0 { s.core 0 with lost := [vecPlace 0 1 3 / 8, uniPlace 0 2 / 8] }

theorem wit_FrameHaltAndDictionaryWords_poison :
    (let r := regRules false (.reg 3) [.reg 1, .reg 2] (rndOf 0)
     Tries sick idG grp (.add false false false 0 (.reg 3) (.reg 1) (.reg 2)) r ∧ r.first grp = none ∧ sick.closed idG grp r = false ∧
       sick.held idG grp (.add false false false 0 (.reg 3) (.reg 1) (.reg 2)) r grp.late [] = false) ∧
    (let r := regRules true (.reg 3) [.reg 6, .reg 2] (rndOf 0)
     Tries sick idG grp (.add false true false 0 (.reg 3) (.reg 6) (.reg 2)) r ∧ r.first grp = none ∧ sick.closed idG grp r = false ∧
       sick.held idG grp (.add false true false 0 (.reg 3) (.reg 6) (.reg 2)) r grp.late [] = false) ∧
    (grp.active grp.prefixOf).getLsbD 3 = true ∧ (sick.core 0).lost.contains (vecPlace 0 1 3 / 8) = true ∧
    (sick.core 0).lost.contains (uniPlace 0 2 / 8) = true ∧ saving.late = [] :=
  ⟨⟨tries_of rfl (by decide +kernel), rfl, by decide +kernel, by decide +kernel⟩,
    ⟨tries_of rfl (by decide +kernel), rfl, by decide +kernel, by decide +kernel⟩, by decide +kernel, by decide +kernel, by decide +kernel, rfl⟩

theorem wit_WordsBeforeWords_more :
    (runD.core 0).lost = [] ∧ (∀ c ∈ [FetchChk.plain, .spawned], ({ grp with fetchChk := c } : Agent).path.pc.toNat % 4 = 0) ∧
    ({ grp with fetchChk := FetchChk.spawned } : Agent).fetchChk = .spawned ∧ header.l = true := by decide +kernel

/-- A core whose one extent has to be translated again, and a group that prefetches from one address. -/
def staleRun (a : Agent) : State := (run a).setPlaced 0 0 { place with exts := [{ extent with stale := true }] }

theorem wit_OrderingWords_more :
    (let r : Rules := { form := .vu, u := true, okM := true, okX := true, regs := true }
     Issues (staleRun grp) idG grp (.pref false true 0 3 31) r ∧
       (memLanes true grp grp.prefixOf).map (eaOf grp true 3 31 grp.prefixOf) = [0x30000] ∧
       (((staleRun grp).translate (reqOf idG grp) 0x30000 .load).2 == .stale) = true) ∧
    ((memLanes false grp grp.prefixOf).map (eaOf grp false 3 3 grp.prefixOf)).all
      (fun va => ((run grp).translate (reqOf idG grp) va.toNat .load).2 != .stale) = true ∧
    Issues (run grp) idG grp (.fence false 1 0) { form := .u, u := true, okX := true, late := true } ∧ (run grp).agent idG = some grp :=
  ⟨⟨issues_of rfl (by decide +kernel), by decide +kernel, by decide +kernel⟩, by decide +kernel, issues_of rfl (by decide +kernel), by decide +kernel⟩

/-- The tiles, with an output of the group on its way. -/
def outputs (todo : List (Nat × Nat × Nat)) : State :=
  let s := tiled grp
  s.setCore 0 { s.core 0 with jobs := [{ newJob idG grp 1 2 0 tensor 0 with todo := todo }] }

theorem wit_RecordWords_more :
    (let x : Rules := { form := .u, u := true, dst := some (.reg 1), legal := true, regs := true }
     Issues (outputs []) idG grp (.cr false (.reg 1) 0) x ∧ ((outputs []).placedOf idG grp).isSome ∧
       ((outputs []).core 0).jobs.any (fun j => j.frame == grp.key) = true) ∧
    ((run grp).core 0).jobs = [] ∧ grp.late = [] ∧ ((run ldr).core 0).jobs = [] ∧ ldr.late = [] :=
  ⟨⟨issues_of rfl (by decide +kernel), by decide +kernel, by decide +kernel⟩, rfl, rfl, rfl, rfl⟩

theorem wit_TileWords_more : ∀ todo ∈ ([[], [(0, 0, 7)]] : List (List (Nat × Nat × Nat))),
    let j := { newJob idG grp 1 2 0 tensor 0 with todo := todo }
    ((outputs todo).core 0).jobs.find? (fun k => k.tag == j.tag) = some j ∧ j.held = false ∧ j.rem = none := by
  intro todo h
  rcases List.mem_pair.mp h with rfl | rfl <;> decide +kernel

theorem wit_CollectiveEvents_more :
    (let e := { collective 0 .posted none 0 [] with desc := BitVec.ofNat 512 0 }
     (joint e).queue 0 0 = [e] ∧ (joint e).collsActive 0 < 64 ∧ collBad 0 (joint e).featacc e.desc = true) ∧
    (let e := collective 0 .active (some { collAt [] with sent := [(1, 5)] }) 2 []
     (joint e).queue 0 0 = [e] ∧ (joint e).flits = []) ∧
    (let co := collAt [.recv 1 1]
     let e := collective 0 .active (some co) 2 []
     (joint e).queue 0 0 = [e] ∧ co.waiting (joint e) (collKey 0 e.desc) = true ∧ cdAlg e.desc = 0 ∧ 1 < co.members.length ∧
       ((joint e).collsOf flit.key).find? (fun p => p.2.2.coll.isSome) = some (0, 0, e) ∧ (joint e).routed 9 = true ∧ (joint e).boot ≠ .bootfail) ∧
    (2 : Nat) ≤ 2 := by decide +kernel

/-- What the three reads of a FREEZE leave of the machine, a descriptor given. -/
def frozenBy (s : State) (desc : Nat) : State :=
  let s : State := { s with mem := writeN s.mem 0x30080 128 desc }
  (struct (struct s idG 0 0x30080 16).1 idG 16 0x31000 2).1

theorem wit_SnapshotWords_more :
    (let s := frozenBy windowed snapDesc
     (s.snap 0).st = .none ∧ s.snpool.getLsbD 0 = true ∧ s.late 0 2 = false) ∧
    (let s := frozenBy { windowed with snpool := 0x20 } snapDesc
     (s.snap 0).st = .none ∧ s.snpool.getLsbD 0 = false) ∧
    ((frozenBy (windowed.setSnap 0 { Snap.fresh with st := .armed }) snapDesc).snap 0).st = .armed ∧
    (let d := snapDesc + 2 ^ 1000
     let s : State := { windowed with mem := writeN windowed.mem 0x30080 128 d }
     let p := struct s idG 0 0x30080 16
     issues s (.snapFreeze false 1 2 5, snapRules) = true ∧ p.2 = some d ∧ (struct p.1 idG 16 0x31000 2).2 = some (0x200000 * 2 ^ 64) ∧
       snapBad (BitVec.ofNat 1024 d) = true) ∧
    (let s := { frozenBy windowed snapDesc with csteps := [(0, 0x8000000000000007)] }
     (s.snap 0).st = .none ∧ s.late 0 2 = true) ∧
    (let s : State := { snapIn .complete [] none with snapEnds := [{ ctx := 0, priv := false, code := 0, desc := 0, rem := none }] }
     s.snapEnds.map (fun e => e.rem) = [none]) := by decide +kernel

/-- No channel of a machine whose stack has no channel down trains or is out. -/
theorem calm_of {s : State} (h : (s.hbm.all fun h => h.2.out == 0 && h.2.training.isEmpty) = true) (a : Nat) :
    s.trainingAt a = false ∧ s.outAt a = false := by
  have : ∀ x ∈ s.hbm, x.2.out = 0 ∧ x.2.training = [] := fun x hx => by simpa using List.all_eq_true.mp h x hx
  simp only [State.trainingAt, State.outAt]
  constructor <;> rw [Bool.and_eq_false_iff] <;> left <;> rw [List.any_eq_false] <;> intro x hx <;> simp [this x hx]

theorem calm_frozen {s : State} (h : s.snaps = []) (a : Nat) : s.frozenAt a = none := by simp [State.frozenAt, h]

theorem wit_ReplyEvents_more : (let a := { grp with sigs := [3] }
    (run a).agent idG = some a ∧ (a.outst.find? fun o => o.tag == 3 && o.cls == .st) = none ∧ a.sigs.contains 3 = true) ∧
    grp.sigs.contains 3 = false := by decide +kernel

/-- The page at the address 0 in the memory that is frozen for a snapshot. -/
def heldPage : State :=
  { paged leaf .active with snaps := [(0, { Snap.fresh with st := .frozen, grans := [{ gran none with parts := [.data 4] }] })], snpool := 1 }

theorem wit_FaultEvents_more :
    (∀ a, (paged 0 .active).trainingAt a = false ∧ (paged 0 .active).outAt a = false) ∧ (∀ a, (paged 0 .active).frozenAt a = none) ∧
    leafSpan (0x40000 + 1 : Nat) < 11 ∧
    (let q : Req := { ctx := 0, priv := false, lctx := 0, id := { core := 513, idx := 0 } }
     (heldPage.ctx 0).resident = true ∧ heldPage.routed 9 = true ∧ (heldPage.perform q 0 0x10 4 true false (accOf 1 5 0 0)).2 = .busy ∧
       ((paged leaf .active).perform q 0 0x10 4 true false (accOf 0 0 0 0)).2 = .val 0 0 ∧
       (match ((paged 0 .active).perform q 0 0x10 4 true false (accOf 0 0 0 0)).2 with
         | .fault _ _ => true
         | _ => false) = true) ∧
    ({ paged leaf .active with withdrawn := [(0, 0, 4)] } : State).homeAnswer 0 0 = some none ∧
    (let r := ({ run grp with faults := [{ request with gran := 0 }] } : State)
     (r.faults.any fun f => f.ctx == 0 && f.gran == 0) = true) :=
  ⟨calm_of (by decide +kernel), calm_frozen rfl, by decide +kernel, by decide +kernel, by decide +kernel, by decide +kernel⟩

theorem wit_DispatchEvents_more :
    (let t := { task .running [(0, 0)] none with chain := [(0x5000, 0x5000)], slots := 3 }
     mapFind 0x1000 (tasked t).tasks = some t ∧ 0 < t.slots ∧ (tasked t).poisonAt 0x5000 128 = false ∧ (tasked t).owed = [] ∧
       ({ tasked t with poison := [0x5000 / 32] } : State).poisonAt 0x5000 128 = true) ∧
    (∀ t a, (tasked t).trainingAt a = false ∧ (tasked t).outAt a = false) ∧ (∀ t a, (tasked t).frozenAt a = none) :=
  ⟨by decide +kernel, fun t => calm_of (s := tasked t) (show ((run grp).hbm.all fun h => h.2.out == 0 && h.2.training.isEmpty) = true by decide +kernel), fun t => calm_frozen (s := tasked t) rfl⟩

/-- A copy of a record that has fired and whose TCB, at the address 0, is to be read. -/
def fired : Record := { spawnRec noTask with kind := .join 0 }
def firing (t : Task) : State :=
  let s : State := { paged leaf .active with tasks := [(0x40000, t)] }
  s.setCluster 0 { s.cluster 0 with queue := [fired], cqbase := 1 }

theorem wit_RecordEvents_more : ∀ st ∈ [TaskState.running, .draining],
    let s := firing (task st [(0, 0)] none)
    let q := (s.cluster 0).queue.zipIdx.map fun p => (p.2, p.1)
    (s.cluster 0).cqbase.getLsbD 0 = true ∧ q.find? (fun p => s.orphan p.2 && (s.ctx p.2.ctx).st == .active) = none ∧
    q.findSome? (fun p => (s.seeks p.2).map fun task => (p.1, p.2, task)) = some (0, fired, 0) ∧
    (match s.translate (unitReq 0 true) 0 .load with
      | (s1, .ok z) => z.win.isNone && z.pa / 2 ^ 40 == s1.modid && s1.locOf (z.pa % 2 ^ 40) == .hbm 0x40000 &&
          !s1.poisonAt 0x40000 256 && (mapFind 0x40000 s1.tasks == some (task st [(0, 0)] none))
      | _ => false) = true ∧
    (clustered [] 1 [] []).badRcb [] = none ∧ (task st [(0, 0)] none).chain = [] := by
  intro st h
  simp only [List.mem_cons, List.not_mem_nil, or_false] at h
  rcases h with rfl | rfl <;> decide +kernel

theorem wit_PortEvents_more : ((ported .linkup 8 false).port 2).negfail = false ∧ 8 ≤ ((ported .active 8 false).port 2).lanes ∧
    1024 ≤ ((ported .active 8 false).port 2).degth.toNat ∧ ((ported .degraded 4 false).port 2).lanes ≠ 8 ∧
    ((ported .degraded 8 false).port 2).degth.toNat ≤ 2 * 512 ∧ ((ported .down 8 false).port 2).st ≠ .draining := by decide

theorem wit_InboundEvents_more :
    (let e := fun (r : Nat) => mapGet (0 : BitVec 256) (endpoint r).endpts 1
     (e 3).getLsbD 128 = true ∧ (e 3).getLsbD 130 = false ∧ (e 7).getLsbD 130 = true) ∧
    (0x100 % 4 = 0 ∧ (3 : Nat) < 4 ∧ 0x102 % 4 ≠ 0 ∧ (0 : Nat) < 2 ∧ 0x100 % 16 = 0 ∧ 0x100 % 8 = 0) ∧
    ({ endpoint 7 with cmdbase := 0 } : State).cmdbase.getLsbD 0 = false ∧ (endpoint 7).inService (0x1000000 + 0x100) = true := by decide +kernel

theorem wit_ContextCommands_more : ∀ st ∈ [CtxState.loaded, .active],
    (ctxIn st false).poison = [] ∧ (ctxIn st false).snaps = [] ∧ ((ctxIn st false).hbm.all fun h => h.2.out == 0) = true ∧
      (ctxIn st false).owed = [] := by decide +kernel

theorem wit_ControlWrites_more : ((0x30 : Word64).toNat / 8 % 8 = 6) ∧ ((0x38 : Word64).toNat / 8 % 8 = 7) ∧
    (∃ q ∈ (run grp).cores, q.1 / 32 = 0 ∧ q.2.placed ≠ []) := by decide +kernel

theorem wit_ReliabilityEvents_more :
    (let s : State := { State.reset with featacc := 0x90 }
     (255 : BitVec 8) ≠ 0 ∧ getF (s.hbmOf (s.stackOf 0x100).1).ctl 8 8 ≠ 0 ∧ s.featacc.getLsbD 7 = true ∧
       mapGet .service s.slices (s.stackOf 0x100).2.1 = .service ∧ State.reset.featacc.getLsbD 7 = false ∧
       mapGet 0 (s.hbmOf (s.stackOf 0x100).1).errs (s.stackOf 0x100).2.1 + 8 ≤ 256) ∧
    State.reset.locOf 0xF000200000 = .spad 0 0 ∧ State.reset.locOf 0xF000000000 = .win 0 0 ∧
    ((stacked fun h => { h with training := [5] }).hbmOf 2).trained = [] ∧
    (let s := (run grp).setCore 0 { (run grp).core 0 with beats := [(17, [0, 3])] }
     mapGet [] (s.core 0).beats ((1 + 16) % 32) = [0, 3] ∧ s.agent { core := 0, idx := 0 } = some grp ∧
       mapGet [] (State.reset.core 0).beats ((1 + 16) % 32) = []) ∧
    (replays (.add false false false 0 (.reg 3) (.reg 1) (.reg 2)) = true ∧ (regRules false (.reg 3) [.reg 1, .reg 2] 0).u = false) := by
  decide +kernel

theorem wit_StartUp_more : ({ State.reset with boot := .rom } : State).boot = .rom ∧ ({ State.reset with boot := .rom } : State).bootSlot = none ∧
    ({ State.reset with boot := .rom } : State).prov = none ∧
    (∀ i : Image, i.valid 0#32 = true → ({ State.reset with boot := .rom, flashA := some i } : State).bootSlot = some false) ∧
    ((run grp).cores.all fun k => (k.2.queues.all fun q => q.2.isEmpty) && k.2.jobs.isEmpty) = true ∧
    ((run grp).tasks.all fun p => p.2.prep.isNone) = true :=
  ⟨rfl, rfl, rfl, fun i h => by simp [State.bootSlot, State.reset, Option.filter, h], by decide +kernel, by decide +kernel⟩

theorem wit_StepRunsDecoded_tick : (run grp).tick = run grp ∧ (runM grp).tick = runM grp ∧ (run later).tick = run later :=
  ⟨if_pos (by decide +kernel), if_pos (by decide +kernel), if_pos (by decide +kernel)⟩

theorem wit_StepKeepsMemory : Memory.wf (run grp).mem = true ∧ (match step (run grp) with
    | .next _ => true
    | _ => false) = true := by decide +kernel

/-! ## What words compute: the worked examples of the manual, one word each -/

/-- A group with values in `v1`, `v2` and `v3`. -/
def holding (x y z : VReg) : Agent := { grp with v := [(1, x), (2, y), (3, z)] }

/-- The same value in every lane. -/
def all (x : Word) : VReg := vec fun _ => x

/-- Lane `l` of `v3` and the flags of the task after a word. -/
def lane3 (i : Instr) (a : Agent) (l : Nat) : Option (Nat × Nat) :=
  match exec i (run a) with
  | .next t => do
    let b ← t.agent idG
    let p ← (t.core 0).placed.find? fun q => q.1 == 0
    some ((laneOf (b.getV 3) l).toNat, p.2.fstat.toNat)
  | _ => none

/-- Uniform register `g1` after a word. -/
def g1 (i : Instr) : Option Nat :=
  match exec i (run grp) with
  | .next t => (t.agent idG).map fun b => (b.getX 1).toNat
  | _ => none

/-- R133: the distance of −2³¹ and 2³¹ − 1. -/
theorem test_absd : lane3 (.absd false false 0 (.reg 3) (.reg 1) (.reg 2)) (holding (all 0x80000000) (all 0x7FFFFFFF) (all 0)) 5 =
    some (0xFFFFFFFF, 0) := by decide +kernel

/-- R99: without saturation a sum keeps its low bits; with it, the sum is clamped and sets OF. -/
theorem test_add_wraps : lane3 (.add false false false 0 (.reg 3) (.reg 1) (.reg 2))
    (holding (all 0x7FFFFFFF) (all 1) (all 0)) 0 = some (0x80000000, 0) := by decide +kernel
theorem test_add_saturates : lane3 (.add false false true 0 (.reg 3) (.reg 1) (.reg 2))
    (holding (all 0x7FFFFFFF) (all 1) (all 0)) 31 = some (0x7FFFFFFF, 4) := by decide +kernel

/-- R100: division by 0, and −2³¹ by −1. -/
theorem test_div_zero : lane3 (.div false false 0 (.reg 3) (.reg 1) (.reg 2)) (holding (all 0xFFFFFFFB) (all 0) (all 9)) 1 =
    some (0x80000000, 2) := by decide +kernel
theorem test_rem_most_negative : lane3 (.rem false false 0 (.reg 3) (.reg 1) (.reg 2))
    (holding (all 0x80000000) (all 0xFFFFFFFF) (all 9)) 1 = some (0, 0) := by decide +kernel

/-- R154: a quiet NaN and −0. -/
theorem test_fclass : lane3 (.fclass false false 3 (.reg 3) (.reg 1)) (holding (all 0x80007E00) (all 0) (all 0)) 0 =
    some (0x00080200, 0) := by decide +kernel

/-- R156: the sum of 1, 3, −3 and 0.296875 with 0.5, exact. -/
theorem test_dot : lane3 (.dot false 2 (.reg 3) (.reg 1) (.reg 2)) (holding (all 0x23D85840) (all 0x40404040) (all 0x3F000000)) 0 =
    some (0x3FE60000, 0) := by decide +kernel

/-- R116: 1 + 2⁻⁹ to bf16 under code 5, with the least draw that rounds up and the one below it. -/
theorem test_stochastic : (Fmt.bf16.enc (Fmt.f32.dec 0x3F804000) 5 0x600000).1 = 0x3F81 ∧
    (Fmt.bf16.enc (Fmt.f32.dec 0x3F804000) 5 0x5FFFFF).1 = 0x3F80 := by decide +kernel

/-- R276 to R281: the words of the quinary dot. -/
theorem test_rget : lane3 (.rget false 0 (.reg 3) (.reg 1) (.reg 2)) (holding (all 100) (all 2) (all 0)) 0 = some (1, 0) := by
  decide +kernel
theorem test_rset : lane3 (.rset false 1 (.reg 3) (.reg 1) (.reg 2)) (holding (all 3) (all 2) (all 2568)) 0 = some (2618, 0x80) := by
  decide +kernel
theorem test_runpk : lane3 (.runpk false 0 (.reg 3) (.reg 1) (.reg 2)) (holding (all 227) (vec fun l => BitVec.ofNat 32 l) (all 0)) 0 =
    some (0x0100FF01, 0) ∧
    lane3 (.runpk false 0 (.reg 3) (.reg 1) (.reg 2)) (holding (all 227) (vec fun l => BitVec.ofNat 32 l) (all 0)) 1 = some (1, 0) := by
  decide +kernel
theorem test_rmap : lane3 (.rmap false 0 (.reg 3) (.reg 1) 1) (holding (all 227) (all 0) (all 0)) 0 = some (2308, 0) := by
  decide +kernel
theorem test_rcnt : lane3 (.rcnt false 0 (.reg 3) (.reg 1) (.reg 2)) (holding (all 227) (all 1) (all 0)) 0 = some (3, 0) := by
  decide +kernel
theorem test_rchk : lane3 (.rchk false 0 (.reg 3) (.reg 1)) (holding (all 243) (all 0) (all 0)) 0 = some (1, 0) := by decide +kernel

/-- R239, R240: 1 in lane 0 and 2⁻²⁴ in lanes 1 and 2. -/
def ties : VReg := vec fun l => if l = 0 then 0x3F800000 else if l ≤ 2 then 0x33800000 else 0
theorem test_redg : lane3 (.redg false 1 (.reg 3) (.reg 1)) (holding ties (all 0) (all 0)) 7 = some (0x3F800000, 0x10) := by
  decide +kernel
theorem test_scang : lane3 (.scang false false 1 (.reg 3) (.reg 1)) (holding ties (all 0) (all 0)) 2 = some (0x3F800001, 0x10) ∧
    lane3 (.scang false false 1 (.reg 3) (.reg 1)) (holding ties (all 0) (all 0)) 1 = some (0x3F800000, 0x10) := by decide +kernel

/-- R145, R146: a negative immediate, and a scaled sum. -/
theorem test_addi : g1 (.addi false true (.reg 1) (.reg 2) 0x7FF) = some 1 := by decide +kernel
theorem test_lea : g1 (.lea false true 3 (.reg 1) (.reg 2) (.reg 6)) = some 50 := by decide +kernel

end Sys2Proof.Tests
end

section
/-! SUPPORT. The integer words LEA, ADDI, LOGIC and MULH (R132, R135, R145, R146): the shape of a register word,
the decoding of their fields, and what they compute, put together into the statements about them. -/

namespace Sys2Proof

/-! ## Fields of words -/

theorem decodeWord_of_op {w op : Nat} (h : fld w 23 7 = op) : decodeWord w = decodeOp op w := by rw [decodeWord, h]

theorem bitAt_of_toNat {w lo : Nat} {b : Bool} (h : w / 2 ^ lo % 2 = b.toNat) : bitAt w lo = b := by
  rw [bitAt, h]
  cases b <;> rfl

theorem bvAt_of_toNat {n w lo : Nat} {x : BitVec n} (h : w / 2 ^ lo % 2 ^ n = x.toNat) : bvAt n w lo = x :=
  BitVec.eq_of_toNat_eq (by rw [bvAt, BitVec.toNat_ofNat, h])

/-- The field of an operand's own code decodes to that operand (R41). -/
theorem opdAt_of_code {w lo : Nat} {o : Opd} (h : fld w lo 6 = o.code) : opdAt w lo = o := by
  have h5 : fld w (lo + 5) 1 = o.code / 32 := by
    rw [← h]; simp only [fld, pow_add, ← Nat.div_div_eq_div_mul]; omega
  have h4 : w / 2 ^ (lo + 4) % 2 = o.code / 16 % 2 := by
    rw [← h]; simp only [fld, pow_add, ← Nat.div_div_eq_div_mul]; omega
  cases o with
  | reg n =>
    have hn := n.isLt
    have hc : fld w lo 6 = n.toNat := h
    have h5' : fld w (lo + 5) 1 = 0 := by rw [h5]; simp only [Opd.code]; omega
    have : bvAt 5 w lo = n := bvAt_of_toNat (by simp only [fld] at hc; omega)
    simp [opdAt, h5', this]
  | chan p c =>
    have hn := c.isLt
    have hp : p.toNat < 2 := p.toNat_lt
    have hc : fld w lo 6 = 32 + p.toNat * 16 + c.toNat := h
    have h5' : fld w (lo + 5) 1 = 1 := by rw [h5]; simp only [Opd.code]; omega
    have h4' : w / 2 ^ (lo + 4) % 2 = p.toNat := by rw [h4]; simp only [Opd.code]; omega
    have : bvAt 4 w lo = c := bvAt_of_toNat (by simp only [fld] at hc; omega)
    simp [opdAt, h5', bitAt_of_toNat h4', this]

theorem Opd.code_lt (o : Opd) : o.code < 64 := by
  cases o with
  | reg n => have := n.isLt; simp only [Opd.code]; omega
  | chan p c => have := c.isLt; have := p.toNat_lt; simp only [Opd.code]; omega

end Sys2Proof

namespace Sys2Proof.Machine

/-! ## Register words -/

/-- A word that issues with the shared vector body computes what the body computes. -/
theorem vectorWordIf_of_body {c : Agent → Prop} {i : Instr} {sb : Bool} {r : Rules} {d : Opd} {src : List Opd}
    {f : Agent → List Word → Nat → Out 32} {body : State → AgentId → Agent → Pfx → Res}
    (he : ∀ s, exec i s = issue i sb r body s)
    (hb : ∀ s id a, c a → body s id a a.prefixOf = vecBody d src (f a) s id a a.prefixOf) :
    VectorWordIf c i r d src f := by
  intro s s1 id a vs h hc hv hr
  rw [he]
  exact issue_vecBody h hv hr sb (f a) body (hb s id a hc)

/-- A word that issues with the shared uniform body computes what the body computes. -/
theorem uniformWordIf_of_body {c : Agent → Prop} {i : Instr} {sb : Bool} {r : Rules} {d : Opd} {src : List Opd}
    {f : Agent → List Word64 → Out 64} {body : State → AgentId → Agent → Pfx → Res}
    (he : ∀ s, exec i s = issue i sb r body s)
    (hb : ∀ s id a, c a → body s id a a.prefixOf = uniBody d src (f a) s id a a.prefixOf) :
    UniformWordIf c i r d src f := by
  intro s s1 id a xs h hc hv hr
  rw [he]
  exact issue_uniBody h hv hr sb (f a) body (hb s id a hc)

/-- A two-source word in vector form gives what its operation makes of the two values. -/
theorem vectorWord_of_alu2 {i : Instr} {sb : Bool} {r : Rules} {d x y : Opd} {f : Word → Word → Out 32}
    {g : Word64 → Word64 → Out 64} {h : Agent → List Word → Nat → Out 32}
    (he : ∀ s, exec i s = issue i sb r (alu2 false d x y f g) s) (hf : ∀ a xs l, f (arg xs 0) (arg xs 1) = h a xs l) :
    VectorWord i r d [x, y] h :=
  vectorWordIf_of_body he fun _ _ a _ => by
    rw [alu2_vector, funext fun xs => funext fun l => hf a xs l]

/-- A two-source word in uniform form gives what its operation makes of the two values. -/
theorem uniformWord_of_alu2 {i : Instr} {sb : Bool} {r : Rules} {d x y : Opd} {f : Word → Word → Out 32}
    {g : Word64 → Word64 → Out 64} {h : Agent → List Word64 → Out 64}
    (he : ∀ s, exec i s = issue i sb r (alu2 true d x y f g) s) (hg : ∀ a xs, g (arg xs 0) (arg xs 1) = h a xs) :
    UniformWord i r d [x, y] h :=
  uniformWordIf_of_body he fun _ _ a _ => by
    rw [alu2_uniform, funext (hg a)]

/-- A word with a field value that the opcode map does not allow raises ILLEGAL_INSTR when its turn comes (R61). -/
theorem issue_of_not_wf {s : State} {id : AgentId} {a : Agent} {i : Instr} (hw : i.wf = false)
    (ht : s.current = some (id, a)) (hn : a.now = none) (hg : a.clear a.gate = true) (sb : Bool) (r : Rules)
    (body : State → AgentId → Agent → Pfx → Res) :
    issue i sb r body s = .next (s.trap id a trIllegalInstr 0) := by
  have hacc : accepts s a i r = false := by simp only [accepts, hw, Bool.false_and]
  simp [issue, ht, hn, hg, hacc]

/-! ## LEA (R146) -/

theorem aluLea_eq_ofNat {n : Nat} (h : BitVec 3) (p q : BitVec n) :
    aluLea h p q = BitVec.ofNat n (p.toNat + q.toNat * 2 ^ h.toNat) := by
  rw [aluLea, BitVec.ofNat_add, BitVec.ofNat_toNat, BitVec.setWidth_eq]
  congr 1
  apply BitVec.eq_of_toNat_eq
  simp [Nat.shiftLeft_eq]

/-- A word of LEA's `OP` with `FN`[4:3] not 0 is no instruction. -/
theorem decodeWord_lea_badField {w : Nat} (hop : w / 2 ^ 23 % 128 = 0x1B) (hfn : w / 2 ^ 21 % 4 ≠ 0) :
    decodeWord w = .error .badField := by
  rw [decodeWord_of_op (op := 0x1B) hop]
  exact if_neg hfn

/-- Settles O49: LEA's operation is the sum of R146, and both forms have the shared bodies. -/
theorem leaResult : Obligations.LeaResult := by
  intro sb sh d x y
  refine ⟨?_, ?_, fun w hop hfn => ?_⟩
  · exact vectorWord_of_alu2 (fun _ => rfl) fun _ _ _ => congrArg (·, 0) (aluLea_eq_ofNat ..)
  · exact uniformWord_of_alu2 (fun _ => rfl) fun _ _ => congrArg (·, 0) (aluLea_eq_ofNat ..)
  · rw [decodeWord_lea_badField hop hfn]
    rfl

/-! ## ADDI (R145) -/

/-- The signed immediate under the agent's prefix, whose `X10` stands above the field (R46). -/
theorem extended_prefixOf {n : Nat} (i : BitVec n) (a : Agent) :
    extended n i a a.prefixOf = match a.pfx with
      | some p => (p.x ++ i).toInt
      | none => i.toInt := by
  cases h : a.pfx <;> simp [extended, Agent.prefixOf, h]

theorem add_ofInt_eq_ofInt {n : Nat} (p : BitVec n) (k : Int) : p + BitVec.ofInt n k = BitVec.ofInt n (p.toNat + k) := by
  rw [BitVec.ofInt_add, BitVec.ofInt_natCast, BitVec.ofNat_toNat, BitVec.setWidth_eq]

/-- ADDI's word in format FI: `S`, `U`, `OP` 0x1A, `D`, `A` and the immediate (R45). -/
theorem decodeWord_addi (sb u : Bool) (d x : Opd) (j : BitVec 11) :
    decodeWord (0x0D000000 + sb.toNat * 2 ^ 31 + u.toNat * 2 ^ 30 + d.code * 2 ^ 17 + x.code * 2 ^ 11 + j.toNat) =
      .ok (.addi sb u d x j) := by
  have hd := d.code_lt
  have hx := x.code_lt
  have hj := j.isLt
  have hs := sb.toNat_lt
  have hu := u.toNat_lt
  generalize hw : 0x0D000000 + sb.toNat * 2 ^ 31 + u.toNat * 2 ^ 30 + d.code * 2 ^ 17 + x.code * 2 ^ 11 + j.toNat = w
  have hop : fld w 23 7 = 0x1A := by simp only [fld]; omega
  have hsb : bitAt w 31 = sb := bitAt_of_toNat (by omega)
  have hub : bitAt w 30 = u := bitAt_of_toNat (by omega)
  have hdo : opdAt w 17 = d := opdAt_of_code (by simp only [fld]; omega)
  have hxo : opdAt w 11 = x := opdAt_of_code (by simp only [fld]; omega)
  have him : bvAt 11 w 0 = j := bvAt_of_toNat (by omega)
  rw [decodeWord_of_op hop]
  simp only [decodeOp, hsb, hub, hdo, hxo, him]

/-- Settles O50: ADDI adds the immediate of R46, and its words are those of format FI. -/
theorem addiResult : Obligations.AddiResult := by
  intro sb d x j imm
  have himm : ∀ a : Agent, extended 11 j a a.prefixOf = imm a := extended_prefixOf j
  refine ⟨?_, ?_, ?_, ?_⟩
  · exact vectorWordIf_of_body (fun _ => rfl) fun s id a _ => by
      simp only [alu1_vector, himm, add_ofInt_eq_ofInt]
  · exact uniformWordIf_of_body (fun _ => rfl) fun s id a _ => by
      simp only [alu1_uniform, himm, add_ofInt_eq_ofInt]
  · simpa using decodeWord_addi sb false d x j
  · have := decodeWord_addi sb true d x j
    rwa [Bool.toNat_true, one_mul, Nat.add_right_comm 0x0D000000] at this

/-! ## LOGIC (R135) -/

/-- What each `FN` of LOGIC makes of one bit of A and one of B. -/
def logicBit (f : BitVec 5) (p q : Bool) : Bool :=
  match f.toNat with
  | 0 => p && q
  | 1 => p || q
  | 2 => p != q
  | 3 => p && !q
  | 4 => p || !q
  | _ => p == q

theorem getLsbD_aluLogic {n k : Nat} (f : BitVec 5) (a b : BitVec n) (hk : k < n) :
    (aluLogic f a b).getLsbD k = logicBit f (a.getLsbD k) (b.getLsbD k) := by
  unfold aluLogic logicBit
  generalize f.toNat = m
  match m with
  | 0 | 1 | 2 | 3 | 4 => simp [hk]
  | m + 5 =>
    simp only [BitVec.getLsbD_not, BitVec.getLsbD_xor, hk, decide_true, Bool.true_and]
    cases a.getLsbD k <;> cases b.getLsbD k <;> rfl

/-- LOGIC's result is the list of its bits, lowest first. -/
theorem aluLogic_eq_ofBoolListLE {n : Nat} (f : BitVec 5) (a b : BitVec n) :
    aluLogic f a b =
      (BitVec.ofBoolListLE ((List.range n).map fun k => logicBit f (a.getLsbD k) (b.getLsbD k))).setWidth n := by
  apply BitVec.eq_of_getLsbD_eq
  intro k hk
  rw [getLsbD_aluLogic f a b hk, BitVec.getLsbD_setWidth, BitVec.getLsbD_ofBoolListLE]
  simp [hk]

/-- Settles O51: LOGIC's result is its table taken bit by bit; an `FN` from 6 up is not well formed. -/
theorem logicResult : Obligations.LogicResult := by
  intro sb f d x y bit
  refine ⟨fun _ => ⟨?_, ?_⟩, fun hf s id a u ht hn hg => ?_⟩
  · exact vectorWord_of_alu2 (fun _ => rfl) fun _ _ _ => congrArg (·, 0) (aluLogic_eq_ofBoolListLE ..)
  · exact uniformWord_of_alu2 (fun _ => rfl) fun _ _ => congrArg (·, 0) (aluLogic_eq_ofBoolListLE ..)
  · have hw : (Instr.logic sb u f d x y).wf = false := decide_eq_false (Nat.not_lt.2 hf)
    exact issue_of_not_wf hw ht hn hg ..

/-! ## MULH (R132) -/

/-- An operand that is one element is that element, signed or not (R129). -/
theorem elemInt_whole {n : Nat} (sg : Bool) (x : BitVec n) : elemInt sg n 0 x = if sg then x.toInt else x.toNat := by
  simp [elemInt]

/-- One more element below those that are packed. -/
theorem packElems_cons_of_eq_ofNat {n w m : Nat} {l : List Int} (h : packElems n w l = BitVec.ofNat n m) (e : Int) :
    packElems n w (e :: l) = BitVec.ofNat n ((e % 2 ^ w).toNat + 2 ^ w * m) := by
  have hlow : (BitVec.ofInt w e).setWidth n = BitVec.ofNat n (e % 2 ^ w).toNat :=
    BitVec.eq_of_toNat_eq (by simp)
  have hlt : (e % 2 ^ w).toNat < 2 ^ w := by
    simpa using (BitVec.ofInt w e).isLt
  have hhigh : BitVec.ofNat n m <<< w = BitVec.ofNat n (2 ^ w * m) :=
    BitVec.eq_of_toNat_eq (by simp [Nat.shiftLeft_eq, Nat.mul_comm])
  rw [packElems, h, hlow, hhigh, ← BitVec.ofNat_or, Nat.or_comm, ← Nat.two_pow_add_eq_or_of_lt hlt, Nat.add_comm]

/-- Packed elements are the sum of the elements, each modulo its width and at its place (R129). -/
theorem packElems_eq_sum (n w k : Nat) (g : Nat → Int) :
    packElems n w ((List.range k).map g) =
      BitVec.ofNat n (((List.range k).map fun j => (g j % 2 ^ w).toNat * 2 ^ (w * j)).foldl (· + ·) 0) := by
  rw [← List.sum_eq_foldl]
  induction k generalizing g with
  | zero => rfl
  | succ k ih =>
    have hplace : ∀ j, 2 ^ w * ((g (j + 1) % 2 ^ w).toNat * 2 ^ (w * j)) = (g (j + 1) % 2 ^ w).toNat * 2 ^ (w * (j + 1)) :=
      fun j => by rw [Nat.mul_succ, pow_add]; ring
    rw [List.range_succ_eq_map, List.map_cons, List.map_map, packElems_cons_of_eq_ofNat (ih _), ← List.sum_map_mul_left]
    simp [Function.comp_def, hplace]

/-- A function of elements that raises no flag packs its values, and the flags stay 0. -/
theorem intPlain_eq_packElems {n : Nat} (g : Nat → Int → Int → Int) (t : BitVec 3) (a b : BitVec n) :
    intPlain g t a b = (packElems n (tyWidth n t) ((List.range (n / tyWidth n t)).map fun j =>
      g (tyWidth n t) (elemInt (tySigned t) (tyWidth n t) j a) (elemInt (tySigned t) (tyWidth n t) j b)), 0) := by
  have hflags : ∀ l : List Nat, (l.map fun _ => (0 : BitVec 9)).foldl (· ||| ·) 0 = 0 := by
    intro l
    induction l with
    | nil => rfl
    | cons j l ih => simpa using ih
  simp only [intPlain, mapElems, List.map_map, Function.comp_def, hflags]

/-- MULH of operands that are one element: the high half of their product. -/
theorem aluMulh_whole {n : Nat} (hn : 0 < n) {t : BitVec 3} (ht : tyWidth n t = n) (a b : BitVec n) :
    aluMulh t a b =
      (BitVec.ofInt n (elemInt (tySigned t) n 0 a * elemInt (tySigned t) n 0 b / 2 ^ n), 0) := by
  rw [aluMulh, intPlain_eq_packElems, ht, Nat.div_self hn]
  simp [packElems]

theorem aluMulh_signed {n : Nat} (hn : 0 < n) (a b : BitVec n) :
    aluMulh 0 a b = (BitVec.ofInt n (a.toInt * b.toInt / 2 ^ n), 0) := by
  rw [aluMulh_whole hn rfl, elemInt_whole, elemInt_whole]
  rfl

theorem aluMulh_unsigned {n : Nat} (hn : 0 < n) (a b : BitVec n) :
    aluMulh 1 a b = (BitVec.ofInt n (a.toNat * b.toNat / 2 ^ n), 0) := by
  rw [aluMulh_whole hn rfl, elemInt_whole, elemInt_whole]
  rfl

/-- MULH of packed signed elements: the high halves of the products of the elements, each at its place. -/
theorem aluMulh_packed {n w : Nat} {t : BitVec 3} (hw : tyWidth n t = w) (hs : tySigned t = true) (a b : BitVec n) :
    aluMulh t a b = (BitVec.ofNat n (((List.range (n / w)).map fun j =>
      (((a >>> (w * j)).setWidth w).toInt * ((b >>> (w * j)).setWidth w).toInt / 2 ^ w % 2 ^ w).toNat * 2 ^ (w * j)).foldl
        (· + ·) 0), 0) := by
  rw [aluMulh, intPlain_eq_packElems, packElems_eq_sum, hw, hs]
  rfl

/-- A word of MULH's `OP` with `FN`[4] = 1 is no instruction. -/
theorem decodeWord_mulh_badField {w : Nat} (hop : w / 2 ^ 23 % 128 = 0x04) (hfn : w / 2 ^ 22 % 2 = 1) :
    decodeWord w = .error .badField := by
  have hne : fld w 21 2 ≠ 0 := by simp only [fld]; omega
  rw [decodeWord_of_op (op := 0x04) hop]
  exact if_neg hne

/-- MULH allows `TY` 0, 1, 5 and 6, and in uniform form 0 and 1. -/
theorem mulh_not_wf {t : BitVec 3} {u : Bool} (h : t = 2 ∨ t = 3 ∨ t = 4 ∨ t = 7 ∨ (u = true ∧ (t = 5 ∨ t = 6)))
    (sb : Bool) (d x y : Opd) : (Instr.mulh sb u t d x y).wf = false := by
  obtain rfl | rfl | rfl | rfl | ⟨rfl, rfl | rfl⟩ := h <;> rfl

/-- Settles O52: MULH's operation is the high half of each product; other types are not well formed, and `FN`[4] is a
bit of the word that must be 0. -/
theorem mulhResult : Obligations.MulhResult := by
  intro sb t d x y high packed
  refine ⟨?_, ?_, ?_, ?_, ?_, ?_, fun s id a u h ht hn hg => ?_, fun w hop hfn => ?_⟩
  · exact vectorWord_of_alu2 (fun _ => rfl) fun _ _ _ => aluMulh_signed (by decide) ..
  · exact vectorWord_of_alu2 (fun _ => rfl) fun _ _ _ => aluMulh_unsigned (by decide) ..
  · exact vectorWord_of_alu2 (fun _ => rfl) fun _ _ _ => aluMulh_packed rfl rfl ..
  · exact vectorWord_of_alu2 (fun _ => rfl) fun _ _ _ => aluMulh_packed rfl rfl ..
  · exact uniformWord_of_alu2 (fun _ => rfl) fun _ _ => aluMulh_signed (by decide) ..
  · exact uniformWord_of_alu2 (fun _ => rfl) fun _ _ => aluMulh_unsigned (by decide) ..
  · exact issue_of_not_wf (mulh_not_wf h sb d x y) ht hn hg ..
  · rw [decodeWord_mulh_badField hop hfn]
    rfl

end Sys2Proof.Machine
end
